-- ==== Sys2Proof/Word.lean ====
section
/-! DEFINITION. The machine word of the IALUs (00_scope.md R5, R8) and the byte in which `Host.Cell` lists memory. -/

namespace Sys2Proof

/-- A *word*: 32 bits (00_scope.md R8). Registers, addresses, modifiers and immediates are words. -/
abbrev Word := BitVec 32

/-- One byte of a listed memory cell (`Host.Cell`); no instruction sees a byte (20_memory.md R57). -/
abbrev Byte := BitVec 8

/-- One 16-bit short word, the granularity of the SDAB accesses (20_memory.md R52). -/
abbrev Short := BitVec 16

/-- The least 32-bit two's-complement integer. -/
def minInt32 : Int := -2147483648

/-- The greatest 32-bit two's-complement integer. -/
def maxInt32 : Int := 2147483647

end Sys2Proof
end

