-- ==== Sys2Proof/Config.lean ====
section
/-! DEFINITION. What the spec leaves open (00_scope.md R6): the parameters the model takes as named arguments and the
values the source never gives ("draws"). Each is an opaque constant with no body, so nothing can be proved of its
value; where the spec limits the candidates, a derived definition keeps that limit. -/

namespace Sys2Proof.Config

/-- What an operation that Table 7-1 does not list does to V and C (R12, R104). -/
inductive VCNonarith where
  | unchanged
  | cleared
deriving DecidableEq, Repr, Inhabited

/-- What an add or subtract with option (BR) does to V and C (R111). -/
inductive VCBr where
  | cleared
  | unchanged
  | draw
deriving DecidableEq, Repr, Inhabited

/-- What an add or subtract with option (CB) does to V and C (R110): the flags of the unwrapped add or subtract,
cleared, or a draw. -/
inductive VCCb where
  | unwrapped
  | cleared
  | draw
deriving DecidableEq, Repr, Inhabited

/-- Parameter `vc_nonarith` (00_scope.md R6, 92_eei_decisions.md D10). UNVERIFIED, assumption 9. -/
opaque vcNonarith : VCNonarith

/-- Parameter `vc_br` (00_scope.md R6, 92_eei_decisions.md D11). UNVERIFIED, assumption 10. -/
opaque vcBr : VCBr

/-- Parameter `vc_cb` (00_scope.md R6, 92_eei_decisions.md D12). UNVERIFIED, assumption 11. -/
opaque vcCb : VCCb

/-- Parameter `bl_strict` (70_reset_and_hazards.md R286, 92_eei_decisions.md D27): whether a circular-buffer use
fewer than four lines after a write of its base or length register is refused. UNVERIFIED, assumption 16. -/
opaque blStrict : Bool

/-- Parameter `abs_min` (40_arith_logic.md R121, 92_eei_decisions.md D14): true when ABS of 0x80000000 returns
0x7FFFFFFF, false when it returns 0x80000000. UNVERIFIED, assumption 13. -/
opaque absMinSaturates : Bool

/-- The result of ABS of 0x80000000, one of the two candidates of R121. -/
def absMin : Word := if absMinSaturates then 0x7FFFFFFF else 0x80000000

/-- Part of parameter `half33` (40_arith_logic.md R115, 92_eei_decisions.md D13): how the exact sum `x`, when odd, is
rounded: true for the ceiling of `x/2`, false for the floor. UNVERIFIED, assumption 12. -/
opaque halfCeil : Int → Bool

/-- Part of parameter `half33` (R115, D13): true when an exact sum `x` outside 32 signed bits is truncated to 32 bits
before it is halved, false when the 33-bit sum is halved. UNVERIFIED, assumption 12. -/
opaque halfTrunc : Int → Bool

/-- Parameter `IMM8_RANGE` (30_encoding.md R83, 92_eei_decisions.md D16): true for the signed reading, by which the
values -128..127 may use the short form, false for the unsigned one, 0..255. It matters for counting slots only.
UNVERIFIED, assumption 6. -/
opaque imm8Signed : Bool

/-- Parameter `IMM15_RANGE` (30_encoding.md R83, 92_eei_decisions.md D16): true for the signed reading, -16384..16383,
false for the unsigned one, 0..32767. It matters for counting slots only. UNVERIFIED, assumption 6. -/
opaque imm15Signed : Bool

/-- The unconstrained choice behind `ndreg`. -/
opaque ndregRaw : Nat

/-- Parameter `NDREG` (00_scope.md R6, 10_state.md R33, 92_eei_decisions.md D24): the number of data registers of a
compute block, any number from 8, which the source's `XR7:4` needs, to 32, which a five-bit register number can name
(30_encoding.md R96). The fallback, the usual number of R33, only serves to exclude a raw choice outside that range.
UNVERIFIED, assumption 5. -/
def ndreg : Nat := if 8 ≤ ndregRaw ∧ ndregRaw ≤ 32 then ndregRaw else 32

/-- Parameter `UregSet` (00_scope.md R6, 10_state.md R34, 92_eei_decisions.md D24): which universal registers exist beyond
those the chapter names, by the model's own number. UNVERIFIED, assumption 5. -/
opaque uregOther : Nat → Bool

/-- A value the source does not give, numbered: the `n`-th draw of the run (00_scope.md R12; 10_state.md R26). -/
opaque freeWord : Nat → Word

/-- The bit positions of the four flags in JSTAT/KSTAT. -/
structure FlagPos where
  z : Fin 16
  n : Fin 16
  v : Fin 16
  c : Fin 16
deriving DecidableEq, Repr, Inhabited

/-- The unconstrained choice behind `flagPos`. -/
opaque flagPosRaw : FlagPos

/-- The four positions differ (92_eei_decisions.md D17: "distinct in 0..15"). -/
def FlagPos.distinct (p : FlagPos) : Bool :=
  p.z != p.n && p.z != p.v && p.z != p.c && p.n != p.v && p.n != p.c && p.v != p.c

/-- Parameters `pZ, pN, pV, pC` (00_scope.md R6, 10_state.md R26): any four distinct positions in bits 15:0. The
fallback, the usual layout of R26, only serves to exclude a raw choice with two equal positions. -/
def flagPos : FlagPos := if flagPosRaw.distinct then flagPosRaw else ⟨0, 1, 2, 3⟩

end Sys2Proof.Config
end

