-- ==== Sys2Proof/Syntax.lean ====
section
/-! DEFINITION. The assembly syntax of the IALU chapter: operands, the 128 instruction forms of the opcode table, and
instruction lines (30_encoding.md R80 to R94; 41_conditions.md R151). The model executes terms of this syntax
(00_scope.md R15). -/

namespace Sys2Proof

/-- The two IALUs (R1). -/
inductive Ialu where
  | j
  | k
deriving DecidableEq, Repr

/-- The number of a register of a file of 32: an IALU file, whose number 31 is the status register
(10_state.md R21 to R25), or a compute block's data registers (R33). -/
abbrev RegNum := Fin 32

/-- The second operand of an arithmetic instruction or the modifier of an address: `In|<Imm8>|<Imm32>`. An immediate is
the 32-bit value of the program text; whether it has the short form is a matter of its range (R83). -/
inductive Opnd where
  | reg (n : RegNum)
  | imm (v : Word)
deriving DecidableEq, Repr

/-- A base or length register of the IALU at hand: IB0..IB3, IL0..IL3 (10_state.md R29, R30). -/
inductive BLReg where
  | base (k : Fin 4)
  | len (k : Fin 4)
deriving DecidableEq, Repr

/-- The universal registers: those the chapter names (10_state.md R20, R34), and `other`, the others of the parameter
`UregSet` by the model's own number (assumption 5). `j 31` is JSTAT and `k 31` is KSTAT (R25). In a dual or quad form
the constructor names the member with the lowest number (R37). -/
inductive Ureg where
  | j (n : RegNum)
  | k (n : RegNum)
  | xr (n : RegNum)
  | yr (n : RegNum)
  | jb (n : Fin 4)
  | jl (n : Fin 4)
  | kb (n : Fin 4)
  | kl (n : Fin 4)
  | cjmp
  | xstat
  | ystat
  | lc0
  | other (n : Fin 108)
deriving DecidableEq, Repr

/-- A compute block named by a one-block register form, `X` or `Y` (R33). -/
inductive Blk where
  | x
  | y
deriving DecidableEq, Repr

/-- The ways to name both compute blocks: `XY`, `YX` or no letters before the register name (R33, R165). -/
inductive Both where
  | xy
  | yx
  | bare
deriving DecidableEq, Repr

/-- The operator of a data-register access: none, `CB` or `BR` (42_load_store.md R187). -/
inductive PmOp where
  | lin
  | cb
  | br
deriving DecidableEq, Repr

/-- How many registers a form names: one, a dual or a quad (10_state.md R37). -/
inductive Size where
  | single
  | dual
  | quad
deriving DecidableEq, Repr

/-- The address operators `[ + ]` and `[ += ]` (42_load_store.md R162, R163). -/
inductive Modify where
  | pre
  | post
deriving DecidableEq, Repr

/-- The twelve IALU conditions of Table 7-2 (41_conditions.md R150). -/
inductive Cond where
  | jeq | jlt | jle | njeq | njlt | njle
  | keq | klt | kle | nkeq | nklt | nkle
deriving DecidableEq, Repr

/-- An IALU instruction, one constructor for each row of the opcode table. -/
inductive Instr where
  /-- J_ADD (R105): `Js = Jm + Jn|<Imm8>|<Imm32>`. -/
  | jAdd (d m : RegNum) (b : Opnd)
  /-- J_SUB (R106): `Js = Jm - Jn|<Imm8>|<Imm32>`. -/
  | jSub (d m : RegNum) (b : Opnd)
  /-- J_ADD_CJMP (R109): `Js = Jm + Jn|<Imm8>|<Imm32> (CJMP)`. -/
  | jAddCjmp (d m : RegNum) (b : Opnd)
  /-- J_SUB_CJMP (R109): `Js = Jm - Jn|<Imm8>|<Imm32> (CJMP)`. -/
  | jSubCjmp (d m : RegNum) (b : Opnd)
  /-- J_ADD_CB (R110): `Js = Jm + Jn|<Imm8>|<Imm32> (CB)`. -/
  | jAddCb (d m : RegNum) (b : Opnd)
  /-- J_SUB_CB (R110): `Js = Jm - Jn|<Imm8>|<Imm32> (CB)`. -/
  | jSubCb (d m : RegNum) (b : Opnd)
  /-- J_ADD_BR (R111): `Js = Jm + Jn|<Imm8>|<Imm32> (BR)`. -/
  | jAddBr (d m : RegNum) (b : Opnd)
  /-- J_SUB_BR (R111): `Js = Jm - Jn|<Imm8>|<Imm32> (BR)`. -/
  | jSubBr (d m : RegNum) (b : Opnd)
  /-- J_ADD_BL (R112): `JB0|JB1|JB2|JB3|JL0|JL1|JL2|JL3 = Jm + Jn|<Imm8>|<Imm32>`. -/
  | jAddBl (d : BLReg) (m : RegNum) (b : Opnd)
  /-- J_SUB_BL (R112): `JB0|JB1|JB2|JB3|JL0|JL1|JL2|JL3 = Jm - Jn|<Imm8>|<Imm32>`. -/
  | jSubBl (d : BLReg) (m : RegNum) (b : Opnd)
  /-- J_ADDC (R113): `Js = Jm + Jn|<Imm8>|<Imm32> + JC`. -/
  | jAddc (d m : RegNum) (b : Opnd)
  /-- J_SUBB (R114): `Js = Jm - Jn|<Imm8>|<Imm32> + JC - 1`. -/
  | jSubb (d m : RegNum) (b : Opnd)
  /-- J_ADD_HALF (R115): `Js = (Jm + Jn|<Imm8>|<Imm32>)/2`. -/
  | jAddHalf (d m : RegNum) (b : Opnd)
  /-- J_SUB_HALF (R116): `Js = (Jm - Jn|<Imm8>|<Imm32>)/2`. -/
  | jSubHalf (d m : RegNum) (b : Opnd)
  /-- J_COMP (R117): `COMP(Jm, Jn|<Imm8>|<Imm32>)`. -/
  | jComp (m : RegNum) (b : Opnd)
  /-- J_COMP_U (R118): `COMP(Jm, Jn|<Imm8>|<Imm32>) (U)`. -/
  | jCompU (m : RegNum) (b : Opnd)
  /-- J_MAX (R119): `Js = MAX (Jm, Jn|<Imm8>|<Imm32>)`. -/
  | jMax (d m : RegNum) (b : Opnd)
  /-- J_MIN (R120): `Js = MIN (Jm, Jn|<Imm8>|<Imm32>)`. -/
  | jMin (d m : RegNum) (b : Opnd)
  /-- J_ABS (R121): `Js = ABS Jm`. -/
  | jAbs (d m : RegNum)
  /-- J_OR (R122): `Js = Jm OR Jn|<Imm8>|<Imm32>`. -/
  | jOr (d m : RegNum) (b : Opnd)
  /-- J_AND (R123): `Js = Jm AND Jn|<Imm8>|<Imm32>`. -/
  | jAnd (d m : RegNum) (b : Opnd)
  /-- J_XOR (R124): `Js = Jm XOR Jn|<Imm8>|<Imm32>`. -/
  | jXor (d m : RegNum) (b : Opnd)
  /-- J_AND_NOT (R125): `Js = Jm AND NOT Jn|<Imm8>|<Imm32>`. -/
  | jAndNot (d m : RegNum) (b : Opnd)
  /-- J_NOT (R126): `Js = NOT Jm`. -/
  | jNot (d m : RegNum)
  /-- J_ASHIFTR (R127): `Js = ASHIFTR Jm`. -/
  | jAshiftr (d m : RegNum)
  /-- J_LSHIFTR (R128): `Js = LSHIFTR Jm`. -/
  | jLshiftr (d m : RegNum)
  /-- J_ROTR (R129): `Js = ROTR Jm`. -/
  | jRotr (d m : RegNum)
  /-- J_ROTL (R130): `Js = ROTL Jm`. -/
  | jRotl (d m : RegNum)
  /-- K_ADD (R105): `Ks = Km + Kn|<Imm8>|<Imm32>`. -/
  | kAdd (d m : RegNum) (b : Opnd)
  /-- K_SUB (R106): `Ks = Km - Kn|<Imm8>|<Imm32>`. -/
  | kSub (d m : RegNum) (b : Opnd)
  /-- K_ADD_CJMP (R109): `Ks = Km + Kn|<Imm8>|<Imm32> (CJMP)`. -/
  | kAddCjmp (d m : RegNum) (b : Opnd)
  /-- K_SUB_CJMP (R109): `Ks = Km - Kn|<Imm8>|<Imm32> (CJMP)`. -/
  | kSubCjmp (d m : RegNum) (b : Opnd)
  /-- K_ADD_CB (R110): `Ks = Km + Kn|<Imm8>|<Imm32> (CB)`. -/
  | kAddCb (d m : RegNum) (b : Opnd)
  /-- K_SUB_CB (R110): `Ks = Km - Kn|<Imm8>|<Imm32> (CB)`. -/
  | kSubCb (d m : RegNum) (b : Opnd)
  /-- K_ADD_BR (R111): `Ks = Km + Kn|<Imm8>|<Imm32> (BR)`. -/
  | kAddBr (d m : RegNum) (b : Opnd)
  /-- K_SUB_BR (R111): `Ks = Km - Kn|<Imm8>|<Imm32> (BR)`. -/
  | kSubBr (d m : RegNum) (b : Opnd)
  /-- K_ADD_BL (R112): `KB0|KB1|KB2|KB3|KL0|KL1|KL2|KL3 = Km + Kn|<Imm8>|<Imm32>`. -/
  | kAddBl (d : BLReg) (m : RegNum) (b : Opnd)
  /-- K_SUB_BL (R112): `KB0|KB1|KB2|KB3|KL0|KL1|KL2|KL3 = Km - Kn|<Imm8>|<Imm32>`. -/
  | kSubBl (d : BLReg) (m : RegNum) (b : Opnd)
  /-- K_ADDC (R113): `Ks = Km + Kn|<Imm8>|<Imm32> + KC`. -/
  | kAddc (d m : RegNum) (b : Opnd)
  /-- K_SUBB (R114): `Ks = Km - Kn|<Imm8>|<Imm32> + KC - 1`. -/
  | kSubb (d m : RegNum) (b : Opnd)
  /-- K_ADD_HALF (R115): `Ks = (Km + Kn|<Imm8>|<Imm32>)/2`. -/
  | kAddHalf (d m : RegNum) (b : Opnd)
  /-- K_SUB_HALF (R116): `Ks = (Km - Kn|<Imm8>|<Imm32>)/2`. -/
  | kSubHalf (d m : RegNum) (b : Opnd)
  /-- K_COMP (R117): `COMP(Km, Kn|<Imm8>|<Imm32>)`. -/
  | kComp (m : RegNum) (b : Opnd)
  /-- K_COMP_U (R118): `COMP(Km, Kn|<Imm8>|<Imm32>) (U)`. -/
  | kCompU (m : RegNum) (b : Opnd)
  /-- K_MAX (R119): `Ks = MAX (Km, Kn|<Imm8>|<Imm32>)`. -/
  | kMax (d m : RegNum) (b : Opnd)
  /-- K_MIN (R120): `Ks = MIN (Km, Kn|<Imm8>|<Imm32>)`. -/
  | kMin (d m : RegNum) (b : Opnd)
  /-- K_ABS (R121): `Ks = ABS Km`. -/
  | kAbs (d m : RegNum)
  /-- K_OR (R122): `Ks = Km OR Kn|<Imm8>|<Imm32>`. -/
  | kOr (d m : RegNum) (b : Opnd)
  /-- K_AND (R123): `Ks = Km AND Kn|<Imm8>|<Imm32>`. -/
  | kAnd (d m : RegNum) (b : Opnd)
  /-- K_XOR (R124): `Ks = Km XOR Kn|<Imm8>|<Imm32>`. -/
  | kXor (d m : RegNum) (b : Opnd)
  /-- K_AND_NOT (R125): `Ks = Km AND NOT Kn|<Imm8>|<Imm32>`. -/
  | kAndNot (d m : RegNum) (b : Opnd)
  /-- K_NOT (R126): `Ks = NOT Km`. -/
  | kNot (d m : RegNum)
  /-- K_ASHIFTR (R127): `Ks = ASHIFTR Km`. -/
  | kAshiftr (d m : RegNum)
  /-- K_LSHIFTR (R128): `Ks = LSHIFTR Km`. -/
  | kLshiftr (d m : RegNum)
  /-- K_ROTR (R129): `Ks = ROTR Km`. -/
  | kRotr (d m : RegNum)
  /-- K_ROTL (R130): `Ks = ROTL Km`. -/
  | kRotl (d m : RegNum)
  /-- J_LD_UREG_S_PRE (R167): `Ureg_s = [Jm + Jn|<Imm8>|<Imm32>]`. -/
  | jLdUregSPre (u : Ureg) (m : RegNum) (b : Opnd)
  /-- J_LD_UREG_S_POST (R168): `Ureg_s = [Jm += Jn|<Imm8>|<Imm32>]`. -/
  | jLdUregSPost (u : Ureg) (m : RegNum) (b : Opnd)
  /-- J_LD_UREG_D_PRE (R169): `Ureg_sd = L [Jm + Jn|<Imm8>|<Imm32>]`. -/
  | jLdUregDPre (u : Ureg) (m : RegNum) (b : Opnd)
  /-- J_LD_UREG_D_POST (R169): `Ureg_sd = L [Jm += Jn|<Imm8>|<Imm32>]`. -/
  | jLdUregDPost (u : Ureg) (m : RegNum) (b : Opnd)
  /-- J_LD_UREG_Q_PRE (R170): `Ureg_sq = Q [Jm + Jn|<Imm8>|<Imm32>]`. -/
  | jLdUregQPre (u : Ureg) (m : RegNum) (b : Opnd)
  /-- J_LD_UREG_Q_POST (R170): `Ureg_sq = Q [Jm += Jn|<Imm8>|<Imm32>]`. -/
  | jLdUregQPost (u : Ureg) (m : RegNum) (b : Opnd)
  /-- J_ST_UREG_S_PRE (R171): `[Jm + Jn|<Imm8>|<Imm32>] = Ureg_s`. -/
  | jStUregSPre (u : Ureg) (m : RegNum) (b : Opnd)
  /-- J_ST_UREG_S_POST (R171): `[Jm += Jn|<Imm8>|<Imm32>] = Ureg_s`. -/
  | jStUregSPost (u : Ureg) (m : RegNum) (b : Opnd)
  /-- J_ST_UREG_D_PRE (R172): `L [Jm + Jn|<Imm8>|<Imm32>] = Ureg_sd`. -/
  | jStUregDPre (u : Ureg) (m : RegNum) (b : Opnd)
  /-- J_ST_UREG_D_POST (R172): `L [Jm += Jn|<Imm8>|<Imm32>] = Ureg_sd`. -/
  | jStUregDPost (u : Ureg) (m : RegNum) (b : Opnd)
  /-- J_ST_UREG_Q_PRE (R173): `Q [Jm + Jn|<Imm8>|<Imm32>] = Ureg_sq`. -/
  | jStUregQPre (u : Ureg) (m : RegNum) (b : Opnd)
  /-- J_ST_UREG_Q_POST (R173): `Q [Jm += Jn|<Imm8>|<Imm32>] = Ureg_sq`. -/
  | jStUregQPost (u : Ureg) (m : RegNum) (b : Opnd)
  /-- K_LD_UREG_S_PRE (R167): `Ureg_s = [Km + Kn|<Imm8>|<Imm32>]`. -/
  | kLdUregSPre (u : Ureg) (m : RegNum) (b : Opnd)
  /-- K_LD_UREG_S_POST (R168): `Ureg_s = [Km += Kn|<Imm8>|<Imm32>]`. -/
  | kLdUregSPost (u : Ureg) (m : RegNum) (b : Opnd)
  /-- K_LD_UREG_D_PRE (R169): `Ureg_sd = L [Km + Kn|<Imm8>|<Imm32>]`. -/
  | kLdUregDPre (u : Ureg) (m : RegNum) (b : Opnd)
  /-- K_LD_UREG_D_POST (R169): `Ureg_sd = L [Km += Kn|<Imm8>|<Imm32>]`. -/
  | kLdUregDPost (u : Ureg) (m : RegNum) (b : Opnd)
  /-- K_LD_UREG_Q_PRE (R170): `Ureg_sq = Q [Km + Kn|<Imm8>|<Imm32>]`. -/
  | kLdUregQPre (u : Ureg) (m : RegNum) (b : Opnd)
  /-- K_LD_UREG_Q_POST (R170): `Ureg_sq = Q [Km += Kn|<Imm8>|<Imm32>]`. -/
  | kLdUregQPost (u : Ureg) (m : RegNum) (b : Opnd)
  /-- K_ST_UREG_S_PRE (R171): `[Km + Kn|<Imm8>|<Imm32>] = Ureg_s`. -/
  | kStUregSPre (u : Ureg) (m : RegNum) (b : Opnd)
  /-- K_ST_UREG_S_POST (R171): `[Km += Kn|<Imm8>|<Imm32>] = Ureg_s`. -/
  | kStUregSPost (u : Ureg) (m : RegNum) (b : Opnd)
  /-- K_ST_UREG_D_PRE (R172): `L [Km + Kn|<Imm8>|<Imm32>] = Ureg_sd`. -/
  | kStUregDPre (u : Ureg) (m : RegNum) (b : Opnd)
  /-- K_ST_UREG_D_POST (R172): `L [Km += Kn|<Imm8>|<Imm32>] = Ureg_sd`. -/
  | kStUregDPost (u : Ureg) (m : RegNum) (b : Opnd)
  /-- K_ST_UREG_Q_PRE (R173): `Q [Km + Kn|<Imm8>|<Imm32>] = Ureg_sq`. -/
  | kStUregQPre (u : Ureg) (m : RegNum) (b : Opnd)
  /-- K_ST_UREG_Q_POST (R173): `Q [Km += Kn|<Imm8>|<Imm32>] = Ureg_sq`. -/
  | kStUregQPost (u : Ureg) (m : RegNum) (b : Opnd)
  /-- J_LD_DREG_S (R174): `XRs|YRs = {CB|BR} [Jm += Jn|<Imm8>|<Imm32>]`. -/
  | jLdDregS (c : Blk) (r : RegNum) (op : PmOp) (m : RegNum) (b : Opnd)
  /-- J_LD_DREG_D (R175): `XRsd|YRsd = {CB|BR} L [Jm += Jn|<Imm8>|<Imm32>]`. -/
  | jLdDregD (c : Blk) (r : RegNum) (op : PmOp) (m : RegNum) (b : Opnd)
  /-- J_LD_DREG_Q (R176): `XRsq|YRsq = {CB|BR} Q [Jm += Jn|<Imm8>|<Imm32>]`. -/
  | jLdDregQ (c : Blk) (r : RegNum) (op : PmOp) (m : RegNum) (b : Opnd)
  /-- J_LD_DREG_S_BCAST (R177): `XYRs|YXRs|Rs = {CB|BR} [Jm += Jn|<Imm8>|<Imm32>]`. -/
  | jLdDregSBcast (c : Both) (r : RegNum) (op : PmOp) (m : RegNum) (b : Opnd)
  /-- J_LD_DREG_D_BCAST (R178): `XYRsd|YXRsd|Rsd = {CB|BR} L [Jm += Jn|<Imm8>|<Imm32>]`. -/
  | jLdDregDBcast (c : Both) (r : RegNum) (op : PmOp) (m : RegNum) (b : Opnd)
  /-- J_LD_DREG_Q_BCAST (R179): `XYRsq|YXRsq|Rsq = {CB|BR} Q [Jm += Jn|<Imm8>|<Imm32>]`. -/
  | jLdDregQBcast (c : Both) (r : RegNum) (op : PmOp) (m : RegNum) (b : Opnd)
  /-- J_LD_DREG_S_MERGED (R180): `XYRs|YXRs|Rs = {CB|BR} L [Jm += Jn|<Imm8>|<Imm32>]`. -/
  | jLdDregSMerged (c : Both) (r : RegNum) (op : PmOp) (m : RegNum) (b : Opnd)
  /-- J_LD_DREG_D_MERGED (R181): `XYRsd|YXRsd|Rsd = {CB|BR} Q [Jm += Jn|<Imm8>|<Imm32>]`. -/
  | jLdDregDMerged (c : Both) (r : RegNum) (op : PmOp) (m : RegNum) (b : Opnd)
  /-- J_ST_DREG_S (R182): `{CB|BR} [Jm += Jn|<Imm8>|<Imm32>] = XRs|YRs`. -/
  | jStDregS (c : Blk) (r : RegNum) (op : PmOp) (m : RegNum) (b : Opnd)
  /-- J_ST_DREG_D (R183): `{CB|BR} L [Jm += Jn|<Imm8>|<Imm32>] = XRsd|YRsd`. -/
  | jStDregD (c : Blk) (r : RegNum) (op : PmOp) (m : RegNum) (b : Opnd)
  /-- J_ST_DREG_Q (R184): `{CB|BR} Q [Jm += Jn|<Imm8>|<Imm32>] = XRsq|YRsq`. -/
  | jStDregQ (c : Blk) (r : RegNum) (op : PmOp) (m : RegNum) (b : Opnd)
  /-- J_ST_DREG_S_MERGED (R185): `{CB|BR} L [Jm += Jn|<Imm8>|<Imm32>] = XYRs|YXRs|Rs`. -/
  | jStDregSMerged (c : Both) (r : RegNum) (op : PmOp) (m : RegNum) (b : Opnd)
  /-- J_ST_DREG_D_MERGED (R186): `{CB|BR} Q [Jm += Jn|<Imm8>|<Imm32>] = XYRsd|YXRsd|Rsd`. -/
  | jStDregDMerged (c : Both) (r : RegNum) (op : PmOp) (m : RegNum) (b : Opnd)
  /-- K_LD_DREG_S (R174): `XRs|YRs = {CB|BR} [Km += Kn|<Imm8>|<Imm32>]`. -/
  | kLdDregS (c : Blk) (r : RegNum) (op : PmOp) (m : RegNum) (b : Opnd)
  /-- K_LD_DREG_D (R175): `XRsd|YRsd = {CB|BR} L [Km += Kn|<Imm8>|<Imm32>]`. -/
  | kLdDregD (c : Blk) (r : RegNum) (op : PmOp) (m : RegNum) (b : Opnd)
  /-- K_LD_DREG_Q (R176): `XRsq|YRsq = {CB|BR} Q [Km += Kn|<Imm8>|<Imm32>]`. -/
  | kLdDregQ (c : Blk) (r : RegNum) (op : PmOp) (m : RegNum) (b : Opnd)
  /-- K_LD_DREG_S_BCAST (R177): `XYRs|YXRs|Rs = {CB|BR} [Km += Kn|<Imm8>|<Imm32>]`. -/
  | kLdDregSBcast (c : Both) (r : RegNum) (op : PmOp) (m : RegNum) (b : Opnd)
  /-- K_LD_DREG_D_BCAST (R178): `XYRsd|YXRsd|Rsd = {CB|BR} L [Km += Kn|<Imm8>|<Imm32>]`. -/
  | kLdDregDBcast (c : Both) (r : RegNum) (op : PmOp) (m : RegNum) (b : Opnd)
  /-- K_LD_DREG_Q_BCAST (R179): `XYRsq|YXRsq|Rsq = {CB|BR} Q [Km += Kn|<Imm8>|<Imm32>]`. -/
  | kLdDregQBcast (c : Both) (r : RegNum) (op : PmOp) (m : RegNum) (b : Opnd)
  /-- K_LD_DREG_S_MERGED (R180): `XYRs|YXRs|Rs = {CB|BR} L [Km += Kn|<Imm8>|<Imm32>]`. -/
  | kLdDregSMerged (c : Both) (r : RegNum) (op : PmOp) (m : RegNum) (b : Opnd)
  /-- K_LD_DREG_D_MERGED (R181): `XYRsd|YXRsd|Rsd = {CB|BR} Q [Km += Kn|<Imm8>|<Imm32>]`. -/
  | kLdDregDMerged (c : Both) (r : RegNum) (op : PmOp) (m : RegNum) (b : Opnd)
  /-- K_ST_DREG_S (R182): `{CB|BR} [Km += Kn|<Imm8>|<Imm32>] = XRs|YRs`. -/
  | kStDregS (c : Blk) (r : RegNum) (op : PmOp) (m : RegNum) (b : Opnd)
  /-- K_ST_DREG_D (R183): `{CB|BR} L [Km += Kn|<Imm8>|<Imm32>] = XRsd|YRsd`. -/
  | kStDregD (c : Blk) (r : RegNum) (op : PmOp) (m : RegNum) (b : Opnd)
  /-- K_ST_DREG_Q (R184): `{CB|BR} Q [Km += Kn|<Imm8>|<Imm32>] = XRsq|YRsq`. -/
  | kStDregQ (c : Blk) (r : RegNum) (op : PmOp) (m : RegNum) (b : Opnd)
  /-- K_ST_DREG_S_MERGED (R185): `{CB|BR} L [Km += Kn|<Imm8>|<Imm32>] = XYRs|YXRs|Rs`. -/
  | kStDregSMerged (c : Both) (r : RegNum) (op : PmOp) (m : RegNum) (b : Opnd)
  /-- K_ST_DREG_D_MERGED (R186): `{CB|BR} Q [Km += Kn|<Imm8>|<Imm32>] = XYRsd|YXRsd|Rsd`. -/
  | kStDregDMerged (c : Both) (r : RegNum) (op : PmOp) (m : RegNum) (b : Opnd)
  /-- J_DAB (R201): `XRsq|YRsq = DAB Q [Jm += Jn|<Imm8>|<Imm32>]`. -/
  | jDab (c : Blk) (r m : RegNum) (b : Opnd)
  /-- J_SDAB (R202): `XRsq|YRsq = SDAB Q [Jm += Jn|<Imm8>|<Imm32>]`. -/
  | jSdab (c : Blk) (r m : RegNum) (b : Opnd)
  /-- J_DAB_BCAST (R210): `XYRsq|YXRsq|Rsq = DAB Q [Jm += Jn|<Imm8>|<Imm32>]`. -/
  | jDabBcast (c : Both) (r m : RegNum) (b : Opnd)
  /-- J_SDAB_BCAST (R210): `XYRsq|YXRsq|Rsq = SDAB Q [Jm += Jn|<Imm8>|<Imm32>]`. -/
  | jSdabBcast (c : Both) (r m : RegNum) (b : Opnd)
  /-- J_XDAB (R205): `{XY|YX}Rsq = Q XDAB [Jm += Jn|<Imm8>|<Imm32>]`. -/
  | jXdab (c : Both) (r m : RegNum) (b : Opnd)
  /-- J_XSDAB (R206): `{XY|YX}Rsq = Q XSDAB [Jm += Jn|<Imm8>|<Imm32>]`. -/
  | jXsdab (c : Both) (r m : RegNum) (b : Opnd)
  /-- J_YDAB (R207): `{XY|YX}Rsq = Q YDAB [Jm += Jn|<Imm8>|<Imm32>]`. -/
  | jYdab (c : Both) (r m : RegNum) (b : Opnd)
  /-- J_YSDAB (R208): `{XY|YX}Rsq = Q YSDAB [Jm += Jn|<Imm8>|<Imm32>]`. -/
  | jYsdab (c : Both) (r m : RegNum) (b : Opnd)
  /-- K_DAB (R201): `XRsq|YRsq = DAB Q [Km += Kn|<Imm8>|<Imm32>]`. -/
  | kDab (c : Blk) (r m : RegNum) (b : Opnd)
  /-- K_SDAB (R202): `XRsq|YRsq = SDAB Q [Km += Kn|<Imm8>|<Imm32>]`. -/
  | kSdab (c : Blk) (r m : RegNum) (b : Opnd)
  /-- K_DAB_BCAST (R210): `XYRsq|YXRsq|Rsq = DAB Q [Km += Kn|<Imm8>|<Imm32>]`. -/
  | kDabBcast (c : Both) (r m : RegNum) (b : Opnd)
  /-- K_SDAB_BCAST (R210): `XYRsq|YXRsq|Rsq = SDAB Q [Km += Kn|<Imm8>|<Imm32>]`. -/
  | kSdabBcast (c : Both) (r m : RegNum) (b : Opnd)
  /-- K_XDAB (R205): `{XY|YX}Rsq = Q XDAB [Km += Kn|<Imm8>|<Imm32>]`. -/
  | kXdab (c : Both) (r m : RegNum) (b : Opnd)
  /-- K_XSDAB (R206): `{XY|YX}Rsq = Q XSDAB [Km += Kn|<Imm8>|<Imm32>]`. -/
  | kXsdab (c : Both) (r m : RegNum) (b : Opnd)
  /-- K_YDAB (R207): `{XY|YX}Rsq = Q YDAB [Km += Kn|<Imm8>|<Imm32>]`. -/
  | kYdab (c : Both) (r m : RegNum) (b : Opnd)
  /-- K_YSDAB (R208): `{XY|YX}Rsq = Q YSDAB [Km += Kn|<Imm8>|<Imm32>]`. -/
  | kYsdab (c : Both) (r m : RegNum) (b : Opnd)
  /-- LD_IMM (R240): `Ureg_s = <Imm15>|<Imm32>`. -/
  | ldImm (u : Ureg) (v : Word)
  /-- MOVE_S (R241): `Ureg_s = Ureg_m`. -/
  | moveS (d u : Ureg)
  /-- MOVE_D (R242): `Ureg_sd = Ureg_md`. -/
  | moveD (d u : Ureg)
  /-- MOVE_Q (R243): `Ureg_sq = Ureg_mq`. -/
  | moveQ (d u : Ureg)
  /-- LD_GSCF0 (R153): `GSCF0 = cond`. -/
  | ldGscf0 (q : Cond)
  /-- LD_GSCF1 (R153): `GSCF1 = cond`. -/
  | ldGscf1 (q : Cond)
deriving DecidableEq, Repr

/-! The J and K variants of an instruction share their rule (30_encoding.md, section 4). `Form` groups the instructions
by the rule they share; `Instr.form` and `Form.instr` pass between the two. -/

/-- Instructions `Is = Im op B` (R105, R106, R109 to R111, R113 to R116, R119, R120, R122 to R125). -/
inductive Alu2 where
  | add | sub | addCjmp | subCjmp | addCb | subCb | addBr | subBr | addc | subb | addHalf | subHalf
  | max | min | or | and | xor | andNot
deriving DecidableEq, Repr

/-- Instructions `Is = op Im` (R121, R126 to R130). -/
inductive Alu1 where
  | abs | not | ashiftr | lshiftr | rotr | rotl
deriving DecidableEq, Repr

/-- The access type of a data-register load: normal, broadcast or merged (42_load_store.md R165). A merged access moves
one register (`dual = false`) or a dual of each block. -/
inductive LdAcc where
  | normal (z : Size) (c : Blk)
  | bcast (z : Size) (c : Both)
  | merged (dual : Bool) (c : Both)
deriving DecidableEq, Repr

/-- The access type of a data-register store: normal or merged; there is no broadcast store (R165). -/
inductive StAcc where
  | normal (z : Size) (c : Blk)
  | merged (dual : Bool) (c : Both)
deriving DecidableEq, Repr

/-- The DAB accesses of 43_dab.md: one block, both blocks, or with an offset on one block; `short` marks the 16-bit
forms and `onY` the block that takes the extra shift. The offset forms are printed with `XY` and `YX` only
(30_encoding.md R94); that they take no prefix too is DEDUCED (assumption 25). -/
inductive DabKind where
  | one (short : Bool) (c : Blk)
  | both (short : Bool) (c : Both)
  | offset (onY : Bool) (short : Bool) (c : Both)
deriving DecidableEq, Repr

/-- The instructions grouped by shared rule. -/
inductive Form where
  | alu (I : Ialu) (o : Alu2) (d m : RegNum) (b : Opnd)
  | alu1 (I : Ialu) (o : Alu1) (d m : RegNum)
  | bl (I : Ialu) (sub : Bool) (d : BLReg) (m : RegNum) (b : Opnd)
  | comp (I : Ialu) (unsigned : Bool) (m : RegNum) (b : Opnd)
  | ldU (I : Ialu) (z : Size) (p : Modify) (u : Ureg) (m : RegNum) (b : Opnd)
  | stU (I : Ialu) (z : Size) (p : Modify) (u : Ureg) (m : RegNum) (b : Opnd)
  | ldD (I : Ialu) (a : LdAcc) (r : RegNum) (op : PmOp) (m : RegNum) (b : Opnd)
  | stD (I : Ialu) (a : StAcc) (r : RegNum) (op : PmOp) (m : RegNum) (b : Opnd)
  | dab (I : Ialu) (a : DabKind) (r m : RegNum) (b : Opnd)
  | ldImm (u : Ureg) (v : Word)
  | move (z : Size) (d u : Ureg)
  | gscf (one : Bool) (q : Cond)
deriving DecidableEq, Repr

/-- The form of an instruction. -/
def Instr.form : Instr → Form
  | .jAdd d m b => .alu .j .add d m b
  | .jSub d m b => .alu .j .sub d m b
  | .jAddCjmp d m b => .alu .j .addCjmp d m b
  | .jSubCjmp d m b => .alu .j .subCjmp d m b
  | .jAddCb d m b => .alu .j .addCb d m b
  | .jSubCb d m b => .alu .j .subCb d m b
  | .jAddBr d m b => .alu .j .addBr d m b
  | .jSubBr d m b => .alu .j .subBr d m b
  | .jAddBl d m b => .bl .j false d m b
  | .jSubBl d m b => .bl .j true d m b
  | .jAddc d m b => .alu .j .addc d m b
  | .jSubb d m b => .alu .j .subb d m b
  | .jAddHalf d m b => .alu .j .addHalf d m b
  | .jSubHalf d m b => .alu .j .subHalf d m b
  | .jComp m b => .comp .j false m b
  | .jCompU m b => .comp .j true m b
  | .jMax d m b => .alu .j .max d m b
  | .jMin d m b => .alu .j .min d m b
  | .jAbs d m => .alu1 .j .abs d m
  | .jOr d m b => .alu .j .or d m b
  | .jAnd d m b => .alu .j .and d m b
  | .jXor d m b => .alu .j .xor d m b
  | .jAndNot d m b => .alu .j .andNot d m b
  | .jNot d m => .alu1 .j .not d m
  | .jAshiftr d m => .alu1 .j .ashiftr d m
  | .jLshiftr d m => .alu1 .j .lshiftr d m
  | .jRotr d m => .alu1 .j .rotr d m
  | .jRotl d m => .alu1 .j .rotl d m
  | .kAdd d m b => .alu .k .add d m b
  | .kSub d m b => .alu .k .sub d m b
  | .kAddCjmp d m b => .alu .k .addCjmp d m b
  | .kSubCjmp d m b => .alu .k .subCjmp d m b
  | .kAddCb d m b => .alu .k .addCb d m b
  | .kSubCb d m b => .alu .k .subCb d m b
  | .kAddBr d m b => .alu .k .addBr d m b
  | .kSubBr d m b => .alu .k .subBr d m b
  | .kAddBl d m b => .bl .k false d m b
  | .kSubBl d m b => .bl .k true d m b
  | .kAddc d m b => .alu .k .addc d m b
  | .kSubb d m b => .alu .k .subb d m b
  | .kAddHalf d m b => .alu .k .addHalf d m b
  | .kSubHalf d m b => .alu .k .subHalf d m b
  | .kComp m b => .comp .k false m b
  | .kCompU m b => .comp .k true m b
  | .kMax d m b => .alu .k .max d m b
  | .kMin d m b => .alu .k .min d m b
  | .kAbs d m => .alu1 .k .abs d m
  | .kOr d m b => .alu .k .or d m b
  | .kAnd d m b => .alu .k .and d m b
  | .kXor d m b => .alu .k .xor d m b
  | .kAndNot d m b => .alu .k .andNot d m b
  | .kNot d m => .alu1 .k .not d m
  | .kAshiftr d m => .alu1 .k .ashiftr d m
  | .kLshiftr d m => .alu1 .k .lshiftr d m
  | .kRotr d m => .alu1 .k .rotr d m
  | .kRotl d m => .alu1 .k .rotl d m
  | .jLdUregSPre u m b => .ldU .j .single .pre u m b
  | .jLdUregSPost u m b => .ldU .j .single .post u m b
  | .jLdUregDPre u m b => .ldU .j .dual .pre u m b
  | .jLdUregDPost u m b => .ldU .j .dual .post u m b
  | .jLdUregQPre u m b => .ldU .j .quad .pre u m b
  | .jLdUregQPost u m b => .ldU .j .quad .post u m b
  | .jStUregSPre u m b => .stU .j .single .pre u m b
  | .jStUregSPost u m b => .stU .j .single .post u m b
  | .jStUregDPre u m b => .stU .j .dual .pre u m b
  | .jStUregDPost u m b => .stU .j .dual .post u m b
  | .jStUregQPre u m b => .stU .j .quad .pre u m b
  | .jStUregQPost u m b => .stU .j .quad .post u m b
  | .kLdUregSPre u m b => .ldU .k .single .pre u m b
  | .kLdUregSPost u m b => .ldU .k .single .post u m b
  | .kLdUregDPre u m b => .ldU .k .dual .pre u m b
  | .kLdUregDPost u m b => .ldU .k .dual .post u m b
  | .kLdUregQPre u m b => .ldU .k .quad .pre u m b
  | .kLdUregQPost u m b => .ldU .k .quad .post u m b
  | .kStUregSPre u m b => .stU .k .single .pre u m b
  | .kStUregSPost u m b => .stU .k .single .post u m b
  | .kStUregDPre u m b => .stU .k .dual .pre u m b
  | .kStUregDPost u m b => .stU .k .dual .post u m b
  | .kStUregQPre u m b => .stU .k .quad .pre u m b
  | .kStUregQPost u m b => .stU .k .quad .post u m b
  | .jLdDregS c r op m b => .ldD .j (.normal .single c) r op m b
  | .jLdDregD c r op m b => .ldD .j (.normal .dual c) r op m b
  | .jLdDregQ c r op m b => .ldD .j (.normal .quad c) r op m b
  | .jLdDregSBcast c r op m b => .ldD .j (.bcast .single c) r op m b
  | .jLdDregDBcast c r op m b => .ldD .j (.bcast .dual c) r op m b
  | .jLdDregQBcast c r op m b => .ldD .j (.bcast .quad c) r op m b
  | .jLdDregSMerged c r op m b => .ldD .j (.merged false c) r op m b
  | .jLdDregDMerged c r op m b => .ldD .j (.merged true c) r op m b
  | .jStDregS c r op m b => .stD .j (.normal .single c) r op m b
  | .jStDregD c r op m b => .stD .j (.normal .dual c) r op m b
  | .jStDregQ c r op m b => .stD .j (.normal .quad c) r op m b
  | .jStDregSMerged c r op m b => .stD .j (.merged false c) r op m b
  | .jStDregDMerged c r op m b => .stD .j (.merged true c) r op m b
  | .kLdDregS c r op m b => .ldD .k (.normal .single c) r op m b
  | .kLdDregD c r op m b => .ldD .k (.normal .dual c) r op m b
  | .kLdDregQ c r op m b => .ldD .k (.normal .quad c) r op m b
  | .kLdDregSBcast c r op m b => .ldD .k (.bcast .single c) r op m b
  | .kLdDregDBcast c r op m b => .ldD .k (.bcast .dual c) r op m b
  | .kLdDregQBcast c r op m b => .ldD .k (.bcast .quad c) r op m b
  | .kLdDregSMerged c r op m b => .ldD .k (.merged false c) r op m b
  | .kLdDregDMerged c r op m b => .ldD .k (.merged true c) r op m b
  | .kStDregS c r op m b => .stD .k (.normal .single c) r op m b
  | .kStDregD c r op m b => .stD .k (.normal .dual c) r op m b
  | .kStDregQ c r op m b => .stD .k (.normal .quad c) r op m b
  | .kStDregSMerged c r op m b => .stD .k (.merged false c) r op m b
  | .kStDregDMerged c r op m b => .stD .k (.merged true c) r op m b
  | .jDab c r m b => .dab .j (.one false c) r m b
  | .jSdab c r m b => .dab .j (.one true c) r m b
  | .jDabBcast c r m b => .dab .j (.both false c) r m b
  | .jSdabBcast c r m b => .dab .j (.both true c) r m b
  | .jXdab c r m b => .dab .j (.offset false false c) r m b
  | .jXsdab c r m b => .dab .j (.offset false true c) r m b
  | .jYdab c r m b => .dab .j (.offset true false c) r m b
  | .jYsdab c r m b => .dab .j (.offset true true c) r m b
  | .kDab c r m b => .dab .k (.one false c) r m b
  | .kSdab c r m b => .dab .k (.one true c) r m b
  | .kDabBcast c r m b => .dab .k (.both false c) r m b
  | .kSdabBcast c r m b => .dab .k (.both true c) r m b
  | .kXdab c r m b => .dab .k (.offset false false c) r m b
  | .kXsdab c r m b => .dab .k (.offset false true c) r m b
  | .kYdab c r m b => .dab .k (.offset true false c) r m b
  | .kYsdab c r m b => .dab .k (.offset true true c) r m b
  | .ldImm u v => .ldImm u v
  | .moveS d u => .move .single d u
  | .moveD d u => .move .dual d u
  | .moveQ d u => .move .quad d u
  | .ldGscf0 q => .gscf false q
  | .ldGscf1 q => .gscf true q

/-- The instruction of a form. -/
def Form.instr : Form → Instr
  | .alu .j .add d m b => .jAdd d m b
  | .alu .j .sub d m b => .jSub d m b
  | .alu .j .addCjmp d m b => .jAddCjmp d m b
  | .alu .j .subCjmp d m b => .jSubCjmp d m b
  | .alu .j .addCb d m b => .jAddCb d m b
  | .alu .j .subCb d m b => .jSubCb d m b
  | .alu .j .addBr d m b => .jAddBr d m b
  | .alu .j .subBr d m b => .jSubBr d m b
  | .bl .j false d m b => .jAddBl d m b
  | .bl .j true d m b => .jSubBl d m b
  | .alu .j .addc d m b => .jAddc d m b
  | .alu .j .subb d m b => .jSubb d m b
  | .alu .j .addHalf d m b => .jAddHalf d m b
  | .alu .j .subHalf d m b => .jSubHalf d m b
  | .comp .j false m b => .jComp m b
  | .comp .j true m b => .jCompU m b
  | .alu .j .max d m b => .jMax d m b
  | .alu .j .min d m b => .jMin d m b
  | .alu1 .j .abs d m => .jAbs d m
  | .alu .j .or d m b => .jOr d m b
  | .alu .j .and d m b => .jAnd d m b
  | .alu .j .xor d m b => .jXor d m b
  | .alu .j .andNot d m b => .jAndNot d m b
  | .alu1 .j .not d m => .jNot d m
  | .alu1 .j .ashiftr d m => .jAshiftr d m
  | .alu1 .j .lshiftr d m => .jLshiftr d m
  | .alu1 .j .rotr d m => .jRotr d m
  | .alu1 .j .rotl d m => .jRotl d m
  | .alu .k .add d m b => .kAdd d m b
  | .alu .k .sub d m b => .kSub d m b
  | .alu .k .addCjmp d m b => .kAddCjmp d m b
  | .alu .k .subCjmp d m b => .kSubCjmp d m b
  | .alu .k .addCb d m b => .kAddCb d m b
  | .alu .k .subCb d m b => .kSubCb d m b
  | .alu .k .addBr d m b => .kAddBr d m b
  | .alu .k .subBr d m b => .kSubBr d m b
  | .bl .k false d m b => .kAddBl d m b
  | .bl .k true d m b => .kSubBl d m b
  | .alu .k .addc d m b => .kAddc d m b
  | .alu .k .subb d m b => .kSubb d m b
  | .alu .k .addHalf d m b => .kAddHalf d m b
  | .alu .k .subHalf d m b => .kSubHalf d m b
  | .comp .k false m b => .kComp m b
  | .comp .k true m b => .kCompU m b
  | .alu .k .max d m b => .kMax d m b
  | .alu .k .min d m b => .kMin d m b
  | .alu1 .k .abs d m => .kAbs d m
  | .alu .k .or d m b => .kOr d m b
  | .alu .k .and d m b => .kAnd d m b
  | .alu .k .xor d m b => .kXor d m b
  | .alu .k .andNot d m b => .kAndNot d m b
  | .alu1 .k .not d m => .kNot d m
  | .alu1 .k .ashiftr d m => .kAshiftr d m
  | .alu1 .k .lshiftr d m => .kLshiftr d m
  | .alu1 .k .rotr d m => .kRotr d m
  | .alu1 .k .rotl d m => .kRotl d m
  | .ldU .j .single .pre u m b => .jLdUregSPre u m b
  | .ldU .j .single .post u m b => .jLdUregSPost u m b
  | .ldU .j .dual .pre u m b => .jLdUregDPre u m b
  | .ldU .j .dual .post u m b => .jLdUregDPost u m b
  | .ldU .j .quad .pre u m b => .jLdUregQPre u m b
  | .ldU .j .quad .post u m b => .jLdUregQPost u m b
  | .stU .j .single .pre u m b => .jStUregSPre u m b
  | .stU .j .single .post u m b => .jStUregSPost u m b
  | .stU .j .dual .pre u m b => .jStUregDPre u m b
  | .stU .j .dual .post u m b => .jStUregDPost u m b
  | .stU .j .quad .pre u m b => .jStUregQPre u m b
  | .stU .j .quad .post u m b => .jStUregQPost u m b
  | .ldU .k .single .pre u m b => .kLdUregSPre u m b
  | .ldU .k .single .post u m b => .kLdUregSPost u m b
  | .ldU .k .dual .pre u m b => .kLdUregDPre u m b
  | .ldU .k .dual .post u m b => .kLdUregDPost u m b
  | .ldU .k .quad .pre u m b => .kLdUregQPre u m b
  | .ldU .k .quad .post u m b => .kLdUregQPost u m b
  | .stU .k .single .pre u m b => .kStUregSPre u m b
  | .stU .k .single .post u m b => .kStUregSPost u m b
  | .stU .k .dual .pre u m b => .kStUregDPre u m b
  | .stU .k .dual .post u m b => .kStUregDPost u m b
  | .stU .k .quad .pre u m b => .kStUregQPre u m b
  | .stU .k .quad .post u m b => .kStUregQPost u m b
  | .ldD .j (.normal .single c) r op m b => .jLdDregS c r op m b
  | .ldD .j (.normal .dual c) r op m b => .jLdDregD c r op m b
  | .ldD .j (.normal .quad c) r op m b => .jLdDregQ c r op m b
  | .ldD .j (.bcast .single c) r op m b => .jLdDregSBcast c r op m b
  | .ldD .j (.bcast .dual c) r op m b => .jLdDregDBcast c r op m b
  | .ldD .j (.bcast .quad c) r op m b => .jLdDregQBcast c r op m b
  | .ldD .j (.merged false c) r op m b => .jLdDregSMerged c r op m b
  | .ldD .j (.merged true c) r op m b => .jLdDregDMerged c r op m b
  | .stD .j (.normal .single c) r op m b => .jStDregS c r op m b
  | .stD .j (.normal .dual c) r op m b => .jStDregD c r op m b
  | .stD .j (.normal .quad c) r op m b => .jStDregQ c r op m b
  | .stD .j (.merged false c) r op m b => .jStDregSMerged c r op m b
  | .stD .j (.merged true c) r op m b => .jStDregDMerged c r op m b
  | .ldD .k (.normal .single c) r op m b => .kLdDregS c r op m b
  | .ldD .k (.normal .dual c) r op m b => .kLdDregD c r op m b
  | .ldD .k (.normal .quad c) r op m b => .kLdDregQ c r op m b
  | .ldD .k (.bcast .single c) r op m b => .kLdDregSBcast c r op m b
  | .ldD .k (.bcast .dual c) r op m b => .kLdDregDBcast c r op m b
  | .ldD .k (.bcast .quad c) r op m b => .kLdDregQBcast c r op m b
  | .ldD .k (.merged false c) r op m b => .kLdDregSMerged c r op m b
  | .ldD .k (.merged true c) r op m b => .kLdDregDMerged c r op m b
  | .stD .k (.normal .single c) r op m b => .kStDregS c r op m b
  | .stD .k (.normal .dual c) r op m b => .kStDregD c r op m b
  | .stD .k (.normal .quad c) r op m b => .kStDregQ c r op m b
  | .stD .k (.merged false c) r op m b => .kStDregSMerged c r op m b
  | .stD .k (.merged true c) r op m b => .kStDregDMerged c r op m b
  | .dab .j (.one false c) r m b => .jDab c r m b
  | .dab .j (.one true c) r m b => .jSdab c r m b
  | .dab .j (.both false c) r m b => .jDabBcast c r m b
  | .dab .j (.both true c) r m b => .jSdabBcast c r m b
  | .dab .j (.offset false false c) r m b => .jXdab c r m b
  | .dab .j (.offset false true c) r m b => .jXsdab c r m b
  | .dab .j (.offset true false c) r m b => .jYdab c r m b
  | .dab .j (.offset true true c) r m b => .jYsdab c r m b
  | .dab .k (.one false c) r m b => .kDab c r m b
  | .dab .k (.one true c) r m b => .kSdab c r m b
  | .dab .k (.both false c) r m b => .kDabBcast c r m b
  | .dab .k (.both true c) r m b => .kSdabBcast c r m b
  | .dab .k (.offset false false c) r m b => .kXdab c r m b
  | .dab .k (.offset false true c) r m b => .kXsdab c r m b
  | .dab .k (.offset true false c) r m b => .kYdab c r m b
  | .dab .k (.offset true true c) r m b => .kYsdab c r m b
  | .ldImm u v => .ldImm u v
  | .move .single d u => .moveS d u
  | .move .dual d u => .moveD d u
  | .move .quad d u => .moveQ d u
  | .gscf false q => .ldGscf0 q
  | .gscf true q => .ldGscf1 q

/-- What may stand in a slot of a line: an IALU instruction, or one of the sequencer stubs the source's examples use
(92_eei_decisions.md D23): `NOP` (30_encoding.md R97) and `JUMP` to a line of the text. -/
inductive Item where
  | ialu (i : Instr)
  | nop
  | jump (target : BitVec 26)
deriving DecidableEq, Repr

/-- The conditions a line may begin with: Table 7-2, the two static-flag conditions (41_conditions.md R154), and the
sequencer's NLC0E of the examples (D23). -/
inductive LineCond where
  | ialu (q : Cond)
  | sf0
  | sf1
  | nlc0e
deriving DecidableEq, Repr

/-- An instruction of a line with its mark: whether `DO` (or the comma after `IF cond`) stands before it (R151). -/
structure LineItem where
  marked : Bool
  item : Item
deriving DecidableEq, Repr

/-- An instruction line as a term of the syntax (30_encoding.md R80, R85; 41_conditions.md R151). -/
structure Line where
  cond : Option LineCond
  items : List LineItem
deriving DecidableEq, Repr

/-- One 32-bit slot of a line of the program text (R81), with the `DO` mark of the instruction it begins. -/
structure Slot where
  marked : Bool
  word : Word
deriving DecidableEq, Repr

/-- A line of the program text as it is held for fetching: the head condition and the slots. The words are those of the
model's own container encoding (Decode.lean, assumption 1). -/
structure ProgLine where
  cond : Option LineCond
  slots : List Slot
deriving DecidableEq, Repr

end Sys2Proof
end

