-- ==== Sys2Proof/WellFormed.lean ====
section
/-! DEFINITION. The checks on one instruction as syntax: register groups (10_state.md R37), registers that exist (R33,
R34), index registers (44_circular_bitreverse.md R220) and the forms the source gives no meaning (60_exceptions.md
R262); and the layout of a line (30_encoding.md R84). Other forms outside the listings (`NotAnInstruction`, R97) are no
terms of `Instr`; the decoder refuses their words. -/

namespace Sys2Proof

/-- Why the model refuses an instruction by its form (60_exceptions.md R262). Refusing is safe: nothing is claimed of
the hardware there. -/
inductive FormReason where
  /-- `RegisterGroupAlignment`: a dual with an odd low number, a quad whose low number is no multiple of four, or a group
  name on a register that has none (10_state.md R37). Raised by every dual and quad form; safe. -/
  | registerGroupAlignment
  /-- `NotAnInstruction`: a register name outside the parameters `NDREG` and `UregSet`, so a form outside the listings
  (30_encoding.md R97, 10_state.md R33, R34). Raised by every form that names a data register or a universal register
  the chapter does not name; safe. -/
  | notAnInstruction
  /-- `NotAnIndexRegister`: CB, BR or a DAB form with an index register other than I0..I3 (44_circular_bitreverse.md
  R220, 40_arith_logic.md R110, R111, 43_dab.md R203). Safe. -/
  | notAnIndexRegister
  /-- `UnspecifiedForm`: (CJMP) with result register 31, post-modify through register 31, a post-modify load of its own
  index, CB or a DAB form whose modifier is its index, and a DAB access whose update wraps (R262). Safe. -/
  | unspecifiedForm
deriving DecidableEq, Repr

/-- The universal register `k` places after `u` in its file (only numbered files go on). -/
def Ureg.shift (u : Ureg) (k : Nat) : Ureg :=
  match u with
  | .j n => .j (Fin.ofNat 32 (n.val + k))
  | .k n => .k (Fin.ofNat 32 (n.val + k))
  | .xr n => .xr (Fin.ofNat 32 (n.val + k))
  | .yr n => .yr (Fin.ofNat 32 (n.val + k))
  | u => u

/-- The number of a register that is a numbered member of a file (10_state.md R37). -/
def Ureg.number? (u : Ureg) : Option RegNum :=
  match u with
  | .j n => some n
  | .k n => some n
  | .xr n => some n
  | .yr n => some n
  | _ => none

/-- The count of registers of a group. -/
def Size.count (z : Size) : Nat :=
  match z with
  | .single => 1
  | .dual => 2
  | .quad => 4

/-- The registers of the group whose lowest-numbered member is `u`, lowest first (10_state.md R37). -/
def Ureg.group (z : Size) (u : Ureg) : List Ureg :=
  match z with
  | .single => [u]
  | .dual => [u, u.shift 1]
  | .quad => [u, u.shift 1, u.shift 2, u.shift 3]

/-- The number `n` may be the lowest of a group: even for a dual, a multiple of four for a quad (10_state.md R37). -/
def lowOk (z : Size) (n : RegNum) : Bool := n.val % z.count == 0

/-- The group named exists: any single register; a dual or quad of a numbered file with an aligned low number
(10_state.md R37). -/
def Ureg.groupOk (z : Size) (u : Ureg) : Bool :=
  match z with
  | .single => true
  | _ => match u.number? with
    | some n => lowOk z n
    | none => false

/-- A compute block has a data register of this number (10_state.md R33). The first eight exist whatever `NDREG` is. -/
def hasDreg (n : Nat) : Bool := decide (n < 8) || decide (n < Config.ndreg)

/-- The universal register exists: the chapter names it, `NDREG` counts it or `UregSet` holds it (10_state.md R33,
R34). -/
def Ureg.inSet (u : Ureg) : Bool :=
  match u with
  | .xr n => hasDreg n.val
  | .yr n => hasDreg n.val
  | .other n => Config.uregOther n.val
  | _ => true

/-- Every register of the group exists. -/
def Ureg.groupInSet (z : Size) (u : Ureg) : Bool := (u.group z).all Ureg.inSet

/-- Every data register of the group with the lowest number `r` exists. -/
def dregsInSet (z : Size) (r : RegNum) : Bool := (List.range z.count).all fun k => hasDreg (r.val + k)

/-- Register `m` of IALU `I` as a universal register. -/
def Ialu.ureg (I : Ialu) (m : RegNum) : Ureg :=
  match I with
  | .j => .j m
  | .k => .k m

/-- I0..I3, the registers that can be circular-buffer and bit-reverse indexes (44_circular_bitreverse.md R220). -/
def isIndexReg (m : RegNum) : Bool := m.val < 4

/-- The group size of a data-register load (R165). -/
def LdAcc.size (a : LdAcc) : Size :=
  match a with
  | .normal z _ => z
  | .bcast z _ => z
  | .merged dual _ => if dual then .dual else .single

/-- The group size of a data-register store (R165). -/
def StAcc.size (a : StAcc) : Size :=
  match a with
  | .normal z _ => z
  | .merged dual _ => if dual then .dual else .single

/-- The first of a list of checks that fails. -/
def firstReason (checks : List (Bool × FormReason)) : Option FormReason :=
  match checks with
  | [] => none
  | (bad, r) :: rest => if bad then some r else firstReason rest

/-- The checks of a data-register access (42_load_store.md R161, R187; 44_circular_bitreverse.md R220, R223). -/
def dregChecks (z : Size) (r : RegNum) (op : PmOp) (m : RegNum) (b : Opnd) : List (Bool × FormReason) :=
  [(!lowOk z r, .registerGroupAlignment),
   (!dregsInSet z r, .notAnInstruction),
   (op != .lin && !isIndexReg m, .notAnIndexRegister),
   (m == 31, .unspecifiedForm),
   (op == .cb && b == .reg m, .unspecifiedForm)]

/-- Why the form is refused, if it is (60_exceptions.md R262). The spec gives no order among the reasons of one form; that
the first of a list below is named, group before register before index before the rest, is the model's choice
(DESIGN CHOICE, assumption 21). -/
def Form.error (f : Form) : Option FormReason :=
  match f with
  | .alu _ o d m _ =>
    firstReason
      [((o == .addCjmp || o == .subCjmp) && d == 31, .unspecifiedForm),
       ((o == .addCb || o == .subCb || o == .addBr || o == .subBr) && !isIndexReg m, .notAnIndexRegister)]
  | .alu1 _ _ _ _ => none
  | .bl _ _ _ _ _ => none
  | .comp _ _ _ _ => none
  | .ldU I z p u m _ =>
    firstReason
      [(!u.groupOk z, .registerGroupAlignment),
       (!u.groupInSet z, .notAnInstruction),
       (p == .post && m == 31, .unspecifiedForm),
       (p == .post && (u.group z).contains (I.ureg m), .unspecifiedForm)]
  | .stU _ z p u m _ =>
    firstReason
      [(!u.groupOk z, .registerGroupAlignment),
       (!u.groupInSet z, .notAnInstruction),
       (p == .post && m == 31, .unspecifiedForm)]
  | .ldD _ a r op m b => firstReason (dregChecks a.size r op m b)
  | .stD _ a r op m b => firstReason (dregChecks a.size r op m b)
  | .dab _ _ r m b =>
    firstReason
      [(!lowOk .quad r, .registerGroupAlignment),
       (!dregsInSet .quad r, .notAnInstruction),
       (!isIndexReg m, .notAnIndexRegister),
       (b == .reg m, .unspecifiedForm)]
  | .ldImm u _ => firstReason [(!u.inSet, .notAnInstruction)]
  | .move z d u =>
    firstReason
      [(!d.groupOk z, .registerGroupAlignment),
       (!u.groupOk z, .registerGroupAlignment),
       (!d.groupInSet z, .notAnInstruction),
       (!u.groupInSet z, .notAnInstruction)]
  | .gscf _ _ => none

/-- The instruction is well formed. -/
def WellFormed (i : Instr) : Bool := i.form.error.isNone

/-! ## The layout of a line -/

/-- `IMM8_RANGE` (30_encoding.md R83): 0..127 in both readings, 128..255 in the unsigned one, -128..-1 in the signed
one. -/
def inImm8 (v : Word) : Bool :=
  decide (v.toNat < 128) || (decide (v.toNat < 256) && !Config.imm8Signed)
    || (decide (2 ^ 32 - 128 ≤ v.toNat) && Config.imm8Signed)

/-- `IMM15_RANGE` (30_encoding.md R83): 0..16383 in both readings, 16384..32767 in the unsigned one, -16384..-1 in the
signed one. -/
def inImm15 (v : Word) : Bool :=
  decide (v.toNat < 16384) || (decide (v.toNat < 32768) && !Config.imm15Signed)
    || (decide (2 ^ 32 - 16384 ≤ v.toNat) && Config.imm15Signed)

/-- The operand needs an immediate extension: it is an immediate outside `IMM8_RANGE` (30_encoding.md R84). -/
def Opnd.extended (b : Opnd) : Bool :=
  match b with
  | .reg _ => false
  | .imm v => !inImm8 v

/-- The instruction needs an immediate extension: its immediate is not in its short range (30_encoding.md R81, R84). -/
def Form.extended (f : Form) : Bool :=
  match f with
  | .alu _ _ _ _ b => b.extended
  | .alu1 _ _ _ _ => false
  | .bl _ _ _ _ b => b.extended
  | .comp _ _ _ b => b.extended
  | .ldU _ _ _ _ _ b => b.extended
  | .stU _ _ _ _ _ b => b.extended
  | .ldD _ _ _ _ _ b => b.extended
  | .stD _ _ _ _ _ b => b.extended
  | .dab _ _ _ _ b => b.extended
  | .ldImm _ v => !inImm15 v
  | .move _ _ _ => false
  | .gscf _ _ => false

/-- The item takes two slots. -/
def Item.extended (i : Item) : Bool :=
  match i with
  | .ialu i => i.form.extended
  | .nop => false
  | .jump _ => false

/-- The slots a line uses (30_encoding.md R84 (a)). -/
def Line.slotsUsed (l : Line) : Nat := l.items.length + (l.items.filter (fun it => it.item.extended)).length

/-- No item of the list is extended. -/
def noneExtended (l : List LineItem) : Bool := l.all (fun it => !it.item.extended)

/-- A line uses at most four slots (30_encoding.md R84 (b)); two instructions never use more, which is said first
because it holds whatever the immediate ranges are. -/
def Line.slotsFit (l : Line) : Bool := decide (2 * l.items.length ≤ 4) || decide (l.slotsUsed ≤ 4)

/-- The layout of a line (30_encoding.md R84 (b) to (d), 41_conditions.md R151): at most four slots, only the first
instruction extended (so at most one extension), at most three instructions under the condition. -/
def Line.layoutOk (l : Line) : Bool :=
  l.slotsFit && noneExtended l.items.tail &&
    decide ((l.items.filter (fun it => it.marked)).length ≤ 3)

/-- A `DO` mark stands only in a line that begins with `IF cond` (30_encoding.md R85). -/
def Line.marksOk (l : Line) : Bool := l.cond.isSome || l.items.all (fun it => !it.marked)

end Sys2Proof
end

