-- ==== Sys2Proof/Decode.lean ====
section
/-! DEFINITION. The container encoding: how the model holds instructions in 32-bit slots. THE SOURCE GIVES NO OPCODES
(30_encoding.md R96): every field position here is the model's own DESIGN CHOICE (assumption 1), but for the values 100
to 111 of bits 12:10 of a data-register load, which R95 gives. What 000 to 011 mean there is the model's choice as well:
R95 leaves their assignment unknown. Decoding is total: a word outside the layout is refused by name.

Layout of the first word (bit ranges inclusive; `I` = 0 for J, 1 for K; `b` = operand code; `*` = must be 0):
* Dreg load : 31:30 = 0, 29 I, 28:26 blocks, 25:23 width, 22:18 register, 17:13 index, 12:10 operator, 9 *, 8:0 b
* Dreg store: 31:30 = 1, otherwise as the load, operator 0 to 2
* Ureg access: 31:30 = 2, 29 I, 28 post, 27:26 size, 25:18 ureg, 17:13 index, 12:10 *, 9 store, 8:0 b
* arithmetic: 31:28 = 12, 27 I, 26:22 operation, 21:17 d, 16:12 m, 11:9 *, 8:0 b
* immediate load: 31:28 = 13, 27:20 ureg, 19 value in the next word, 18:16 *, 15:0 value
* move: 31:28 = 14, 27:26 size, 25:18 destination, 17:10 source, 9:0 *
* static flag: 31:26 = 60, 25 flag, 24:21 condition, 20:0 *
* sequencer stubs: 31:26 = 61 NOP, 25:0 *; 31:26 = 62 JUMP, 25:0 line
An operand value in -128..255 and a loaded value in -16384..32767, which hold every value either reading of R83 gives
the short form, stand in the word itself, every other immediate in the next word (R84). Whether an instruction counts
as extended is no matter of its words but of `IMM8_RANGE` and `IMM15_RANGE` (`Form.extended`). -/

namespace Sys2Proof

/-- Why a sequence of slot words holds no instruction. -/
inductive DecodeError where
  /-- `NotAnInstruction` (30_encoding.md R97): the word stands for no form of the listings. -/
  | notAnInstruction
  /-- The instruction needs an immediate extension and no slot follows (R84). -/
  | noExtension
  /-- There is no word at all. -/
  | noWord
deriving DecidableEq, Repr

/-- Bits `lo + n - 1 : lo` of a word, as a number. -/
def field (w : Word) (lo n : Nat) : Nat := w.toNat / 2 ^ lo % 2 ^ n

/-- A number below 32 as a register number. -/
def regNum (n : Nat) : RegNum := Fin.ofNat 32 n

/-! ## Codes of the parts -/

/-- The IALU bit. -/
def Ialu.code (I : Ialu) : Nat :=
  match I with
  | .j => 0
  | .k => 1

/-- Reads the IALU bit. -/
def Ialu.ofCode (n : Nat) : Ialu := if n = 0 then .j else .k

/-- The operand value stands in the next word: it is outside -128..255. -/
def isLong8 (v : Word) : Bool := decide (256 ≤ v.toNat) && decide (v.toNat < 2 ^ 32 - 128)

/-- The loaded value stands in the next word: it is outside -16384..32767. -/
def isLong15 (v : Word) : Bool := decide (32768 ≤ v.toNat) && decide (v.toNat < 2 ^ 32 - 16384)

/-- The nine-bit operand code: 256 + n for register n, 288 for a value in the next word, else the value modulo 2^9:
0 to 255, or 384 to 511 for a negative one. -/
def Opnd.code (b : Opnd) : Nat :=
  match b with
  | .reg n => 256 + n.val
  | .imm v => if isLong8 v then 288 else v.toNat % 2 ^ 9

/-- The operand of a code; `e` is the word of the next slot. -/
def Opnd.ofCode (n : Nat) (e : Word) : Option Opnd :=
  if n < 256 then some (.imm (BitVec.ofNat 32 n))
  else if n < 288 then some (.reg (regNum (n - 256)))
  else if n = 288 then (if isLong8 e then some (.imm e) else none)
  else if 384 ≤ n then some (.imm (BitVec.ofNat 32 (n + (2 ^ 32 - 2 ^ 9))))
  else none

/-- The next word of an operand, if it has one. -/
def Opnd.ext (b : Opnd) : List Word :=
  match b with
  | .reg _ => []
  | .imm v => if isLong8 v then [v] else []

/-- The eight-bit number of a universal register. -/
def Ureg.code (u : Ureg) : Nat :=
  match u with
  | .j n => n.val
  | .k n => 32 + n.val
  | .xr n => 64 + n.val
  | .yr n => 96 + n.val
  | .jb n => 128 + n.val
  | .jl n => 132 + n.val
  | .kb n => 136 + n.val
  | .kl n => 140 + n.val
  | .cjmp => 144
  | .xstat => 145
  | .ystat => 146
  | .lc0 => 147
  | .other n => 148 + n.val

/-- The universal register of a number. -/
def Ureg.ofCode (n : Nat) : Option Ureg :=
  if n < 32 then some (.j (regNum n))
  else if n < 64 then some (.k (regNum (n - 32)))
  else if n < 96 then some (.xr (regNum (n - 64)))
  else if n < 128 then some (.yr (regNum (n - 96)))
  else if n < 132 then some (.jb (Fin.ofNat 4 (n - 128)))
  else if n < 136 then some (.jl (Fin.ofNat 4 (n - 132)))
  else if n < 140 then some (.kb (Fin.ofNat 4 (n - 136)))
  else if n < 144 then some (.kl (Fin.ofNat 4 (n - 140)))
  else match n with
    | 144 => some .cjmp
    | 145 => some .xstat
    | 146 => some .ystat
    | 147 => some .lc0
    | _ => if n < 256 then some (.other (Fin.ofNat 108 (n - 148))) else none

/-- The number of a base or length register of an IALU. -/
def BLReg.code (d : BLReg) : Nat :=
  match d with
  | .base k => k.val
  | .len k => 4 + k.val

/-- The base or length register of a number. -/
def BLReg.ofCode (n : Nat) : Option BLReg :=
  if n < 4 then some (.base (Fin.ofNat 4 n))
  else if n < 8 then some (.len (Fin.ofNat 4 (n - 4)))
  else none

/-- The block code of a two-block form: 0 to 2. -/
def Both.code (c : Both) : Nat :=
  match c with
  | .xy => 0
  | .yx => 1
  | .bare => 2

/-- The two-block form of a block code. -/
def Both.ofCode (n : Nat) : Option Both :=
  match n with
  | 0 => some .xy
  | 1 => some .yx
  | 2 => some .bare
  | _ => none

/-- The block code of a one-block form: 3 or 4. -/
def Blk.code (c : Blk) : Nat :=
  match c with
  | .x => 3
  | .y => 4

/-- The one-block form of a block code. -/
def Blk.ofCode (n : Nat) : Option Blk :=
  match n with
  | 3 => some .x
  | 4 => some .y
  | _ => none

/-- The code of a group size. -/
def Size.code (z : Size) : Nat :=
  match z with
  | .single => 0
  | .dual => 1
  | .quad => 2

/-- The group size of a code. -/
def Size.ofCode (n : Nat) : Option Size :=
  match n with
  | 0 => some .single
  | 1 => some .dual
  | 2 => some .quad
  | _ => none

/-- The width code of a merged access: 3 for one register of each block, 4 for a dual of each. -/
def mergedCode (dual : Bool) : Nat := if dual then 4 else 3

/-- The merged access of a width code. -/
def mergedOfCode (n : Nat) : Option Bool :=
  match n with
  | 3 => some false
  | 4 => some true
  | _ => none

/-- Block and width code of a load. -/
def LdAcc.code (a : LdAcc) : Nat × Nat :=
  match a with
  | .normal z c => (c.code, z.code)
  | .bcast z c => (c.code, z.code)
  | .merged dual c => (c.code, mergedCode dual)

/-- The load access of a block and a width code. A merged access names both blocks (42_load_store.md R165). -/
def LdAcc.ofCode (p w : Nat) : Option LdAcc :=
  match Both.ofCode p, Blk.ofCode p, Size.ofCode w, mergedOfCode w with
  | some c, _, some z, _ => some (.bcast z c)
  | some c, _, _, some d => some (.merged d c)
  | _, some c, some z, _ => some (.normal z c)
  | _, _, _, _ => none

/-- Block and width code of a store. -/
def StAcc.code (a : StAcc) : Nat × Nat :=
  match a with
  | .normal z c => (c.code, z.code)
  | .merged dual c => (c.code, mergedCode dual)

/-- The store access of a block and a width code. There is no broadcast store (42_load_store.md R165). -/
def StAcc.ofCode (p w : Nat) : Option StAcc :=
  match Both.ofCode p, Blk.ofCode p, Size.ofCode w, mergedOfCode w with
  | some c, _, _, some d => some (.merged d c)
  | _, some c, some z, _ => some (.normal z c)
  | _, _, _, _ => none

/-- The code of the operators none, `CB`, `BR` in bits 12:10: 000, 001, 010. DESIGN CHOICE (assumption 1):
30_encoding.md R95 gives the values 000 to 011 to the load forms without offset in an unknown assignment. -/
def PmOp.code (o : PmOp) : Nat :=
  match o with
  | .lin => 0
  | .cb => 1
  | .br => 2

/-- The operator of a code, as `PmOp.code` assigns them (DESIGN CHOICE, assumption 1). -/
def PmOp.ofCode (n : Nat) : Option PmOp :=
  match n with
  | 0 => some .lin
  | 1 => some .cb
  | 2 => some .br
  | _ => none

/-- Bits 12:10 of a DAB access: 100 to 111 for XDAB, XSDAB, YDAB, YSDAB, as 30_encoding.md R95 gives them; 011 for DAB
and SDAB, which the width code tells apart, is a DESIGN CHOICE (assumption 1): R95 leaves 000 to 011 unassigned. -/
def DabKind.opCode (a : DabKind) : Nat :=
  match a with
  | .one _ _ => 3
  | .both _ _ => 3
  | .offset onY short _ => 4 + 2 * onY.toNat + short.toNat

/-- The width code of a DAB access: 2 and 5 tell DAB from SDAB, 0 with an offset. -/
def DabKind.widthCode (a : DabKind) : Nat :=
  match a with
  | .one short _ => if short then 5 else 2
  | .both short _ => if short then 5 else 2
  | .offset _ _ _ => 0

/-- The block code of a DAB access. -/
def DabKind.blockCode (a : DabKind) : Nat :=
  match a with
  | .one _ c => c.code
  | .both _ c => c.code
  | .offset _ _ c => c.code

/-- Tells DAB from SDAB by the width code. -/
def dabShort (w : Nat) : Option Bool :=
  match w with
  | 2 => some false
  | 5 => some true
  | _ => none

/-- The DAB access of its codes: operator `o` in 3..7, block code `p`, width code `w`. -/
def DabKind.ofCode (o p w : Nat) : Option DabKind :=
  if o = 3 then
    match dabShort w, Both.ofCode p, Blk.ofCode p with
    | some s, some c, _ => some (.both s c)
    | some s, _, some c => some (.one s c)
    | _, _, _ => none
  else
    match w, Both.ofCode p with
    | 0, some c => some (.offset (decide (6 ≤ o)) (o % 2 == 1) c)
    | _, _ => none

/-- The operation number of an arithmetic, logical or function instruction, in the order of the opcode table. -/
def Alu2.code (o : Alu2) : Nat :=
  match o with
  | .add => 0 | .sub => 1 | .addCjmp => 2 | .subCjmp => 3 | .addCb => 4 | .subCb => 5 | .addBr => 6 | .subBr => 7
  | .addc => 10 | .subb => 11 | .addHalf => 12 | .subHalf => 13 | .max => 16 | .min => 17 | .or => 19 | .and => 20
  | .xor => 21 | .andNot => 22

/-- The two-operand operation of a number. -/
def Alu2.ofCode (n : Nat) : Option Alu2 :=
  match n with
  | 0 => some .add | 1 => some .sub | 2 => some .addCjmp | 3 => some .subCjmp | 4 => some .addCb | 5 => some .subCb
  | 6 => some .addBr | 7 => some .subBr | 10 => some .addc | 11 => some .subb | 12 => some .addHalf
  | 13 => some .subHalf | 16 => some .max | 17 => some .min | 19 => some .or | 20 => some .and | 21 => some .xor
  | 22 => some .andNot | _ => none

/-- The operation number of a one-operand operation. -/
def Alu1.code (o : Alu1) : Nat :=
  match o with
  | .abs => 18 | .not => 23 | .ashiftr => 24 | .lshiftr => 25 | .rotr => 26 | .rotl => 27

/-- The one-operand operation of a number. -/
def Alu1.ofCode (n : Nat) : Option Alu1 :=
  match n with
  | 18 => some .abs | 23 => some .not | 24 => some .ashiftr | 25 => some .lshiftr | 26 => some .rotr
  | 27 => some .rotl | _ => none

/-- The number of a condition, in the order of Table 7-2. -/
def Cond.code (q : Cond) : Nat :=
  match q with
  | .jeq => 0 | .jlt => 1 | .jle => 2 | .njeq => 3 | .njlt => 4 | .njle => 5
  | .keq => 6 | .klt => 7 | .kle => 8 | .nkeq => 9 | .nklt => 10 | .nkle => 11

/-- The condition of a number. -/
def Cond.ofCode (n : Nat) : Option Cond :=
  match n with
  | 0 => some .jeq | 1 => some .jlt | 2 => some .jle | 3 => some .njeq | 4 => some .njlt | 5 => some .njle
  | 6 => some .keq | 7 => some .klt | 8 => some .kle | 9 => some .nkeq | 10 => some .nklt | 11 => some .nkle
  | _ => none

/-- The next word of an instruction, if it has one (30_encoding.md R84). -/
def Form.extWords (f : Form) : List Word :=
  match f with
  | .alu _ _ _ _ b => b.ext
  | .alu1 _ _ _ _ => []
  | .bl _ _ _ _ b => b.ext
  | .comp _ _ _ b => b.ext
  | .ldU _ _ _ _ _ b => b.ext
  | .stU _ _ _ _ _ b => b.ext
  | .ldD _ _ _ _ _ b => b.ext
  | .stD _ _ _ _ _ b => b.ext
  | .dab _ _ _ _ b => b.ext
  | .ldImm _ v => if isLong15 v then [v] else []
  | .move _ _ _ => []
  | .gscf _ _ => []

/-- The next word of an item, if it has one. -/
def Item.extWords (it : Item) : List Word :=
  match it with
  | .ialu i => i.form.extWords
  | .nop => []
  | .jump _ => []

/-- What the decoder reads past the last word: a value that stands in the next word in both immediate forms, so that an
instruction that lacks its next word is told from a word that is no instruction. -/
def pastEnd : Word := 0x80000000

/-! ## Decoding -/

/-- Decodes a data-register load word (30_encoding.md R90, R94, R95). -/
def decodeDregLoad (w e : Word) : Option Form := do
  let I := Ialu.ofCode (field w 29 1)
  let p := field w 26 3
  let wd := field w 23 3
  let r := regNum (field w 18 5)
  let m := regNum (field w 13 5)
  let o := field w 10 3
  if field w 9 1 ≠ 0 then none
  let b ← Opnd.ofCode (field w 0 9) e
  match PmOp.ofCode o with
  | some op => (LdAcc.ofCode p wd).map fun a => .ldD I a r op m b
  | none => (DabKind.ofCode o p wd).map fun a => .dab I a r m b

/-- Decodes a data-register store word (30_encoding.md R92). -/
def decodeDregStore (w e : Word) : Option Form := do
  let I := Ialu.ofCode (field w 29 1)
  let r := regNum (field w 18 5)
  let m := regNum (field w 13 5)
  if field w 9 1 ≠ 0 then none
  let b ← Opnd.ofCode (field w 0 9) e
  let op ← PmOp.ofCode (field w 10 3)
  let a ← StAcc.ofCode (field w 26 3) (field w 23 3)
  some (.stD I a r op m b)

/-- Decodes a universal-register access word (30_encoding.md R89, R91). -/
def decodeUregAccess (w e : Word) : Option Form := do
  let I := Ialu.ofCode (field w 29 1)
  let p : Modify := if field w 28 1 = 0 then .pre else .post
  let m := regNum (field w 13 5)
  if field w 10 3 ≠ 0 then none
  let z ← Size.ofCode (field w 26 2)
  let u ← Ureg.ofCode (field w 18 8)
  let b ← Opnd.ofCode (field w 0 9) e
  some (if field w 9 1 = 0 then .ldU I z p u m b else .stU I z p u m b)

/-- Decodes an arithmetic, logical or function word (30_encoding.md R88). -/
def decodeArith (w e : Word) : Option Form := do
  let I := Ialu.ofCode (field w 27 1)
  let o := field w 22 5
  let d := field w 17 5
  let m := regNum (field w 12 5)
  if field w 9 3 ≠ 0 then none
  match Alu2.ofCode o, Alu1.ofCode o with
  | some o2, _ => (Opnd.ofCode (field w 0 9) e).map fun b => .alu I o2 (regNum d) m b
  | _, some o1 => if field w 0 9 = 0 then some (.alu1 I o1 (regNum d) m) else none
  | _, _ =>
    let b ← Opnd.ofCode (field w 0 9) e
    match o with
    | 8 => (BLReg.ofCode d).map fun d => .bl I false d m b
    | 9 => (BLReg.ofCode d).map fun d => .bl I true d m b
    | 14 => if d = 0 then some (.comp I false m b) else none
    | 15 => if d = 0 then some (.comp I true m b) else none
    | _ => none

/-- Decodes an immediate load word (30_encoding.md R93). -/
def decodeLdImm (w e : Word) : Option Form := do
  let u ← Ureg.ofCode (field w 20 8)
  let v := field w 0 16
  if field w 16 3 ≠ 0 then none
  if field w 19 1 = 0 then
    if v < 2 ^ 15 then some (.ldImm u (BitVec.ofNat 32 v))
    else if 2 ^ 16 - 2 ^ 14 ≤ v then some (.ldImm u (BitVec.ofNat 32 (v + (2 ^ 32 - 2 ^ 16))))
    else none
  else if v = 0 ∧ isLong15 e = true then some (.ldImm u e)
  else none

/-- Decodes a transfer word (30_encoding.md R93). -/
def decodeMove (w : Word) : Option Form := do
  let z ← Size.ofCode (field w 26 2)
  let d ← Ureg.ofCode (field w 18 8)
  let u ← Ureg.ofCode (field w 10 8)
  if field w 0 10 = 0 then some (.move z d u) else none

/-- Decodes the words of class 15: static-flag loads and the sequencer stubs. -/
def decodeOther (w : Word) : Option (Form ⊕ Item) :=
  match field w 26 2 with
  | 0 => if field w 0 21 = 0 then (Cond.ofCode (field w 21 4)).map fun q => .inl (.gscf (field w 25 1 == 1) q) else none
  | 1 => if field w 0 26 = 0 then some (.inr .nop) else none
  | 2 => some (.inr (.jump (BitVec.ofNat 26 (field w 0 26))))
  | _ => none

/-- The item a slot word stands for; `e` is the word of the next slot, read only where the value stands there. -/
def decodeWord (w e : Word) : Option Item :=
  let inst (f : Option Form) : Option Item := f.map fun f => .ialu f.instr
  match field w 30 2 with
  | 0 => inst (decodeDregLoad w e)
  | 1 => inst (decodeDregStore w e)
  | 2 => inst (decodeUregAccess w e)
  | _ => match field w 28 2 with
    | 0 => inst (decodeArith w e)
    | 1 => inst (decodeLdImm w e)
    | 2 => inst (decodeMove w)
    | _ => (decodeOther w).map fun x => match x with
      | .inl f => .ialu f.instr
      | .inr it => it

/-- The decoder: the item at the head of a sequence of slot words and the words after it. -/
def decode (ws : List Word) : Except DecodeError (Item × List Word) :=
  match ws with
  | [] => .error .noWord
  | w :: rest =>
    match decodeWord w (rest.headD pastEnd) with
    | none => .error .notAnInstruction
    | some it =>
      match it.extWords, rest with
      | [], _ => .ok (it, rest)
      | _ :: _, [] => .error .noExtension
      | _ :: _, _ :: after => .ok (it, after)

/-- Decodes the slots of a line, first to last; an extension slot's own mark is not read. -/
def decodeSlots (l : List Slot) : Except DecodeError (List LineItem) :=
  match l with
  | [] => .ok []
  | a :: [] =>
    match decodeWord a.word pastEnd with
    | none => .error .notAnInstruction
    | some it =>
      match it.extWords with
      | [] => .ok [⟨a.marked, it⟩]
      | _ :: _ => .error .noExtension
  | a :: b :: rest =>
    match decodeWord a.word b.word with
    | none => .error .notAnInstruction
    | some it =>
      match it.extWords with
      | [] => (decodeSlots (b :: rest)).map fun l => ⟨a.marked, it⟩ :: l
      | _ :: _ => (decodeSlots rest).map fun l => ⟨a.marked, it⟩ :: l

/-- Decodes a line of the program text. -/
def decodeLine (l : ProgLine) : Except DecodeError Line := (decodeSlots l.slots).map fun items => ⟨l.cond, items⟩

/-! ## Encoding -/

/-- The first word of an instruction, from the same layout. -/
def Form.firstWord (f : Form) : Nat :=
  match f with
  | .ldD I a r op m b =>
    I.code * 2 ^ 29 + a.code.1 * 2 ^ 26 + a.code.2 * 2 ^ 23 + r.val * 2 ^ 18 + m.val * 2 ^ 13 + op.code * 2 ^ 10 + b.code
  | .dab I a r m b =>
    I.code * 2 ^ 29 + a.blockCode * 2 ^ 26 + a.widthCode * 2 ^ 23 + r.val * 2 ^ 18 + m.val * 2 ^ 13
      + a.opCode * 2 ^ 10 + b.code
  | .stD I a r op m b =>
    2 ^ 30 + I.code * 2 ^ 29 + a.code.1 * 2 ^ 26 + a.code.2 * 2 ^ 23 + r.val * 2 ^ 18 + m.val * 2 ^ 13
      + op.code * 2 ^ 10 + b.code
  | .ldU I z p u m b =>
    2 * 2 ^ 30 + I.code * 2 ^ 29 + (if p = .post then 1 else 0) * 2 ^ 28 + z.code * 2 ^ 26 + u.code * 2 ^ 18
      + m.val * 2 ^ 13 + b.code
  | .stU I z p u m b =>
    2 * 2 ^ 30 + I.code * 2 ^ 29 + (if p = .post then 1 else 0) * 2 ^ 28 + z.code * 2 ^ 26 + u.code * 2 ^ 18
      + m.val * 2 ^ 13 + 2 ^ 9 + b.code
  | .alu I o d m b => 12 * 2 ^ 28 + I.code * 2 ^ 27 + o.code * 2 ^ 22 + d.val * 2 ^ 17 + m.val * 2 ^ 12 + b.code
  | .alu1 I o d m => 12 * 2 ^ 28 + I.code * 2 ^ 27 + o.code * 2 ^ 22 + d.val * 2 ^ 17 + m.val * 2 ^ 12
  | .bl I sub d m b =>
    12 * 2 ^ 28 + I.code * 2 ^ 27 + (8 + sub.toNat) * 2 ^ 22 + d.code * 2 ^ 17 + m.val * 2 ^ 12 + b.code
  | .comp I unsigned m b => 12 * 2 ^ 28 + I.code * 2 ^ 27 + (14 + unsigned.toNat) * 2 ^ 22 + m.val * 2 ^ 12 + b.code
  | .ldImm u v => 13 * 2 ^ 28 + u.code * 2 ^ 20 + (if isLong15 v then 2 ^ 19 else v.toNat % 2 ^ 16)
  | .move z d u => 14 * 2 ^ 28 + z.code * 2 ^ 26 + d.code * 2 ^ 18 + u.code * 2 ^ 10
  | .gscf one q => 60 * 2 ^ 26 + one.toNat * 2 ^ 25 + q.code * 2 ^ 21

/-- The words of an instruction: its own and, where it has one, the next. -/
def encode (i : Instr) : List Word := BitVec.ofNat 32 i.form.firstWord :: i.form.extWords

/-- The slot words of an item. -/
def Item.words (it : Item) : List Word :=
  match it with
  | .ialu i => encode i
  | .nop => [BitVec.ofNat 32 (61 * 2 ^ 26)]
  | .jump t => [BitVec.ofNat 32 (62 * 2 ^ 26 + t.toNat)]

/-- The slots of an item: the first carries the mark, an extension slot carries none. -/
def LineItem.slots (it : LineItem) : List Slot :=
  match it.item.words with
  | [] => []
  | w :: rest => ⟨it.marked, w⟩ :: rest.map fun e => ⟨false, e⟩

/-- The program text of a line of the syntax. -/
def Line.assemble (l : Line) : ProgLine := ⟨l.cond, l.items.flatMap LineItem.slots⟩

/-! ## The host's numbering -/

/-- The two slot words of an instruction whose bits are `w`: bit 0 is the least significant bit of the first word and
the second word's bits count on from bit 32. Bits at or above `nbits` are 0. -/
def tableWords (nbits w : Nat) : List Word :=
  [BitVec.ofNat 32 (w % 2 ^ nbits), BitVec.ofNat 32 (w % 2 ^ nbits / 2 ^ 32)]

/-- The IALU instruction the decoder reads from an instruction whose bits are `w`, numbered as the opcode table
numbers them. -/
def decodeTableWord (nbits w : Nat) : Option Instr :=
  match decode (tableWords nbits w) with
  | .ok (.ialu i, _) => some i
  | _ => none

end Sys2Proof
end

