-- ==== Sys2Proof/Machine/State.lean ====
section
/-! DEFINITION. The state of the machine (10_state.md R20), its value after reset, and the reasons a step can stop
(60_exceptions.md R261, R262). Plain data throughout. -/

namespace Sys2Proof.Machine

/-- The four flags of one IALU (10_state.md R27). JSTAT and KSTAT are kept as these four; the word is formed only when
the register is stored or moved (R26, 92_eei_decisions.md D17). -/
structure Flags where
  z : Bool
  n : Bool
  v : Bool
  c : Bool
deriving DecidableEq, Repr

/-- The registers of one IALU. `baseHold` and `lenHold` are the write ages of 70_reset_and_hazards.md R286 counted down:
a write sets 5, each completed line takes 1 away, so between lines a register written `a` lines ago (`a < 4`) holds
`4 - a` and 0 stands for every greater age. -/
structure IaluState where
  /-- I0..I30 (R21, R22). -/
  gpr : Vector Word 31
  flags : Flags
  /-- IB0..IB3 (R29). -/
  base : Vector Word 4
  /-- IL0..IL3 (R30). -/
  len : Vector Word 4
  baseHold : Vector Nat 4
  lenHold : Vector Nat 4
deriving DecidableEq, Repr

/-- A data alignment buffer: one quad word and the mark `primed` (10_state.md R35). -/
structure Dab where
  words : Vector Word 4
  primed : Bool
deriving DecidableEq, Repr

/-- A run of mapped word addresses: `base` up to but not including `base + size` (20_memory.md R58). -/
structure Region where
  base : Nat
  size : Nat
deriving DecidableEq, Repr

/-- The contents of memory as listed bytes in one canonical form (`Memory.wf`). Word address `a` owns the cells `4a` to
`4a + 3`, least significant byte first; no instruction can see that order (20_memory.md R57, assumption 3). -/
abbrev Memory := List Host.Cell

/-- What an unlisted cell reads as (assumption 4). -/
def unlistedByte : Byte := 0

/-- The canonical form: addresses strictly rising and no cell equal to what an unlisted one reads as. -/
def Memory.wf (m : Memory) : Bool :=
  match m with
  | [] => true
  | (_, v) :: [] => v != unlistedByte
  | (a, v) :: (b, w) :: rest => v != unlistedByte && decide (a < b) && Memory.wf ((b, w) :: rest)

/-- The state of the machine, in the order of 10_state.md R20. -/
structure State where
  /-- J0..J30, JSTAT, JB0..JB3, JL0..JL3 and their ages. -/
  j : IaluState
  /-- K0..K30, KSTAT, KB0..KB3, KL0..KL3 and their ages. -/
  k : IaluState
  /-- CJMP, the sequencer's computed-jump register (R31). -/
  cjmp : Word
  /-- GSCF0 (R32). -/
  gscf0 : Bool
  /-- GSCF1 (R32). -/
  gscf1 : Bool
  /-- XR0..XR31 (R33), of which the parameter `NDREG` says how many exist. -/
  xr : Vector Word 32
  /-- YR0..YR31 (R33), likewise. -/
  yr : Vector Word 32
  /-- Which of XR0..XR31 an access to an unprimed X-DAB has left unwritten (43_dab.md R209, assumption 32). -/
  xUnwritten : Vector Bool 32
  /-- Which of YR0..YR31 an access to an unprimed Y-DAB has left unwritten, likewise. -/
  yUnwritten : Vector Bool 32
  /-- XSTAT, an opaque cell (R34). -/
  xstat : Word
  /-- YSTAT, an opaque cell (R34). -/
  ystat : Word
  /-- LC0, an opaque cell (R34); the stub of 92_eei_decisions.md D23 counts it down. -/
  lc0 : Word
  /-- The universal registers the chapter does not name, opaque cells (R34, R189); which of them exist is the parameter
  `UregSet` (assumption 5). -/
  other : Vector Word 108
  /-- The X-DAB (R35). -/
  dabX : Dab
  /-- The Y-DAB (R35). -/
  dabY : Dab
  /-- The contents of `MemMap` (20_memory.md R58). -/
  mem : Memory
  /-- The domain of `MemMap`: which word addresses exist (20_memory.md R58); no instruction changes it. -/
  memMap : List Region
  /-- The program counter, an index into the program text (R36). -/
  pc : Nat
  /-- The program text, outside memory; no instruction changes it (20_memory.md R64). -/
  prog : List ProgLine
  /-- The model's own counter: how many values the source leaves open have been drawn (assumption 8). -/
  draws : Nat
deriving DecidableEq, Repr

/-- One IALU after reset: the source gives no value; every register holds 0 and every age is past 4 (assumption 2). -/
def IaluState.reset : IaluState where
  gpr := Vector.replicate 31 0
  flags := ⟨false, false, false, false⟩
  base := Vector.replicate 4 0
  len := Vector.replicate 4 0
  baseHold := Vector.replicate 4 0
  lenHold := Vector.replicate 4 0

/-- A data alignment buffer after reset: not primed (10_state.md R39); its words are the model's (assumption 2). -/
def Dab.reset : Dab where
  words := Vector.replicate 4 0
  primed := false

/-- The word address at which the memory-mapped registers begin in the family's memory map (PRESUMED, assumption 17). -/
def registerWindow : Nat := 0x1E0000

/-- The first word address after the memory-mapped registers in the family's memory map (PRESUMED, assumption 17). -/
def registerWindowEnd : Nat := 0x200000

/-- The family's map holds the registers a second time at this offset and after it, once for the broadcast space and for
each of eight processors (PRESUMED, assumption 17). -/
def registerImages : Nat := 0x0C000000

/-- The distance of two such images (PRESUMED, assumption 17). -/
def imageSize : Nat := 0x04000000

/-- The gaps between the register windows from image `i` on, `n` images being left; the last reaches the end of the
space. -/
def imageGaps (i n : Nat) : List Region :=
  let first := registerImages + i * imageSize + registerWindowEnd
  match n with
  | 0 => []
  | 1 => [⟨first, 2 ^ 32 - first⟩]
  | n + 1 => ⟨first, imageSize - (registerWindowEnd - registerWindow)⟩ :: imageGaps (i + 1) n

/-- The map at launch: every word address but those of the memory-mapped registers, which `MemMap` must not contain
(20_memory.md R58). The spec gives neither a map nor the registers' addresses: the addresses left out are the family's
(PRESUMED, assumption 17), all others are in (DESIGN CHOICE, assumption 17). -/
def launchMap : List Region :=
  ⟨0, registerWindow⟩ :: ⟨registerWindowEnd, registerImages + registerWindow - registerWindowEnd⟩ :: imageGaps 0 9

/-- The machine right after reset (10_state.md R39, 70_reset_and_hazards.md R280). The source states one value, the
buffers' `primed = false`, and that a run begins at the first line of the text; all else is the model's choice
(assumptions 2 and 17): every register 0, nothing listed in memory, `launchMap`, no program. -/
def State.reset : State where
  j := IaluState.reset
  k := IaluState.reset
  cjmp := 0
  gscf0 := false
  gscf1 := false
  xr := Vector.replicate 32 0
  yr := Vector.replicate 32 0
  xUnwritten := Vector.replicate 32 false
  yUnwritten := Vector.replicate 32 false
  xstat := 0
  ystat := 0
  lc0 := 0
  other := Vector.replicate 108 0
  dabX := Dab.reset
  dabY := Dab.reset
  mem := []
  memMap := launchMap
  pc := 0
  prog := []
  draws := 0

/-- The faults (60_exceptions.md R261). A fault ends the run with nothing written. -/
inductive Fault where
  /-- `UnwrittenRead(reg)`: a store or move reads a data register that an unprimed DAB access left unwritten (43_dab.md
  R209). Raised by every store and move that can name a data register. A register that nothing has written since reset
  does not raise it: every register holds a value then (assumption 2). Safe: the spec gives such a read no value. -/
  | unwrittenRead (reg : Ureg)
  /-- `MisalignedAccess(addr, n)`: a long or quad access at an address not divisible by `n` (20_memory.md R55). Raised by
  every `L` and `Q` load and store of 42_load_store.md. Safe: the source calls it a runtime error. -/
  | misalignedAccess (addr n : Nat)
  /-- `UnmappedAccess(addr)`: a word of the access at `addr` is outside `MemMap` (00_scope.md R10, 20_memory.md R58). Raised
  by every load, store and DAB access. Safe: the map is part of the state, so a claim holds for every map. -/
  | unmappedAccess (addr : Nat)
deriving DecidableEq, Repr

/-- The refusals (60_exceptions.md R262): the model gives the line no meaning. Each is safe: nothing is claimed of the
hardware there. -/
inductive Refusal where
  /-- An instruction of the table that has no meaning in `exec` yet. Raised by no arm of this model; safe. -/
  | notModelled (mnemonic : String)
  /-- The instruction's form is refused: `RegisterGroupAlignment`, `NotAnInstruction` for a register that does not exist,
  `NotAnIndexRegister` or `UnspecifiedForm` (R262). Raised by the instructions those reasons name; safe. -/
  | badForm (r : FormReason)
  /-- `CircularPrecondition`: a circular update whose preconditions fail, or a DAB form with a non-zero length and a
  modifier other than 4 (8) (44_circular_bitreverse.md R222, 43_dab.md R203). Raised by (CB), `CB` and DAB forms; safe. -/
  | circularPrecondition
  /-- `BaseLengthHazard`: with `bl_strict`, a use of buffer k fewer than four lines after a write of IBk or ILk
  (70_reset_and_hazards.md R286). Raised by (CB), `CB` and DAB forms; safe. -/
  | baseLengthHazard
  /-- `IntraLineConflict`: two instructions of a line touch one item, or one IALU executes two (30_encoding.md R82,
  20_memory.md R62, 42_load_store.md R188). Raised by the line; safe. -/
  | intraLineConflict
  /-- `StatusWriteConflict`: a load or move into JSTAT (KSTAT) beside a J-IALU (K-IALU) operation
  (70_reset_and_hazards.md R284). Raised by the line; safe. -/
  | statusWriteConflict
  /-- `MalformedLine`: the slot layout of 30_encoding.md R84 is violated. Raised by the line; safe. -/
  | malformedLine
  /-- `NotAnInstruction`: a slot word outside the listings, or a `DO` mark in a line without a condition
  (30_encoding.md R85, R97). Raised by the fetch; safe. -/
  | notAnInstruction
  /-- The program text has no line at the program counter: the run is over. Raised by the fetch; safe. -/
  | endOfProgram
deriving DecidableEq, Repr

/-- The outcome of a step or of an instruction. -/
abbrev Out := Host.Outcome State Fault Refusal

end Sys2Proof.Machine
end

