-- ==== Sys2Proof/Machine/Flags.lean ====
section
/-! DEFINITION. Every flag and result computation of the arithmetic, logical and function instructions
(40_arith_logic.md R101 to R104 and the instructions' own rules), on plain values. -/

namespace Sys2Proof.Machine

/-- A result with the flags that go with it. -/
structure Res where
  r : Word
  flags : Flags
deriving DecidableEq, Repr

/-- The integer fits 32 signed bits (R102). -/
def inRange32 (x : Int) : Bool := decide (minInt32 ≤ x) && decide (x ≤ maxInt32)

/-- `setZN`: Z and N report the result, V and C stay (00_scope.md R12, R101). -/
def Flags.setZN (f : Flags) (r : Word) : Flags := { f with z := r == 0, n := r.msb }

/-- V and C replaced. -/
def Flags.setVC (f : Flags) (v c : Bool) : Flags := { f with v := v, c := c }

/-- Addition with a carry in: the low 32 bits, Z and N of the result, V when the exact signed sum does not fit, C the
carry out (R102, R103, R105, R113). -/
def addCarry (a b : Word) (cin : Bool) : Res :=
  let t := a.toNat + b.toNat + cin.toNat
  let r := BitVec.ofNat 32 t
  ⟨r, ⟨r == 0, r.msb, !inRange32 (a.toInt + b.toInt + cin.toNat), decide (2 ^ 32 ≤ t)⟩⟩

/-- Subtraction by adding the complement with a carry in, where 1 means no borrow (R103, R106, R114). -/
def subCarry (a b : Word) (cin : Bool) : Res :=
  let t := a.toNat + (~~~b).toNat + cin.toNat
  let r := BitVec.ofNat 32 t
  ⟨r, ⟨r == 0, r.msb, !inRange32 (a.toInt - b.toInt + cin.toNat - 1), decide (2 ^ 32 ≤ t)⟩⟩

/-- `Im + B` (R105) or `Im - B` (R106). -/
def addSub (sub : Bool) (a b : Word) : Res := if sub then subCarry a b true else addCarry a b false

/-- V or C after an instruction Table 7-1 does not list for it: as before or cleared, by `vc_nonarith` (R12, R104). -/
def keepBit (old : Bool) : Bool :=
  match Config.vcNonarith with
  | .unchanged => old
  | .cleared => false

/-- `keepVC` under `vc_nonarith`: V and C after an instruction Table 7-1 does not list for them (R12, R104). -/
def keepVC (f : Flags) : Flags := f.setVC (keepBit f.v) (keepBit f.c)

/-- `keepVC` applied to C only, for ABS (R121). -/
def keepC (f : Flags) : Flags := f.setVC f.v (keepBit f.c)

/-- V or C after an add or subtract with (BR), parameter `vc_br` (R111). -/
def brBit (old drawn : Bool) : Bool :=
  match Config.vcBr with
  | .cleared => false
  | .unchanged => old
  | .draw => drawn

/-- V and C after an add or subtract with (BR); `w` is the draw (R111). -/
def vcBr (f : Flags) (w : Word) : Flags := f.setVC (brBit f.v (w.getLsbD 0)) (brBit f.c (w.getLsbD 1))

/-- V or C after an add or subtract with (CB), parameter `vc_cb` (R110). -/
def cbBit (plain drawn : Bool) : Bool :=
  match Config.vcCb with
  | .unwrapped => plain
  | .cleared => false
  | .draw => drawn

/-- V and C after an add or subtract with (CB); `plain` are the flags of the unwrapped operation and `w` is the draw
(R110). -/
def vcCb (f plain : Flags) (w : Word) : Flags :=
  f.setVC (cbBit plain.v (w.getLsbD 0)) (cbBit plain.c (w.getLsbD 1))

/-- Half of `y`, an odd `y` rounded as the parameter says for the exact sum `x` (R115). -/
def halfRound (x y : Int) : Int := if y % 2 = 0 then y / 2 else if Config.halfCeil x then y / 2 + 1 else y / 2

/-- Parameter `half33`: for an odd sum in range the floor or the ceiling of its half; out of range the half of the
33-bit sum, or of the sum truncated to 32 bits (R115, 92_eei_decisions.md D13). The half of 2^32 - 1 (R116:
0x7FFFFFFF - 0x80000000) rounded up is 2^31, which 32 signed bits do not hold and for which the spec says nothing: that
its low 32 bits, 0x80000000, are the result is the model's choice (DESIGN CHOICE, assumption 12). -/
def half33 (x : Int) : Word :=
  if inRange32 x then BitVec.ofInt 32 (halfRound x x)
  else if Config.halfTrunc x then BitVec.ofInt 32 (halfRound x (BitVec.ofInt 32 x).toInt)
  else BitVec.ofInt 32 (halfRound x x)

/-- The result of the divide by two: the half of an even sum in range, else `half33` (R115, R116). -/
def halve (x : Int) : Word := if x % 2 = 0 ∧ inRange32 x then BitVec.ofInt 32 (x / 2) else half33 x

/-- The exact sum or difference that is halved (R115, R116). -/
def halfSum (sub : Bool) (a b : Word) : Int := if sub then a.toInt - b.toInt else a.toInt + b.toInt

/-- Z and N of COMP: equality and the true order of the operands (R117, R118). -/
def compFlags (unsigned : Bool) (a b : Word) (f : Flags) : Flags :=
  { f with z := a == b, n := if unsigned then decide (a.toNat < b.toNat) else decide (a.toInt < b.toInt) }

/-- MAX: signed, the first operand when equal (R119). -/
def maxWord (a b : Word) : Word := if b.toInt ≤ a.toInt then a else b

/-- MIN: signed, the first operand when equal (R120). -/
def minWord (a b : Word) : Word := if a.toInt ≤ b.toInt then a else b

/-- ABS: the absolute value; of 0x80000000 the parameter `abs_min` (R121). -/
def absWord (a : Word) : Word := if a = 0x80000000 then Config.absMin else if a.msb then 0 - a else a

/-- The flags of ABS: Z from the result, N the sign of the input, V only for 0x80000000, C kept (R121). -/
def absFlags (a : Word) (f : Flags) : Flags :=
  keepC { f with z := absWord a == 0, n := a.msb, v := a == 0x80000000 }

/-- ASHIFTR: one bit right, the sign kept (R127). -/
def ashiftr1 (a : Word) : Word := a.sshiftRight 1

/-- LSHIFTR: one bit right, a zero enters (R128). -/
def lshiftr1 (a : Word) : Word := a >>> 1

/-- ROTR: one bit right around (R129). -/
def rotr1 (a : Word) : Word := a.rotateRight 1

/-- ROTL: one bit left around (R130). -/
def rotl1 (a : Word) : Word := a.rotateLeft 1

/-- Sets bit `p` of a word. -/
def putBit (w : Word) (p : Nat) (b : Bool) : Word :=
  if b then w ||| BitVec.twoPow 32 p else w &&& ~~~BitVec.twoPow 32 p

/-- The word of JSTAT or KSTAT: the flags at their positions, every other bit from the draw `free` (10_state.md R26). -/
def statWord (f : Flags) (free : Word) : Word :=
  putBit (putBit (putBit (putBit free Config.flagPos.z f.z) Config.flagPos.n f.n) Config.flagPos.v f.v)
    Config.flagPos.c f.c

/-- The flags a word written to JSTAT or KSTAT sets; its other bits are dropped (10_state.md R26, 42_load_store.md
R189). -/
def flagsOfWord (w : Word) : Flags :=
  ⟨w.getLsbD Config.flagPos.z, w.getLsbD Config.flagPos.n, w.getLsbD Config.flagPos.v, w.getLsbD Config.flagPos.c⟩

/-- The condition of Table 7-2 on the two files' flags (41_conditions.md R150). -/
def condHolds (q : Cond) (j k : Flags) : Bool :=
  match q with
  | .jeq => j.z
  | .jlt => j.n
  | .jle => j.n || j.z
  | .njeq => !j.z
  | .njlt => !j.n
  | .njle => !j.n && !j.z
  | .keq => k.z
  | .klt => k.n
  | .kle => k.n || k.z
  | .nkeq => !k.z
  | .nklt => !k.n
  | .nkle => !k.n && !k.z

end Sys2Proof.Machine
end

