-- ==== Sys2Proof/Machine/Ops.lean ====
section
/-! DEFINITION. The named operations over registers and memory: the one home of every register's special behaviour and
of every memory access (00_scope.md R9, R10; 10_state.md; 20_memory.md). The source describes no exception entry and
no return from one (60_exceptions.md R265, R266): a fault ends the run (R260), which `withAccess` does. -/

namespace Sys2Proof.Machine

/-! ## The two IALUs -/

/-- The registers of one IALU. -/
def State.ialu (s : State) (I : Ialu) : IaluState :=
  match I with
  | .j => s.j
  | .k => s.k

/-- Replaces the registers of one IALU. -/
def State.setIalu (s : State) (I : Ialu) (x : IaluState) : State :=
  match I with
  | .j => { s with j := x }
  | .k => { s with k := x }

/-- The flags of one IALU. -/
def State.flagsOf (s : State) (I : Ialu) : Flags := (s.ialu I).flags

/-- Replaces the flags of one IALU. -/
def State.setFlags (s : State) (I : Ialu) (f : Flags) : State := s.setIalu I { s.ialu I with flags := f }

/-- General register `i`; number 31 has no stored word and reads 0 (10_state.md R23). -/
def IaluState.read (x : IaluState) (i : RegNum) : Word := if h : i.val < 31 then x.gpr[i.val] else 0

/-- Writes general register `i`; a write to number 31 is discarded (10_state.md R24). -/
def IaluState.write (x : IaluState) (i : RegNum) (v : Word) : IaluState :=
  if h : i.val < 31 then { x with gpr := x.gpr.set i.val v h } else x

/-- `aluread(I, i)` (00_scope.md R9): register 31 reads as zero (10_state.md R23). -/
def aluread (I : Ialu) (i : RegNum) (s : State) : Word := (s.ialu I).read i

/-- `aluwrite(I, i, v)` (00_scope.md R9): register 31 discards the value (10_state.md R24). -/
def aluwrite (I : Ialu) (i : RegNum) (v : Word) (s : State) : State := s.setIalu I ((s.ialu I).write i v)

/-- The hold a write of a base or length register starts (70_reset_and_hazards.md R286): 5, of which the writing line
itself takes one when it completes. -/
def holdStart : Nat := 5

/-- Writes a base or length register and starts its age (10_state.md R29, R30; 70_reset_and_hazards.md R286). -/
def IaluState.writeBL (x : IaluState) (d : BLReg) (v : Word) : IaluState :=
  match d with
  | .base k => { x with base := x.base.set k.val v, baseHold := x.baseHold.set k.val holdStart }
  | .len k => { x with len := x.len.set k.val v, lenHold := x.lenHold.set k.val holdStart }

/-- Writes a base or length register of IALU `I`. -/
def writeBL (I : Ialu) (d : BLReg) (v : Word) (s : State) : State := s.setIalu I ((s.ialu I).writeBL d v)

/-! ## Compute-block registers -/

/-- Data register `i` of a block (10_state.md R33). -/
def readDreg (c : Blk) (i : RegNum) (s : State) : Word :=
  match c with
  | .x => s.xr[i.val]
  | .y => s.yr[i.val]

/-- An unprimed DAB access has left data register `i` of a block unwritten, and nothing has written it since (43_dab.md
R209). -/
def dregUnwritten (c : Blk) (i : RegNum) (s : State) : Bool :=
  match c with
  | .x => s.xUnwritten[i.val]
  | .y => s.yUnwritten[i.val]

/-- Writes data register `i` of a block, which is then no longer unwritten (10_state.md R33, 43_dab.md R209). -/
def writeDreg (c : Blk) (i : RegNum) (v : Word) (s : State) : State :=
  match c with
  | .x => { s with xr := s.xr.set i.val v, xUnwritten := s.xUnwritten.set i.val false }
  | .y => { s with yr := s.yr.set i.val v, yUnwritten := s.yUnwritten.set i.val false }

/-- Marks data register `i` of a block as unwritten (43_dab.md R209). -/
def markUnwritten (c : Blk) (i : RegNum) (s : State) : State :=
  match c with
  | .x => { s with xUnwritten := s.xUnwritten.set i.val true }
  | .y => { s with yUnwritten := s.yUnwritten.set i.val true }

/-- A data register as a universal register. -/
def dregUreg (c : Blk) (r : RegNum) : Ureg :=
  match c with
  | .x => .xr r
  | .y => .yr r

/-- The data alignment buffer of a block (10_state.md R35). -/
def State.dab (s : State) (c : Blk) : Dab :=
  match c with
  | .x => s.dabX
  | .y => s.dabY

/-- Replaces the data alignment buffer of a block. -/
def State.setDab (s : State) (c : Blk) (d : Dab) : State :=
  match c with
  | .x => { s with dabX := d }
  | .y => { s with dabY := d }

/-! ## Values the source leaves open -/

/-- Draws the next open value (00_scope.md R12; assumption 8). -/
def draw (s : State) : Word × State := (Config.freeWord s.draws, { s with draws := s.draws + 1 })

/-- Gives data register `i` of a block an element of a DAB result. An element without a defined value leaves the register
unwritten, whatever it held (43_dab.md R209); the word that then stands there, which no instruction can read, is a draw
(assumption 32). -/
def putDreg (c : Blk) (i : RegNum) (e : Option Word) (s : State) : State :=
  match e with
  | some w => writeDreg c i w s
  | none => markUnwritten c i (writeDreg c i (draw s).1 (draw s).2)

/-- Gives data registers, each its element of a DAB result. -/
def putDregs (l : List ((Blk × RegNum) × Option Word)) (s : State) : State :=
  match l with
  | [] => s
  | (t, e) :: rest => putDregs rest (putDreg t.1 t.2 e s)

/-! ## Universal registers -/

/-- The IALU whose status register this is (10_state.md R25). -/
def statOf (u : Ureg) : Option Ialu :=
  match u with
  | .j n => if n = 31 then some .j else none
  | .k n => if n = 31 then some .k else none
  | _ => none

/-- A universal register other than JSTAT and KSTAT, read whole. -/
def readPlain (u : Ureg) (s : State) : Word :=
  match u with
  | .j n => aluread .j n s
  | .k n => aluread .k n s
  | .xr n => readDreg .x n s
  | .yr n => readDreg .y n s
  | .jb n => s.j.base[n.val]
  | .jl n => s.j.len[n.val]
  | .kb n => s.k.base[n.val]
  | .kl n => s.k.len[n.val]
  | .cjmp => s.cjmp
  | .xstat => s.xstat
  | .ystat => s.ystat
  | .lc0 => s.lc0
  | .other n => s.other[n.val]

/-- The universal register is unwritten; only a data register can be (43_dab.md R209). -/
def uregUnwritten (u : Ureg) (s : State) : Bool :=
  match u with
  | .xr n => dregUnwritten .x n s
  | .yr n => dregUnwritten .y n s
  | _ => false

/-- Writes a universal register other than JSTAT and KSTAT. A base or length register starts its age
(70_reset_and_hazards.md R286), also where a move gives it its own value: 45_ureg_transfer.md R241 calls a move of a
register to itself a no-op and R286 counts every move as a write, and that the age starts is the model's choice (DESIGN
CHOICE, assumption 16). A register outside the IALUs is a cell and nothing else (10_state.md R34). -/
def writePlain (u : Ureg) (v : Word) (s : State) : State :=
  match u with
  | .j n => aluwrite .j n v s
  | .k n => aluwrite .k n v s
  | .xr n => writeDreg .x n v s
  | .yr n => writeDreg .y n v s
  | .jb n => writeBL .j (.base n) v s
  | .jl n => writeBL .j (.len n) v s
  | .kb n => writeBL .k (.base n) v s
  | .kl n => writeBL .k (.len n) v s
  | .cjmp => { s with cjmp := v }
  | .xstat => { s with xstat := v }
  | .ystat => { s with ystat := v }
  | .lc0 => { s with lc0 := v }
  | .other n => { s with other := s.other.set n.val v }

/-- `Ureg[u]` read by a store or move (00_scope.md R9): JSTAT and KSTAT deliver the flag word, whose reserved bits are a
draw (10_state.md R25, R26). -/
def readUreg (u : Ureg) (s : State) : Word × State :=
  match statOf u with
  | some I => (statWord (s.flagsOf I) (draw s).1, (draw s).2)
  | none => (readPlain u s, s)

/-- `Ureg[u] <- v` of a load or move: JSTAT and KSTAT take the four flag bits (10_state.md R25, 42_load_store.md
R189). -/
def writeUreg (u : Ureg) (v : Word) (s : State) : State :=
  match statOf u with
  | some I => s.setFlags I (flagsOfWord v)
  | none => writePlain u v s

/-- Reads a group of universal registers, lowest first. -/
def readUregs (l : List Ureg) (s : State) : List Word × State :=
  match l with
  | [] => ([], s)
  | u :: rest =>
    let a := readUreg u s
    let b := readUregs rest a.2
    (a.1 :: b.1, b.2)

/-- Writes a group of universal registers. -/
def writeUregs (l : List (Ureg × Word)) (s : State) : State :=
  match l with
  | [] => s
  | (u, v) :: rest => writeUregs rest (writeUreg u v s)

/-- Writes data registers, each with its word. -/
def writeDregs (l : List ((Blk × RegNum) × Word)) (s : State) : State :=
  match l with
  | [] => s
  | (t, v) :: rest => writeDregs rest (writeDreg t.1 t.2 v s)

/-! ## Memory -/

/-- The word address exists (20_memory.md R58). -/
def mapped (mm : List Region) (a : Nat) : Bool := mm.any fun r => decide (r.base ≤ a) && decide (a < r.base + r.size)

/-- One byte cell. -/
def readByte (m : Memory) (a : Nat) : Byte :=
  match m with
  | [] => unlistedByte
  | (b, v) :: rest => if b = a then v else readByte rest a

/-- Writes one byte cell and keeps the canonical form. -/
def writeByte (m : Memory) (a : Nat) (v : Byte) : Memory :=
  match m with
  | [] => if v = unlistedByte then [] else [(a, v)]
  | (b, w) :: rest =>
    if a < b then (if v = unlistedByte then (b, w) :: rest else (a, v) :: (b, w) :: rest)
    else if a = b then (if v = unlistedByte then rest else (a, v) :: rest)
    else (b, w) :: writeByte rest a v

/-- The word at a word address (20_memory.md R50). -/
def readWord (m : Memory) (a : Nat) : Word :=
  readByte m (4 * a + 3) ++ readByte m (4 * a + 2) ++ readByte m (4 * a + 1) ++ readByte m (4 * a)

/-- Writes the word at a word address. -/
def writeWord (m : Memory) (a : Nat) (v : Word) : Memory :=
  writeByte (writeByte (writeByte (writeByte m (4 * a) (v.extractLsb' 0 8)) (4 * a + 1) (v.extractLsb' 8 8))
    (4 * a + 2) (v.extractLsb' 16 8)) (4 * a + 3) (v.extractLsb' 24 8)

/-- `MemRead(addr, n)`: `w[k]` is the word at `addr + k` (00_scope.md R10). -/
def readWords (m : Memory) (a n : Nat) : List Word :=
  match n with
  | 0 => []
  | n + 1 => readWord m a :: readWords m (a + 1) n

/-- `MemWrite(addr, n, w)` (00_scope.md R10). -/
def writeWords (m : Memory) (a : Nat) (ws : List Word) : Memory :=
  match ws with
  | [] => m
  | w :: rest => writeWords (writeWord m a w) (a + 1) rest

/-- Every word of `a .. a + n - 1` exists. -/
def allMapped (mm : List Region) (a n : Nat) : Bool :=
  match n with
  | 0 => true
  | n + 1 => mapped mm a && allMapped mm (a + 1) n

/-- The fault of an access of `n` words at `a`: alignment first, then the map; both name the address of the access
(00_scope.md R10; 20_memory.md R54, R55, R58; 60_exceptions.md R264). -/
def accessFault (mm : List Region) (a n : Nat) : Option Fault :=
  if a % n ≠ 0 then some (.misalignedAccess a n)
  else if allMapped mm a n then none
  else some (.unmappedAccess a)

/-! ## Outcomes -/

/-- Goes on unless a register to be read is unwritten, and names the first such of the list (60_exceptions.md R261); of
several, which is named is the model's choice (DESIGN CHOICE, assumption 21). -/
def withSources (l : List Ureg) (s : State) (k : Out) : Out :=
  match l.find? fun u => uregUnwritten u s with
  | some u => .fault (.unwrittenRead u)
  | none => k

/-- Goes on unless the form is refused (60_exceptions.md R262). -/
def guardForm (f : Form) (k : Out) : Out :=
  match f.error with
  | some r => .refused (.badForm r)
  | none => k

/-- Goes on unless the access of `n` words at `a` faults; a fault ends the run with nothing written (R260, R261). -/
def withAccess (s : State) (a n : Nat) (k : Out) : Out :=
  match accessFault s.memMap a n with
  | some f => .fault f
  | none => k

/-- Goes on with a computed value unless computing it is refused. -/
def withValue (v : Except Refusal Word) (k : Word → Out) : Out :=
  match v with
  | .error r => .refused r
  | .ok w => k w

end Sys2Proof.Machine
end

