-- ==== Sys2Proof/Machine/Operands.lean ====
section
/-! DEFINITION. Every operand form: immediates, second operands and modifiers (30_encoding.md R83), the index update of
post-modify addressing with its circular and bit-reverse forms (44_circular_bitreverse.md), which word goes to which
register (42_load_store.md R166), and the alignment function of the DABs (43_dab.md R204). -/

namespace Sys2Proof.Machine

/-! ## Second operands -/

/-- The value of a second operand or modifier: register 31 reads 0, an immediate is the value of the program text
(40_arith_logic.md R100, 42_load_store.md R160, 30_encoding.md R83). -/
def opndVal (I : Ialu) (b : Opnd) (s : State) : Word :=
  match b with
  | .reg n => aluread I n s
  | .imm v => v

/-! ## Circular buffers and bit reverse -/

/-- The circular update `circ(idx, d, base, len)` (44_circular_bitreverse.md R221). -/
def circ (idx : Word) (d : Int) (base len : Word) : Word :=
  if len = 0 then BitVec.ofInt 32 (idx.toNat + d)
  else
    let n : Int := idx.toNat + d
    if (base.toNat : Int) + len.toNat ≤ n then BitVec.ofInt 32 (n - len.toNat)
    else if n < base.toNat then BitVec.ofInt 32 (n + len.toNat)
    else BitVec.ofInt 32 n

/-- The preconditions of `circ`: none for length 0; else the index lies in the buffer, the step is smaller than the
length, and the buffer's end does not pass 2^32 (44_circular_bitreverse.md R222 (a) to (c)). -/
def circOk (idx : Word) (d : Int) (base len : Word) : Bool :=
  len == 0 ||
    (decide (base.toNat ≤ idx.toNat) && decide (idx.toNat < base.toNat + len.toNat) && decide (d.natAbs < len.toNat)
      && decide (base.toNat + len.toNat ≤ 2 ^ 32))

/-- The update applies a wrap correction (44_circular_bitreverse.md R221). -/
def circWraps (idx : Word) (d : Int) (base len : Word) : Bool :=
  let n : Int := idx.toNat + d
  len != 0 && (decide ((base.toNat : Int) + len.toNat ≤ n) || decide (n < base.toNat))

/-- The bit-reverse-carry add (44_circular_bitreverse.md R226). -/
def bradd (a b : Word) : Word := (a.reverse + b.reverse).reverse

/-- The number of the circular buffer an index register works with (44_circular_bitreverse.md R220). -/
def bufferOf (m : RegNum) : Fin 4 := Fin.ofNat 4 m.val

/-- Under `bl_strict`, the base or length register of buffer `k` was written fewer than four lines ago
(70_reset_and_hazards.md R286). -/
def bufferHeld (x : IaluState) (k : Fin 4) : Bool :=
  (decide (0 < x.baseHold[k.val]) || decide (0 < x.lenHold[k.val])) && Config.blStrict

/-- A circular-buffer use of index `m` with step `d`: the updated value, or the refusal (44_circular_bitreverse.md R220
to R222, 70_reset_and_hazards.md R286). The spec gives no order between `BaseLengthHazard` and `CircularPrecondition`
where both hold; that the hazard is named is the model's choice (DESIGN CHOICE, assumption 21). -/
def circUse (I : Ialu) (m : RegNum) (d : Int) (s : State) : Except Refusal Word :=
  let x := s.ialu I
  let k := bufferOf m
  let idx := x.read m
  if bufferHeld x k then .error .baseLengthHazard
  else if circOk idx d x.base[k.val] x.len[k.val] then .ok (circ idx d x.base[k.val] x.len[k.val])
  else .error .circularPrecondition

/-- The post-modify update of a data-register access (42_load_store.md R163, R187). -/
def postUpdate (I : Ialu) (op : PmOp) (m : RegNum) (md : Word) (s : State) : Except Refusal Word :=
  match op with
  | .lin => .ok (aluread I m s + md)
  | .cb => circUse I m md.toInt s
  | .br => .ok (bradd (aluread I m s) md)

/-- The modifier a DAB form needs when its buffer has a length: 4 words or 8 short words (43_dab.md R203). -/
def dabStep (short : Bool) : Int := if short then 8 else 4

/-- The index update of a DAB access: circular without an operator, linear for length 0, refused when it would wrap
(43_dab.md R203). The spec gives no order among the refusals where several hold; that the write-age hazard is named
before the modifier, the modifier before the preconditions of R222 and these before the wrap is the model's choice
(DESIGN CHOICE, assumption 21). -/
def dabUpdate (I : Ialu) (short : Bool) (m : RegNum) (md : Word) (s : State) : Except Refusal Word :=
  let x := s.ialu I
  let k := bufferOf m
  let idx := x.read m
  let base := x.base[k.val]
  let len := x.len[k.val]
  if bufferHeld x k then .error .baseLengthHazard
  else if len ≠ 0 ∧ md.toInt ≠ dabStep short then .error .circularPrecondition
  else if !circOk idx md.toInt base len then .error .circularPrecondition
  else if circWraps idx md.toInt base len then .error (.badForm .unspecifiedForm)
  else .ok (circ idx md.toInt base len)

/-! ## Which word goes to which register -/

/-- Register `r + k` of a data-register group. -/
def regPlus (r : RegNum) (k : Nat) : RegNum := Fin.ofNat 32 (r.val + k)

/-- The numbers of a data-register group, lowest first (10_state.md R37). -/
def regGroup (z : Size) (r : RegNum) : List RegNum :=
  match z with
  | .single => [r]
  | .dual => [r, regPlus r 1]
  | .quad => [r, regPlus r 1, regPlus r 2, regPlus r 3]

/-- The block a merged access names first, whose registers take the words at the higher addresses (42_load_store.md
R166). -/
def bothFirst (c : Both) : Blk :=
  match c with
  | .yx => .y
  | .xy => .x
  | .bare => .x

/-- The block a merged access names second. -/
def bothSecond (c : Both) : Blk :=
  match c with
  | .yx => .x
  | .xy => .y
  | .bare => .y

/-- The data registers of a normal or merged access in the order of their memory words (42_load_store.md R166). -/
def stRegs (a : StAcc) (r : RegNum) : List (Blk × RegNum) :=
  match a with
  | .normal z c => (regGroup z r).map fun i => (c, i)
  | .merged dual c =>
    let g := regGroup (if dual then .dual else .single) r
    (g.map fun i => (bothSecond c, i)) ++ (g.map fun i => (bothFirst c, i))

/-- How many memory words a load moves (42_load_store.md R164, R165). -/
def ldWidth (a : LdAcc) : Nat :=
  match a with
  | .normal z _ => z.count
  | .bcast z _ => z.count
  | .merged dual _ => if dual then 4 else 2

/-- The data registers a load fills, each with its word of `ws` (42_load_store.md R166): a broadcast gives every word to
both blocks. -/
def ldTargets (a : LdAcc) (r : RegNum) (ws : List Word) : List ((Blk × RegNum) × Word) :=
  match a with
  | .normal z c => (stRegs (.normal z c) r).zip ws
  | .merged dual c => (stRegs (.merged dual c) r).zip ws
  | .bcast z _ => (stRegs (.normal z .x) r).zip ws ++ (stRegs (.normal z .y) r).zip ws

/-! ## The data alignment buffers -/

/-- `align_n(Old, New, sh)`: `n` elements of `Old ++ New` from place `sh` on (43_dab.md R204). -/
def alignN {α : Type} (old new : List α) (sh : Nat) : List α := ((old ++ new).drop sh).take old.length

/-- The words a buffer supplies: none has a defined value before the first access (43_dab.md R209). -/
def Dab.oldWords (d : Dab) : List (Option Word) :=
  [d.words[0], d.words[1], d.words[2], d.words[3]].map fun w => if d.primed then some w else none

/-- The two short words of a word, low half first (20_memory.md R52). -/
def shortsOf (w : Option Word) : List (Option Short) :=
  [w.map fun w => w.extractLsb' 0 16, w.map fun w => w.extractLsb' 16 16]

/-- The short words of a list of words (43_dab.md R202). -/
def shorts (ws : List (Option Word)) : List (Option Short) := ws.flatMap shortsOf

/-- Packs short words two to a word, low half first; a word with an undefined half is undefined (43_dab.md R206,
R209). -/
def packShorts (l : List (Option Short)) : List (Option Word) :=
  match l with
  | [] => []
  | _ :: [] => []
  | lo :: hi :: rest =>
    (match lo, hi with
      | some a, some b => some (b ++ a)
      | _, _ => none) :: packShorts rest

/-- The four words a DAB access delivers to a block, `none` where the value is undefined (43_dab.md R201, R202, R204). -/
def dabResult (short : Bool) (d : Dab) (new : List Word) (sh : Nat) : List (Option Word) :=
  if short then packShorts (alignN (shorts d.oldWords) (shorts (new.map some)) sh)
  else alignN d.oldWords (new.map some) sh

/-- The word address a DAB index names: the index itself, or half of it for short words (20_memory.md R52). -/
def dabWordAddr (short : Bool) (idx : Word) : Nat := if short then idx.toNat / 2 else idx.toNat

/-- The aligned quad word a DAB access reads (43_dab.md R201, R202). -/
def dabQuad (short : Bool) (idx : Word) : Nat := dabWordAddr short idx / 4 * 4

/-- The misalignment of a DAB index, in elements (43_dab.md R201, R202). -/
def dabMis (short : Bool) (idx : Word) : Nat := if short then idx.toNat % 8 else idx.toNat % 4

/-- The blocks a DAB access loads, each with its extra shift (43_dab.md R201, R205 to R208, R210). -/
def dabPlan (a : DabKind) : List (Blk × Nat) :=
  match a with
  | .one _ c => [(c, 0)]
  | .both _ _ => [(.x, 0), (.y, 0)]
  | .offset onY _ _ => if onY then [(.x, 0), (.y, 1)] else [(.x, 1), (.y, 0)]

/-- The access works on short words. -/
def dabIsShort (a : DabKind) : Bool :=
  match a with
  | .one s _ => s
  | .both s _ => s
  | .offset _ s _ => s

end Sys2Proof.Machine
end

