-- ==== Sys2Proof/Machine/Arith.lean ====
section
/-! DEFINITION. The arithmetic instructions: add and subtract with their options, to a base or length register, with
carry, and with the divide by two (40_arith_logic.md R105 to R116). -/

namespace Sys2Proof.Machine

/-- `Is = Im +|- B`: result and all four flags (R105, R106). -/
def execAddSub (I : Ialu) (sub : Bool) (d m : RegNum) (b : Opnd) (s : State) : Out :=
  let x := addSub sub (aluread I m s) (opndVal I b s)
  .next ((aluwrite I d x.r s).setFlags I x.flags)

/-- `Is = Im +|- B (CJMP)`: as without the option, then `CJMP <- r`; result register 31 is refused (R109). -/
def execAddSubCjmp (I : Ialu) (sub : Bool) (d m : RegNum) (b : Opnd) (s : State) : Out :=
  guardForm (.alu I (if sub then .subCjmp else .addCjmp) d m b) <|
    let x := addSub sub (aluread I m s) (opndVal I b s)
    .next { (aluwrite I d x.r s).setFlags I x.flags with cjmp := x.r }

/-- `Is = Im +|- B (CB)`: the circular update of the index, Z and N from it, V and C by `vc_cb` (R110). -/
def execAddSubCb (I : Ialu) (sub : Bool) (d m : RegNum) (b : Opnd) (s : State) : Out :=
  guardForm (.alu I (if sub then .subCb else .addCb) d m b) <|
    let y := opndVal I b s
    withValue (circUse I m (if sub then -y.toInt else y.toInt) s) fun r =>
      let f := vcCb ((s.flagsOf I).setZN r) (addSub sub (aluread I m s) y).flags (draw s).1
      .next ((aluwrite I d r (draw s).2).setFlags I f)

/-- The result with option (BR): the bit-reverse-carry sum, or the ordinary difference (R111). -/
def brResult (sub : Bool) (a b : Word) : Word := if sub then a - b else bradd a b

/-- `Is = Im +|- B (BR)`: Z and N from the result, V and C by `vc_br` (R111). -/
def execAddSubBr (I : Ialu) (sub : Bool) (d m : RegNum) (b : Opnd) (s : State) : Out :=
  guardForm (.alu I (if sub then .subBr else .addBr) d m b) <|
    let r := brResult sub (aluread I m s) (opndVal I b s)
    .next ((aluwrite I d r (draw s).2).setFlags I (vcBr ((s.flagsOf I).setZN r) (draw s).1))

/-- `IBk|ILk = Im +|- B`: result and flags as R105 and R106, the write to a base or length register (R112). -/
def execAddSubBL (I : Ialu) (sub : Bool) (d : BLReg) (m : RegNum) (b : Opnd) (s : State) : Out :=
  let x := addSub sub (aluread I m s) (opndVal I b s)
  .next ((writeBL I d x.r s).setFlags I x.flags)

/-- `Is = Im + B + IC` (R113) and `Is = Im - B + IC - 1` (R114), with IC as it was before the line. -/
def execCarry (I : Ialu) (sub : Bool) (d m : RegNum) (b : Opnd) (s : State) : Out :=
  let a := aluread I m s
  let y := opndVal I b s
  let x := if sub then subCarry a y (s.flagsOf I).c else addCarry a y (s.flagsOf I).c
  .next ((aluwrite I d x.r s).setFlags I x.flags)

/-- `Is = (Im +|- B)/2`: Z and N from the result, V and C drawn (R115, R116). -/
def execHalf (I : Ialu) (sub : Bool) (d m : RegNum) (b : Opnd) (s : State) : Out :=
  let r := halve (halfSum sub (aluread I m s) (opndVal I b s))
  let w := (draw s).1
  .next ((aluwrite I d r (draw s).2).setFlags I (((s.flagsOf I).setZN r).setVC (w.getLsbD 0) (w.getLsbD 1)))

/-- J_ADD (R105): `Js = Jm + Jn|<Imm8>|<Imm32>`. -/
def execJAdd (d m : RegNum) (b : Opnd) (s : State) : Out :=
  execAddSub .j false d m b s

/-- J_SUB (R106): `Js = Jm - Jn|<Imm8>|<Imm32>`. -/
def execJSub (d m : RegNum) (b : Opnd) (s : State) : Out :=
  execAddSub .j true d m b s

/-- J_ADD_CJMP (R109): `Js = Jm + Jn|<Imm8>|<Imm32> (CJMP)`. -/
def execJAddCjmp (d m : RegNum) (b : Opnd) (s : State) : Out :=
  execAddSubCjmp .j false d m b s

/-- J_SUB_CJMP (R109): `Js = Jm - Jn|<Imm8>|<Imm32> (CJMP)`. -/
def execJSubCjmp (d m : RegNum) (b : Opnd) (s : State) : Out :=
  execAddSubCjmp .j true d m b s

/-- J_ADD_CB (R110): `Js = Jm + Jn|<Imm8>|<Imm32> (CB)`. -/
def execJAddCb (d m : RegNum) (b : Opnd) (s : State) : Out :=
  execAddSubCb .j false d m b s

/-- J_SUB_CB (R110): `Js = Jm - Jn|<Imm8>|<Imm32> (CB)`. -/
def execJSubCb (d m : RegNum) (b : Opnd) (s : State) : Out :=
  execAddSubCb .j true d m b s

/-- J_ADD_BR (R111): `Js = Jm + Jn|<Imm8>|<Imm32> (BR)`. -/
def execJAddBr (d m : RegNum) (b : Opnd) (s : State) : Out :=
  execAddSubBr .j false d m b s

/-- J_SUB_BR (R111): `Js = Jm - Jn|<Imm8>|<Imm32> (BR)`. -/
def execJSubBr (d m : RegNum) (b : Opnd) (s : State) : Out :=
  execAddSubBr .j true d m b s

/-- J_ADD_BL (R112): `JB0|JB1|JB2|JB3|JL0|JL1|JL2|JL3 = Jm + Jn|<Imm8>|<Imm32>`. -/
def execJAddBl (d : BLReg) (m : RegNum) (b : Opnd) (s : State) : Out :=
  execAddSubBL .j false d m b s

/-- J_SUB_BL (R112): `JB0|JB1|JB2|JB3|JL0|JL1|JL2|JL3 = Jm - Jn|<Imm8>|<Imm32>`. -/
def execJSubBl (d : BLReg) (m : RegNum) (b : Opnd) (s : State) : Out :=
  execAddSubBL .j true d m b s

/-- J_ADDC (R113): `Js = Jm + Jn|<Imm8>|<Imm32> + JC`. -/
def execJAddc (d m : RegNum) (b : Opnd) (s : State) : Out :=
  execCarry .j false d m b s

/-- J_SUBB (R114): `Js = Jm - Jn|<Imm8>|<Imm32> + JC - 1`. -/
def execJSubb (d m : RegNum) (b : Opnd) (s : State) : Out :=
  execCarry .j true d m b s

/-- J_ADD_HALF (R115): `Js = (Jm + Jn|<Imm8>|<Imm32>)/2`. -/
def execJAddHalf (d m : RegNum) (b : Opnd) (s : State) : Out :=
  execHalf .j false d m b s

/-- J_SUB_HALF (R116): `Js = (Jm - Jn|<Imm8>|<Imm32>)/2`. -/
def execJSubHalf (d m : RegNum) (b : Opnd) (s : State) : Out :=
  execHalf .j true d m b s

/-- K_ADD (R105): `Ks = Km + Kn|<Imm8>|<Imm32>`. -/
def execKAdd (d m : RegNum) (b : Opnd) (s : State) : Out :=
  execAddSub .k false d m b s

/-- K_SUB (R106): `Ks = Km - Kn|<Imm8>|<Imm32>`. -/
def execKSub (d m : RegNum) (b : Opnd) (s : State) : Out :=
  execAddSub .k true d m b s

/-- K_ADD_CJMP (R109): `Ks = Km + Kn|<Imm8>|<Imm32> (CJMP)`. -/
def execKAddCjmp (d m : RegNum) (b : Opnd) (s : State) : Out :=
  execAddSubCjmp .k false d m b s

/-- K_SUB_CJMP (R109): `Ks = Km - Kn|<Imm8>|<Imm32> (CJMP)`. -/
def execKSubCjmp (d m : RegNum) (b : Opnd) (s : State) : Out :=
  execAddSubCjmp .k true d m b s

/-- K_ADD_CB (R110): `Ks = Km + Kn|<Imm8>|<Imm32> (CB)`. -/
def execKAddCb (d m : RegNum) (b : Opnd) (s : State) : Out :=
  execAddSubCb .k false d m b s

/-- K_SUB_CB (R110): `Ks = Km - Kn|<Imm8>|<Imm32> (CB)`. -/
def execKSubCb (d m : RegNum) (b : Opnd) (s : State) : Out :=
  execAddSubCb .k true d m b s

/-- K_ADD_BR (R111): `Ks = Km + Kn|<Imm8>|<Imm32> (BR)`. -/
def execKAddBr (d m : RegNum) (b : Opnd) (s : State) : Out :=
  execAddSubBr .k false d m b s

/-- K_SUB_BR (R111): `Ks = Km - Kn|<Imm8>|<Imm32> (BR)`. -/
def execKSubBr (d m : RegNum) (b : Opnd) (s : State) : Out :=
  execAddSubBr .k true d m b s

/-- K_ADD_BL (R112): `KB0|KB1|KB2|KB3|KL0|KL1|KL2|KL3 = Km + Kn|<Imm8>|<Imm32>`. -/
def execKAddBl (d : BLReg) (m : RegNum) (b : Opnd) (s : State) : Out :=
  execAddSubBL .k false d m b s

/-- K_SUB_BL (R112): `KB0|KB1|KB2|KB3|KL0|KL1|KL2|KL3 = Km - Kn|<Imm8>|<Imm32>`. -/
def execKSubBl (d : BLReg) (m : RegNum) (b : Opnd) (s : State) : Out :=
  execAddSubBL .k true d m b s

/-- K_ADDC (R113): `Ks = Km + Kn|<Imm8>|<Imm32> + KC`. -/
def execKAddc (d m : RegNum) (b : Opnd) (s : State) : Out :=
  execCarry .k false d m b s

/-- K_SUBB (R114): `Ks = Km - Kn|<Imm8>|<Imm32> + KC - 1`. -/
def execKSubb (d m : RegNum) (b : Opnd) (s : State) : Out :=
  execCarry .k true d m b s

/-- K_ADD_HALF (R115): `Ks = (Km + Kn|<Imm8>|<Imm32>)/2`. -/
def execKAddHalf (d m : RegNum) (b : Opnd) (s : State) : Out :=
  execHalf .k false d m b s

/-- K_SUB_HALF (R116): `Ks = (Km - Kn|<Imm8>|<Imm32>)/2`. -/
def execKSubHalf (d m : RegNum) (b : Opnd) (s : State) : Out :=
  execHalf .k true d m b s

end Sys2Proof.Machine
end

