-- ==== Sys2Proof/Machine/DabAccess.lean ====
section
/-! DEFINITION. Loads through the data alignment buffers (43_dab.md R200 to R210). -/

namespace Sys2Proof.Machine

/-- One block's part of a DAB access: the aligned result goes to the quad `r`, an element from an unprimed buffer leaving
its register unwritten, and the buffer takes the new quad word (R201, R209). -/
def dabBlock (short : Bool) (c : Blk) (sh : Nat) (r : RegNum) (new : Vector Word 4) (s : State) : State :=
  (putDregs (((regGroup .quad r).map fun i => (c, i)).zip (dabResult short (s.dab c) new.toList sh)) s).setDab c
    ⟨new, true⟩

/-- The parts of a DAB access, block by block. -/
def dabBlocks (short : Bool) (mis : Nat) (r : RegNum) (new : Vector Word 4) (l : List (Blk × Nat)) (s : State) : State :=
  match l with
  | [] => s
  | (c, extra) :: rest => dabBlocks short mis r new rest (dabBlock short c (mis + extra) r new s)

/-- The quad word at word address `q`. -/
def quadAt (m : Memory) (q : Nat) : Vector Word 4 :=
  #v[readWord m q, readWord m (q + 1), readWord m (q + 2), readWord m (q + 3)]

/-- A DAB access: the aligned quad that holds the index address is read, each block's registers take the aligned
elements, the buffers take the quad, and the index is updated (R200 to R208, R210). -/
def execDab (I : Ialu) (a : DabKind) (r m : RegNum) (b : Opnd) (s : State) : Out :=
  guardForm (.dab I a r m b) <|
    let idx := aluread I m s
    withValue (dabUpdate I (dabIsShort a) m (opndVal I b s) s) fun upd =>
      withAccess s (dabQuad (dabIsShort a) idx) 4 <|
        .next (aluwrite I m upd
          (dabBlocks (dabIsShort a) (dabMis (dabIsShort a) idx) r (quadAt s.mem (dabQuad (dabIsShort a) idx))
            (dabPlan a) s))

/-- J_DAB (R201): `XRsq|YRsq = DAB Q [Jm += Jn|<Imm8>|<Imm32>]`. -/
def execJDab (c : Blk) (r m : RegNum) (b : Opnd) (s : State) : Out :=
  execDab .j (.one false c) r m b s

/-- J_SDAB (R202): `XRsq|YRsq = SDAB Q [Jm += Jn|<Imm8>|<Imm32>]`. -/
def execJSdab (c : Blk) (r m : RegNum) (b : Opnd) (s : State) : Out :=
  execDab .j (.one true c) r m b s

/-- J_DAB_BCAST (R210): `XYRsq|YXRsq|Rsq = DAB Q [Jm += Jn|<Imm8>|<Imm32>]`. -/
def execJDabBcast (c : Both) (r m : RegNum) (b : Opnd) (s : State) : Out :=
  execDab .j (.both false c) r m b s

/-- J_SDAB_BCAST (R210): `XYRsq|YXRsq|Rsq = SDAB Q [Jm += Jn|<Imm8>|<Imm32>]`. -/
def execJSdabBcast (c : Both) (r m : RegNum) (b : Opnd) (s : State) : Out :=
  execDab .j (.both true c) r m b s

/-- J_XDAB (R205): `{XY|YX}Rsq = Q XDAB [Jm += Jn|<Imm8>|<Imm32>]`. -/
def execJXdab (c : Both) (r m : RegNum) (b : Opnd) (s : State) : Out :=
  execDab .j (.offset false false c) r m b s

/-- J_XSDAB (R206): `{XY|YX}Rsq = Q XSDAB [Jm += Jn|<Imm8>|<Imm32>]`. -/
def execJXsdab (c : Both) (r m : RegNum) (b : Opnd) (s : State) : Out :=
  execDab .j (.offset false true c) r m b s

/-- J_YDAB (R207): `{XY|YX}Rsq = Q YDAB [Jm += Jn|<Imm8>|<Imm32>]`. -/
def execJYdab (c : Both) (r m : RegNum) (b : Opnd) (s : State) : Out :=
  execDab .j (.offset true false c) r m b s

/-- J_YSDAB (R208): `{XY|YX}Rsq = Q YSDAB [Jm += Jn|<Imm8>|<Imm32>]`. -/
def execJYsdab (c : Both) (r m : RegNum) (b : Opnd) (s : State) : Out :=
  execDab .j (.offset true true c) r m b s

/-- K_DAB (R201): `XRsq|YRsq = DAB Q [Km += Kn|<Imm8>|<Imm32>]`. -/
def execKDab (c : Blk) (r m : RegNum) (b : Opnd) (s : State) : Out :=
  execDab .k (.one false c) r m b s

/-- K_SDAB (R202): `XRsq|YRsq = SDAB Q [Km += Kn|<Imm8>|<Imm32>]`. -/
def execKSdab (c : Blk) (r m : RegNum) (b : Opnd) (s : State) : Out :=
  execDab .k (.one true c) r m b s

/-- K_DAB_BCAST (R210): `XYRsq|YXRsq|Rsq = DAB Q [Km += Kn|<Imm8>|<Imm32>]`. -/
def execKDabBcast (c : Both) (r m : RegNum) (b : Opnd) (s : State) : Out :=
  execDab .k (.both false c) r m b s

/-- K_SDAB_BCAST (R210): `XYRsq|YXRsq|Rsq = SDAB Q [Km += Kn|<Imm8>|<Imm32>]`. -/
def execKSdabBcast (c : Both) (r m : RegNum) (b : Opnd) (s : State) : Out :=
  execDab .k (.both true c) r m b s

/-- K_XDAB (R205): `{XY|YX}Rsq = Q XDAB [Km += Kn|<Imm8>|<Imm32>]`. -/
def execKXdab (c : Both) (r m : RegNum) (b : Opnd) (s : State) : Out :=
  execDab .k (.offset false false c) r m b s

/-- K_XSDAB (R206): `{XY|YX}Rsq = Q XSDAB [Km += Kn|<Imm8>|<Imm32>]`. -/
def execKXsdab (c : Both) (r m : RegNum) (b : Opnd) (s : State) : Out :=
  execDab .k (.offset false true c) r m b s

/-- K_YDAB (R207): `{XY|YX}Rsq = Q YDAB [Km += Kn|<Imm8>|<Imm32>]`. -/
def execKYdab (c : Both) (r m : RegNum) (b : Opnd) (s : State) : Out :=
  execDab .k (.offset true false c) r m b s

/-- K_YSDAB (R208): `{XY|YX}Rsq = Q YSDAB [Km += Kn|<Imm8>|<Imm32>]`. -/
def execKYsdab (c : Both) (r m : RegNum) (b : Opnd) (s : State) : Out :=
  execDab .k (.offset true true c) r m b s

end Sys2Proof.Machine
end

