-- ==== Sys2Proof/Machine/DregAccess.lean ====
section
/-! DEFINITION. Loads and stores of data registers: normal, broadcast and merged, with `CB` or `BR` (42_load_store.md
R174 to R187). All are post-modify: the access is at the unmodified index. -/

namespace Sys2Proof.Machine

/-- The address of a data-register access: the index (R163, R187). -/
def dregAddr (I : Ialu) (m : RegNum) (s : State) : Nat := (aluread I m s).toNat

/-- Loads data registers (R174 to R181). -/
def execLdDreg (I : Ialu) (a : LdAcc) (r : RegNum) (op : PmOp) (m : RegNum) (b : Opnd) (s : State) : Out :=
  guardForm (.ldD I a r op m b) <|
    withValue (postUpdate I op m (opndVal I b s) s) fun new =>
      withAccess s (dregAddr I m s) (ldWidth a) <|
        let ws := readWords s.mem (dregAddr I m s) (ldWidth a)
        .next (aluwrite I m new (writeDregs (ldTargets a r ws) s))

/-- Stores data registers (R182 to R186); the sources are checked before the access (60_exceptions.md R264). -/
def execStDreg (I : Ialu) (a : StAcc) (r : RegNum) (op : PmOp) (m : RegNum) (b : Opnd) (s : State) : Out :=
  guardForm (.stD I a r op m b) <|
    withValue (postUpdate I op m (opndVal I b s) s) fun new =>
      withSources ((stRegs a r).map fun t => dregUreg t.1 t.2) s <|
        let ws := (stRegs a r).map fun t => readDreg t.1 t.2 s
        withAccess s (dregAddr I m s) ws.length <|
          .next (aluwrite I m new { s with mem := writeWords s.mem (dregAddr I m s) ws })

/-- J_LD_DREG_S (R174): `XRs|YRs = {CB|BR} [Jm += Jn|<Imm8>|<Imm32>]`. -/
def execJLdDregS (c : Blk) (r : RegNum) (op : PmOp) (m : RegNum) (b : Opnd) (s : State) : Out :=
  execLdDreg .j (.normal .single c) r op m b s

/-- J_LD_DREG_D (R175): `XRsd|YRsd = {CB|BR} L [Jm += Jn|<Imm8>|<Imm32>]`. -/
def execJLdDregD (c : Blk) (r : RegNum) (op : PmOp) (m : RegNum) (b : Opnd) (s : State) : Out :=
  execLdDreg .j (.normal .dual c) r op m b s

/-- J_LD_DREG_Q (R176): `XRsq|YRsq = {CB|BR} Q [Jm += Jn|<Imm8>|<Imm32>]`. -/
def execJLdDregQ (c : Blk) (r : RegNum) (op : PmOp) (m : RegNum) (b : Opnd) (s : State) : Out :=
  execLdDreg .j (.normal .quad c) r op m b s

/-- J_LD_DREG_S_BCAST (R177): `XYRs|YXRs|Rs = {CB|BR} [Jm += Jn|<Imm8>|<Imm32>]`. -/
def execJLdDregSBcast (c : Both) (r : RegNum) (op : PmOp) (m : RegNum) (b : Opnd) (s : State) : Out :=
  execLdDreg .j (.bcast .single c) r op m b s

/-- J_LD_DREG_D_BCAST (R178): `XYRsd|YXRsd|Rsd = {CB|BR} L [Jm += Jn|<Imm8>|<Imm32>]`. -/
def execJLdDregDBcast (c : Both) (r : RegNum) (op : PmOp) (m : RegNum) (b : Opnd) (s : State) : Out :=
  execLdDreg .j (.bcast .dual c) r op m b s

/-- J_LD_DREG_Q_BCAST (R179): `XYRsq|YXRsq|Rsq = {CB|BR} Q [Jm += Jn|<Imm8>|<Imm32>]`. -/
def execJLdDregQBcast (c : Both) (r : RegNum) (op : PmOp) (m : RegNum) (b : Opnd) (s : State) : Out :=
  execLdDreg .j (.bcast .quad c) r op m b s

/-- J_LD_DREG_S_MERGED (R180): `XYRs|YXRs|Rs = {CB|BR} L [Jm += Jn|<Imm8>|<Imm32>]`. -/
def execJLdDregSMerged (c : Both) (r : RegNum) (op : PmOp) (m : RegNum) (b : Opnd) (s : State) : Out :=
  execLdDreg .j (.merged false c) r op m b s

/-- J_LD_DREG_D_MERGED (R181): `XYRsd|YXRsd|Rsd = {CB|BR} Q [Jm += Jn|<Imm8>|<Imm32>]`. -/
def execJLdDregDMerged (c : Both) (r : RegNum) (op : PmOp) (m : RegNum) (b : Opnd) (s : State) : Out :=
  execLdDreg .j (.merged true c) r op m b s

/-- J_ST_DREG_S (R182): `{CB|BR} [Jm += Jn|<Imm8>|<Imm32>] = XRs|YRs`. -/
def execJStDregS (c : Blk) (r : RegNum) (op : PmOp) (m : RegNum) (b : Opnd) (s : State) : Out :=
  execStDreg .j (.normal .single c) r op m b s

/-- J_ST_DREG_D (R183): `{CB|BR} L [Jm += Jn|<Imm8>|<Imm32>] = XRsd|YRsd`. -/
def execJStDregD (c : Blk) (r : RegNum) (op : PmOp) (m : RegNum) (b : Opnd) (s : State) : Out :=
  execStDreg .j (.normal .dual c) r op m b s

/-- J_ST_DREG_Q (R184): `{CB|BR} Q [Jm += Jn|<Imm8>|<Imm32>] = XRsq|YRsq`. -/
def execJStDregQ (c : Blk) (r : RegNum) (op : PmOp) (m : RegNum) (b : Opnd) (s : State) : Out :=
  execStDreg .j (.normal .quad c) r op m b s

/-- J_ST_DREG_S_MERGED (R185): `{CB|BR} L [Jm += Jn|<Imm8>|<Imm32>] = XYRs|YXRs|Rs`. -/
def execJStDregSMerged (c : Both) (r : RegNum) (op : PmOp) (m : RegNum) (b : Opnd) (s : State) : Out :=
  execStDreg .j (.merged false c) r op m b s

/-- J_ST_DREG_D_MERGED (R186): `{CB|BR} Q [Jm += Jn|<Imm8>|<Imm32>] = XYRsd|YXRsd|Rsd`. -/
def execJStDregDMerged (c : Both) (r : RegNum) (op : PmOp) (m : RegNum) (b : Opnd) (s : State) : Out :=
  execStDreg .j (.merged true c) r op m b s

/-- K_LD_DREG_S (R174): `XRs|YRs = {CB|BR} [Km += Kn|<Imm8>|<Imm32>]`. -/
def execKLdDregS (c : Blk) (r : RegNum) (op : PmOp) (m : RegNum) (b : Opnd) (s : State) : Out :=
  execLdDreg .k (.normal .single c) r op m b s

/-- K_LD_DREG_D (R175): `XRsd|YRsd = {CB|BR} L [Km += Kn|<Imm8>|<Imm32>]`. -/
def execKLdDregD (c : Blk) (r : RegNum) (op : PmOp) (m : RegNum) (b : Opnd) (s : State) : Out :=
  execLdDreg .k (.normal .dual c) r op m b s

/-- K_LD_DREG_Q (R176): `XRsq|YRsq = {CB|BR} Q [Km += Kn|<Imm8>|<Imm32>]`. -/
def execKLdDregQ (c : Blk) (r : RegNum) (op : PmOp) (m : RegNum) (b : Opnd) (s : State) : Out :=
  execLdDreg .k (.normal .quad c) r op m b s

/-- K_LD_DREG_S_BCAST (R177): `XYRs|YXRs|Rs = {CB|BR} [Km += Kn|<Imm8>|<Imm32>]`. -/
def execKLdDregSBcast (c : Both) (r : RegNum) (op : PmOp) (m : RegNum) (b : Opnd) (s : State) : Out :=
  execLdDreg .k (.bcast .single c) r op m b s

/-- K_LD_DREG_D_BCAST (R178): `XYRsd|YXRsd|Rsd = {CB|BR} L [Km += Kn|<Imm8>|<Imm32>]`. -/
def execKLdDregDBcast (c : Both) (r : RegNum) (op : PmOp) (m : RegNum) (b : Opnd) (s : State) : Out :=
  execLdDreg .k (.bcast .dual c) r op m b s

/-- K_LD_DREG_Q_BCAST (R179): `XYRsq|YXRsq|Rsq = {CB|BR} Q [Km += Kn|<Imm8>|<Imm32>]`. -/
def execKLdDregQBcast (c : Both) (r : RegNum) (op : PmOp) (m : RegNum) (b : Opnd) (s : State) : Out :=
  execLdDreg .k (.bcast .quad c) r op m b s

/-- K_LD_DREG_S_MERGED (R180): `XYRs|YXRs|Rs = {CB|BR} L [Km += Kn|<Imm8>|<Imm32>]`. -/
def execKLdDregSMerged (c : Both) (r : RegNum) (op : PmOp) (m : RegNum) (b : Opnd) (s : State) : Out :=
  execLdDreg .k (.merged false c) r op m b s

/-- K_LD_DREG_D_MERGED (R181): `XYRsd|YXRsd|Rsd = {CB|BR} Q [Km += Kn|<Imm8>|<Imm32>]`. -/
def execKLdDregDMerged (c : Both) (r : RegNum) (op : PmOp) (m : RegNum) (b : Opnd) (s : State) : Out :=
  execLdDreg .k (.merged true c) r op m b s

/-- K_ST_DREG_S (R182): `{CB|BR} [Km += Kn|<Imm8>|<Imm32>] = XRs|YRs`. -/
def execKStDregS (c : Blk) (r : RegNum) (op : PmOp) (m : RegNum) (b : Opnd) (s : State) : Out :=
  execStDreg .k (.normal .single c) r op m b s

/-- K_ST_DREG_D (R183): `{CB|BR} L [Km += Kn|<Imm8>|<Imm32>] = XRsd|YRsd`. -/
def execKStDregD (c : Blk) (r : RegNum) (op : PmOp) (m : RegNum) (b : Opnd) (s : State) : Out :=
  execStDreg .k (.normal .dual c) r op m b s

/-- K_ST_DREG_Q (R184): `{CB|BR} Q [Km += Kn|<Imm8>|<Imm32>] = XRsq|YRsq`. -/
def execKStDregQ (c : Blk) (r : RegNum) (op : PmOp) (m : RegNum) (b : Opnd) (s : State) : Out :=
  execStDreg .k (.normal .quad c) r op m b s

/-- K_ST_DREG_S_MERGED (R185): `{CB|BR} L [Km += Kn|<Imm8>|<Imm32>] = XYRs|YXRs|Rs`. -/
def execKStDregSMerged (c : Both) (r : RegNum) (op : PmOp) (m : RegNum) (b : Opnd) (s : State) : Out :=
  execStDreg .k (.merged false c) r op m b s

/-- K_ST_DREG_D_MERGED (R186): `{CB|BR} Q [Km += Kn|<Imm8>|<Imm32>] = XYRsd|YXRsd|Rsd`. -/
def execKStDregDMerged (c : Both) (r : RegNum) (op : PmOp) (m : RegNum) (b : Opnd) (s : State) : Out :=
  execStDreg .k (.merged true c) r op m b s

end Sys2Proof.Machine
end

