-- ==== Sys2Proof/Machine/Logic.lean ====
section
/-! DEFINITION. The function, logical and shift instructions (40_arith_logic.md R117 to R130). -/

namespace Sys2Proof.Machine

/-- `COMP(Im, B)`, signed or unsigned: Z and N report the comparison, no register is written (R117, R118). -/
def execComp (I : Ialu) (unsigned : Bool) (m : RegNum) (b : Opnd) (s : State) : Out :=
  .next (s.setFlags I (keepVC (compFlags unsigned (aluread I m s) (opndVal I b s) (s.flagsOf I))))

/-- A two-operand function or logical instruction: the result, Z and N from it, V and C by R104. -/
def execTwo (I : Ialu) (f : Word → Word → Word) (d m : RegNum) (b : Opnd) (s : State) : Out :=
  let r := f (aluread I m s) (opndVal I b s)
  .next ((aluwrite I d r s).setFlags I (keepVC ((s.flagsOf I).setZN r)))

/-- A one-operand logical or shift instruction: the result, Z and N from it, V and C by R104. -/
def execOne (I : Ialu) (f : Word → Word) (d m : RegNum) (s : State) : Out :=
  let r := f (aluread I m s)
  .next ((aluwrite I d r s).setFlags I (keepVC ((s.flagsOf I).setZN r)))

/-- `Is = ABS Im` (R121). -/
def execAbs (I : Ialu) (d m : RegNum) (s : State) : Out :=
  let a := aluread I m s
  .next ((aluwrite I d (absWord a) s).setFlags I (absFlags a (s.flagsOf I)))

/-- J_COMP (R117): `COMP(Jm, Jn|<Imm8>|<Imm32>)`. -/
def execJComp (m : RegNum) (b : Opnd) (s : State) : Out :=
  execComp .j false m b s

/-- J_COMP_U (R118): `COMP(Jm, Jn|<Imm8>|<Imm32>) (U)`. -/
def execJCompU (m : RegNum) (b : Opnd) (s : State) : Out :=
  execComp .j true m b s

/-- J_MAX (R119): `Js = MAX (Jm, Jn|<Imm8>|<Imm32>)`. -/
def execJMax (d m : RegNum) (b : Opnd) (s : State) : Out :=
  execTwo .j maxWord d m b s

/-- J_MIN (R120): `Js = MIN (Jm, Jn|<Imm8>|<Imm32>)`. -/
def execJMin (d m : RegNum) (b : Opnd) (s : State) : Out :=
  execTwo .j minWord d m b s

/-- J_ABS (R121): `Js = ABS Jm`. -/
def execJAbs (d m : RegNum) (s : State) : Out :=
  execAbs .j d m s

/-- J_OR (R122): `Js = Jm OR Jn|<Imm8>|<Imm32>`. -/
def execJOr (d m : RegNum) (b : Opnd) (s : State) : Out :=
  execTwo .j (fun x y => x ||| y) d m b s

/-- J_AND (R123): `Js = Jm AND Jn|<Imm8>|<Imm32>`. -/
def execJAnd (d m : RegNum) (b : Opnd) (s : State) : Out :=
  execTwo .j (fun x y => x &&& y) d m b s

/-- J_XOR (R124): `Js = Jm XOR Jn|<Imm8>|<Imm32>`. -/
def execJXor (d m : RegNum) (b : Opnd) (s : State) : Out :=
  execTwo .j (fun x y => x ^^^ y) d m b s

/-- J_AND_NOT (R125): `Js = Jm AND NOT Jn|<Imm8>|<Imm32>`. -/
def execJAndNot (d m : RegNum) (b : Opnd) (s : State) : Out :=
  execTwo .j (fun x y => x &&& ~~~y) d m b s

/-- J_NOT (R126): `Js = NOT Jm`. -/
def execJNot (d m : RegNum) (s : State) : Out :=
  execOne .j (fun x => ~~~x) d m s

/-- J_ASHIFTR (R127): `Js = ASHIFTR Jm`. -/
def execJAshiftr (d m : RegNum) (s : State) : Out :=
  execOne .j ashiftr1 d m s

/-- J_LSHIFTR (R128): `Js = LSHIFTR Jm`. -/
def execJLshiftr (d m : RegNum) (s : State) : Out :=
  execOne .j lshiftr1 d m s

/-- J_ROTR (R129): `Js = ROTR Jm`. -/
def execJRotr (d m : RegNum) (s : State) : Out :=
  execOne .j rotr1 d m s

/-- J_ROTL (R130): `Js = ROTL Jm`. -/
def execJRotl (d m : RegNum) (s : State) : Out :=
  execOne .j rotl1 d m s

/-- K_COMP (R117): `COMP(Km, Kn|<Imm8>|<Imm32>)`. -/
def execKComp (m : RegNum) (b : Opnd) (s : State) : Out :=
  execComp .k false m b s

/-- K_COMP_U (R118): `COMP(Km, Kn|<Imm8>|<Imm32>) (U)`. -/
def execKCompU (m : RegNum) (b : Opnd) (s : State) : Out :=
  execComp .k true m b s

/-- K_MAX (R119): `Ks = MAX (Km, Kn|<Imm8>|<Imm32>)`. -/
def execKMax (d m : RegNum) (b : Opnd) (s : State) : Out :=
  execTwo .k maxWord d m b s

/-- K_MIN (R120): `Ks = MIN (Km, Kn|<Imm8>|<Imm32>)`. -/
def execKMin (d m : RegNum) (b : Opnd) (s : State) : Out :=
  execTwo .k minWord d m b s

/-- K_ABS (R121): `Ks = ABS Km`. -/
def execKAbs (d m : RegNum) (s : State) : Out :=
  execAbs .k d m s

/-- K_OR (R122): `Ks = Km OR Kn|<Imm8>|<Imm32>`. -/
def execKOr (d m : RegNum) (b : Opnd) (s : State) : Out :=
  execTwo .k (fun x y => x ||| y) d m b s

/-- K_AND (R123): `Ks = Km AND Kn|<Imm8>|<Imm32>`. -/
def execKAnd (d m : RegNum) (b : Opnd) (s : State) : Out :=
  execTwo .k (fun x y => x &&& y) d m b s

/-- K_XOR (R124): `Ks = Km XOR Kn|<Imm8>|<Imm32>`. -/
def execKXor (d m : RegNum) (b : Opnd) (s : State) : Out :=
  execTwo .k (fun x y => x ^^^ y) d m b s

/-- K_AND_NOT (R125): `Ks = Km AND NOT Kn|<Imm8>|<Imm32>`. -/
def execKAndNot (d m : RegNum) (b : Opnd) (s : State) : Out :=
  execTwo .k (fun x y => x &&& ~~~y) d m b s

/-- K_NOT (R126): `Ks = NOT Km`. -/
def execKNot (d m : RegNum) (s : State) : Out :=
  execOne .k (fun x => ~~~x) d m s

/-- K_ASHIFTR (R127): `Ks = ASHIFTR Km`. -/
def execKAshiftr (d m : RegNum) (s : State) : Out :=
  execOne .k ashiftr1 d m s

/-- K_LSHIFTR (R128): `Ks = LSHIFTR Km`. -/
def execKLshiftr (d m : RegNum) (s : State) : Out :=
  execOne .k lshiftr1 d m s

/-- K_ROTR (R129): `Ks = ROTR Km`. -/
def execKRotr (d m : RegNum) (s : State) : Out :=
  execOne .k rotr1 d m s

/-- K_ROTL (R130): `Ks = ROTL Km`. -/
def execKRotl (d m : RegNum) (s : State) : Out :=
  execOne .k rotl1 d m s

end Sys2Proof.Machine
end

