-- ==== Sys2Proof/Machine/Transfer.lean ====
section
/-! DEFINITION. Universal-register transfers, immediate loads and static-flag loads (45_ureg_transfer.md R240 to R243,
41_conditions.md R153). -/

namespace Sys2Proof.Machine

/-- `Ureg_s = <Imm15>|<Imm32>` (R240). -/
def execLoadImm (u : Ureg) (v : Word) (s : State) : Out := guardForm (.ldImm u v) <| .next (writeUreg u v s)

/-- `Ureg_s = Ureg_m`, dual and quad: all sources are read first (R241 to R243). -/
def execMove (z : Size) (d u : Ureg) (s : State) : Out :=
  guardForm (.move z d u) <|
    withSources (u.group z) s <|
      let g := readUregs (u.group z) s
      .next (writeUregs ((d.group z).zip g.1) g.2)

/-- `GSCF0 = cond` and `GSCF1 = cond` (R153). -/
def execGscf (one : Bool) (q : Cond) (s : State) : Out :=
  let v := condHolds q s.j.flags s.k.flags
  .next (if one then { s with gscf1 := v } else { s with gscf0 := v })

/-- LD_IMM (R240): `Ureg_s = <Imm15>|<Imm32>`. -/
def execLdImm (u : Ureg) (v : Word) (s : State) : Out :=
  execLoadImm u v s

/-- MOVE_S (R241): `Ureg_s = Ureg_m`. -/
def execMoveS (d u : Ureg) (s : State) : Out :=
  execMove .single d u s

/-- MOVE_D (R242): `Ureg_sd = Ureg_md`. -/
def execMoveD (d u : Ureg) (s : State) : Out :=
  execMove .dual d u s

/-- MOVE_Q (R243): `Ureg_sq = Ureg_mq`. -/
def execMoveQ (d u : Ureg) (s : State) : Out :=
  execMove .quad d u s

/-- LD_GSCF0 (R153): `GSCF0 = cond`. -/
def execLdGscf0 (q : Cond) (s : State) : Out :=
  execGscf false q s

/-- LD_GSCF1 (R153): `GSCF1 = cond`. -/
def execLdGscf1 (q : Cond) (s : State) : Out :=
  execGscf true q s

end Sys2Proof.Machine
end

