-- ==== Sys2Proof/Machine/UregAccess.lean ====
section
/-! DEFINITION. Loads and stores of universal registers (42_load_store.md R160 to R173, R189). -/

namespace Sys2Proof.Machine

/-- The address of an access: index plus modifier before the access, or the index itself (R162, R163; arithmetic
modulo 2^32, 20_memory.md R59). -/
def uregAddr (I : Ialu) (p : Modify) (m : RegNum) (b : Opnd) (s : State) : Nat :=
  match p with
  | .pre => (aluread I m s + opndVal I b s).toNat
  | .post => (aluread I m s).toNat

/-- Post-modify adds the modifier to the index register `m`; pre-modify leaves it (R162, R163). `s0` is the state
before the access, from which index and modifier are read. -/
def uregUpdate (I : Ialu) (p : Modify) (m : RegNum) (b : Opnd) (s0 s : State) : State :=
  match p with
  | .pre => s
  | .post => aluwrite I m (aluread I m s0 + opndVal I b s0) s

/-- Loads a universal register, dual or quad (R167 to R170). -/
def execLdUreg (I : Ialu) (z : Size) (p : Modify) (u : Ureg) (m : RegNum) (b : Opnd) (s : State) : Out :=
  guardForm (.ldU I z p u m b) <|
    withAccess s (uregAddr I p m b s) z.count <|
      let ws := readWords s.mem (uregAddr I p m b s) z.count
      .next (uregUpdate I p m b s (writeUregs ((u.group z).zip ws) s))

/-- Stores a universal register, dual or quad (R171 to R173). The source is read before the index is updated,
and checked before the access (60_exceptions.md R264). -/
def execStUreg (I : Ialu) (z : Size) (p : Modify) (u : Ureg) (m : RegNum) (b : Opnd) (s : State) : Out :=
  guardForm (.stU I z p u m b) <|
    withSources (u.group z) s <|
      withAccess s (uregAddr I p m b s) z.count <|
        let g := readUregs (u.group z) s
        .next (uregUpdate I p m b s { g.2 with mem := writeWords s.mem (uregAddr I p m b s) g.1 })

/-- J_LD_UREG_S_PRE (R167): `Ureg_s = [Jm + Jn|<Imm8>|<Imm32>]`. -/
def execJLdUregSPre (u : Ureg) (m : RegNum) (b : Opnd) (s : State) : Out :=
  execLdUreg .j .single .pre u m b s

/-- J_LD_UREG_S_POST (R168): `Ureg_s = [Jm += Jn|<Imm8>|<Imm32>]`. -/
def execJLdUregSPost (u : Ureg) (m : RegNum) (b : Opnd) (s : State) : Out :=
  execLdUreg .j .single .post u m b s

/-- J_LD_UREG_D_PRE (R169): `Ureg_sd = L [Jm + Jn|<Imm8>|<Imm32>]`. -/
def execJLdUregDPre (u : Ureg) (m : RegNum) (b : Opnd) (s : State) : Out :=
  execLdUreg .j .dual .pre u m b s

/-- J_LD_UREG_D_POST (R169): `Ureg_sd = L [Jm += Jn|<Imm8>|<Imm32>]`. -/
def execJLdUregDPost (u : Ureg) (m : RegNum) (b : Opnd) (s : State) : Out :=
  execLdUreg .j .dual .post u m b s

/-- J_LD_UREG_Q_PRE (R170): `Ureg_sq = Q [Jm + Jn|<Imm8>|<Imm32>]`. -/
def execJLdUregQPre (u : Ureg) (m : RegNum) (b : Opnd) (s : State) : Out :=
  execLdUreg .j .quad .pre u m b s

/-- J_LD_UREG_Q_POST (R170): `Ureg_sq = Q [Jm += Jn|<Imm8>|<Imm32>]`. -/
def execJLdUregQPost (u : Ureg) (m : RegNum) (b : Opnd) (s : State) : Out :=
  execLdUreg .j .quad .post u m b s

/-- J_ST_UREG_S_PRE (R171): `[Jm + Jn|<Imm8>|<Imm32>] = Ureg_s`. -/
def execJStUregSPre (u : Ureg) (m : RegNum) (b : Opnd) (s : State) : Out :=
  execStUreg .j .single .pre u m b s

/-- J_ST_UREG_S_POST (R171): `[Jm += Jn|<Imm8>|<Imm32>] = Ureg_s`. -/
def execJStUregSPost (u : Ureg) (m : RegNum) (b : Opnd) (s : State) : Out :=
  execStUreg .j .single .post u m b s

/-- J_ST_UREG_D_PRE (R172): `L [Jm + Jn|<Imm8>|<Imm32>] = Ureg_sd`. -/
def execJStUregDPre (u : Ureg) (m : RegNum) (b : Opnd) (s : State) : Out :=
  execStUreg .j .dual .pre u m b s

/-- J_ST_UREG_D_POST (R172): `L [Jm += Jn|<Imm8>|<Imm32>] = Ureg_sd`. -/
def execJStUregDPost (u : Ureg) (m : RegNum) (b : Opnd) (s : State) : Out :=
  execStUreg .j .dual .post u m b s

/-- J_ST_UREG_Q_PRE (R173): `Q [Jm + Jn|<Imm8>|<Imm32>] = Ureg_sq`. -/
def execJStUregQPre (u : Ureg) (m : RegNum) (b : Opnd) (s : State) : Out :=
  execStUreg .j .quad .pre u m b s

/-- J_ST_UREG_Q_POST (R173): `Q [Jm += Jn|<Imm8>|<Imm32>] = Ureg_sq`. -/
def execJStUregQPost (u : Ureg) (m : RegNum) (b : Opnd) (s : State) : Out :=
  execStUreg .j .quad .post u m b s

/-- K_LD_UREG_S_PRE (R167): `Ureg_s = [Km + Kn|<Imm8>|<Imm32>]`. -/
def execKLdUregSPre (u : Ureg) (m : RegNum) (b : Opnd) (s : State) : Out :=
  execLdUreg .k .single .pre u m b s

/-- K_LD_UREG_S_POST (R168): `Ureg_s = [Km += Kn|<Imm8>|<Imm32>]`. -/
def execKLdUregSPost (u : Ureg) (m : RegNum) (b : Opnd) (s : State) : Out :=
  execLdUreg .k .single .post u m b s

/-- K_LD_UREG_D_PRE (R169): `Ureg_sd = L [Km + Kn|<Imm8>|<Imm32>]`. -/
def execKLdUregDPre (u : Ureg) (m : RegNum) (b : Opnd) (s : State) : Out :=
  execLdUreg .k .dual .pre u m b s

/-- K_LD_UREG_D_POST (R169): `Ureg_sd = L [Km += Kn|<Imm8>|<Imm32>]`. -/
def execKLdUregDPost (u : Ureg) (m : RegNum) (b : Opnd) (s : State) : Out :=
  execLdUreg .k .dual .post u m b s

/-- K_LD_UREG_Q_PRE (R170): `Ureg_sq = Q [Km + Kn|<Imm8>|<Imm32>]`. -/
def execKLdUregQPre (u : Ureg) (m : RegNum) (b : Opnd) (s : State) : Out :=
  execLdUreg .k .quad .pre u m b s

/-- K_LD_UREG_Q_POST (R170): `Ureg_sq = Q [Km += Kn|<Imm8>|<Imm32>]`. -/
def execKLdUregQPost (u : Ureg) (m : RegNum) (b : Opnd) (s : State) : Out :=
  execLdUreg .k .quad .post u m b s

/-- K_ST_UREG_S_PRE (R171): `[Km + Kn|<Imm8>|<Imm32>] = Ureg_s`. -/
def execKStUregSPre (u : Ureg) (m : RegNum) (b : Opnd) (s : State) : Out :=
  execStUreg .k .single .pre u m b s

/-- K_ST_UREG_S_POST (R171): `[Km += Kn|<Imm8>|<Imm32>] = Ureg_s`. -/
def execKStUregSPost (u : Ureg) (m : RegNum) (b : Opnd) (s : State) : Out :=
  execStUreg .k .single .post u m b s

/-- K_ST_UREG_D_PRE (R172): `L [Km + Kn|<Imm8>|<Imm32>] = Ureg_sd`. -/
def execKStUregDPre (u : Ureg) (m : RegNum) (b : Opnd) (s : State) : Out :=
  execStUreg .k .dual .pre u m b s

/-- K_ST_UREG_D_POST (R172): `L [Km += Kn|<Imm8>|<Imm32>] = Ureg_sd`. -/
def execKStUregDPost (u : Ureg) (m : RegNum) (b : Opnd) (s : State) : Out :=
  execStUreg .k .dual .post u m b s

/-- K_ST_UREG_Q_PRE (R173): `Q [Km + Kn|<Imm8>|<Imm32>] = Ureg_sq`. -/
def execKStUregQPre (u : Ureg) (m : RegNum) (b : Opnd) (s : State) : Out :=
  execStUreg .k .quad .pre u m b s

/-- K_ST_UREG_Q_POST (R173): `Q [Km += Kn|<Imm8>|<Imm32>] = Ureg_sq`. -/
def execKStUregQPost (u : Ureg) (m : RegNum) (b : Opnd) (s : State) : Out :=
  execStUreg .k .quad .post u m b s

end Sys2Proof.Machine
end

