-- ==== Sys2Proof/Machine/Dispatch.lean ====
section
/-! DEFINITION. One arm per instruction of the opcode table, in the table's order. -/

namespace Sys2Proof.Machine

def exec (i : Instr) (s : State) : Host.Outcome State Fault Refusal :=
  match i with
  | .jAdd d m b => Sys2Proof.Machine.execJAdd d m b s
  | .jSub d m b => Sys2Proof.Machine.execJSub d m b s
  | .jAddCjmp d m b => Sys2Proof.Machine.execJAddCjmp d m b s
  | .jSubCjmp d m b => Sys2Proof.Machine.execJSubCjmp d m b s
  | .jAddCb d m b => Sys2Proof.Machine.execJAddCb d m b s
  | .jSubCb d m b => Sys2Proof.Machine.execJSubCb d m b s
  | .jAddBr d m b => Sys2Proof.Machine.execJAddBr d m b s
  | .jSubBr d m b => Sys2Proof.Machine.execJSubBr d m b s
  | .jAddBl d m b => Sys2Proof.Machine.execJAddBl d m b s
  | .jSubBl d m b => Sys2Proof.Machine.execJSubBl d m b s
  | .jAddc d m b => Sys2Proof.Machine.execJAddc d m b s
  | .jSubb d m b => Sys2Proof.Machine.execJSubb d m b s
  | .jAddHalf d m b => Sys2Proof.Machine.execJAddHalf d m b s
  | .jSubHalf d m b => Sys2Proof.Machine.execJSubHalf d m b s
  | .jComp m b => Sys2Proof.Machine.execJComp m b s
  | .jCompU m b => Sys2Proof.Machine.execJCompU m b s
  | .jMax d m b => Sys2Proof.Machine.execJMax d m b s
  | .jMin d m b => Sys2Proof.Machine.execJMin d m b s
  | .jAbs d m => Sys2Proof.Machine.execJAbs d m s
  | .jOr d m b => Sys2Proof.Machine.execJOr d m b s
  | .jAnd d m b => Sys2Proof.Machine.execJAnd d m b s
  | .jXor d m b => Sys2Proof.Machine.execJXor d m b s
  | .jAndNot d m b => Sys2Proof.Machine.execJAndNot d m b s
  | .jNot d m => Sys2Proof.Machine.execJNot d m s
  | .jAshiftr d m => Sys2Proof.Machine.execJAshiftr d m s
  | .jLshiftr d m => Sys2Proof.Machine.execJLshiftr d m s
  | .jRotr d m => Sys2Proof.Machine.execJRotr d m s
  | .jRotl d m => Sys2Proof.Machine.execJRotl d m s
  | .kAdd d m b => Sys2Proof.Machine.execKAdd d m b s
  | .kSub d m b => Sys2Proof.Machine.execKSub d m b s
  | .kAddCjmp d m b => Sys2Proof.Machine.execKAddCjmp d m b s
  | .kSubCjmp d m b => Sys2Proof.Machine.execKSubCjmp d m b s
  | .kAddCb d m b => Sys2Proof.Machine.execKAddCb d m b s
  | .kSubCb d m b => Sys2Proof.Machine.execKSubCb d m b s
  | .kAddBr d m b => Sys2Proof.Machine.execKAddBr d m b s
  | .kSubBr d m b => Sys2Proof.Machine.execKSubBr d m b s
  | .kAddBl d m b => Sys2Proof.Machine.execKAddBl d m b s
  | .kSubBl d m b => Sys2Proof.Machine.execKSubBl d m b s
  | .kAddc d m b => Sys2Proof.Machine.execKAddc d m b s
  | .kSubb d m b => Sys2Proof.Machine.execKSubb d m b s
  | .kAddHalf d m b => Sys2Proof.Machine.execKAddHalf d m b s
  | .kSubHalf d m b => Sys2Proof.Machine.execKSubHalf d m b s
  | .kComp m b => Sys2Proof.Machine.execKComp m b s
  | .kCompU m b => Sys2Proof.Machine.execKCompU m b s
  | .kMax d m b => Sys2Proof.Machine.execKMax d m b s
  | .kMin d m b => Sys2Proof.Machine.execKMin d m b s
  | .kAbs d m => Sys2Proof.Machine.execKAbs d m s
  | .kOr d m b => Sys2Proof.Machine.execKOr d m b s
  | .kAnd d m b => Sys2Proof.Machine.execKAnd d m b s
  | .kXor d m b => Sys2Proof.Machine.execKXor d m b s
  | .kAndNot d m b => Sys2Proof.Machine.execKAndNot d m b s
  | .kNot d m => Sys2Proof.Machine.execKNot d m s
  | .kAshiftr d m => Sys2Proof.Machine.execKAshiftr d m s
  | .kLshiftr d m => Sys2Proof.Machine.execKLshiftr d m s
  | .kRotr d m => Sys2Proof.Machine.execKRotr d m s
  | .kRotl d m => Sys2Proof.Machine.execKRotl d m s
  | .jLdUregSPre u m b => Sys2Proof.Machine.execJLdUregSPre u m b s
  | .jLdUregSPost u m b => Sys2Proof.Machine.execJLdUregSPost u m b s
  | .jLdUregDPre u m b => Sys2Proof.Machine.execJLdUregDPre u m b s
  | .jLdUregDPost u m b => Sys2Proof.Machine.execJLdUregDPost u m b s
  | .jLdUregQPre u m b => Sys2Proof.Machine.execJLdUregQPre u m b s
  | .jLdUregQPost u m b => Sys2Proof.Machine.execJLdUregQPost u m b s
  | .jStUregSPre u m b => Sys2Proof.Machine.execJStUregSPre u m b s
  | .jStUregSPost u m b => Sys2Proof.Machine.execJStUregSPost u m b s
  | .jStUregDPre u m b => Sys2Proof.Machine.execJStUregDPre u m b s
  | .jStUregDPost u m b => Sys2Proof.Machine.execJStUregDPost u m b s
  | .jStUregQPre u m b => Sys2Proof.Machine.execJStUregQPre u m b s
  | .jStUregQPost u m b => Sys2Proof.Machine.execJStUregQPost u m b s
  | .kLdUregSPre u m b => Sys2Proof.Machine.execKLdUregSPre u m b s
  | .kLdUregSPost u m b => Sys2Proof.Machine.execKLdUregSPost u m b s
  | .kLdUregDPre u m b => Sys2Proof.Machine.execKLdUregDPre u m b s
  | .kLdUregDPost u m b => Sys2Proof.Machine.execKLdUregDPost u m b s
  | .kLdUregQPre u m b => Sys2Proof.Machine.execKLdUregQPre u m b s
  | .kLdUregQPost u m b => Sys2Proof.Machine.execKLdUregQPost u m b s
  | .kStUregSPre u m b => Sys2Proof.Machine.execKStUregSPre u m b s
  | .kStUregSPost u m b => Sys2Proof.Machine.execKStUregSPost u m b s
  | .kStUregDPre u m b => Sys2Proof.Machine.execKStUregDPre u m b s
  | .kStUregDPost u m b => Sys2Proof.Machine.execKStUregDPost u m b s
  | .kStUregQPre u m b => Sys2Proof.Machine.execKStUregQPre u m b s
  | .kStUregQPost u m b => Sys2Proof.Machine.execKStUregQPost u m b s
  | .jLdDregS c r op m b => Sys2Proof.Machine.execJLdDregS c r op m b s
  | .jLdDregD c r op m b => Sys2Proof.Machine.execJLdDregD c r op m b s
  | .jLdDregQ c r op m b => Sys2Proof.Machine.execJLdDregQ c r op m b s
  | .jLdDregSBcast c r op m b => Sys2Proof.Machine.execJLdDregSBcast c r op m b s
  | .jLdDregDBcast c r op m b => Sys2Proof.Machine.execJLdDregDBcast c r op m b s
  | .jLdDregQBcast c r op m b => Sys2Proof.Machine.execJLdDregQBcast c r op m b s
  | .jLdDregSMerged c r op m b => Sys2Proof.Machine.execJLdDregSMerged c r op m b s
  | .jLdDregDMerged c r op m b => Sys2Proof.Machine.execJLdDregDMerged c r op m b s
  | .jStDregS c r op m b => Sys2Proof.Machine.execJStDregS c r op m b s
  | .jStDregD c r op m b => Sys2Proof.Machine.execJStDregD c r op m b s
  | .jStDregQ c r op m b => Sys2Proof.Machine.execJStDregQ c r op m b s
  | .jStDregSMerged c r op m b => Sys2Proof.Machine.execJStDregSMerged c r op m b s
  | .jStDregDMerged c r op m b => Sys2Proof.Machine.execJStDregDMerged c r op m b s
  | .kLdDregS c r op m b => Sys2Proof.Machine.execKLdDregS c r op m b s
  | .kLdDregD c r op m b => Sys2Proof.Machine.execKLdDregD c r op m b s
  | .kLdDregQ c r op m b => Sys2Proof.Machine.execKLdDregQ c r op m b s
  | .kLdDregSBcast c r op m b => Sys2Proof.Machine.execKLdDregSBcast c r op m b s
  | .kLdDregDBcast c r op m b => Sys2Proof.Machine.execKLdDregDBcast c r op m b s
  | .kLdDregQBcast c r op m b => Sys2Proof.Machine.execKLdDregQBcast c r op m b s
  | .kLdDregSMerged c r op m b => Sys2Proof.Machine.execKLdDregSMerged c r op m b s
  | .kLdDregDMerged c r op m b => Sys2Proof.Machine.execKLdDregDMerged c r op m b s
  | .kStDregS c r op m b => Sys2Proof.Machine.execKStDregS c r op m b s
  | .kStDregD c r op m b => Sys2Proof.Machine.execKStDregD c r op m b s
  | .kStDregQ c r op m b => Sys2Proof.Machine.execKStDregQ c r op m b s
  | .kStDregSMerged c r op m b => Sys2Proof.Machine.execKStDregSMerged c r op m b s
  | .kStDregDMerged c r op m b => Sys2Proof.Machine.execKStDregDMerged c r op m b s
  | .jDab c r m b => Sys2Proof.Machine.execJDab c r m b s
  | .jSdab c r m b => Sys2Proof.Machine.execJSdab c r m b s
  | .jDabBcast c r m b => Sys2Proof.Machine.execJDabBcast c r m b s
  | .jSdabBcast c r m b => Sys2Proof.Machine.execJSdabBcast c r m b s
  | .jXdab c r m b => Sys2Proof.Machine.execJXdab c r m b s
  | .jXsdab c r m b => Sys2Proof.Machine.execJXsdab c r m b s
  | .jYdab c r m b => Sys2Proof.Machine.execJYdab c r m b s
  | .jYsdab c r m b => Sys2Proof.Machine.execJYsdab c r m b s
  | .kDab c r m b => Sys2Proof.Machine.execKDab c r m b s
  | .kSdab c r m b => Sys2Proof.Machine.execKSdab c r m b s
  | .kDabBcast c r m b => Sys2Proof.Machine.execKDabBcast c r m b s
  | .kSdabBcast c r m b => Sys2Proof.Machine.execKSdabBcast c r m b s
  | .kXdab c r m b => Sys2Proof.Machine.execKXdab c r m b s
  | .kXsdab c r m b => Sys2Proof.Machine.execKXsdab c r m b s
  | .kYdab c r m b => Sys2Proof.Machine.execKYdab c r m b s
  | .kYsdab c r m b => Sys2Proof.Machine.execKYsdab c r m b s
  | .ldImm u v => Sys2Proof.Machine.execLdImm u v s
  | .moveS d u => Sys2Proof.Machine.execMoveS d u s
  | .moveD d u => Sys2Proof.Machine.execMoveD d u s
  | .moveQ d u => Sys2Proof.Machine.execMoveQ d u s
  | .ldGscf0 q => Sys2Proof.Machine.execLdGscf0 q s
  | .ldGscf1 q => Sys2Proof.Machine.execLdGscf1 q s

end Sys2Proof.Machine
end

