-- ==== Sys2Proof/Machine/Line.lean ====
section
/-! DEFINITION. An instruction line: which lines are admitted (30_encoding.md R80 to R84, 70_reset_and_hazards.md R284),
the condition at its head (41_conditions.md R151, R152, R154), and its execution as one step (30_encoding.md R82,
60_exceptions.md R260, R264). -/

namespace Sys2Proof.Machine

/-! ## What an instruction reads and writes -/

/-- An item of state that two instructions of a line may not share when one writes it (30_encoding.md R82). The four
flags of an IALU count as one; memory words are compared by `wordClash`. -/
inductive Cell where
  | reg (u : Ureg)
  | flags (I : Ialu)
  | dab (c : Blk)
  | staticFlag (one : Bool)
  | programCounter
deriving DecidableEq, Repr

/-- The cell of a universal register; JSTAT and KSTAT are the flags (10_state.md R25). -/
def uregCell (u : Ureg) : Cell :=
  match statOf u with
  | some I => .flags I
  | none => .reg u

/-- The cell of a register named as an ALU operand, index, modifier or result: none for number 31 (10_state.md R23,
R24). -/
def gprCells (I : Ialu) (m : RegNum) : List Cell := if m = 31 then [] else [.reg (I.ureg m)]

/-- The cells an operand reads. -/
def opndCells (I : Ialu) (b : Opnd) : List Cell :=
  match b with
  | .reg n => gprCells I n
  | .imm _ => []

/-- A base or length register as a universal register. -/
def blUreg (I : Ialu) (d : BLReg) : Ureg :=
  match I, d with
  | .j, .base k => .jb k
  | .j, .len k => .jl k
  | .k, .base k => .kb k
  | .k, .len k => .kl k

/-- The base and length register of the buffer an index works with (44_circular_bitreverse.md R220). -/
def bufferCells (I : Ialu) (m : RegNum) : List Cell :=
  [.reg (blUreg I (.base (bufferOf m))), .reg (blUreg I (.len (bufferOf m)))]

/-- The data registers a load fills. -/
def ldCells (a : LdAcc) (r : RegNum) : List Cell :=
  match a with
  | .normal z c => (stRegs (.normal z c) r).map fun t => .reg (dregUreg t.1 t.2)
  | .merged dual c => (stRegs (.merged dual c) r).map fun t => .reg (dregUreg t.1 t.2)
  | .bcast z _ => (stRegs (.normal z .x) r ++ stRegs (.normal z .y) r).map fun t => .reg (dregUreg t.1 t.2)

/-- The blocks of a DAB access. -/
def dabBlks (a : DabKind) : List Blk := (dabPlan a).map fun p => p.1

/-- The IALU whose flags a condition reads (41_conditions.md R150). -/
def condIalu (q : Cond) : Ialu :=
  match q with
  | .jeq => .j
  | .jlt => .j
  | .jle => .j
  | .njeq => .j
  | .njlt => .j
  | .njle => .j
  | .keq => .k
  | .klt => .k
  | .kle => .k
  | .nkeq => .k
  | .nklt => .k
  | .nkle => .k

/-- The registers, flags and buffers an instruction reads. -/
def formReads (f : Form) : List Cell :=
  match f with
  | .alu I o _ m b =>
    gprCells I m ++ opndCells I b
      ++ (if o = .addCb ∨ o = .subCb then bufferCells I m else [])
      ++ (if o = .addc ∨ o = .subb then [.flags I] else [])
  | .alu1 I _ _ m => gprCells I m
  | .bl I _ _ m b => gprCells I m ++ opndCells I b
  | .comp I _ m b => gprCells I m ++ opndCells I b
  | .ldU I _ _ _ m b => gprCells I m ++ opndCells I b
  | .stU I z _ u m b => gprCells I m ++ opndCells I b ++ (u.group z).map uregCell
  | .ldD I _ _ op m b => gprCells I m ++ opndCells I b ++ (if op = .cb then bufferCells I m else [])
  | .stD I a r op m b =>
    gprCells I m ++ opndCells I b ++ (if op = .cb then bufferCells I m else [])
      ++ (stRegs a r).map fun t => .reg (dregUreg t.1 t.2)
  | .dab I a _ m b => gprCells I m ++ opndCells I b ++ bufferCells I m ++ (dabBlks a).map Cell.dab
  | .ldImm _ _ => []
  | .move z _ u => (u.group z).map uregCell
  | .gscf _ q => [.flags (condIalu q)]

/-- The registers, flags and buffers an instruction writes. -/
def formWrites (f : Form) : List Cell :=
  match f with
  | .alu I o d _ _ =>
    gprCells I d ++ [.flags I] ++ (if o = .addCjmp ∨ o = .subCjmp then [.reg .cjmp] else [])
  | .alu1 I _ d _ => gprCells I d ++ [.flags I]
  | .bl I _ d _ _ => [.reg (blUreg I d), .flags I]
  | .comp I _ _ _ => [.flags I]
  | .ldU I z p u m _ => (u.group z).map uregCell ++ (if p = .post then gprCells I m else [])
  | .stU I _ p _ m _ => if p = .post then gprCells I m else []
  | .ldD I a r _ m _ => ldCells a r ++ gprCells I m
  | .stD I _ _ _ m _ => gprCells I m
  | .dab I a r m _ =>
    (dabBlks a).flatMap (fun c => (regGroup .quad r).map fun i => Cell.reg (dregUreg c i))
      ++ (dabBlks a).map Cell.dab ++ gprCells I m
  | .ldImm u _ => [uregCell u]
  | .move z d _ => (d.group z).map uregCell
  | .gscf one _ => [.staticFlag one]

/-- The cells an item reads. -/
def itemReads (it : Item) : List Cell :=
  match it with
  | .ialu i => formReads i.form
  | .nop => []
  | .jump _ => []

/-- The cells an item writes. -/
def itemWrites (it : Item) : List Cell :=
  match it with
  | .ialu i => formWrites i.form
  | .nop => []
  | .jump _ => [.programCounter]

/-- The IALU that executes an item; transfers and the sequencer's items are not counted (30_encoding.md R82). -/
def itemIalu (it : Item) : Option Ialu :=
  match it with
  | .ialu i => match i.form with
    | .alu I _ _ _ _ => some I
    | .alu1 I _ _ _ => some I
    | .bl I _ _ _ _ => some I
    | .comp I _ _ _ => some I
    | .ldU I _ _ _ _ _ => some I
    | .stU I _ _ _ _ _ => some I
    | .ldD I _ _ _ _ _ => some I
    | .stD I _ _ _ _ _ => some I
    | .dab I _ _ _ _ => some I
    | .ldImm _ _ => none
    | .move _ _ _ => none
    | .gscf _ _ => none
  | .nop => none
  | .jump _ => none

/-- The IALU whose arithmetic, logical or function operation the item is (70_reset_and_hazards.md R284). -/
def itemOperates (it : Item) : Option Ialu :=
  match it with
  | .ialu i => match i.form with
    | .alu I _ _ _ _ => some I
    | .alu1 I _ _ _ => some I
    | .bl I _ _ _ _ => some I
    | .comp I _ _ _ => some I
    | _ => none
  | .nop => none
  | .jump _ => none

/-! ## Which lines are admitted -/

/-- The two lists share a cell. -/
def meets (a b : List Cell) : Bool := a.any fun c => b.contains c

/-- Two items clash: one writes what the other writes or reads, or one IALU executes both (30_encoding.md R82). -/
def itemsClash (a b : Item) : Bool :=
  meets (itemWrites a) (itemWrites b) || meets (itemWrites a) (itemReads b) || meets (itemReads a) (itemWrites b)
    || ((itemIalu a).isSome && itemIalu a == itemIalu b)

/-- One item writes JSTAT (KSTAT) by a load or move while the other operates on that IALU
(70_reset_and_hazards.md R284). -/
def statusClash (a b : Item) : Bool :=
  let into (x y : Item) : Bool := match itemOperates x, itemOperates y with
    | some I, none => (itemWrites y).contains (.flags I)
    | _, _ => false
  into a b || into b a

/-- Some pair of a list, in its order, is in the relation. -/
def anyPair (r : Item → Item → Bool) (l : List Item) : Bool :=
  match l with
  | [] => false
  | a :: rest => rest.any (r a) || anyPair r rest

/-- Why an item's form is refused, if it is. -/
def itemError (it : Item) : Option FormReason :=
  match it with
  | .ialu i => i.form.error
  | .nop => none
  | .jump _ => none

/-- The head condition counts LC0 down (92_eei_decisions.md D23) while an item reads or writes LC0. -/
def headClash (l : Line) : Bool :=
  l.cond == some .nlc0e &&
    l.items.any fun it => (itemWrites it.item).contains (.reg .lc0) || (itemReads it.item).contains (.reg .lc0)

/-- The refusals that the text of a line decides (60_exceptions.md R262), before anything is executed. -/
def lineError (l : Line) : Option Refusal :=
  let items := l.items.map fun it => it.item
  if !l.layoutOk then some .malformedLine
  else if !l.marksOk then some .notAnInstruction
  else match items.findSome? itemError with
    | some r => some (.badForm r)
    | none =>
      if anyPair statusClash items then some .statusWriteConflict
      else if anyPair itemsClash items || headClash l then some .intraLineConflict
      else none

/-! ## The condition at the head -/

/-- NLC0E: the loop counter has not expired (92_eei_decisions.md D23). -/
def loopGoesOn (s : State) : Bool := decide (1 < s.lc0.toNat)

/-- The head condition on the state before the line (41_conditions.md R150, R154); a line without one executes whole. -/
def headHolds (q : Option LineCond) (s : State) : Bool :=
  match q with
  | none => true
  | some (.ialu q) => condHolds q s.j.flags s.k.flags
  | some .sf0 => s.gscf0
  | some .sf1 => s.gscf1
  | some .nlc0e => loopGoesOn s

/-- What evaluating the head changes: NLC0E counts LC0 down; what LC0 holds when the loop has expired is the sequencer's
(D23, assumption 20) and is drawn. -/
def headEffect (q : Option LineCond) (s : State) : State :=
  if q = some .nlc0e then
    (if loopGoesOn s then { s with lc0 := s.lc0 - 1 } else { (draw s).2 with lc0 := (draw s).1 })
  else s

/-- The items that execute: the unmarked ones, and all when the condition holds (41_conditions.md R151). -/
def activeItems (l : Line) (s : State) : List Item :=
  (l.items.filter fun it => !it.marked || headHolds l.cond s).map fun it => it.item

/-! ## Execution -/

/-- One item on a state. -/
def execItem (it : Item) (s : State) : Out :=
  match it with
  | .ialu i => exec i s
  | .nop => .next s
  | .jump _ => .next s

/-- The word addresses an access touches and whether it stores; an instruction that touches no memory gives none. -/
def accessOf (it : Item) (s : State) : List Nat × Bool :=
  match it with
  | .ialu i => match i.form with
    | .ldU I z p _ m b => (List.range' (uregAddr I p m b s) z.count, false)
    | .stU I z p _ m b => (List.range' (uregAddr I p m b s) z.count, true)
    | .ldD I a _ _ m _ => (List.range' (dregAddr I m s) (ldWidth a), false)
    | .stD I a r _ m _ => (List.range' (dregAddr I m s) (stRegs a r).length, true)
    | .dab I a _ m _ => (List.range' (dabQuad (dabIsShort a) (aluread I m s)) 4, false)
    | _ => ([], false)
  | .nop => ([], false)
  | .jump _ => ([], false)

/-- Two accesses of a line touch a common word and one stores (20_memory.md R62). The words are those of the addresses
the index and modifier give, whether or not the update is refused: DESIGN CHOICE (assumption 21). -/
def wordClash (s : State) (a b : Item) : Bool :=
  let x := accessOf a s
  let y := accessOf b s
  (x.2 || y.2) && x.1.any fun w => y.1.contains w

/-- The first refusal of a list of outcomes. -/
def firstRefusal (l : List Out) : Option Refusal :=
  match l with
  | [] => none
  | .refused r :: _ => some r
  | .next _ :: rest => firstRefusal rest
  | .fault _ :: rest => firstRefusal rest

/-- The first fault of a list of outcomes. -/
def firstFault (l : List Out) : Option Fault :=
  match l with
  | [] => none
  | .fault f :: _ => some f
  | .next _ :: rest => firstFault rest
  | .refused _ :: rest => firstFault rest

/-- Executes items one after the other. An admitted line's items share no item that one of them writes, so the order
does not show and each reads what stood before the line (30_encoding.md R82). -/
def execItems (l : List Item) (s : State) : Out :=
  match l with
  | [] => .next s
  | it :: rest =>
    match execItem it s with
    | .next t => execItems rest t
    | .fault f => .fault f
    | .refused r => .refused r

/-- Where the line goes on: the target of a jump that executes, else the next line (10_state.md R36, D23). -/
def nextLine (l : List Item) (s : State) : Nat :=
  match l with
  | [] => s.pc + 1
  | .jump t :: _ => t.toNat
  | .ialu _ :: rest => nextLine rest s
  | .nop :: rest => nextLine rest s

/-- One line older: every hold goes down by one (70_reset_and_hazards.md R286). -/
def IaluState.tick (x : IaluState) : IaluState :=
  { x with baseHold := x.baseHold.map fun n => n - 1, lenHold := x.lenHold.map fun n => n - 1 }

/-- The line completes: the program counter moves and the ages advance. -/
def endLine (target : Nat) (s : State) : State := { s with j := s.j.tick, k := s.k.tick, pc := target }

/-- Completes the line when its execution gave a state. -/
def finish (target : Nat) (o : Out) : Out :=
  match o with
  | .next t => .next (endLine target t)
  | .fault f => .fault f
  | .refused r => .refused r

/-- Executes a line (30_encoding.md R82): a refusal of the text, of two accesses to a word, or of any instruction comes
first; then a fault of any instruction on the state before the line; then all effects are made (60_exceptions.md R260,
R264). DESIGN CHOICE (assumptions 19 and 21): R62, R262 and R264 put refusals before faults but give no order among the
refusals of one line. The model names a refusal of the text first (`lineError`), then `intraLineConflict` for two
executing accesses that touch a word (`wordClash`), even where the state refuses one of them, then the reason of the
first instruction in the text whose update the state refuses (`circularPrecondition`, `baseLengthHazard`, a DAB wrap). -/
def runLine (l : Line) (s : State) : Out :=
  match lineError l with
  | some r => .refused r
  | none =>
    let acts := activeItems l s
    if anyPair (wordClash s) acts then .refused .intraLineConflict
    else match firstRefusal (acts.map fun it => execItem it s) with
      | some r => .refused r
      | none => match firstFault (acts.map fun it => execItem it s) with
        | some f => .fault f
        | none => finish (nextLine acts s) (execItems acts (headEffect l.cond s))

/-! ## Fetching -/

/-- The refusal of a line whose slots do not decode: a missing extension slot is a layout fault (30_encoding.md R84), an
unknown word is no instruction (R97). -/
def decodeRefusal (e : DecodeError) : Refusal :=
  match e with
  | .notAnInstruction => .notAnInstruction
  | .noExtension => .malformedLine
  | .noWord => .malformedLine

/-- Fetches the line at the program counter and decodes it. A slot that does not decode is named before the layout of the
line is looked at, and the first such slot in the text gives the reason; the spec orders `NotAnInstruction` and
`MalformedLine` nowhere (60_exceptions.md R262): DESIGN CHOICE (assumption 19). -/
def fetchLine (s : State) : Except Refusal Line :=
  match s.prog[s.pc]? with
  | none => .error .endOfProgram
  | some l =>
    match decodeLine l with
    | .error e => .error (decodeRefusal e)
    | .ok l => .ok l

/-- Fetches and executes one line. -/
def stepLine (s : State) : Out :=
  match fetchLine s with
  | .error r => .refused r
  | .ok l => runLine l s

/-- The slots of an instruction given as bits: one word, and the second only if the first has its value there. -/
def tableSlots (nbits w : Nat) : List Slot :=
  match decode (tableWords nbits w) with
  | .ok (it, _) => ((tableWords nbits w).take (1 + it.extWords.length)).map fun x => ⟨false, x⟩
  | .error _ => ((tableWords nbits w).take 1).map fun x => ⟨false, x⟩

/-- An empty line of the program text. -/
def emptyLine : ProgLine := ⟨none, []⟩

/-- The program text with one line replaced; missing lines before it are empty. -/
def putLine (p : List ProgLine) (n : Nat) (l : ProgLine) : List ProgLine :=
  match n, p with
  | 0, [] => [l]
  | 0, _ :: rest => l :: rest
  | n + 1, [] => emptyLine :: putLine [] n l
  | n + 1, a :: rest => a :: putLine rest n l

/-- The state with one instruction, given as bits, placed where the next line is fetched. -/
def placeWord (s : State) (nbits w : Nat) : State :=
  { s with prog := putLine s.prog s.pc ⟨none, tableSlots nbits w⟩ }

end Sys2Proof.Machine
end

