-- ==== Sys2Proof/Machine/Step.lean ====
section
/-! DEFINITION. The step: one instruction line (00_scope.md R15, 60_exceptions.md R260). -/

namespace Sys2Proof.Machine

/-- One step of the machine: the instruction line at the program counter. -/
def step (s : State) : Host.Outcome State Fault Refusal := stepLine s

/-- The state with one instruction, whose bits are `w` numbered as the opcode table numbers them, stored as the line the
next step fetches. -/
def State.withFetchWord (s : State) (nbits w : Nat) : State := placeWord s nbits w

end Sys2Proof.Machine
end

