-- ==== Sys2Proof/Safety.lean ====
section
/-! DEFINITION. The vocabulary of the statements: what an instruction may change (its frame), what it means that it
completes, and the invariant of a state. -/

namespace Sys2Proof.Machine

/-! ## Frames and completion -/

/-- The item of state is the same in both states (the items of 30_encoding.md R82); a register with whether it is
unwritten (43_dab.md R209). -/
def SameCell (c : Cell) (s t : State) : Prop :=
  match c with
  | .reg u => readPlain u t = readPlain u s ∧ uregUnwritten u t = uregUnwritten u s
  | .flags I => t.flagsOf I = s.flagsOf I
  | .dab c => t.dab c = s.dab c
  | .staticFlag one => if one then t.gscf1 = s.gscf1 else t.gscf0 = s.gscf0
  | .programCounter => t.pc = s.pc

/-- The countdown of the write age of a base or length register (70_reset_and_hazards.md R286). -/
def holdOf (I : Ialu) (d : BLReg) (s : State) : Nat :=
  match d with
  | .base k => (s.ialu I).baseHold[k.val]
  | .len k => (s.ialu I).lenHold[k.val]

/-- Nothing but the cells listed and the words stored changes: every other register, flag, buffer, static flag, the
program counter, the age of every base and length register not listed, every byte of every other word of memory, the
memory map and the program text are as before. -/
structure Frame (written : List Cell) (stored : List Nat) (s t : State) : Prop where
  cells : ∀ c, c ∉ written → SameCell c s t
  ages : ∀ I d, Cell.reg (blUreg I d) ∉ written → holdOf I d t = holdOf I d s
  memory : ∀ a, a / 4 ∉ stored → readByte t.mem a = readByte s.mem a
  map : t.memMap = s.memMap
  text : t.prog = s.prog

/-- The J form or the K form of an instruction. -/
def pickIalu {α : Type} (I : Ialu) (onJ onK : α) : α :=
  match I with
  | .j => onJ
  | .k => onK

/-- The single, dual or quad form of an instruction. -/
def pickSize {α : Type} (z : Size) (one two four : α) : α :=
  match z with
  | .single => one
  | .dual => two
  | .quad => four

/-- The instruction completes on the state, and the next state is as `P` says. -/
def RunsTo (i : Instr) (s : State) (P : State → Prop) : Prop := ∃ t, exec i s = .next t ∧ P t

/-- The effect of an IALU operation: result register `d` holds `r` (nothing is written for number 31), the new flags of
its IALU are as `F` says, and nothing else changes but the cells of `more`. -/
structure AluEffect (I : Ialu) (d : RegNum) (r : Word) (F : Flags → Prop) (more : List Cell) (s t : State) : Prop where
  result : d ≠ 31 → aluread I d t = r
  flags : F (t.flagsOf I)
  frame : Frame (gprCells I d ++ Cell.flags I :: more) [] s t

/-- Z and N report the result (40_arith_logic.md R101). -/
def ZN (r : Word) (f : Flags) : Prop := f.z = (r == 0) ∧ f.n = r.msb

/-- V and C after an instruction Table 7-1 does not list for them: as before, or both cleared, the same choice for every
such instruction (40_arith_logic.md R104). -/
def VCKept (old f : Flags) : Prop :=
  match Config.vcNonarith with
  | .unchanged => f.v = old.v ∧ f.c = old.c
  | .cleared => f.v = false ∧ f.c = false

/-- V and C after an add or subtract with (BR): cleared, as before, or anything, the same choice for every such
instruction (40_arith_logic.md R111). -/
def VCBrKept (old f : Flags) : Prop :=
  match Config.vcBr with
  | .cleared => f.v = false ∧ f.c = false
  | .unchanged => f.v = old.v ∧ f.c = old.c
  | .draw => True

/-- V and C after an add or subtract with (CB): those of the operation without the wrap, cleared, or anything, the same
choice for every such instruction (40_arith_logic.md R110). -/
def VCCbOf (plain f : Flags) : Prop :=
  match Config.vcCb with
  | .unwrapped => f.v = plain.v ∧ f.c = plain.c
  | .cleared => f.v = false ∧ f.c = false
  | .draw => True

/-- The flags of an addition by the formulas of 40_arith_logic.md R105. -/
def addFlags (a b : Word) : Flags :=
  ⟨a + b == 0, (a + b).msb, a.msb == b.msb && (a + b).msb != a.msb, decide (2 ^ 32 ≤ a.toNat + b.toNat)⟩

/-- The flags of a subtraction by the formulas of 40_arith_logic.md R106; C is 1 when nothing is borrowed. -/
def subFlags (a b : Word) : Flags :=
  ⟨a - b == 0, (a - b).msb, a.msb != b.msb && (a - b).msb != a.msb, decide (b.toNat ≤ a.toNat)⟩

/-- The integer is outside -2^31 .. 2^31 - 1 (40_arith_logic.md R102). -/
def overflows (x : Int) : Bool := decide (x < -2147483648 ∨ 2147483647 < x)

/-- A Boolean as a word. -/
def bit (c : Bool) : Word := if c then 1 else 0

/-- The value is the one the parameter `abs_min` may give (40_arith_logic.md R121). -/
def IsAbs (a r : Word) : Prop :=
  if a = 0x80000000 then r = 0x7FFFFFFF ∨ r = 0x80000000 else (r.toNat : Int) = a.toInt.natAbs

/-- `r` is a half of `x` that 40_arith_logic.md R115 allows: of an even sum in range the half, of an odd one the floor or
the ceiling of its half, of a sum out of range the half of the 33-bit sum or of the sum cut to 32 bits, of which the low 32 bits
stand where it does not fit (assumption 12). -/
def IsHalf (x : Int) (r : Word) : Prop :=
  if overflows x then
    ∃ y : Int, (y = x ∨ y = (BitVec.ofInt 32 x).toInt) ∧
      (r = BitVec.ofInt 32 (y / 2) ∨ r = BitVec.ofInt 32 ((y + 1) / 2))
  else r.toInt * 2 = x ∨ (x % 2 = 1 ∧ (r.toInt * 2 = x - 1 ∨ r.toInt * 2 = x + 1))

/-! ## Circular buffers and bit reverse -/

/-- A base or length register of the buffer of index `m` was written fewer than four lines ago
(70_reset_and_hazards.md R286). -/
def Held (I : Ialu) (m : RegNum) (s : State) : Prop :=
  0 < holdOf I (.base (bufferOf m)) s ∨ 0 < holdOf I (.len (bufferOf m)) s

/-- The base register of the buffer of index `m`. -/
def baseOf (I : Ialu) (m : RegNum) (s : State) : Word := readPlain (blUreg I (.base (bufferOf m))) s

/-- The length register of the buffer of index `m`. -/
def lenOf (I : Ialu) (m : RegNum) (s : State) : Word := readPlain (blUreg I (.len (bufferOf m))) s

/-- The preconditions (a) to (c) of 44_circular_bitreverse.md R222, which a buffer of length 0 does not need. -/
def InBuffer (idx : Word) (d : Int) (base len : Word) : Prop :=
  len ≠ 0 →
    base.toNat ≤ idx.toNat ∧ idx.toNat < base.toNat + len.toNat ∧ d.natAbs < len.toNat ∧ base.toNat + len.toNat ≤ 2 ^ 32

/-- Index `m` can take a circular step `d`: it is one of I0..I3, its buffer was not written in the last four lines, and
the preconditions hold. -/
def CircularReady (I : Ialu) (m : RegNum) (d : Int) (s : State) : Prop :=
  m.val < 4 ∧ ¬ Held I m s ∧ InBuffer (aluread I m s) d (baseOf I m s) (lenOf I m s)

/-- The index after a circular step. -/
def circNext (I : Ialu) (m : RegNum) (d : Int) (s : State) : Word :=
  circ (aluread I m s) d (baseOf I m s) (lenOf I m s)

/-- A data-register access can update its index (42_load_store.md R161, R187; 44_circular_bitreverse.md R220, R223). -/
def UpdateReady (I : Ialu) (op : PmOp) (m : RegNum) (b : Opnd) (s : State) : Prop :=
  m ≠ 31 ∧
    match op with
    | .lin => True
    | .cb => b ≠ .reg m ∧ CircularReady I m (opndVal I b s).toInt s
    | .br => m.val < 4

/-- The index after a data-register access (42_load_store.md R163). -/
def nextIndex (I : Ialu) (op : PmOp) (m : RegNum) (b : Opnd) (s : State) : Word :=
  match op with
  | .lin => aluread I m s + opndVal I b s
  | .cb => circNext I m (opndVal I b s).toInt s
  | .br => bradd (aluread I m s) (opndVal I b s)

/-- A DAB access can update its index: I0..I3 with a modifier that is not the index, the buffer not written in the last
four lines, and either length 0 or the modifier 4 (8), the preconditions and no wrap (43_dab.md R203). -/
def DabReady (I : Ialu) (short : Bool) (m : RegNum) (b : Opnd) (s : State) : Prop :=
  b ≠ .reg m ∧ CircularReady I m (opndVal I b s).toInt s ∧
    (lenOf I m s ≠ 0 →
      (opndVal I b s).toInt = (if short then 8 else 4) ∧
        (aluread I m s).toNat + (if short then 8 else 4) < (baseOf I m s).toNat + (lenOf I m s).toNat)

/-! ## Registers, memory and buffers -/

/-- Universal register `u` holds `w` and is not unwritten; JSTAT and KSTAT hold the four flags of `w` (10_state.md R25, R26). -/
def Holds (u : Ureg) (w : Word) (t : State) : Prop :=
  match statOf u with
  | some I => t.flagsOf I = flagsOfWord w
  | none => readPlain u t = w ∧ uregUnwritten u t = false

/-- `w` is what universal register `u` delivers: its value, or for JSTAT and KSTAT a word with the four flags at their
places (10_state.md R25, R26). -/
def Delivers (u : Ureg) (w : Word) (s : State) : Prop :=
  match statOf u with
  | some I => flagsOfWord w = s.flagsOf I
  | none => w = readPlain u s

/-- No register of the list is unwritten: a store or move can read each of them (43_dab.md R209, 60_exceptions.md
R261). -/
def Readable (l : List Ureg) (s : State) : Prop := ∀ u ∈ l, uregUnwritten u s = false

/-- The instruction faults as it reads the registers of the list while one of them is unwritten, and names one that is
(60_exceptions.md R261). -/
def FaultsAsRead (i : Instr) (s : State) (l : List Ureg) : Prop :=
  (∃ u ∈ l, uregUnwritten u s = true) → ∃ u ∈ l, uregUnwritten u s = true ∧ exec i s = .fault (.unwrittenRead u)

/-- The address of a universal-register access that adds the modifier first (42_load_store.md R162). -/
def preAddr (I : Ialu) (m : RegNum) (b : Opnd) (s : State) : Nat := (aluread I m s + opndVal I b s).toNat

/-- The address of a post-modify access (42_load_store.md R163). -/
def postAddr (I : Ialu) (m : RegNum) (s : State) : Nat := (aluread I m s).toNat

/-- An access of `n` words at `a` goes through: aligned, and every word exists (20_memory.md R54, R58). -/
def Reachable (s : State) (a n : Nat) : Prop := a % n = 0 ∧ ∀ k, k < n → mapped s.memMap (a + k) = true

/-- The instruction, as an access of `n` words at `a`, faults when `n` does not divide `a`, and otherwise when one of the
words does not exist; either fault names the address `a` (00_scope.md R10; 20_memory.md R54, R55, R58;
60_exceptions.md R264). -/
def FaultsAsAccess (i : Instr) (s : State) (a n : Nat) : Prop :=
  (a % n ≠ 0 → exec i s = .fault (.misalignedAccess a n)) ∧
    (a % n = 0 → (∃ k, k < n ∧ mapped s.memMap (a + k) = false) → exec i s = .fault (.unmappedAccess a))

/-- The data registers `r`, `r + 1`, .. form a group that exists: an aligned low number, and all within `NDREG`
(10_state.md R33, R37). -/
def DregGroup (z : Size) (r : RegNum) : Prop := lowOk z r = true ∧ r.val + z.count ≤ Config.ndreg

/-- The group whose lowest-numbered member is `u` exists: it has a group name, and each of its registers is one that the
chapter names, `NDREG` counts or `UregSet` holds (10_state.md R33, R34, R37). -/
def UregGroup (z : Size) (u : Ureg) : Prop := u.groupOk z = true ∧ u.groupInSet z = true

/-- A dual or quad that no register group is: its low number is odd or no multiple of four, or it has no number
(10_state.md R37). -/
def Misnumbered (z : Size) (u : Ureg) : Prop := z ≠ .single ∧ ∀ n, u.number? = some n → n.val % z.count ≠ 0

/-- The form is refused in every state: for the reason `r` where the registers it names exist in groups (`named`), and in
any case for some reason of its form (60_exceptions.md R262; the order of two reasons is the model's, assumption 21). -/
def FormRefused (i : Instr) (named : Prop) (r : FormReason) : Prop :=
  ∀ s, (∃ r', exec i s = .refused (.badForm r')) ∧ (named → exec i s = .refused (.badForm r))

/-- The words at `a` and after stand in the registers of the group of `u` (42_load_store.md R166 to R170). -/
def Loaded (z : Size) (u : Ureg) (a : Nat) (s t : State) : Prop :=
  ∀ k, k < z.count → Holds (u.shift k) (readWord s.mem (a + k)) t

/-- The cells of block `c`'s registers `r`, `r + 1`, .. -/
def blockCells (c : Blk) (r : RegNum) (n : Nat) : List Cell :=
  (List.range n).map fun k => .reg (dregUreg c (regPlus r k))

/-- Block `c`'s registers `r`, `r + 1`, .. -/
def blockRegs (c : Blk) (r : RegNum) (n : Nat) : List Ureg := (List.range n).map fun k => dregUreg c (regPlus r k)

/-- The cells of the registers of a group. -/
def groupCells (z : Size) (u : Ureg) : List Cell := (u.group z).map uregCell

/-- The words of the registers of the group of `u` stand at `a` and after (42_load_store.md R166, R171 to R173). -/
def Stored (z : Size) (u : Ureg) (a : Nat) (s t : State) : Prop :=
  ∀ k, k < z.count → Delivers (u.shift k) (readWord t.mem (a + k)) s

/-- The registers a store of data registers reads. -/
def stSources (a : StAcc) (r : RegNum) : List Ureg := (stRegs a r).map fun t => dregUreg t.1 t.2

/-- Block `c`'s registers `r`, `r + 1`, .. hold the `n` words from `a` on and are not unwritten. -/
def BlockLoaded (c : Blk) (r : RegNum) (n a : Nat) (s t : State) : Prop :=
  ∀ k, k < n → readDreg c (regPlus r k) t = readWord s.mem (a + k) ∧ dregUnwritten c (regPlus r k) t = false

/-- The `n` words from `a` on are those of block `c`'s registers `r`, `r + 1`, .. -/
def BlockStored (c : Blk) (r : RegNum) (n a : Nat) (s t : State) : Prop :=
  ∀ k, k < n → readWord t.mem (a + k) = readDreg c (regPlus r k) s

/-- The block a merged access names first: `YX` names Y, `XY` and no prefix name X (42_load_store.md R166). -/
def firstBlk (c : Both) : Blk := if c = .yx then .y else .x

/-- The block a merged access names second. -/
def secondBlk (c : Both) : Blk := if c = .yx then .x else .y

/-- Element `i` of an aligned result of `n` elements at shift `sh`, where it is defined: taken from the new quad, or from
a primed buffer (43_dab.md R204, R209). -/
def Aligned {α : Type} (n sh i : Nat) (old new : Nat → α) : α := if i + sh < n then old (i + sh) else new (i + sh - n)

/-- Short word `j` of a quad whose words are `w`: the low half of word `j / 2` for even `j`, else its high half
(43_dab.md R202). -/
def shortOf (w : Nat → Word) (j : Nat) : Short :=
  if j % 2 = 0 then (w (j / 2)).extractLsb' 0 16 else (w (j / 2)).extractLsb' 16 16

/-- Word `k` of a buffer. -/
def dabWord (d : Dab) (k : Nat) : Word := d.words[k]?.getD 0

/-- The instruction is a load of data registers, through the DAB or not (30_encoding.md R90, R95). -/
def LoadsDregs (i : Instr) : Prop :=
  match i.form with
  | .ldD _ _ _ _ _ _ => True
  | .dab _ _ _ _ _ => True
  | _ => False

/-- The instruction is a DAB access with offset: `onY` tells YDAB from XDAB, `short` the short forms (30_encoding.md
R94). -/
def IsOffset (onY short : Bool) (i : Instr) : Prop := ∃ I c r m b, i.form = .dab I (.offset onY short c) r m b

/-- Block `c` took its part of a word DAB access at the quad `q` with shift `sh`: every element of the result that comes
from the new quad or from a primed buffer is in its register, a register whose element comes from an unprimed buffer is
unwritten and no other is, and the buffer holds the new quad (43_dab.md R201, R204, R209). -/
def DabWords (c : Blk) (r : RegNum) (q sh : Nat) (s t : State) : Prop :=
  (∀ i, i < 4 → ((s.dab c).primed = true ∨ 4 ≤ i + sh) →
      readDreg c (regPlus r i) t = Aligned 4 sh i (dabWord (s.dab c)) (fun k => readWord s.mem (q + k))) ∧
    (∀ i, i < 4 → (dregUnwritten c (regPlus r i) t = true ↔ (s.dab c).primed = false ∧ i + sh < 4)) ∧
    (∀ k, k < 4 → dabWord (t.dab c) k = readWord s.mem (q + k)) ∧ (t.dab c).primed = true

/-- As `DabWords` for a short access: register `k` takes short words `2k` and `2k + 1` of the result, low half first,
where both are defined, and is otherwise unwritten as a whole (43_dab.md R202, R204, R209). -/
def DabShorts (c : Blk) (r : RegNum) (q sh : Nat) (s t : State) : Prop :=
  (∀ k, k < 4 → ((s.dab c).primed = true ∨ 8 ≤ 2 * k + sh) →
      ∀ h, h < 2 → shortOf (fun _ => readDreg c (regPlus r k) t) h =
        Aligned 8 sh (2 * k + h) (shortOf (dabWord (s.dab c))) (shortOf fun k => readWord s.mem (q + k))) ∧
    (∀ k, k < 4 → (dregUnwritten c (regPlus r k) t = true ↔ (s.dab c).primed = false ∧ 2 * k + sh < 8)) ∧
    (∀ k, k < 4 → dabWord (t.dab c) k = readWord s.mem (q + k)) ∧ (t.dab c).primed = true

/-! ## The whole machine -/

/-- The words an item stores to, by the address its meaning uses; none for one that stores nothing. -/
def itemStored (it : Item) (s : State) : List Nat := if (accessOf it s).2 then (accessOf it s).1 else []

/-- The words an instruction stores to. -/
def storedWords (i : Instr) (s : State) : List Nat := itemStored (.ialu i) s

/-- Bit `n` places below bit 31 takes this carry when carries move to the right (44_circular_bitreverse.md R226). -/
def rightCarry (a b : Word) (n : Nat) : Bool :=
  match n with
  | 0 => false
  | n + 1 =>
    let x := a.getLsbD (31 - n)
    let y := b.getLsbD (31 - n)
    (x && y) || (x && rightCarry a b n) || (y && rightCarry a b n)

/-- The invariant every step keeps: memory is in its canonical form and lists nothing outside the map, and no write age
counts down from more than four between lines (70_reset_and_hazards.md R286). -/
structure Inv (s : State) : Prop where
  memWf : s.mem.wf = true
  memMapped : ∀ c, c ∈ s.mem → mapped s.memMap (c.1 / 4) = true
  holds : ∀ I d, holdOf I d s ≤ 4

end Sys2Proof.Machine
end

