-- ==== Sys2Proof/Certificates/Slice0/Obligations.lean ====
section
/-! DEFINITION. The statements for the provers. Each docstring names the rule of spec/ it formalises, or says that it
is about the model's own choice and names the log entry. -/

open Sys2Proof Sys2Proof.Machine

/-! ## Encoding and fetching -/

/-- The decoder reads back every instruction the encoder writes, whatever words follow. The encoding is the model's own
(assumption 1). -/
def Obligations.DecodeOfEncodeIsTheInstruction : Prop :=
  ∀ (i : Instr) (rest : List Word), decode (encode i ++ rest) = .ok (.ialu i, rest)

/-- Words that decode are the words the encoder writes for what they decode to: no two words mean the same and no bit
is dropped. The encoding is the model's own (assumption 1). -/
def Obligations.DecodedWordsAreTheEncoding : Prop :=
  ∀ (ws rest : List Word) (it : Item), decode ws = .ok (it, rest) → ws = it.words ++ rest

/-- Words written out from the layout of Decode.lean (assumption 1) decode to the instructions they stand for. -/
def Obligations.WrittenWordsDecode : Prop :=
  decode [0xC0020000] = .ok (.ialu (.jAdd 1 0 (.imm 0)), []) ∧
  decode [0xC00201FF] = .ok (.ialu (.jAdd 1 0 (.imm 0xFFFFFFFF)), []) ∧
  decode [0xCE840000] = .ok (.ialu (.kRotr 2 0), []) ∧
  decode [0x80000105, 0x12345678] = .ok (.ialu (.jLdUregSPre (.j 0) 0 (.reg 5)), [0x12345678]) ∧
  decode [0x0C0C0520, 0x00008181] = .ok (.ialu (.jLdDregS .x 3 .cb 0 (.imm 0x8181)), []) ∧
  decode [0x00001004] = .ok (.ialu (.jXdab .xy 0 0 (.imm 4)), []) ∧
  decode [0xD9280000, 0x00008181] = .ok (.ialu (.ldImm .ystat 0x8181), []) ∧
  decode [0xE0FC7C00] = .ok (.ialu (.moveS (.k 31) (.j 31)), [])

/-- 30_encoding.md R95: in the word of a data-register load, bits 12:10 select the offset operator. -/
def Obligations.LoadBitsSelectOffsetOperator : Prop :=
  ∀ (w e : Word) (i : Instr), decodeWord w e = some (.ialu i) → LoadsDregs i →
    (w.extractLsb' 10 3 = 0b100#3 ↔ IsOffset false false i) ∧
    (w.extractLsb' 10 3 = 0b101#3 ↔ IsOffset false true i) ∧
    (w.extractLsb' 10 3 = 0b110#3 ↔ IsOffset true false i) ∧
    (w.extractLsb' 10 3 = 0b111#3 ↔ IsOffset true true i)

/-- When the line at the program counter holds the words of one well-formed instruction, the step is that instruction's
`exec`, after which the line ends (`finish`: the next line, the write ages one line older). -/
def Obligations.StepRunsDecodedInstruction : Prop :=
  ∀ (s : State) (i : Instr) (ws : List Word), WellFormed i = true → decode ws = .ok (.ialu i, []) →
    s.prog[s.pc]? = some ⟨none, ws.map fun w => ⟨false, w⟩⟩ → step s = finish (s.pc + 1) (exec i s)

/-- The step at the text of any line of the syntax runs that line (00_scope.md R15): fetching and decoding lose
nothing of it. -/
def Obligations.StepRunsAssembledLine : Prop :=
  ∀ (s : State) (l : Line), s.prog[s.pc]? = some l.assemble → step s = runLine l s

/-! ## Every step -/

/-- Every step keeps the invariant: canonical memory inside the map, and ages of at most four lines. -/
def Obligations.StepKeepsInvariant : Prop := ∀ s t : State, Inv s → step s = .next t → Inv t

/-- The state after reset meets the invariant. -/
def Obligations.ResetMeetsInvariant : Prop := Inv State.reset

/-- 20_memory.md R64: no step changes the program text; nor the map of memory (R58). -/
def Obligations.StepKeepsProgramAndMap : Prop :=
  ∀ s t : State, step s = .next t → t.prog = s.prog ∧ t.memMap = s.memMap

/-- 10_state.md R36: a line without a jump moves the program counter on by one line. -/
def Obligations.LineWithoutJumpGoesToTheNext : Prop :=
  ∀ (s t : State) (l : Line), fetchLine s = .ok l → (∀ it ∈ l.items, ∀ n, it.item ≠ .jump n) → step s = .next t →
    t.pc = s.pc + 1

/-- What an instruction leaves alone: every register, flag group, buffer, static flag and the program counter that are
not among the cells it writes, the write age of every other base and length register, and every byte of memory outside
the words it stores to. -/
def Obligations.EveryInstructionKeepsItsFrame : Prop :=
  ∀ (i : Instr) (s t : State), exec i s = .next t → Frame (formWrites i.form) (storedWords i s) s t

/-- 10_state.md R27: an instruction that changes the flags of an IALU is an operation of that IALU, or a load or move
into its status register. -/
def Obligations.FlagsChangeOnlyByTheirIalu : Prop :=
  ∀ (i : Instr) (s t : State) (I : Ialu), exec i s = .next t → t.flagsOf I ≠ s.flagsOf I →
    itemOperates (.ialu i) = some I ∨
      ∃ z u, I.ureg 31 ∈ u.group z ∧
        ((∃ I' p m b, i.form = .ldU I' z p u m b) ∨ (∃ v, i.form = .ldImm u v ∧ z = .single) ∨ ∃ u', i.form = .move z u u')

/-- 41_conditions.md R154: SF0 and SF1 report the static flags, and a static flag keeps its value over every line that
does not load it. -/
def Obligations.StaticFlagsHoldTheirValue : Prop :=
  (∀ s : State, headHolds (some .sf0) s = s.gscf0 ∧ headHolds (some .sf1) s = s.gscf1) ∧
  ∀ (s t : State) (l : Line), fetchLine s = .ok l → step s = .next t →
    ((∀ it ∈ l.items, ∀ q, it.item ≠ .ialu (.ldGscf0 q)) → t.gscf0 = s.gscf0) ∧
    ((∀ it ∈ l.items, ∀ q, it.item ≠ .ialu (.ldGscf1 q)) → t.gscf1 = s.gscf1)

/-- 70_reset_and_hazards.md R286: a base or length register counts as recently written for four lines. The line that
writes it leaves four to go, and every other line takes one away. That a move of the register to itself counts as a
write is the model's choice (assumption 16). -/
def Obligations.WriteAgeCountsFourLines : Prop :=
  ∀ (s t : State) (l : Line) (I : Ialu) (d : BLReg), fetchLine s = .ok l → step s = .next t →
    ((∃ it ∈ activeItems l s, Cell.reg (blUreg I d) ∈ itemWrites it) → holdOf I d t = 4) ∧
    ((∀ it ∈ activeItems l s, Cell.reg (blUreg I d) ∉ itemWrites it) → holdOf I d t = holdOf I d s - 1)

/-! ## Lines -/

/-- 30_encoding.md R83, R84, 41_conditions.md R151: a line is refused as malformed when it needs more than four slots,
when an instruction other than its first is extended, or when more than three instructions are under its condition. An
immediate counts as extended outside its short range, which is one of the two readings of R83 (assumption 6). -/
def Obligations.MalformedLineIsRefused : Prop :=
  (∀ (l : Line) (s : State),
    (4 < l.items.length + (l.items.filter fun it => it.item.extended).length ∨
      (∃ it ∈ l.items.tail, it.item.extended = true) ∨ 3 < (l.items.filter fun it => it.marked).length) →
    runLine l s = .refused .malformedLine) ∧
  ((∀ v, (Opnd.imm v).extended = true ↔ ¬(-128 ≤ v.toInt ∧ v.toInt ≤ 127)) ∨
    ∀ v, (Opnd.imm v).extended = true ↔ 255 < v.toNat) ∧
  ((∀ u v, (Item.ialu (.ldImm u v)).extended = true ↔ ¬(-16384 ≤ v.toInt ∧ v.toInt ≤ 16383)) ∨
    ∀ u v, (Item.ialu (.ldImm u v)).extended = true ↔ 32767 < v.toNat)

/-- 30_encoding.md R82, 20_memory.md R62: a line is refused when two of its instructions write one item or one writes
what the other reads, when one IALU executes both, and when two accesses of it touch a word and one of them stores. -/
def Obligations.ConflictingInstructionsAreRefused : Prop :=
  (∀ (q : Option LineCond) (a b c : List LineItem) (x y : LineItem) (s : State),
    ((∃ e ∈ itemWrites x.item, e ∈ itemWrites y.item ∨ e ∈ itemReads y.item) ∨
      (∃ e ∈ itemReads x.item, e ∈ itemWrites y.item) ∨
      (∃ I, itemIalu x.item = some I ∧ itemIalu y.item = some I)) →
    ∃ r, runLine ⟨q, a ++ x :: b ++ y :: c⟩ s = .refused r) ∧
  ∀ (x y : Item) (s : State) (w : Nat), lineError ⟨none, [⟨false, x⟩, ⟨false, y⟩]⟩ = none →
    w ∈ (accessOf x s).1 → w ∈ (accessOf y s).1 → (accessOf x s).2 = true ∨ (accessOf y s).2 = true →
    runLine ⟨none, [⟨false, x⟩, ⟨false, y⟩]⟩ s = .refused .intraLineConflict

/-- 70_reset_and_hazards.md R284: a line with a load or move into a status register beside an operation of that IALU
is refused. -/
def Obligations.StatusWriteBesideOperationIsRefused : Prop :=
  ∀ (l : Line) (x y : LineItem) (I : Ialu) (s : State), l.layoutOk = true → l.marksOk = true →
    (∀ it ∈ l.items, itemError it.item = none) → x ∈ l.items → y ∈ l.items →
    itemOperates x.item = some I → itemOperates y.item = none → Cell.flags I ∈ itemWrites y.item →
    runLine l s = .refused .statusWriteConflict

/-- 41_conditions.md R151, R152: under a false condition the marked instructions have no effect, whatever they are and
whether they would fault: the line does what its unmarked instructions do as a line of their own. A line of marked
instructions only ends as a line of nothing does, but that NLC0E counts LC0 down (assumption 20). -/
def Obligations.FalseConditionHasNoEffect : Prop :=
  ∀ (l : Line) (s : State), lineError l = none → headHolds l.cond s = false →
    (l.cond ≠ some .nlc0e → runLine l s = runLine ⟨none, l.items.filter fun it => !it.marked⟩ s) ∧
    ((∀ it ∈ l.items, it.marked = true) → runLine l s = .next (endLine (s.pc + 1) (headEffect l.cond s)))

/-- 30_encoding.md R82 (1) to (3): every instruction of an admitted line that executes does what it does alone on the
state before the line (with some number of open values drawn before it), all their writes are made, and nothing else
changes but the program counter, the write ages and what the head condition counts down; so the order of the
instructions does not show. The line completes when each of them does. -/
def Obligations.LineDoesWhatEachInstructionDoesAlone : Prop :=
  ∀ (l : Line) (s : State), s.mem.wf = true →
    (lineError l = none → anyPair (wordClash s) (activeItems l s) = false →
      (∀ it ∈ activeItems l s, ∃ u, execItem it s = .next u) → ∃ t, runLine l s = .next t) ∧
    ∀ t, runLine l s = .next t →
      (∀ it ∈ activeItems l s, ∃ n u, execItem it { s with draws := n } = .next u ∧
        (∀ c ∈ itemWrites it, c ≠ .programCounter → SameCell c u t) ∧
        ∀ a ∈ itemStored it s, readWord t.mem a = readWord u.mem a) ∧
      (∀ c, c ≠ .programCounter → (c = .reg .lc0 → l.cond ≠ some .nlc0e) →
        (∀ it ∈ activeItems l s, c ∉ itemWrites it) → SameCell c s t) ∧
      (∀ a, (∀ it ∈ activeItems l s, a / 4 ∉ itemStored it s) → readByte t.mem a = readByte s.mem a) ∧
      t.memMap = s.memMap ∧ t.prog = s.prog

/-- 41_conditions.md R150: the twelve conditions of Table 7-2 on the flags. -/
def Obligations.ConditionsReadTheirFlags : Prop :=
  ∀ j k : Flags,
    condHolds .jeq j k = (j.z == true) ∧ condHolds .jlt j k = (j.n == true) ∧
    condHolds .jle j k = (j.n == true || j.z == true) ∧
    condHolds .njeq j k = (j.z == false) ∧ condHolds .njlt j k = (j.n == false) ∧
    condHolds .njle j k = (j.n == false && j.z == false) ∧
    condHolds .keq j k = (k.z == true) ∧ condHolds .klt j k = (k.n == true) ∧
    condHolds .kle j k = (k.n == true || k.z == true) ∧
    condHolds .nkeq j k = (k.z == false) ∧ condHolds .nklt j k = (k.n == false) ∧
    condHolds .nkle j k = (k.n == false && k.z == false)

/-! ## Stops -/

/-- 60_exceptions.md R262: an instruction whose form the spec refuses is refused with that reason, in every state. In
order: register groups (10_state.md R37), registers that do not exist (R33, R34; 30_encoding.md R97), post-modify through
register 31 (42_load_store.md R161), a post-modify load of its own index (R168), CB, BR and DAB forms with an index above
I3 (44_circular_bitreverse.md R220, 43_dab.md R203, 40_arith_logic.md R110, R111), and CB and DAB accesses whose modifier
is their index (R223, R201). Which of two reasons of one form is named is the model's choice (assumption 21). -/
def Obligations.RefusedFormIsRefusedAlways : Prop :=
  (∀ (i : Instr) (r : FormReason) (s : State), i.form.error = some r → exec i s = .refused (.badForm r)) ∧
  (∀ (z : Size) (u : Ureg), Misnumbered z u → ∀ (I : Ialu) (p : Modify) (m : RegNum) (b : Opnd) (d : Ureg),
    FormRefused (Form.ldU I z p u m b).instr True .registerGroupAlignment ∧
    FormRefused (Form.stU I z p u m b).instr True .registerGroupAlignment ∧
    FormRefused (Form.move z u d).instr True .registerGroupAlignment ∧
    FormRefused (Form.move z d u).instr True .registerGroupAlignment) ∧
  (∀ (I : Ialu) (r : RegNum) (op : PmOp) (m : RegNum) (b : Opnd),
    (∀ a : LdAcc, r.val % a.size.count ≠ 0 → FormRefused (Form.ldD I a r op m b).instr True .registerGroupAlignment) ∧
    (∀ a : StAcc, r.val % a.size.count ≠ 0 → FormRefused (Form.stD I a r op m b).instr True .registerGroupAlignment) ∧
    ∀ a, r.val % 4 ≠ 0 → FormRefused (Form.dab I a r m b).instr True .registerGroupAlignment) ∧
  (∀ (z : Size) (u : Ureg), u.groupInSet z = false → ∀ (I : Ialu) (p : Modify) (m : RegNum) (b : Opnd) (d : Ureg) (v : Word),
    FormRefused (Form.ldU I z p u m b).instr (u.groupOk z = true) .notAnInstruction ∧
    FormRefused (Form.stU I z p u m b).instr (u.groupOk z = true) .notAnInstruction ∧
    FormRefused (Form.move z u d).instr (u.groupOk z = true ∧ d.groupOk z = true) .notAnInstruction ∧
    FormRefused (Form.move z d u).instr (u.groupOk z = true ∧ d.groupOk z = true) .notAnInstruction ∧
    (z = .single → FormRefused (.ldImm u v) True .notAnInstruction)) ∧
  (∀ (I : Ialu) (r : RegNum) (op : PmOp) (m : RegNum) (b : Opnd),
    (∀ a : LdAcc, Config.ndreg < r.val + a.size.count →
      FormRefused (Form.ldD I a r op m b).instr (lowOk a.size r = true) .notAnInstruction) ∧
    (∀ a : StAcc, Config.ndreg < r.val + a.size.count →
      FormRefused (Form.stD I a r op m b).instr (lowOk a.size r = true) .notAnInstruction) ∧
    ∀ a, Config.ndreg < r.val + 4 → FormRefused (Form.dab I a r m b).instr (lowOk .quad r = true) .notAnInstruction) ∧
  (∀ (I : Ialu) (z : Size) (u : Ureg) (r : RegNum) (b : Opnd),
    FormRefused (Form.ldU I z .post u 31 b).instr (UregGroup z u) .unspecifiedForm ∧
    FormRefused (Form.stU I z .post u 31 b).instr (UregGroup z u) .unspecifiedForm ∧
    (∀ a : LdAcc, FormRefused (Form.ldD I a r .lin 31 b).instr (DregGroup a.size r) .unspecifiedForm) ∧
    (∀ a : StAcc, FormRefused (Form.stD I a r .lin 31 b).instr (DregGroup a.size r) .unspecifiedForm) ∧
    ∀ m, I.ureg m ∈ u.group z → FormRefused (Form.ldU I z .post u m b).instr (UregGroup z u) .unspecifiedForm) ∧
  (∀ (I : Ialu) (d m : RegNum) (b : Opnd), 4 ≤ m.val →
    (∀ o ∈ [Alu2.addCb, .subCb, .addBr, .subBr], FormRefused (Form.alu I o d m b).instr True .notAnIndexRegister) ∧
    (∀ (a : LdAcc) (op : PmOp), op ≠ .lin →
      FormRefused (Form.ldD I a d op m b).instr (DregGroup a.size d) .notAnIndexRegister) ∧
    (∀ (a : StAcc) (op : PmOp), op ≠ .lin →
      FormRefused (Form.stD I a d op m b).instr (DregGroup a.size d) .notAnIndexRegister) ∧
    ∀ a, FormRefused (Form.dab I a d m b).instr (DregGroup .quad d) .notAnIndexRegister) ∧
  ∀ (I : Ialu) (r m : RegNum), m.val < 4 →
    (∀ a : LdAcc, FormRefused (Form.ldD I a r .cb m (.reg m)).instr (DregGroup a.size r) .unspecifiedForm) ∧
    (∀ a : StAcc, FormRefused (Form.stD I a r .cb m (.reg m)).instr (DregGroup a.size r) .unspecifiedForm) ∧
    ∀ a, FormRefused (Form.dab I a r m (.reg m)).instr (DregGroup .quad r) .unspecifiedForm

/-- 60_exceptions.md R261, R264, 42_load_store.md R164, 20_memory.md R54, R56, R58: a store or move that reads a register
an unprimed DAB access left unwritten faults so, whatever else is wrong with its access; otherwise an access whose address
its width does not divide faults, and then one with a word that does not exist, for every load and store whose form is
admitted and whose index can be updated; a DAB access reads an aligned quad and is never misaligned. -/
def Obligations.ReadFaultsThenAlignmentThenMap : Prop :=
  (∀ (I : Ialu) (z : Size) (p : Modify) (u : Ureg) (m : RegNum) (b : Opnd) (s : State),
    (Form.ldU I z p u m b).error = none →
    FaultsAsAccess (Form.ldU I z p u m b).instr s (uregAddr I p m b s) z.count) ∧
  (∀ (I : Ialu) (z : Size) (p : Modify) (u : Ureg) (m : RegNum) (b : Opnd) (s : State),
    (Form.stU I z p u m b).error = none →
    FaultsAsRead (Form.stU I z p u m b).instr s (u.group z) ∧
    (Readable (u.group z) s → FaultsAsAccess (Form.stU I z p u m b).instr s (uregAddr I p m b s) z.count)) ∧
  (∀ (z : Size) (d u : Ureg) (s : State), UregGroup z d → UregGroup z u →
    FaultsAsRead (Form.move z d u).instr s (u.group z)) ∧
  (∀ (I : Ialu) (a : LdAcc) (r : RegNum) (op : PmOp) (m : RegNum) (b : Opnd) (s : State),
    DregGroup a.size r → UpdateReady I op m b s →
    FaultsAsAccess (Form.ldD I a r op m b).instr s (postAddr I m s) (ldWidth a)) ∧
  (∀ (I : Ialu) (a : StAcc) (r : RegNum) (op : PmOp) (m : RegNum) (b : Opnd) (s : State),
    DregGroup a.size r → UpdateReady I op m b s →
    FaultsAsRead (Form.stD I a r op m b).instr s (stSources a r) ∧
    (Readable (stSources a r) s →
      FaultsAsAccess (Form.stD I a r op m b).instr s (postAddr I m s) (stRegs a r).length)) ∧
  ∀ (I : Ialu) (a : DabKind) (r m : RegNum) (b : Opnd) (s : State),
    (DregGroup .quad r → DabReady I (dabIsShort a) m b s →
      FaultsAsAccess (Form.dab I a r m b).instr s (dabQuad (dabIsShort a) (aluread I m s)) 4) ∧
    ∀ addr n, exec (Form.dab I a r m b).instr s ≠ .fault (.misalignedAccess addr n)

/-- 44_circular_bitreverse.md R222, 43_dab.md R203: with a buffer of a length, a circular step whose preconditions fail
is refused, for add and subtract with (CB) and for every CB access; a DAB access of any kind is refused so with another
modifier than 4 (8 for the short forms) or with preconditions that fail, and as unspecified when it would wrap. That of
two reasons at one update the one named is this one is the model's choice (assumption 21). -/
def Obligations.CircularPreconditionIsChecked : Prop :=
  ∀ (I : Ialu) (m : RegNum) (b : Opnd) (s : State), m.val < 4 → ¬ Held I m s →
    let step := (opndVal I b s).toInt
    let fits := fun d => InBuffer (aluread I m s) d (baseOf I m s) (lenOf I m s)
    (∀ d, ¬ fits step → exec (pickIalu I (.jAddCb d m b) (.kAddCb d m b)) s = .refused .circularPrecondition) ∧
    (∀ d, ¬ fits (-step) → exec (pickIalu I (.jSubCb d m b) (.kSubCb d m b)) s = .refused .circularPrecondition) ∧
    (b ≠ .reg m → ¬ fits step → ∀ r,
      (∀ a, DregGroup (LdAcc.size a) r → exec (Form.ldD I a r .cb m b).instr s = .refused .circularPrecondition) ∧
      ∀ a, DregGroup (StAcc.size a) r → exec (Form.stD I a r .cb m b).instr s = .refused .circularPrecondition) ∧
    (b ≠ .reg m → lenOf I m s ≠ 0 → ∀ a r, DregGroup .quad r →
      (step ≠ (if dabIsShort a then 8 else 4) ∨ ¬ fits step →
        exec (Form.dab I a r m b).instr s = .refused .circularPrecondition) ∧
      (step = (if dabIsShort a then 8 else 4) → fits step →
        ((baseOf I m s).toNat : Int) + (lenOf I m s).toNat ≤ (aluread I m s).toNat + step →
        exec (Form.dab I a r m b).instr s = .refused (.badForm .unspecifiedForm)))

/-- 70_reset_and_hazards.md R286: a circular use (add or subtract with (CB), a CB load or store, a DAB access) while the
base or length register is recently written is refused when the parameter `bl_strict` is set, and otherwise reads the
values last written. That the hazard is named before any other reason at the update is the model's choice
(assumption 21). -/
def Obligations.HeldBufferFollowsTheParameter : Prop :=
  ∀ (I : Ialu) (m : RegNum) (b : Opnd) (s : State), m.val < 4 → Held I m s →
    let step := (opndVal I b s).toInt
    let fits := fun d => InBuffer (aluread I m s) d (baseOf I m s) (lenOf I m s)
    let stepped := fun t => aluread I m t = circNext I m step s
    if Config.blStrict then
      (∀ d, exec (pickIalu I (.jAddCb d m b) (.kAddCb d m b)) s = .refused .baseLengthHazard ∧
        exec (pickIalu I (.jSubCb d m b) (.kSubCb d m b)) s = .refused .baseLengthHazard) ∧
      (b ≠ .reg m → ∀ r,
        (∀ a, DregGroup (LdAcc.size a) r → exec (Form.ldD I a r .cb m b).instr s = .refused .baseLengthHazard) ∧
        (∀ a, DregGroup (StAcc.size a) r → exec (Form.stD I a r .cb m b).instr s = .refused .baseLengthHazard) ∧
        ∀ a, DregGroup .quad r → exec (Form.dab I a r m b).instr s = .refused .baseLengthHazard)
    else
      (∀ d, fits step → RunsTo (pickIalu I (.jAddCb d m b) (.kAddCb d m b)) s
        fun t => d ≠ 31 → aluread I d t = circNext I m step s) ∧
      (∀ d, fits (-step) → RunsTo (pickIalu I (.jSubCb d m b) (.kSubCb d m b)) s
        fun t => d ≠ 31 → aluread I d t = circNext I m (-step) s) ∧
      (b ≠ .reg m → fits step → ∀ r,
        (∀ a, DregGroup (LdAcc.size a) r → Reachable s (postAddr I m s) (ldWidth a) →
          RunsTo (Form.ldD I a r .cb m b).instr s stepped) ∧
        (∀ a, DregGroup (StAcc.size a) r → Readable (stSources a r) s → Reachable s (postAddr I m s) (stRegs a r).length →
          RunsTo (Form.stD I a r .cb m b).instr s stepped) ∧
        ∀ a, DregGroup .quad r → Reachable s (dabQuad (dabIsShort a) (aluread I m s)) 4 →
          (lenOf I m s ≠ 0 → step = (if dabIsShort a then 8 else 4) ∧
            ((aluread I m s).toNat : Int) + step < (baseOf I m s).toNat + (lenOf I m s).toNat) →
          RunsTo (Form.dab I a r m b).instr s stepped)

/-! ## Arithmetic -/

/-- 10_state.md R23 and R24: register 31 reads zero; as a result it discards the value, and the flags are set. -/
def Obligations.Register31ReadsZeroAndDiscards : Prop :=
  ∀ (I : Ialu) (m : RegNum) (b : Opnd) (s : State),
    aluread I 31 s = 0 ∧ (∀ v, aluwrite I 31 v s = s) ∧
    RunsTo (pickIalu I (.jAdd 31 m b) (.kAdd 31 m b)) s (fun t =>
      Frame [Cell.flags I] [] s t ∧ t.flagsOf I = addFlags (aluread I m s) (opndVal I b s))

/-- 40_arith_logic.md R105: add. -/
def Obligations.AddWritesSumAndFlags : Prop :=
  ∀ (I : Ialu) (d m : RegNum) (b : Opnd) (s : State),
    RunsTo (pickIalu I (.jAdd d m b) (.kAdd d m b)) s
      (AluEffect I d (aluread I m s + opndVal I b s) (fun f => f = addFlags (aluread I m s) (opndVal I b s)) [] s)

/-- 40_arith_logic.md R106: subtract. -/
def Obligations.SubtractWritesDifferenceAndFlags : Prop :=
  ∀ (I : Ialu) (d m : RegNum) (b : Opnd) (s : State),
    RunsTo (pickIalu I (.jSub d m b) (.kSub d m b)) s
      (AluEffect I d (aluread I m s - opndVal I b s) (fun f => f = subFlags (aluread I m s) (opndVal I b s)) [] s)

/-- 40_arith_logic.md R109: with (CJMP) the result goes to CJMP as well; result register 31 is refused. -/
def Obligations.CjmpOptionWritesCjmpToo : Prop :=
  ∀ (I : Ialu) (d m : RegNum) (b : Opnd) (s : State),
    (d ≠ 31 →
      RunsTo (pickIalu I (.jAddCjmp d m b) (.kAddCjmp d m b)) s (fun t =>
        AluEffect I d (aluread I m s + opndVal I b s) (fun f => f = addFlags (aluread I m s) (opndVal I b s))
          [.reg .cjmp] s t ∧ t.cjmp = aluread I m s + opndVal I b s) ∧
      RunsTo (pickIalu I (.jSubCjmp d m b) (.kSubCjmp d m b)) s (fun t =>
        AluEffect I d (aluread I m s - opndVal I b s) (fun f => f = subFlags (aluread I m s) (opndVal I b s))
          [.reg .cjmp] s t ∧ t.cjmp = aluread I m s - opndVal I b s)) ∧
    exec (pickIalu I (.jAddCjmp 31 m b) (.kAddCjmp 31 m b)) s = .refused (.badForm .unspecifiedForm) ∧
    exec (pickIalu I (.jSubCjmp 31 m b) (.kSubCjmp 31 m b)) s = .refused (.badForm .unspecifiedForm)

/-- 40_arith_logic.md R110: with (CB) the result is the circular step of the index; V and C follow `vc_cb`
(assumption 11). -/
def Obligations.CircularOptionWritesTheCircularStep : Prop :=
  ∀ (I : Ialu) (d m : RegNum) (b : Opnd) (s : State),
    (CircularReady I m (opndVal I b s).toInt s →
      RunsTo (pickIalu I (.jAddCb d m b) (.kAddCb d m b)) s
        (AluEffect I d (circNext I m (opndVal I b s).toInt s)
          (fun f => ZN (circNext I m (opndVal I b s).toInt s) f ∧ VCCbOf (addFlags (aluread I m s) (opndVal I b s)) f)
          [] s)) ∧
    (CircularReady I m (-(opndVal I b s).toInt) s →
      RunsTo (pickIalu I (.jSubCb d m b) (.kSubCb d m b)) s
        (AluEffect I d (circNext I m (-(opndVal I b s).toInt) s)
          (fun f => ZN (circNext I m (-(opndVal I b s).toInt) s) f ∧ VCCbOf (subFlags (aluread I m s) (opndVal I b s)) f)
          [] s))

/-- 40_arith_logic.md R111: with (BR) the sum carries to the right and the difference is the ordinary one; V and C
follow `vc_br` (assumption 10). -/
def Obligations.BitReverseOptionCarriesRight : Prop :=
  ∀ (I : Ialu) (d m : RegNum) (b : Opnd) (s : State), m.val < 4 →
    RunsTo (pickIalu I (.jAddBr d m b) (.kAddBr d m b)) s
      (AluEffect I d (bradd (aluread I m s) (opndVal I b s))
        (fun f => ZN (bradd (aluread I m s) (opndVal I b s)) f ∧ VCBrKept (s.flagsOf I) f) [] s) ∧
    RunsTo (pickIalu I (.jSubBr d m b) (.kSubBr d m b)) s
      (AluEffect I d (aluread I m s - opndVal I b s)
        (fun f => ZN (aluread I m s - opndVal I b s) f ∧ VCBrKept (s.flagsOf I) f) [] s)

/-- 40_arith_logic.md R112: the sum or difference goes to the base or length register named, which counts as written
now, and the flags are those of the add or subtract. -/
def Obligations.BaseLengthFormsWriteTheRegister : Prop :=
  ∀ (I : Ialu) (d : BLReg) (m : RegNum) (b : Opnd) (s : State),
    RunsTo (pickIalu I (.jAddBl d m b) (.kAddBl d m b)) s (fun t =>
      readPlain (blUreg I d) t = aluread I m s + opndVal I b s ∧ holdOf I d t = 5 ∧
      t.flagsOf I = addFlags (aluread I m s) (opndVal I b s) ∧ Frame [.reg (blUreg I d), .flags I] [] s t) ∧
    RunsTo (pickIalu I (.jSubBl d m b) (.kSubBl d m b)) s (fun t =>
      readPlain (blUreg I d) t = aluread I m s - opndVal I b s ∧ holdOf I d t = 5 ∧
      t.flagsOf I = subFlags (aluread I m s) (opndVal I b s) ∧ Frame [.reg (blUreg I d), .flags I] [] s t)

/-- 40_arith_logic.md R113: add with carry. -/
def Obligations.AddWithCarryWritesSumAndFlags : Prop :=
  ∀ (I : Ialu) (d m : RegNum) (b : Opnd) (s : State),
    let x := aluread I m s
    let y := opndVal I b s
    let c := (s.flagsOf I).c
    RunsTo (pickIalu I (.jAddc d m b) (.kAddc d m b)) s
      (AluEffect I d (x + y + bit c)
        (fun f => ZN (x + y + bit c) f ∧ f.v = overflows (x.toInt + y.toInt + c.toNat) ∧
          f.c = decide (2 ^ 32 ≤ x.toNat + y.toNat + c.toNat)) [] s)

/-- 40_arith_logic.md R114: subtract with borrow; C is 1 when nothing is borrowed. -/
def Obligations.SubtractWithBorrowWritesDifferenceAndFlags : Prop :=
  ∀ (I : Ialu) (d m : RegNum) (b : Opnd) (s : State),
    let x := aluread I m s
    let y := opndVal I b s
    let c := (s.flagsOf I).c
    RunsTo (pickIalu I (.jSubb d m b) (.kSubb d m b)) s
      (AluEffect I d (x - y + bit c - 1)
        (fun f => ZN (x - y + bit c - 1) f ∧ f.v = overflows (x.toInt - y.toInt + c.toNat - 1) ∧
          f.c = decide (y.toNat + 1 ≤ x.toNat + c.toNat)) [] s)

/-- 40_arith_logic.md R103, R113, R114: an add then an add with carry is a 64-bit add, a subtract then a subtract with
borrow a 64-bit subtract, with the carry and overflow of the 64-bit operation. -/
def Obligations.CarryFormsChainToSixtyFourBits : Prop :=
  ∀ (I : Ialu) (dl dh ml mh nl nh : RegNum) (s : State), dl ≠ 31 → dh ≠ 31 → dl ≠ dh → dl ≠ mh → dl ≠ nh →
    let x := aluread I mh s ++ aluread I ml s
    let y := aluread I nh s ++ aluread I nl s
    (∃ s1 s2, exec (pickIalu I (.jAdd dl ml (.reg nl)) (.kAdd dl ml (.reg nl))) s = .next s1 ∧
      exec (pickIalu I (.jAddc dh mh (.reg nh)) (.kAddc dh mh (.reg nh))) s1 = .next s2 ∧
      aluread I dh s2 ++ aluread I dl s2 = x + y ∧ (s2.flagsOf I).c = decide (2 ^ 64 ≤ x.toNat + y.toNat) ∧
      (s2.flagsOf I).v = decide (x.toInt + y.toInt < -2 ^ 63 ∨ 2 ^ 63 ≤ x.toInt + y.toInt)) ∧
    ∃ s1 s2, exec (pickIalu I (.jSub dl ml (.reg nl)) (.kSub dl ml (.reg nl))) s = .next s1 ∧
      exec (pickIalu I (.jSubb dh mh (.reg nh)) (.kSubb dh mh (.reg nh))) s1 = .next s2 ∧
      aluread I dh s2 ++ aluread I dl s2 = x - y ∧ (s2.flagsOf I).c = decide (y.toNat ≤ x.toNat) ∧
      (s2.flagsOf I).v = decide (x.toInt - y.toInt < -2 ^ 63 ∨ 2 ^ 63 ≤ x.toInt - y.toInt)

/-- 40_arith_logic.md R115, R116: the half of the exact sum or difference, with the candidates the spec allows for an
odd one and for one outside 32 bits; that 2^31, the half of 2^32 - 1 rounded up, stands as its low 32 bits is the model's
choice (assumption 12). V and C may be anything. -/
def Obligations.HalvingWritesAHalf : Prop :=
  ∀ (I : Ialu) (d m : RegNum) (b : Opnd) (s : State),
    (∃ r, IsHalf ((aluread I m s).toInt + (opndVal I b s).toInt) r ∧
      RunsTo (pickIalu I (.jAddHalf d m b) (.kAddHalf d m b)) s (AluEffect I d r (ZN r) [] s)) ∧
    ∃ r, IsHalf ((aluread I m s).toInt - (opndVal I b s).toInt) r ∧
      RunsTo (pickIalu I (.jSubHalf d m b) (.kSubHalf d m b)) s (AluEffect I d r (ZN r) [] s)

/-! ## Functions, logic, shifts -/

/-- 40_arith_logic.md R117, R118: COMP writes no register; Z is equality and N the order of the operands, signed, or
unsigned with (U) (the flags are general knowledge: assumption 14). -/
def Obligations.CompareOrdersItsOperands : Prop :=
  ∀ (I : Ialu) (m : RegNum) (b : Opnd) (s : State),
    RunsTo (pickIalu I (.jComp m b) (.kComp m b)) s (fun t =>
      Frame [Cell.flags I] [] s t ∧ VCKept (s.flagsOf I) (t.flagsOf I) ∧
      ((t.flagsOf I).z = true ↔ aluread I m s = opndVal I b s) ∧
      ((t.flagsOf I).n = true ↔ (aluread I m s).toInt < (opndVal I b s).toInt)) ∧
    RunsTo (pickIalu I (.jCompU m b) (.kCompU m b)) s (fun t =>
      Frame [Cell.flags I] [] s t ∧ VCKept (s.flagsOf I) (t.flagsOf I) ∧
      ((t.flagsOf I).z = true ↔ aluread I m s = opndVal I b s) ∧
      ((t.flagsOf I).n = true ↔ (aluread I m s).toNat < (opndVal I b s).toNat))

/-- 40_arith_logic.md R119, R120: MAX and MIN are signed. -/
def Obligations.MaxAndMinAreSigned : Prop :=
  ∀ (I : Ialu) (d m : RegNum) (b : Opnd) (s : State),
    (∃ r, r.toInt = max (aluread I m s).toInt (opndVal I b s).toInt ∧
      RunsTo (pickIalu I (.jMax d m b) (.kMax d m b)) s
        (AluEffect I d r (fun f => ZN r f ∧ VCKept (s.flagsOf I) f) [] s)) ∧
    ∃ r, r.toInt = min (aluread I m s).toInt (opndVal I b s).toInt ∧
      RunsTo (pickIalu I (.jMin d m b) (.kMin d m b)) s
        (AluEffect I d r (fun f => ZN r f ∧ VCKept (s.flagsOf I) f) [] s)

/-- 40_arith_logic.md R121: ABS; N is the sign of the input, V is set for 0x80000000 alone, whose result follows
`abs_min` (assumption 13), and C follows `vc_nonarith` (assumption 9). -/
def Obligations.AbsoluteValueAndItsFlags : Prop :=
  ∀ (I : Ialu) (d m : RegNum) (s : State),
    ∃ r, IsAbs (aluread I m s) r ∧
      RunsTo (pickIalu I (.jAbs d m) (.kAbs d m)) s
        (AluEffect I d r (fun f => f.z = (r == 0) ∧ f.n = (aluread I m s).msb ∧
          f.v = (aluread I m s == 0x80000000) ∧
          (match Config.vcNonarith with
            | .unchanged => f.c = (s.flagsOf I).c
            | .cleared => f.c = false)) [] s)

/-- 40_arith_logic.md R122 to R126: OR, AND, XOR, AND NOT and NOT, bit by bit; Z and N of the result, V and C by
`vc_nonarith` (assumption 9). -/
def Obligations.LogicalResultsBitByBit : Prop :=
  ∀ (I : Ialu) (d m : RegNum) (b : Opnd) (s : State) (i : Instr) (op : Bool → Bool → Bool),
    (i, op) ∈ [(pickIalu I (.jOr d m b) (.kOr d m b), fun x y => x || y),
      (pickIalu I (.jAnd d m b) (.kAnd d m b), fun x y => x && y),
      (pickIalu I (.jXor d m b) (.kXor d m b), fun x y => x ^^ y),
      (pickIalu I (.jAndNot d m b) (.kAndNot d m b), fun x y => x && !y),
      (pickIalu I (.jNot d m) (.kNot d m), fun x _ => !x)] →
    ∃ r : Word, (∀ n, n < 32 → r.getLsbD n = op ((aluread I m s).getLsbD n) ((opndVal I b s).getLsbD n)) ∧
      RunsTo i s (AluEffect I d r (fun f => ZN r f ∧ VCKept (s.flagsOf I) f) [] s)

/-- 40_arith_logic.md R127 to R130: the shifts and rotates by one place, bit by bit (the distance of all but ROTR is
general knowledge: assumption 15); Z and N of the result, V and C by `vc_nonarith` (assumption 9). -/
def Obligations.ShiftsMoveOnePlace : Prop :=
  ∀ (I : Ialu) (d m : RegNum) (s : State) (i : Instr) (from_ : Word → Nat → Bool),
    (i, from_) ∈ [(pickIalu I (.jAshiftr d m) (.kAshiftr d m), fun x n => x.getLsbD (if n = 31 then 31 else n + 1)),
      (pickIalu I (.jLshiftr d m) (.kLshiftr d m), fun x n => x.getLsbD (n + 1)),
      (pickIalu I (.jRotr d m) (.kRotr d m), fun x n => x.getLsbD ((n + 1) % 32)),
      (pickIalu I (.jRotl d m) (.kRotl d m), fun x n => x.getLsbD ((n + 31) % 32))] →
    ∃ r : Word, (∀ n, n < 32 → r.getLsbD n = from_ (aluread I m s) n) ∧
      RunsTo i s (AluEffect I d r (fun f => ZN r f ∧ VCKept (s.flagsOf I) f) [] s)

/-! ## Circular buffers and bit reverse -/

/-- 44_circular_bitreverse.md R221: the circular update, on exact integers. -/
def Obligations.CircularUpdateComparesExactly : Prop :=
  ∀ (idx base len : Word) (d : Int),
    circ idx d base 0 = idx + BitVec.ofInt 32 d ∧
    (len ≠ 0 →
      ((base.toNat : Int) + len.toNat ≤ idx.toNat + d → circ idx d base len = idx + BitVec.ofInt 32 d - len) ∧
      ((idx.toNat : Int) + d < base.toNat → circ idx d base len = idx + BitVec.ofInt 32 d + len) ∧
      ((base.toNat : Int) ≤ idx.toNat + d → (idx.toNat : Int) + d < base.toNat + len.toNat →
        circ idx d base len = idx + BitVec.ofInt 32 d))

/-- 44_circular_bitreverse.md R222: under the preconditions a circular step stays in the buffer and moves by the step
modulo the length. -/
def Obligations.CircularStepStaysInTheBuffer : Prop :=
  ∀ (idx base len : Word) (d : Int), len ≠ 0 → InBuffer idx d base len →
    base.toNat ≤ (circ idx d base len).toNat ∧ (circ idx d base len).toNat < base.toNat + len.toNat ∧
    ((circ idx d base len).toNat : Int) - base.toNat = ((idx.toNat : Int) - base.toNat + d) % len.toNat

/-- 44_circular_bitreverse.md R226: the bit-reverse add goes bit by bit from bit 31 down, each carry into the next
lower bit, and the carry out of bit 0 is lost. -/
def Obligations.BitReverseAddCarriesToTheRight : Prop :=
  ∀ (a b : Word) (n : Nat), n < 32 →
    (bradd a b).getLsbD (31 - n) = (a.getLsbD (31 - n) ^^ b.getLsbD (31 - n) ^^ rightCarry a b n)

/-- 43_dab.md R204: the alignment function. -/
def Obligations.AlignmentTakesOldThenNew : Prop :=
  ∀ (old new : List Word) (n sh i : Nat), old.length = n → new.length = n → sh ≤ n → i < n →
    (i + sh < n → (alignN old new sh)[i]? = old[i + sh]?) ∧
    (n ≤ i + sh → (alignN old new sh)[i]? = new[i + sh - n]?)

/-! ## Loads and stores of universal registers -/

/-- 42_load_store.md R162, R167, R169, R170: pre-modify loads read at index plus modifier and leave the index. -/
def Obligations.PreModifyLoadsFillTheGroup : Prop :=
  ∀ (I : Ialu) (z : Size) (u : Ureg) (m : RegNum) (b : Opnd) (s : State),
    UregGroup z u → Reachable s (preAddr I m b s) z.count →
    RunsTo (pickSize z (pickIalu I (.jLdUregSPre u m b) (.kLdUregSPre u m b))
        (pickIalu I (.jLdUregDPre u m b) (.kLdUregDPre u m b)) (pickIalu I (.jLdUregQPre u m b) (.kLdUregQPre u m b))) s
      (fun t => Loaded z u (preAddr I m b s) s t ∧ Frame (groupCells z u) [] s t)

/-- 42_load_store.md R163, R168 to R170: post-modify loads read at the index and then add the modifier to it. -/
def Obligations.PostModifyLoadsFillTheGroupAndStep : Prop :=
  ∀ (I : Ialu) (z : Size) (u : Ureg) (m : RegNum) (b : Opnd) (s : State),
    UregGroup z u → m ≠ 31 → I.ureg m ∉ u.group z → Reachable s (postAddr I m s) z.count →
    RunsTo (pickSize z (pickIalu I (.jLdUregSPost u m b) (.kLdUregSPost u m b))
        (pickIalu I (.jLdUregDPost u m b) (.kLdUregDPost u m b))
        (pickIalu I (.jLdUregQPost u m b) (.kLdUregQPost u m b))) s
      (fun t => Loaded z u (postAddr I m s) s t ∧ aluread I m t = aluread I m s + opndVal I b s ∧
        Frame (groupCells z u ++ gprCells I m) [] s t)

/-- 42_load_store.md R162, R171 to R173: pre-modify stores write at index plus modifier and leave the index. -/
def Obligations.PreModifyStoresWriteTheGroup : Prop :=
  ∀ (I : Ialu) (z : Size) (u : Ureg) (m : RegNum) (b : Opnd) (s : State), s.mem.wf = true →
    UregGroup z u → Readable (u.group z) s → Reachable s (preAddr I m b s) z.count →
    RunsTo (pickSize z (pickIalu I (.jStUregSPre u m b) (.kStUregSPre u m b))
        (pickIalu I (.jStUregDPre u m b) (.kStUregDPre u m b)) (pickIalu I (.jStUregQPre u m b) (.kStUregQPre u m b))) s
      (fun t => Stored z u (preAddr I m b s) s t ∧ Frame [] (List.range' (preAddr I m b s) z.count) s t)

/-- 42_load_store.md R163, R171 to R173: post-modify stores write at the index, the old index too, and then add the
modifier to it. -/
def Obligations.PostModifyStoresWriteTheGroupAndStep : Prop :=
  ∀ (I : Ialu) (z : Size) (u : Ureg) (m : RegNum) (b : Opnd) (s : State), s.mem.wf = true →
    UregGroup z u → Readable (u.group z) s → m ≠ 31 → Reachable s (postAddr I m s) z.count →
    RunsTo (pickSize z (pickIalu I (.jStUregSPost u m b) (.kStUregSPost u m b))
        (pickIalu I (.jStUregDPost u m b) (.kStUregDPost u m b))
        (pickIalu I (.jStUregQPost u m b) (.kStUregQPost u m b))) s
      (fun t => Stored z u (postAddr I m s) s t ∧ aluread I m t = aluread I m s + opndVal I b s ∧
        Frame (gprCells I m) (List.range' (postAddr I m s) z.count) s t)

/-- 10_state.md R25, 42_load_store.md R170, R173, R189: J31:28 (K31:28) saved by a quad store through either IALU and
loaded back in any later state with the same memory, map and address returns the three registers and the four flags. -/
def Obligations.StatusQuadSavesAndRestores : Prop :=
  ∀ (I I' : Ialu) (m : RegNum) (b : Opnd) (s u : State), s.mem.wf = true → Reachable s (preAddr I m b s) 4 →
    ∃ s1, exec (pickIalu I (.jStUregQPre (I'.ureg 28) m b) (.kStUregQPre (I'.ureg 28) m b)) s = .next s1 ∧
      (u.mem = s1.mem → u.memMap = s1.memMap → preAddr I m b u = preAddr I m b s →
        ∃ t, exec (pickIalu I (.jLdUregQPre (I'.ureg 28) m b) (.kLdUregQPre (I'.ureg 28) m b)) u = .next t ∧
          t.flagsOf I' = s.flagsOf I' ∧ ∀ r : RegNum, 28 ≤ r.val → aluread I' r t = aluread I' r s)

/-! ## Loads and stores of data registers -/

/-- 42_load_store.md R174 to R176: normal loads of one block, with any operator. -/
def Obligations.NormalLoadsFillOneBlock : Prop :=
  ∀ (I : Ialu) (z : Size) (c : Blk) (r : RegNum) (op : PmOp) (m : RegNum) (b : Opnd) (s : State),
    DregGroup z r → UpdateReady I op m b s → Reachable s (postAddr I m s) z.count →
    RunsTo (pickSize z (pickIalu I (.jLdDregS c r op m b) (.kLdDregS c r op m b))
        (pickIalu I (.jLdDregD c r op m b) (.kLdDregD c r op m b))
        (pickIalu I (.jLdDregQ c r op m b) (.kLdDregQ c r op m b))) s
      (fun t => BlockLoaded c r z.count (postAddr I m s) s t ∧ aluread I m t = nextIndex I op m b s ∧
        Frame (blockCells c r z.count ++ gprCells I m) [] s t)

/-- 42_load_store.md R177 to R179: broadcast loads give both blocks the same words, whatever the prefix. -/
def Obligations.BroadcastLoadsFillBothBlocks : Prop :=
  ∀ (I : Ialu) (z : Size) (c : Both) (r : RegNum) (op : PmOp) (m : RegNum) (b : Opnd) (s : State),
    DregGroup z r → UpdateReady I op m b s → Reachable s (postAddr I m s) z.count →
    RunsTo (pickSize z (pickIalu I (.jLdDregSBcast c r op m b) (.kLdDregSBcast c r op m b))
        (pickIalu I (.jLdDregDBcast c r op m b) (.kLdDregDBcast c r op m b))
        (pickIalu I (.jLdDregQBcast c r op m b) (.kLdDregQBcast c r op m b))) s
      (fun t => BlockLoaded .x r z.count (postAddr I m s) s t ∧ BlockLoaded .y r z.count (postAddr I m s) s t ∧
        aluread I m t = nextIndex I op m b s ∧
        Frame (blockCells .x r z.count ++ blockCells .y r z.count ++ gprCells I m) [] s t)

/-- 42_load_store.md R166, R180, R181: merged loads give the block named first the words at the higher addresses. -/
def Obligations.MergedLoadsSplitTheWords : Prop :=
  ∀ (I : Ialu) (c : Both) (r : RegNum) (op : PmOp) (m : RegNum) (b : Opnd) (s : State), UpdateReady I op m b s →
    let a := postAddr I m s
    (DregGroup .single r → Reachable s a 2 →
      RunsTo (pickIalu I (.jLdDregSMerged c r op m b) (.kLdDregSMerged c r op m b)) s (fun t =>
      BlockLoaded (secondBlk c) r 1 a s t ∧ BlockLoaded (firstBlk c) r 1 (a + 1) s t ∧
      aluread I m t = nextIndex I op m b s ∧
      Frame (blockCells .x r 1 ++ blockCells .y r 1 ++ gprCells I m) [] s t)) ∧
    (DregGroup .dual r → Reachable s a 4 →
      RunsTo (pickIalu I (.jLdDregDMerged c r op m b) (.kLdDregDMerged c r op m b)) s (fun t =>
        BlockLoaded (secondBlk c) r 2 a s t ∧ BlockLoaded (firstBlk c) r 2 (a + 2) s t ∧
        aluread I m t = nextIndex I op m b s ∧
        Frame (blockCells .x r 2 ++ blockCells .y r 2 ++ gprCells I m) [] s t))

/-- 42_load_store.md R182 to R184: normal stores of one block, with any operator. -/
def Obligations.NormalStoresWriteOneBlock : Prop :=
  ∀ (I : Ialu) (z : Size) (c : Blk) (r : RegNum) (op : PmOp) (m : RegNum) (b : Opnd) (s : State), s.mem.wf = true →
    DregGroup z r → Readable (blockRegs c r z.count) s → UpdateReady I op m b s → Reachable s (postAddr I m s) z.count →
    RunsTo (pickSize z (pickIalu I (.jStDregS c r op m b) (.kStDregS c r op m b))
        (pickIalu I (.jStDregD c r op m b) (.kStDregD c r op m b))
        (pickIalu I (.jStDregQ c r op m b) (.kStDregQ c r op m b))) s
      (fun t => BlockStored c r z.count (postAddr I m s) s t ∧ aluread I m t = nextIndex I op m b s ∧
        Frame (gprCells I m) (List.range' (postAddr I m s) z.count) s t)

/-- 42_load_store.md R166, R185, R186: merged stores mirror merged loads. -/
def Obligations.MergedStoresSplitTheWords : Prop :=
  ∀ (I : Ialu) (c : Both) (r : RegNum) (op : PmOp) (m : RegNum) (b : Opnd) (s : State), s.mem.wf = true →
    UpdateReady I op m b s →
    let a := postAddr I m s
    (DregGroup .single r → Readable [.xr r, .yr r] s → Reachable s a 2 →
      RunsTo (pickIalu I (.jStDregSMerged c r op m b) (.kStDregSMerged c r op m b)) s (fun t =>
      BlockStored (secondBlk c) r 1 a s t ∧ BlockStored (firstBlk c) r 1 (a + 1) s t ∧
      aluread I m t = nextIndex I op m b s ∧ Frame (gprCells I m) (List.range' a 2) s t)) ∧
    (DregGroup .dual r → Readable (blockRegs .x r 2 ++ blockRegs .y r 2) s → Reachable s a 4 →
      RunsTo (pickIalu I (.jStDregDMerged c r op m b) (.kStDregDMerged c r op m b)) s (fun t =>
        BlockStored (secondBlk c) r 2 a s t ∧ BlockStored (firstBlk c) r 2 (a + 2) s t ∧
        aluread I m t = nextIndex I op m b s ∧ Frame (gprCells I m) (List.range' a 4) s t))

/-! ## The data alignment buffers -/

/-- 43_dab.md R201, R203 to R205, R207, R209, R210: DAB, its broadcast, XDAB and YDAB. The two-block forms range over
`XY`, `YX` and no prefix. That XDAB and YDAB without a prefix also run is the model's own deduction (assumption 25,
DEDUCED): 30_encoding.md R94, R205 and R207 print `XY` and `YX` only. -/
def Obligations.WordDabAccessesAlignThroughTheBuffer : Prop :=
  ∀ (I : Ialu) (r m : RegNum) (b : Opnd) (s : State), DregGroup .quad r → DabReady I false m b s →
    Reachable s ((aluread I m s).toNat / 4 * 4) 4 →
    let q := (aluread I m s).toNat / 4 * 4
    let mis := (aluread I m s).toNat % 4
    let next := circNext I m (opndVal I b s).toInt s
    (∀ c, RunsTo (pickIalu I (.jDab c r m b) (.kDab c r m b)) s (fun t =>
      DabWords c r q mis s t ∧ aluread I m t = next ∧
      Frame (blockCells c r 4 ++ Cell.dab c :: gprCells I m) [] s t)) ∧
    ∀ (c : Both) (i : Instr) (shX shY : Nat),
      (i, shX, shY) ∈ [(pickIalu I (.jDabBcast c r m b) (.kDabBcast c r m b), mis, mis),
        (pickIalu I (.jXdab c r m b) (.kXdab c r m b), mis + 1, mis),
        (pickIalu I (.jYdab c r m b) (.kYdab c r m b), mis, mis + 1)] →
      RunsTo i s (fun t => DabWords .x r q shX s t ∧ DabWords .y r q shY s t ∧ aluread I m t = next ∧
        Frame (blockCells .x r 4 ++ blockCells .y r 4 ++ Cell.dab .x :: Cell.dab .y :: gprCells I m) [] s t)

/-- 43_dab.md R202 to R204, R206, R208 to R210: SDAB, its broadcast, XSDAB and YSDAB; the order of the two short words
of a word is general knowledge (assumption 22). The two-block forms range over `XY`, `YX` and no prefix. That XSDAB and
YSDAB without a prefix also run is the model's own deduction (assumption 25, DEDUCED): 30_encoding.md R94, R206 and R208
print `XY` and `YX` only. -/
def Obligations.ShortDabAccessesAlignThroughTheBuffer : Prop :=
  ∀ (I : Ialu) (r m : RegNum) (b : Opnd) (s : State), DregGroup .quad r → DabReady I true m b s →
    Reachable s ((aluread I m s).toNat / 8 * 4) 4 →
    let q := (aluread I m s).toNat / 8 * 4
    let mis := (aluread I m s).toNat % 8
    let next := circNext I m (opndVal I b s).toInt s
    (∀ c, RunsTo (pickIalu I (.jSdab c r m b) (.kSdab c r m b)) s (fun t =>
      DabShorts c r q mis s t ∧ aluread I m t = next ∧
      Frame (blockCells c r 4 ++ Cell.dab c :: gprCells I m) [] s t)) ∧
    ∀ (c : Both) (i : Instr) (shX shY : Nat),
      (i, shX, shY) ∈ [(pickIalu I (.jSdabBcast c r m b) (.kSdabBcast c r m b), mis, mis),
        (pickIalu I (.jXsdab c r m b) (.kXsdab c r m b), mis + 1, mis),
        (pickIalu I (.jYsdab c r m b) (.kYsdab c r m b), mis, mis + 1)] →
      RunsTo i s (fun t => DabShorts .x r q shX s t ∧ DabShorts .y r q shY s t ∧ aluread I m t = next ∧
        Frame (blockCells .x r 4 ++ blockCells .y r 4 ++ Cell.dab .x :: Cell.dab .y :: gprCells I m) [] s t)

/-- 43_dab.md R200, R204, R209: of two DAB accesses one quad apart, the second delivers the four words at the address of
the first, whatever its alignment and whatever the buffer held. -/
def Obligations.SecondDabAccessDeliversTheUnalignedQuad : Prop :=
  ∀ (I : Ialu) (c : Blk) (r m : RegNum) (b : Opnd) (s : State), DregGroup .quad r → b ≠ .reg m → m.val < 4 →
    ¬ Held I m s → lenOf I m s = 0 → opndVal I b s = 4 → (aluread I m s).toNat + 4 < 2 ^ 32 →
    (∀ k, k < 8 → mapped s.memMap ((aluread I m s).toNat / 4 * 4 + k) = true) →
    ∃ s1 s2, exec (pickIalu I (.jDab c r m b) (.kDab c r m b)) s = .next s1 ∧
      exec (pickIalu I (.jDab c r m b) (.kDab c r m b)) s1 = .next s2 ∧
      ∀ k, k < 4 → readDreg c (regPlus r k) s2 = readWord s.mem ((aluread I m s).toNat + k) ∧
        dregUnwritten c (regPlus r k) s2 = false

/-! ## Transfers and static flags -/

/-- 45_ureg_transfer.md R240, 30_encoding.md R83: load immediate; the value is the 32-bit value of the program text. -/
def Obligations.ImmediateLoadWritesTheRegister : Prop :=
  ∀ (u : Ureg) (v : Word) (s : State), u.inSet = true →
    RunsTo (.ldImm u v) s (fun t => Holds u v t ∧ Frame [uregCell u] [] s t)

/-- 45_ureg_transfer.md R241 to R243: moves read every source before they write, and a status register delivers and
takes its four flags. -/
def Obligations.MovesCopyTheGroup : Prop :=
  ∀ (z : Size) (d u : Ureg) (s : State), UregGroup z d → UregGroup z u → Readable (u.group z) s →
    RunsTo (pickSize z (.moveS d u) (.moveD d u) (.moveQ d u)) s (fun t =>
      (∀ k, k < z.count → ∃ w, Delivers (u.shift k) w s ∧ Holds (d.shift k) w t) ∧ Frame (groupCells z d) [] s t)

/-- 41_conditions.md R153: a static-flag load takes the condition's value before the line. -/
def Obligations.StaticFlagLoadTakesTheCondition : Prop :=
  ∀ (q : Cond) (s : State),
    RunsTo (.ldGscf0 q) s (fun t => t.gscf0 = condHolds q (s.flagsOf .j) (s.flagsOf .k) ∧
      Frame [.staticFlag false] [] s t) ∧
    RunsTo (.ldGscf1 q) s (fun t => t.gscf1 = condHolds q (s.flagsOf .j) (s.flagsOf .k) ∧
      Frame [.staticFlag true] [] s t)
end

