-- ==== Sys2Proof/Laws/Flags.lean ====
section
/-! SUPPORT. The flag and result computations of Flags.lean in the spec's own formulas. -/

namespace Sys2Proof.Machine

/-! ## Addition and subtraction -/

theorem addCarry_r (a b : Word) (c : Bool) : (addCarry a b c).r = a + b + bit c := by
  apply BitVec.eq_of_toNat_eq
  cases c <;> simp [addCarry, bit, BitVec.toNat_ofNat, BitVec.toNat_add]

theorem subCarry_r (a b : Word) (c : Bool) : (subCarry a b c).r = a - b + bit c - 1 := by
  have e : (subCarry a b c).r = a + ~~~b + bit c := addCarry_r a (~~~b) c
  rw [e, BitVec.not_eq_neg_add, BitVec.sub_eq_add_neg, BitVec.sub_eq_add_neg, BitVec.sub_eq_add_neg]
  ac_rfl

/-- The sum without a carry in. -/
@[simp] theorem addSub_add_r (a b : Word) : (addSub false a b).r = a + b := by
  simp [addSub, addCarry_r, bit]

/-- The difference without a borrow in. -/
@[simp] theorem addSub_sub_r (a b : Word) : (addSub true a b).r = a - b := by
  simp [addSub, subCarry_r, bit]

theorem inRange32_eq (x : Int) : (!inRange32 x) = overflows x := by
  have e1 : minInt32 = -2147483648 := rfl
  have e2 : maxInt32 = 2147483647 := rfl
  rw [Bool.eq_iff_iff]
  simp [inRange32, overflows, e1, e2]
  try omega

theorem addCarry_flags (a b : Word) (c : Bool) :
    (addCarry a b c).flags = ⟨a + b + bit c == 0, (a + b + bit c).msb, overflows (a.toInt + b.toInt + c.toNat),
      decide (2 ^ 32 ≤ a.toNat + b.toNat + c.toNat)⟩ := by
  have h := addCarry_r a b c
  simp only [addCarry] at h ⊢
  rw [h, inRange32_eq]

theorem subCarry_flags (a b : Word) (c : Bool) :
    (subCarry a b c).flags = ⟨a - b + bit c - 1 == 0, (a - b + bit c - 1).msb,
      overflows (a.toInt - b.toInt + c.toNat - 1), decide (b.toNat + 1 ≤ a.toNat + c.toNat)⟩ := by
  have h := subCarry_r a b c
  simp only [subCarry] at h ⊢
  rw [h, inRange32_eq]
  have hb := b.isLt
  simp only [BitVec.toNat_not, Flags.mk.injEq, true_and, decide_eq_decide]
  omega

theorem msb_eq (a : Word) : a.msb = decide (a.toInt < 0) := BitVec.msb_eq_toInt

theorem addFlags_v (a b : Word) : (a.msb == b.msb && (a + b).msb != a.msb) = overflows (a.toInt + b.toInt) := by
  have h1 := BitVec.toInt_add a b
  have ha := a.toInt_lt; have ha' := a.le_toInt
  have hb := b.toInt_lt; have hb' := b.le_toInt
  rw [Bool.eq_iff_iff]
  simp only [msb_eq, h1, overflows, Int.bmod_def, Bool.and_eq_true, beq_iff_eq, bne_iff_ne, ne_eq, decide_eq_decide,
    decide_eq_true_eq] at *
  norm_num at *
  omega

theorem subFlags_v (a b : Word) : (a.msb != b.msb && (a - b).msb != a.msb) = overflows (a.toInt - b.toInt) := by
  have h1 := @BitVec.toInt_sub _ a b
  have ha := a.toInt_lt; have ha' := a.le_toInt
  have hb := b.toInt_lt; have hb' := b.le_toInt
  rw [Bool.eq_iff_iff]
  simp only [msb_eq, h1, overflows, Int.bmod_def, Bool.and_eq_true, bne_iff_ne, ne_eq, decide_eq_decide,
    decide_eq_true_eq] at *
  norm_num at *
  omega

/-- The flags of an addition. -/
@[simp] theorem addSub_add_flags (a b : Word) : (addSub false a b).flags = addFlags a b := by
  simp [addSub, addCarry_flags, bit, addFlags, addFlags_v]

/-- The flags of a subtraction. -/
@[simp] theorem addSub_sub_flags (a b : Word) : (addSub true a b).flags = subFlags a b := by
  simp [addSub, subCarry_flags, bit, subFlags, subFlags_v]

/-! ## Which flags a policy sets -/

@[simp] theorem setZN_z (f : Flags) (r : Word) : (f.setZN r).z = (r == 0) := rfl
@[simp] theorem setZN_n (f : Flags) (r : Word) : (f.setZN r).n = r.msb := rfl
@[simp] theorem setZN_v (f : Flags) (r : Word) : (f.setZN r).v = f.v := rfl
@[simp] theorem setZN_c (f : Flags) (r : Word) : (f.setZN r).c = f.c := rfl
@[simp] theorem setVC_z (f : Flags) (v c : Bool) : (f.setVC v c).z = f.z := rfl
@[simp] theorem setVC_n (f : Flags) (v c : Bool) : (f.setVC v c).n = f.n := rfl
@[simp] theorem setVC_v (f : Flags) (v c : Bool) : (f.setVC v c).v = v := rfl
@[simp] theorem setVC_c (f : Flags) (v c : Bool) : (f.setVC v c).c = c := rfl
@[simp] theorem keepVC_z (f : Flags) : (keepVC f).z = f.z := rfl
@[simp] theorem keepVC_n (f : Flags) : (keepVC f).n = f.n := rfl

/-- `keepVC` is the policy for V and C. -/
theorem keepVC_kept (old f : Flags) (hv : f.v = old.v) (hc : f.c = old.c) : VCKept old (keepVC f) := by
  unfold VCKept keepVC keepBit
  cases h : Config.vcNonarith <;> simp [hv, hc]

/-- Z and N of the result, V and C by the policy. -/
theorem keepVC_setZN (old : Flags) (r : Word) :
    ZN r (keepVC (old.setZN r)) ∧ VCKept old (keepVC (old.setZN r)) :=
  ⟨⟨by simp, by simp⟩, keepVC_kept _ _ rfl rfl⟩

theorem vcBr_spec (old : Flags) (r w : Word) :
    ZN r (vcBr (old.setZN r) w) ∧ VCBrKept old (vcBr (old.setZN r) w) := by
  unfold vcBr brBit VCBrKept ZN
  cases h : Config.vcBr <;> simp

theorem vcCb_spec (old plain : Flags) (r w : Word) :
    ZN r (vcCb (old.setZN r) plain w) ∧ VCCbOf plain (vcCb (old.setZN r) plain w) := by
  unfold vcCb cbBit VCCbOf ZN
  cases h : Config.vcCb <;> simp

/-! ## The status word -/

/-- The four positions differ whatever the raw choice is (10_state.md R26). -/
theorem flagPos_distinct : Config.flagPos.distinct = true := by
  unfold Config.flagPos; split
  · assumption
  · rfl

theorem putBit_getLsbD (w : Word) (p q : Nat) (b : Bool) (hp : p < 32) :
    (putBit w p b).getLsbD q = if q = p then b else w.getLsbD q := by
  by_cases hq : q < 32
  · unfold putBit
    by_cases h : q = p
    · subst h
      cases b <;> simp [hq]
    · cases b
      · simp [hq, h]
      · simp [hq, h]
  · have h : q ≠ p := by omega
    rw [if_neg h, BitVec.getLsbD_of_ge _ _ (by omega), BitVec.getLsbD_of_ge _ _ (by omega)]

/-- The flags come back from the status word, whatever stands in its other bits (10_state.md R26). -/
@[simp] theorem flagsOfWord_statWord (f : Flags) (w : Word) : flagsOfWord (statWord f w) = f := by
  have hd := flagPos_distinct
  simp only [Config.FlagPos.distinct, Bool.and_eq_true, bne_iff_ne, ne_eq, Fin.ext_iff] at hd
  obtain ⟨⟨⟨⟨⟨h1, h2⟩, h3⟩, h4⟩, h5⟩, h6⟩ := hd
  have l1 := Config.flagPos.z.isLt
  have l2 := Config.flagPos.n.isLt
  have l3 := Config.flagPos.v.isLt
  have l4 := Config.flagPos.c.isLt
  obtain ⟨z, n, v, c⟩ := f
  simp only [flagsOfWord, statWord, Flags.mk.injEq]
  have l1' : Config.flagPos.z.val < 32 := by omega
  have l2' : Config.flagPos.n.val < 32 := by omega
  have l3' : Config.flagPos.v.val < 32 := by omega
  have l4' : Config.flagPos.c.val < 32 := by omega
  refine ⟨?_, ?_, ?_, ?_⟩ <;>
    simp only [putBit_getLsbD, l1', l2', l3', l4', h1, h2, h3, h4, h5, h6, if_true, if_false]

end Sys2Proof.Machine
end

