-- ==== Sys2Proof/Laws/Memory.lean ====
section
/-! SUPPORT. Memory: reads after writes, and the canonical form every memory operation keeps. -/

namespace Sys2Proof.Machine

/-- The canonical form, cell by cell: each cell after the head has a greater address. -/
theorem wf_cons (a : Nat) (v : Byte) (rest : Memory) :
    Memory.wf ((a, v) :: rest) = true ↔
      v ≠ unlistedByte ∧ (∀ c ∈ rest, a < c.1) ∧ Memory.wf rest = true := by
  induction rest generalizing a v with
  | nil => simp [Memory.wf]
  | cons c rest ih =>
    obtain ⟨b, w⟩ := c
    constructor
    · intro h
      simp only [Memory.wf, Bool.and_eq_true, bne_iff_ne, decide_eq_true_eq] at h
      obtain ⟨⟨hv, hab⟩, hwf⟩ := h
      refine ⟨hv, ?_, hwf⟩
      have hb := ((ih b w).1 hwf).2.1
      intro c hc
      rcases List.mem_cons.1 hc with rfl | hc
      · exact hab
      · exact lt_trans hab (hb c hc)
    · rintro ⟨hv, hlt, hwf⟩
      simp only [Memory.wf, Bool.and_eq_true, bne_iff_ne, decide_eq_true_eq]
      exact ⟨⟨hv, hlt (b, w) (by simp)⟩, hwf⟩

/-- A byte write reaches no cell but its own: the cells of the result. -/
theorem mem_writeByte {m : Memory} {a : Nat} {v : Byte} {c : Host.Cell} (h : c ∈ writeByte m a v) :
    c ∈ m ∨ c = (a, v) := by
  induction m with
  | nil => unfold writeByte at h; split at h <;> simp_all
  | cons d rest ih =>
    obtain ⟨b, w⟩ := d
    simp only [writeByte] at h
    split at h
    · split at h
      · exact .inl h
      · rcases List.mem_cons.1 h with h | h
        · exact .inr h
        · exact .inl h
    · split at h
      · split at h
        · exact .inl (List.mem_cons_of_mem _ h)
        · rcases List.mem_cons.1 h with h | h
          · exact .inr h
          · exact .inl (List.mem_cons_of_mem _ h)
      · rcases List.mem_cons.1 h with h | h
        · exact .inl (by simp [h])
        · rcases ih h with h | h
          · exact .inl (List.mem_cons_of_mem _ h)
          · exact .inr h

/-- A byte write keeps the canonical form. -/
theorem writeByte_wf {m : Memory} (h : m.wf = true) (a : Nat) (v : Byte) : (writeByte m a v).wf = true := by
  induction m with
  | nil =>
    unfold writeByte
    split
    · rfl
    · simp_all [Memory.wf]
  | cons d rest ih =>
    obtain ⟨b, w⟩ := d
    obtain ⟨hw, hlt, hwf⟩ := (wf_cons b w rest).1 h
    simp only [writeByte]
    split
    · split
      · exact h
      · rename_i hab hv
        refine (wf_cons a v _).2 ⟨hv, ?_, h⟩
        intro c hc
        rcases List.mem_cons.1 hc with rfl | hc
        · exact hab
        · exact lt_trans hab (hlt c hc)
    · split
      · split
        · exact hwf
        · rename_i _ hab hv
          subst hab
          exact (wf_cons a v rest).2 ⟨hv, hlt, hwf⟩
      · rename_i h1 h2
        refine (wf_cons b w _).2 ⟨hw, ?_, ih hwf⟩
        intro c hc
        rcases mem_writeByte hc with hc | rfl
        · exact hlt c hc
        · show b < a; omega

/-- A cell below every listed one reads as unlisted. -/
theorem readByte_of_lt {m : Memory} {a : Nat} (h : ∀ c ∈ m, a < c.1) : readByte m a = unlistedByte := by
  induction m with
  | nil => rfl
  | cons d rest ih =>
    obtain ⟨b, w⟩ := d
    have hb : a < b := h (b, w) (by simp)
    simp only [readByte, if_neg (by omega : b ≠ a)]
    exact ih fun c hc => h c (List.mem_cons_of_mem _ hc)

/-- Reading another byte than the one written. -/
theorem readByte_writeByte_ne (m : Memory) {a b : Nat} (v : Byte) (h : b ≠ a) :
    readByte (writeByte m a v) b = readByte m b := by
  induction m with
  | nil => unfold writeByte; split <;> simp [readByte, h.symm]
  | cons d rest ih =>
    obtain ⟨e, w⟩ := d
    simp only [writeByte]
    split
    · split
      · rfl
      · simp [readByte, h.symm]
    · split
      · rename_i hae
        have hb : e ≠ b := fun x => h (by omega)
        have ha : a ≠ b := Ne.symm h
        split <;> simp [readByte, ha, hb]
      · simp only [readByte, ih]

/-- Reading the byte just written, in a canonical memory. -/
theorem readByte_writeByte_self {m : Memory} (h : m.wf = true) (a : Nat) (v : Byte) :
    readByte (writeByte m a v) a = v := by
  induction m with
  | nil => unfold writeByte; split <;> simp_all [readByte]
  | cons d rest ih =>
    obtain ⟨b, w⟩ := d
    obtain ⟨_, hlt, hwf⟩ := (wf_cons b w rest).1 h
    simp only [writeByte]
    split
    · rename_i hab
      split
      · rename_i hv
        rw [hv]
        refine readByte_of_lt fun c hc => ?_
        rcases List.mem_cons.1 hc with rfl | hc
        · exact hab
        · exact lt_trans hab (hlt c hc)
      · simp [readByte]
    · split
      · rename_i hab
        subst hab
        split
        · rename_i hv; rw [hv]; exact readByte_of_lt hlt
        · simp [readByte]
      · rename_i h1 h2
        simp only [readByte, if_neg (Ne.symm h2)]
        exact ih hwf

/-- A word write keeps the canonical form. -/
theorem writeWord_wf {m : Memory} (h : m.wf = true) (a : Nat) (v : Word) : (writeWord m a v).wf = true :=
  writeByte_wf (writeByte_wf (writeByte_wf (writeByte_wf h _ _) _ _) _ _) _ _

/-- A write of several words keeps the canonical form. -/
theorem writeWords_wf {m : Memory} (h : m.wf = true) (a : Nat) (ws : List Word) : (writeWords m a ws).wf = true := by
  induction ws generalizing m a with
  | nil => exact h
  | cons w rest ih => exact ih (writeWord_wf h a w) (a + 1)

/-- The cells after a word write: old ones, and cells of that word. -/
theorem mem_writeWord {m : Memory} {a : Nat} {v : Word} {c : Host.Cell} (h : c ∈ writeWord m a v) :
    c ∈ m ∨ c.1 / 4 = a := by
  unfold writeWord at h
  rcases mem_writeByte h with h | rfl
  · rcases mem_writeByte h with h | rfl
    · rcases mem_writeByte h with h | rfl
      · rcases mem_writeByte h with h | rfl
        · exact .inl h
        · right; show 4 * a / 4 = a; omega
      · right; show (4 * a + 1) / 4 = a; omega
    · right; show (4 * a + 2) / 4 = a; omega
  · right; show (4 * a + 3) / 4 = a; omega

/-- The cells after a write of several words: old ones, and cells of those words. -/
theorem mem_writeWords {m : Memory} {a : Nat} {ws : List Word} {c : Host.Cell} (h : c ∈ writeWords m a ws) :
    c ∈ m ∨ (a ≤ c.1 / 4 ∧ c.1 / 4 < a + ws.length) := by
  induction ws generalizing m a with
  | nil => exact .inl h
  | cons w rest ih =>
    rcases ih (m := writeWord m a w) (a := a + 1) h with h | ⟨h1, h2⟩
    · rcases mem_writeWord h with h | h
      · exact .inl h
      · right; simp only [List.length_cons]; omega
    · right; simp only [List.length_cons]; omega

/-- A word write leaves the bytes of every other word. -/
theorem readByte_writeWord_ne (m : Memory) {a b : Nat} (v : Word) (h : b / 4 ≠ a) :
    readByte (writeWord m a v) b = readByte m b := by
  unfold writeWord
  rw [readByte_writeByte_ne _ _ (by omega), readByte_writeByte_ne _ _ (by omega),
    readByte_writeByte_ne _ _ (by omega), readByte_writeByte_ne _ _ (by omega)]

/-- A write of several words leaves the bytes of every other word. -/
theorem readByte_writeWords_ne (m : Memory) {a b : Nat} (ws : List Word)
    (h : b / 4 < a ∨ a + ws.length ≤ b / 4) : readByte (writeWords m a ws) b = readByte m b := by
  induction ws generalizing m a with
  | nil => rfl
  | cons w rest ih =>
    simp only [List.length_cons] at h
    simp only [writeWords]
    rw [ih _ (by omega), readByte_writeWord_ne _ _ (by omega)]

/-- A word write leaves every other word. -/
theorem readWord_writeWord_ne (m : Memory) {a b : Nat} (v : Word) (h : b ≠ a) :
    readWord (writeWord m a v) b = readWord m b := by
  unfold readWord
  rw [readByte_writeWord_ne _ _ (by omega), readByte_writeWord_ne _ _ (by omega),
    readByte_writeWord_ne _ _ (by omega), readByte_writeWord_ne _ _ (by omega)]

/-- Reading back the word just written, in a canonical memory (20_memory.md R57 (c)). -/
theorem readWord_writeWord_self {m : Memory} (h : m.wf = true) (a : Nat) (v : Word) :
    readWord (writeWord m a v) a = v := by
  have h0 := writeByte_wf h (4 * a) (v.extractLsb' 0 8)
  have h1 := writeByte_wf h0 (4 * a + 1) (v.extractLsb' 8 8)
  have h2 := writeByte_wf h1 (4 * a + 2) (v.extractLsb' 16 8)
  unfold readWord writeWord
  rw [readByte_writeByte_self h2, readByte_writeByte_ne _ _ (by omega), readByte_writeByte_self h1,
    readByte_writeByte_ne _ _ (by omega), readByte_writeByte_ne _ _ (by omega), readByte_writeByte_self h0,
    readByte_writeByte_ne _ _ (by omega), readByte_writeByte_ne _ _ (by omega), readByte_writeByte_ne _ _ (by omega),
    readByte_writeByte_self h]
  ext i hi
  simp only [BitVec.getElem_append, BitVec.getElem_extractLsb']
  split
  · simp [BitVec.getLsbD_eq_getElem hi]
  · split
    · simp [show 8 + (i - 8) = i by omega, BitVec.getLsbD_eq_getElem hi]
    · split
      · simp [show 16 + (i - 8 - 8) = i by omega, BitVec.getLsbD_eq_getElem hi]
      · simp [show 24 + (i - 8 - 8 - 8) = i by omega, BitVec.getLsbD_eq_getElem hi]

/-- Words outside a write of several words are as before. -/
theorem readWord_writeWords_ne (m : Memory) {a b : Nat} (ws : List Word) (h : b < a ∨ a + ws.length ≤ b) :
    readWord (writeWords m a ws) b = readWord m b := by
  induction ws generalizing m a with
  | nil => rfl
  | cons w rest ih =>
    simp only [List.length_cons] at h
    simp only [writeWords]
    rw [ih _ (by omega), readWord_writeWord_ne _ _ (by omega)]

/-- Reading back the words just written, in a canonical memory. -/
theorem readWords_writeWords {m : Memory} (h : m.wf = true) (a : Nat) (ws : List Word) :
    readWords (writeWords m a ws) a ws.length = ws := by
  induction ws generalizing m a with
  | nil => rfl
  | cons w rest ih =>
    simp only [List.length_cons, readWords, writeWords]
    rw [ih (writeWord_wf h a w) (a + 1), readWord_writeWords_ne _ _ (by omega), readWord_writeWord_self h]

@[simp] theorem readWords_length (m : Memory) (a n : Nat) : (readWords m a n).length = n := by
  induction n generalizing a with
  | zero => rfl
  | succ n ih => simp [readWords, ih]

/-- `allMapped` asks for every word. -/
theorem allMapped_iff (mm : List Region) (a n : Nat) :
    allMapped mm a n = true ↔ ∀ k, k < n → mapped mm (a + k) = true := by
  induction n generalizing a with
  | zero => simp [allMapped]
  | succ n ih =>
    simp only [allMapped, Bool.and_eq_true, ih]
    constructor
    · rintro ⟨h0, h⟩ k hk
      cases k with
      | zero => exact h0
      | succ k => rw [show a + (k + 1) = a + 1 + k by omega]; exact h k (by omega)
    · intro h
      refine ⟨h 0 (by omega), fun k hk => ?_⟩
      rw [show a + 1 + k = a + (k + 1) by omega]
      exact h (k + 1) (by omega)

/-- An access does not fault exactly when it is aligned and every word of it exists (20_memory.md R54, R58). -/
theorem accessFault_none_iff (mm : List Region) (a n : Nat) :
    accessFault mm a n = none ↔ a % n = 0 ∧ ∀ k, k < n → mapped mm (a + k) = true := by
  rw [← allMapped_iff]
  unfold accessFault
  by_cases h : a % n = 0 <;> cases hm : allMapped mm a n <;> simp [h]

/-- The fault of an access, by cases. -/
theorem accessFault_unmapped {mm : List Region} {a n k : Nat} (ha : a % n = 0) (hk : k < n)
    (hm : mapped mm (a + k) = false) : accessFault mm a n = some (.unmappedAccess a) := by
  have h : allMapped mm a n = false := by
    rw [Bool.eq_false_iff]
    intro h
    rw [(allMapped_iff mm a n).1 h k hk] at hm
    cases hm
  simp [accessFault, ha, h]

end Sys2Proof.Machine
end

