-- ==== Sys2Proof/Laws/State.lean ====
section
/-! SUPPORT. One lemma per field per update, so that no later proof unfolds a record update. -/

namespace Sys2Proof.Machine

variable (s : State) (I : Ialu)

/-! ## `setIalu` -/

@[simp] theorem setIalu_ialu (x : IaluState) : (s.setIalu I x).ialu I = x := by cases I <;> rfl
theorem setIalu_ialu_ne (I' : Ialu) (h : I' ≠ I) (x : IaluState) : (s.setIalu I x).ialu I' = s.ialu I' := by
  cases I <;> cases I' <;> first | rfl | exact absurd rfl h
@[simp] theorem setIalu_self : s.setIalu I (s.ialu I) = s := by cases I <;> rfl
@[simp] theorem setIalu_cjmp (x : IaluState) : (s.setIalu I x).cjmp = s.cjmp := by cases I <;> rfl
@[simp] theorem setIalu_gscf0 (x : IaluState) : (s.setIalu I x).gscf0 = s.gscf0 := by cases I <;> rfl
@[simp] theorem setIalu_gscf1 (x : IaluState) : (s.setIalu I x).gscf1 = s.gscf1 := by cases I <;> rfl
@[simp] theorem setIalu_xr (x : IaluState) : (s.setIalu I x).xr = s.xr := by cases I <;> rfl
@[simp] theorem setIalu_yr (x : IaluState) : (s.setIalu I x).yr = s.yr := by cases I <;> rfl
@[simp] theorem setIalu_xUnwritten (x : IaluState) : (s.setIalu I x).xUnwritten = s.xUnwritten := by cases I <;> rfl
@[simp] theorem setIalu_yUnwritten (x : IaluState) : (s.setIalu I x).yUnwritten = s.yUnwritten := by cases I <;> rfl
@[simp] theorem setIalu_xstat (x : IaluState) : (s.setIalu I x).xstat = s.xstat := by cases I <;> rfl
@[simp] theorem setIalu_ystat (x : IaluState) : (s.setIalu I x).ystat = s.ystat := by cases I <;> rfl
@[simp] theorem setIalu_lc0 (x : IaluState) : (s.setIalu I x).lc0 = s.lc0 := by cases I <;> rfl
@[simp] theorem setIalu_other (x : IaluState) : (s.setIalu I x).other = s.other := by cases I <;> rfl
@[simp] theorem setIalu_dabX (x : IaluState) : (s.setIalu I x).dabX = s.dabX := by cases I <;> rfl
@[simp] theorem setIalu_dabY (x : IaluState) : (s.setIalu I x).dabY = s.dabY := by cases I <;> rfl
@[simp] theorem setIalu_mem (x : IaluState) : (s.setIalu I x).mem = s.mem := by cases I <;> rfl
@[simp] theorem setIalu_memMap (x : IaluState) : (s.setIalu I x).memMap = s.memMap := by cases I <;> rfl
@[simp] theorem setIalu_pc (x : IaluState) : (s.setIalu I x).pc = s.pc := by cases I <;> rfl
@[simp] theorem setIalu_prog (x : IaluState) : (s.setIalu I x).prog = s.prog := by cases I <;> rfl
@[simp] theorem setIalu_draws (x : IaluState) : (s.setIalu I x).draws = s.draws := by cases I <;> rfl

/-! ## The general registers of one IALU -/

variable (x : IaluState)

@[simp] theorem read_31 : x.read 31 = 0 := rfl
@[simp] theorem write_31 (v : Word) : x.write 31 v = x := rfl
@[simp] theorem write_flags (d : RegNum) (v : Word) : (x.write d v).flags = x.flags := by
  unfold IaluState.write; split <;> rfl
@[simp] theorem write_base (d : RegNum) (v : Word) : (x.write d v).base = x.base := by
  unfold IaluState.write; split <;> rfl
@[simp] theorem write_len (d : RegNum) (v : Word) : (x.write d v).len = x.len := by
  unfold IaluState.write; split <;> rfl
@[simp] theorem write_baseHold (d : RegNum) (v : Word) : (x.write d v).baseHold = x.baseHold := by
  unfold IaluState.write; split <;> rfl
@[simp] theorem write_lenHold (d : RegNum) (v : Word) : (x.write d v).lenHold = x.lenHold := by
  unfold IaluState.write; split <;> rfl
@[simp] theorem read_setFlags (f : Flags) (i : RegNum) : ({ x with flags := f } : IaluState).read i = x.read i := rfl
@[simp] theorem read_writeBL (d : BLReg) (v : Word) (i : RegNum) : (x.writeBL d v).read i = x.read i := by
  cases d <;> rfl
@[simp] theorem writeBL_flags (d : BLReg) (v : Word) : (x.writeBL d v).flags = x.flags := by cases d <;> rfl

/-- Reading a general register after writing one. -/
theorem read_write (d i : RegNum) (v : Word) :
    (x.write d v).read i = if i = d ∧ d ≠ 31 then v else x.read i := by
  unfold IaluState.write IaluState.read
  by_cases hd : d.val < 31
  · have hd31 : d ≠ 31 := by rintro rfl; exact absurd hd (by decide)
    by_cases hi : i.val < 31
    · by_cases h : i = d
      · subst h; simp [hi, hd31]
      · have : d.val ≠ i.val := fun e => h (Fin.ext e.symm)
        simp [hi, hd, h, this]
    · have h : i ≠ d := by rintro rfl; exact hi hd
      simp [hi, h]
  · have hd31 : d = 31 := by apply Fin.ext; show d.val = 31; omega
    simp [hd31]

/-! ## The registers of an IALU as part of the state -/

@[simp] theorem aluread_31 : aluread I 31 s = 0 := rfl
@[simp] theorem aluwrite_31 (v : Word) : aluwrite I 31 v s = s := by simp [aluwrite]
@[simp] theorem aluwrite_flagsOf (I' : Ialu) (d : RegNum) (v : Word) :
    (aluwrite I d v s).flagsOf I' = s.flagsOf I' := by
  unfold aluwrite State.flagsOf; cases I <;> cases I' <;> simp [State.setIalu, State.ialu]

/-- Reading a general register after an ALU write (00_scope.md R9). -/
theorem aluread_aluwrite (I' : Ialu) (d i : RegNum) (v : Word) :
    aluread I' i (aluwrite I d v s) = if I' = I ∧ i = d ∧ d ≠ 31 then v else aluread I' i s := by
  unfold aluread aluwrite
  by_cases h : I' = I
  · subst h; simp [read_write]
  · simp [h, setIalu_ialu_ne _ _ _ h]

@[simp] theorem aluread_setFlags (I' : Ialu) (i : RegNum) (f : Flags) :
    aluread I' i (s.setFlags I f) = aluread I' i s := by
  unfold aluread State.setFlags; cases I <;> cases I' <;> simp [State.setIalu, State.ialu]
@[simp] theorem setFlags_flagsOf (f : Flags) : (s.setFlags I f).flagsOf I = f := by
  simp [State.setFlags, State.flagsOf]
theorem setFlags_flagsOf_ne (I' : Ialu) (h : I' ≠ I) (f : Flags) : (s.setFlags I f).flagsOf I' = s.flagsOf I' := by
  simp [State.setFlags, State.flagsOf, setIalu_ialu_ne _ _ _ h]
@[simp] theorem setFlags_mem (f : Flags) : (s.setFlags I f).mem = s.mem := by simp [State.setFlags]
@[simp] theorem setFlags_memMap (f : Flags) : (s.setFlags I f).memMap = s.memMap := by simp [State.setFlags]
@[simp] theorem setFlags_draws (f : Flags) : (s.setFlags I f).draws = s.draws := by simp [State.setFlags]
@[simp] theorem setFlags_cjmp (f : Flags) : (s.setFlags I f).cjmp = s.cjmp := by simp [State.setFlags]
@[simp] theorem setFlags_pc (f : Flags) : (s.setFlags I f).pc = s.pc := by simp [State.setFlags]
@[simp] theorem setFlags_prog (f : Flags) : (s.setFlags I f).prog = s.prog := by simp [State.setFlags]
@[simp] theorem aluwrite_mem (d : RegNum) (v : Word) : (aluwrite I d v s).mem = s.mem := by simp [aluwrite]
@[simp] theorem aluwrite_memMap (d : RegNum) (v : Word) : (aluwrite I d v s).memMap = s.memMap := by simp [aluwrite]
@[simp] theorem aluwrite_draws (d : RegNum) (v : Word) : (aluwrite I d v s).draws = s.draws := by simp [aluwrite]
@[simp] theorem aluwrite_pc (d : RegNum) (v : Word) : (aluwrite I d v s).pc = s.pc := by simp [aluwrite]
@[simp] theorem aluwrite_prog (d : RegNum) (v : Word) : (aluwrite I d v s).prog = s.prog := by simp [aluwrite]

/-! ## `draw` -/

@[simp] theorem draw_word : (draw s).1 = Config.freeWord s.draws := rfl
@[simp] theorem draw_ialu : (draw s).2.ialu I = s.ialu I := by cases I <;> rfl
@[simp] theorem draw_flagsOf : (draw s).2.flagsOf I = s.flagsOf I := by cases I <;> rfl
@[simp] theorem draw_aluread (i : RegNum) : aluread I i (draw s).2 = aluread I i s := by cases I <;> rfl
@[simp] theorem draw_readDreg (c : Blk) (i : RegNum) : readDreg c i (draw s).2 = readDreg c i s := by cases c <;> rfl
@[simp] theorem draw_dregUnwritten (c : Blk) (i : RegNum) : dregUnwritten c i (draw s).2 = dregUnwritten c i s := by
  cases c <;> rfl
@[simp] theorem draw_dab (c : Blk) : (draw s).2.dab c = s.dab c := by cases c <;> rfl
@[simp] theorem draw_mem : (draw s).2.mem = s.mem := rfl
@[simp] theorem draw_memMap : (draw s).2.memMap = s.memMap := rfl
@[simp] theorem draw_pc : (draw s).2.pc = s.pc := rfl
@[simp] theorem draw_prog : (draw s).2.prog = s.prog := rfl
@[simp] theorem draw_draws : (draw s).2.draws = s.draws + 1 := rfl

/-! ## The registers the chapter does not name -/

/-- Reading one of them after writing one. -/
theorem readPlain_writePlain_other (n n' : Fin 108) (v : Word) :
    readPlain (.other n') (writePlain (.other n) v s) = if n' = n then v else readPlain (.other n') s := by
  simp only [readPlain, writePlain]
  rw [Vector.getElem_set]
  by_cases h : n' = n
  · simp [h]
  · have : n.val ≠ n'.val := fun e => h (Fin.ext e.symm)
    simp [h, this]

@[simp] theorem draw_other : (draw s).2.other = s.other := rfl
@[simp] theorem writeDreg_other (c : Blk) (i : RegNum) (v : Word) : (writeDreg c i v s).other = s.other := by
  cases c <;> rfl
@[simp] theorem setDab_other (c : Blk) (d : Dab) : (s.setDab c d).other = s.other := by cases c <;> rfl
@[simp] theorem setFlags_other (f : Flags) : (s.setFlags I f).other = s.other := by simp [State.setFlags]
@[simp] theorem aluwrite_other (d : RegNum) (v : Word) : (aluwrite I d v s).other = s.other := by simp [aluwrite]
@[simp] theorem writeBL_other (d : BLReg) (v : Word) : (writeBL I d v s).other = s.other := by simp [writeBL]

/-! ## The data registers and buffers -/

/-- A place of a register file after one place is set. -/
theorem getElem_set_reg {α : Type} (w : Vector α 32) (i i' : RegNum) (v : α) :
    (w.set i.val v)[i'.val] = if i' = i then v else w[i'.val] := by
  rw [Vector.getElem_set]
  by_cases h : i' = i
  · simp [h]
  · have : i.val ≠ i'.val := fun e => h (Fin.ext e.symm)
    simp [h, this]

/-- Reading a data register after writing one. -/
theorem readDreg_writeDreg (c c' : Blk) (i i' : RegNum) (v : Word) :
    readDreg c' i' (writeDreg c i v s) = if c' = c ∧ i' = i then v else readDreg c' i' s := by
  cases c <;> cases c' <;> simp [readDreg, writeDreg, getElem_set_reg]

/-- A data register just written is written; the others are as before. -/
theorem dregUnwritten_writeDreg (c c' : Blk) (i i' : RegNum) (v : Word) :
    dregUnwritten c' i' (writeDreg c i v s) = if c' = c ∧ i' = i then false else dregUnwritten c' i' s := by
  cases c <;> cases c' <;> simp [dregUnwritten, writeDreg, getElem_set_reg]

/-- A data register just marked is unwritten; the others are as before. -/
theorem dregUnwritten_markUnwritten (c c' : Blk) (i i' : RegNum) :
    dregUnwritten c' i' (markUnwritten c i s) = if c' = c ∧ i' = i then true else dregUnwritten c' i' s := by
  cases c <;> cases c' <;> simp [dregUnwritten, markUnwritten, getElem_set_reg]

@[simp] theorem markUnwritten_readDreg (c c' : Blk) (i i' : RegNum) :
    readDreg c' i' (markUnwritten c i s) = readDreg c' i' s := by cases c <;> cases c' <;> rfl
@[simp] theorem markUnwritten_ialu (c : Blk) (i : RegNum) : (markUnwritten c i s).ialu I = s.ialu I := by
  cases c <;> cases I <;> rfl
@[simp] theorem markUnwritten_dab (c c' : Blk) (i : RegNum) : (markUnwritten c i s).dab c' = s.dab c' := by
  cases c <;> cases c' <;> rfl
@[simp] theorem markUnwritten_mem (c : Blk) (i : RegNum) : (markUnwritten c i s).mem = s.mem := by cases c <;> rfl
@[simp] theorem markUnwritten_memMap (c : Blk) (i : RegNum) : (markUnwritten c i s).memMap = s.memMap := by cases c <;> rfl
@[simp] theorem markUnwritten_pc (c : Blk) (i : RegNum) : (markUnwritten c i s).pc = s.pc := by cases c <;> rfl
@[simp] theorem markUnwritten_prog (c : Blk) (i : RegNum) : (markUnwritten c i s).prog = s.prog := by cases c <;> rfl
@[simp] theorem markUnwritten_draws (c : Blk) (i : RegNum) : (markUnwritten c i s).draws = s.draws := by cases c <;> rfl
@[simp] theorem markUnwritten_other (c : Blk) (i : RegNum) : (markUnwritten c i s).other = s.other := by cases c <;> rfl

@[simp] theorem writeDreg_ialu (c : Blk) (i : RegNum) (v : Word) : (writeDreg c i v s).ialu I = s.ialu I := by
  cases c <;> cases I <;> rfl
@[simp] theorem writeDreg_dab (c c' : Blk) (i : RegNum) (v : Word) : (writeDreg c i v s).dab c' = s.dab c' := by
  cases c <;> cases c' <;> rfl
@[simp] theorem writeDreg_mem (c : Blk) (i : RegNum) (v : Word) : (writeDreg c i v s).mem = s.mem := by cases c <;> rfl
@[simp] theorem writeDreg_memMap (c : Blk) (i : RegNum) (v : Word) : (writeDreg c i v s).memMap = s.memMap := by
  cases c <;> rfl
@[simp] theorem writeDreg_pc (c : Blk) (i : RegNum) (v : Word) : (writeDreg c i v s).pc = s.pc := by cases c <;> rfl
@[simp] theorem writeDreg_prog (c : Blk) (i : RegNum) (v : Word) : (writeDreg c i v s).prog = s.prog := by
  cases c <;> rfl
@[simp] theorem writeDreg_draws (c : Blk) (i : RegNum) (v : Word) : (writeDreg c i v s).draws = s.draws := by
  cases c <;> rfl
@[simp] theorem setDab_dab (c : Blk) (d : Dab) : (s.setDab c d).dab c = d := by cases c <;> rfl
theorem setDab_dab_ne (c c' : Blk) (h : c' ≠ c) (d : Dab) : (s.setDab c d).dab c' = s.dab c' := by
  cases c <;> cases c' <;> first | rfl | exact absurd rfl h
@[simp] theorem setDab_ialu (c : Blk) (d : Dab) : (s.setDab c d).ialu I = s.ialu I := by cases c <;> cases I <;> rfl
@[simp] theorem setDab_readDreg (c c' : Blk) (i : RegNum) (d : Dab) :
    readDreg c' i (s.setDab c d) = readDreg c' i s := by cases c <;> cases c' <;> rfl
@[simp] theorem setDab_dregUnwritten (c c' : Blk) (i : RegNum) (d : Dab) :
    dregUnwritten c' i (s.setDab c d) = dregUnwritten c' i s := by cases c <;> cases c' <;> rfl
@[simp] theorem setDab_mem (c : Blk) (d : Dab) : (s.setDab c d).mem = s.mem := by cases c <;> rfl
@[simp] theorem setDab_memMap (c : Blk) (d : Dab) : (s.setDab c d).memMap = s.memMap := by cases c <;> rfl
@[simp] theorem setDab_pc (c : Blk) (d : Dab) : (s.setDab c d).pc = s.pc := by cases c <;> rfl
@[simp] theorem setDab_prog (c : Blk) (d : Dab) : (s.setDab c d).prog = s.prog := by cases c <;> rfl
@[simp] theorem setDab_draws (c : Blk) (d : Dab) : (s.setDab c d).draws = s.draws := by cases c <;> rfl

end Sys2Proof.Machine
end

