-- ==== Sys2Proof/Laws/Frame.lean ====
section
/-! SUPPORT. What each shared operation leaves alone, as a `Frame`; and how frames compose. -/

namespace Sys2Proof.Machine

/-! ## Composition -/

/-- Nothing done changes nothing. -/
theorem Frame.rfl' (s : State) (w : List Cell) (st : List Nat) : Frame w st s s where
  cells c _ := by cases c <;> simp [SameCell]
  ages _ _ _ := Eq.refl _
  memory _ _ := Eq.refl _
  map := Eq.refl _
  text := Eq.refl _

/-- A cell that is the same twice is the same. -/
theorem SameCell.trans {c : Cell} {s t u : State} (h1 : SameCell c s t) (h2 : SameCell c t u) : SameCell c s u := by
  cases c with
  | staticFlag one => cases one <;> exact Eq.trans h2 h1
  | reg u => exact ⟨h2.1.trans h1.1, h2.2.trans h1.2⟩
  | _ => exact Eq.trans h2 h1

/-- A frame may name more than changes. -/
theorem Frame.mono {w w' : List Cell} {st st' : List Nat} {s t : State} (h : Frame w st s t) (hw : w ⊆ w')
    (hs : st ⊆ st') : Frame w' st' s t where
  cells c hc := h.cells c fun x => hc (hw x)
  ages I d hd := h.ages I d fun x => hd (hw x)
  memory a ha := h.memory a fun x => ha (hs x)
  map := h.map
  text := h.text

/-- Two effects one after the other. -/
theorem Frame.comp {w w' : List Cell} {st st' : List Nat} {s t u : State} (h1 : Frame w st s t)
    (h2 : Frame w' st' t u) : Frame (w ++ w') (st ++ st') s u where
  cells c hc := by
    rw [List.mem_append, not_or] at hc
    exact (h1.cells c hc.1).trans (h2.cells c hc.2)
  ages I d hd := by
    rw [List.mem_append, not_or] at hd
    exact (h2.ages I d hd.2).trans (h1.ages I d hd.1)
  memory a ha := by
    rw [List.mem_append, not_or] at ha
    exact (h2.memory a ha.2).trans (h1.memory a ha.1)
  map := h2.map.trans h1.map
  text := h2.text.trans h1.text

/-- Two effects of one frame. -/
theorem Frame.trans {w : List Cell} {st : List Nat} {s t u : State} (h1 : Frame w st s t) (h2 : Frame w st t u) :
    Frame w st s u :=
  (h1.comp h2).mono (by simp) (by simp)

/-! ## The frames of the operations -/

/-- Only the flags of one IALU change. -/
theorem setFlags_frame (I : Ialu) (f : Flags) (s : State) : Frame [.flags I] [] s (s.setFlags I f) where
  cells c hc := by
    cases c with
    | reg u =>
      refine ⟨?_, by cases I <;> cases u <;> rfl⟩
      cases I <;> cases u <;> simp [readPlain, State.setFlags, State.setIalu, State.ialu, aluread, readDreg]
    | flags I' => exact setFlags_flagsOf_ne s I I' (by rintro rfl; simp at hc) f
    | dab c => cases I <;> cases c <;> rfl
    | staticFlag one => cases I <;> cases one <;> rfl
    | programCounter => cases I <;> rfl
  ages I' d _ := by cases I <;> cases I' <;> cases d <;> rfl
  memory a _ := by cases I <;> rfl
  map := by cases I <;> rfl
  text := by cases I <;> rfl

/-- Only the register written changes, and none for number 31. -/
theorem aluwrite_frame (I : Ialu) (d : RegNum) (v : Word) (s : State) :
    Frame (gprCells I d) [] s (aluwrite I d v s) where
  cells c hc := by
    cases c with
    | reg u =>
      have key : ∀ I' n, Cell.reg (Ialu.ureg I' n) ∉ gprCells I d → aluread I' n (aluwrite I d v s) = aluread I' n s := by
        intro I' n hn
        rw [aluread_aluwrite, if_neg]
        rintro ⟨rfl, rfl, h31⟩
        simp [gprCells, h31] at hn
      refine ⟨?_, by cases I <;> cases u <;> rfl⟩
      cases u with
      | j n => exact key .j n hc
      | k n => exact key .k n hc
      | _ => cases I <;> simp [readPlain, aluwrite, State.setIalu, State.ialu, readDreg]
    | flags I' => exact aluwrite_flagsOf s I I' d v
    | dab c => cases I <;> cases c <;> rfl
    | staticFlag one => cases I <;> cases one <;> rfl
    | programCounter => cases I <;> rfl
  ages I' e _ := by cases I <;> cases I' <;> cases e <;> simp [holdOf, aluwrite, State.setIalu, State.ialu]
  memory a _ := by cases I <;> rfl
  map := by cases I <;> rfl
  text := by cases I <;> rfl

/-- Only the base or length register written, and its age, change. -/
theorem writeBL_frame (I : Ialu) (d : BLReg) (v : Word) (s : State) :
    Frame [.reg (blUreg I d)] [] s (writeBL I d v s) where
  cells c hc := by
    cases c with
    | reg u =>
      have key : ∀ (w : Vector Word 4) (k k' : Fin 4), k ≠ k' → (w.set k.val v)[k'.val] = w[k'.val] := by
        intro w k k' h
        rw [Vector.getElem_set_ne]
        exact fun e => h (Fin.ext e)
      refine ⟨?_, by cases I <;> cases d <;> cases u <;> rfl⟩
      cases I <;> cases d <;> cases u <;>
        first
        | rfl
        | exact key _ _ _ (by rintro rfl; simp [blUreg] at hc)
    | flags I' => cases I <;> cases I' <;> cases d <;> rfl
    | dab c => cases I <;> cases c <;> rfl
    | staticFlag one => cases I <;> cases one <;> rfl
    | programCounter => cases I <;> rfl
  ages I' e he := by
    have key : ∀ (w : Vector Nat 4) (k k' : Fin 4), k ≠ k' → (w.set k.val holdStart)[k'.val] = w[k'.val] := by
      intro w k k' h
      rw [Vector.getElem_set_ne]
      exact fun e => h (Fin.ext e)
    cases I <;> cases I' <;> cases d <;> cases e <;>
      first
      | rfl
      | exact key _ _ _ (by rintro rfl; simp [blUreg] at he)
  memory a _ := by cases I <;> rfl
  map := by cases I <;> rfl
  text := by cases I <;> rfl

/-- Only the data register written changes. -/
theorem writeDreg_frame (c : Blk) (i : RegNum) (v : Word) (s : State) :
    Frame [.reg (dregUreg c i)] [] s (writeDreg c i v s) where
  cells e he := by
    cases e with
    | reg u =>
      have key : ∀ c' n, Cell.reg (dregUreg c' n) ∉ [Cell.reg (dregUreg c i)] →
          readDreg c' n (writeDreg c i v s) = readDreg c' n s ∧
            dregUnwritten c' n (writeDreg c i v s) = dregUnwritten c' n s := by
        intro c' n hn
        have ne : ¬(c' = c ∧ n = i) := by rintro ⟨rfl, rfl⟩; simp at hn
        rw [readDreg_writeDreg, dregUnwritten_writeDreg, if_neg ne, if_neg ne]
        exact ⟨rfl, rfl⟩
      cases u with
      | xr n => exact key .x n he
      | yr n => exact key .y n he
      | _ => cases c <;> exact ⟨rfl, rfl⟩
    | flags I => cases c <;> cases I <;> rfl
    | dab c' => cases c <;> cases c' <;> rfl
    | staticFlag one => cases c <;> cases one <;> rfl
    | programCounter => cases c <;> rfl
  ages I d _ := by cases c <;> cases I <;> cases d <;> rfl
  memory a _ := by cases c <;> rfl
  map := by cases c <;> rfl
  text := by cases c <;> rfl

/-- Only the data register marked changes. -/
theorem markUnwritten_frame (c : Blk) (i : RegNum) (s : State) :
    Frame [.reg (dregUreg c i)] [] s (markUnwritten c i s) where
  cells e he := by
    cases e with
    | reg u =>
      have key : ∀ c' n, Cell.reg (dregUreg c' n) ∉ [Cell.reg (dregUreg c i)] →
          readDreg c' n (markUnwritten c i s) = readDreg c' n s ∧
            dregUnwritten c' n (markUnwritten c i s) = dregUnwritten c' n s := by
        intro c' n hn
        have ne : ¬(c' = c ∧ n = i) := by rintro ⟨rfl, rfl⟩; simp at hn
        rw [markUnwritten_readDreg, dregUnwritten_markUnwritten, if_neg ne]
        exact ⟨rfl, rfl⟩
      cases u with
      | xr n => exact key .x n he
      | yr n => exact key .y n he
      | _ => cases c <;> exact ⟨rfl, rfl⟩
    | flags I => cases c <;> cases I <;> rfl
    | dab c' => cases c <;> cases c' <;> rfl
    | staticFlag one => cases c <;> cases one <;> rfl
    | programCounter => cases c <;> rfl
  ages I d _ := by cases c <;> cases I <;> cases d <;> rfl
  memory a _ := by cases c <;> rfl
  map := by cases c <;> rfl
  text := by cases c <;> rfl

/-- Only the buffer written changes. -/
theorem setDab_frame (c : Blk) (d : Dab) (s : State) : Frame [.dab c] [] s (s.setDab c d) where
  cells e he := by
    cases e with
    | reg u => cases c <;> cases u <;> exact ⟨rfl, rfl⟩
    | flags I => cases c <;> cases I <;> rfl
    | dab c' => exact setDab_dab_ne s c c' (by rintro rfl; simp at he) d
    | staticFlag one => cases c <;> cases one <;> rfl
    | programCounter => cases c <;> rfl
  ages I d _ := by cases c <;> cases I <;> cases d <;> rfl
  memory a _ := by cases c <;> rfl
  map := by cases c <;> rfl
  text := by cases c <;> rfl

/-- A draw changes the model's own counter only. -/
theorem draw_frame (s : State) : Frame [] [] s (draw s).2 where
  cells e _ := by
    cases e with
    | reg u => cases u <;> exact ⟨rfl, rfl⟩
    | flags I => cases I <;> rfl
    | dab c => cases c <;> rfl
    | staticFlag one => cases one <;> rfl
    | programCounter => rfl
  ages I d _ := by cases I <;> cases d <;> rfl
  memory a _ := rfl
  map := rfl
  text := rfl

/-- Only the words stored change. -/
theorem setMem_frame (s : State) (a : Nat) (ws : List Word) :
    Frame [] (List.range' a ws.length) s { s with mem := writeWords s.mem a ws } where
  cells e _ := by
    cases e with
    | reg u => cases u <;> exact ⟨rfl, rfl⟩
    | flags I => cases I <;> rfl
    | dab c => cases c <;> rfl
    | staticFlag one => cases one <;> rfl
    | programCounter => rfl
  ages I d _ := by cases I <;> cases d <;> rfl
  memory b hb := by
    refine readByte_writeWords_ne _ _ ?_
    simp only [List.mem_range'_1, not_and] at hb
    omega
  map := rfl
  text := rfl

/-- Only the cell of the universal register written changes (10_state.md R25). -/
theorem writeUreg_frame (u : Ureg) (v : Word) (s : State) : Frame [uregCell u] [] s (writeUreg u v s) := by
  have gpr : ∀ I n, n ≠ 31 → Frame [Cell.reg (Ialu.ureg I n)] [] s (aluwrite I n v s) := by
    intro I n h
    simpa [gprCells, h] using aluwrite_frame I n v s
  have cell : ∀ (t : State) (u' : Ureg), (∀ x, x ≠ u' → SameCell (.reg x) s t) → (∀ I, t.ialu I = s.ialu I) →
      t.dabX = s.dabX → t.dabY = s.dabY → t.gscf0 = s.gscf0 → t.gscf1 = s.gscf1 → t.pc = s.pc → t.mem = s.mem →
      t.memMap = s.memMap → t.prog = s.prog → Frame [Cell.reg u'] [] s t := by
    intro t u' hr hi hx hy h0 h1 hp hm hmm hpr
    refine ⟨fun c hc => ?_, fun I d _ => ?_, fun a _ => by rw [hm], hmm, hpr⟩
    · cases c with
      | reg x => exact hr x (by rintro rfl; simp at hc)
      | flags I => simp [SameCell, State.flagsOf, hi]
      | dab c => cases c <;> assumption
      | staticFlag one => cases one <;> assumption
      | programCounter => exact hp
    · cases d <;> simp [holdOf, hi]
  unfold writeUreg uregCell
  cases u with
  | j n =>
    by_cases h : n = 31
    · subst h; exact setFlags_frame .j _ s
    · have e := gpr .j n h
      simp only [Ialu.ureg] at e
      simpa [statOf, h, writePlain] using e
  | k n =>
    by_cases h : n = 31
    · subst h; exact setFlags_frame .k _ s
    · have e := gpr .k n h
      simp only [Ialu.ureg] at e
      simpa [statOf, h, writePlain] using e
  | xr n => exact writeDreg_frame .x n v s
  | yr n => exact writeDreg_frame .y n v s
  | jb n => exact writeBL_frame .j (.base n) v s
  | jl n => exact writeBL_frame .j (.len n) v s
  | kb n => exact writeBL_frame .k (.base n) v s
  | kl n => exact writeBL_frame .k (.len n) v s
  | other n =>
    refine cell _ _ (fun x hx => ?_) (fun I => by cases I <;> rfl) rfl rfl rfl rfl rfl rfl rfl rfl
    cases x with
    | other n' =>
      have h : n' ≠ n := fun e => hx (by rw [e])
      exact ⟨(readPlain_writePlain_other s n n' v).trans (if_neg h), rfl⟩
    | _ => exact ⟨rfl, rfl⟩
  | _ =>
    refine cell _ _ (fun x hx => ?_) (fun I => by cases I <;> rfl) rfl rfl rfl rfl rfl rfl rfl rfl
    cases x <;> first | exact ⟨rfl, rfl⟩ | exact absurd rfl hx

/-- Writing a group changes the cells of its registers. -/
theorem writeUregs_frame (l : List (Ureg × Word)) (s : State) :
    Frame (l.map fun p => uregCell p.1) [] s (writeUregs l s) := by
  induction l generalizing s with
  | nil => exact Frame.rfl' s _ _
  | cons p rest ih =>
    exact ((writeUreg_frame p.1 p.2 s).comp (ih _)).mono (by simp) (by simp)

/-- Writing data registers changes those registers. -/
theorem writeDregs_frame (l : List ((Blk × RegNum) × Word)) (s : State) :
    Frame (l.map fun p => Cell.reg (dregUreg p.1.1 p.1.2)) [] s (writeDregs l s) := by
  induction l generalizing s with
  | nil => exact Frame.rfl' s _ _
  | cons p rest ih =>
    exact ((writeDreg_frame p.1.1 p.1.2 p.2 s).comp (ih _)).mono (by simp) (by simp)

/-- Reading a universal register changes the model's own counter only. -/
theorem readUreg_frame (u : Ureg) (s : State) : Frame [] [] s (readUreg u s).2 := by
  unfold readUreg
  split
  · exact draw_frame s
  · exact Frame.rfl' s _ _

/-- Reading a group changes the model's own counter only. -/
theorem readUregs_frame (l : List Ureg) (s : State) : Frame [] [] s (readUregs l s).2 := by
  induction l generalizing s with
  | nil => exact Frame.rfl' s _ _
  | cons u rest ih => exact (readUreg_frame u s).trans (ih _)

@[simp] theorem readUregs_length (l : List Ureg) (s : State) : (readUregs l s).1.length = l.length := by
  induction l generalizing s with
  | nil => rfl
  | cons u rest ih => simp [readUregs, ih]

/-- An element of a DAB result changes the register it goes to only. -/
theorem putDreg_frame (c : Blk) (i : RegNum) (e : Option Word) (s : State) :
    Frame [.reg (dregUreg c i)] [] s (putDreg c i e s) := by
  cases e with
  | some w => exact writeDreg_frame c i w s
  | none =>
    exact (((draw_frame s).comp (writeDreg_frame c i _ _)).comp (markUnwritten_frame c i _)).mono (by simp) (by simp)

/-- The elements of a DAB result change the registers they go to only. -/
theorem putDregs_frame (l : List ((Blk × RegNum) × Option Word)) (s : State) :
    Frame (l.map fun p => Cell.reg (dregUreg p.1.1 p.1.2)) [] s (putDregs l s) := by
  induction l generalizing s with
  | nil => exact Frame.rfl' s _ _
  | cons p rest ih =>
    exact ((putDreg_frame p.1.1 p.1.2 p.2 s).comp (ih _)).mono (by simp) (by simp)

/-! ## Outcomes -/

/-- What a guarded outcome that answers a next state did. -/
theorem guardForm_next {f : Form} {k : Out} {t : State} (h : guardForm f k = .next t) : f.error = none ∧ k = .next t := by
  unfold guardForm at h
  split at h
  · cases h
  · exact ⟨by assumption, h⟩

@[simp] theorem guardForm_none {f : Form} {k : Out} (h : f.error = none) : guardForm f k = k := by
  simp [guardForm, h]

/-- The registers an instruction that answers a next state read were not unwritten. -/
theorem withSources_next {l : List Ureg} {s : State} {k : Out} {t : State} (h : withSources l s k = .next t) :
    Readable l s ∧ k = .next t := by
  unfold withSources at h
  split at h
  · cases h
  · rename_i hf
    exact ⟨fun u hu => by simpa using List.find?_eq_none.1 hf u hu, h⟩

/-- An instruction whose sources are not unwritten goes on. -/
theorem withSources_ok {l : List Ureg} {s : State} {k : Out} (h : Readable l s) : withSources l s k = k := by
  have : (l.find? fun u => uregUnwritten u s) = none := List.find?_eq_none.2 fun u hu => by simp [h u hu]
  simp [withSources, this]

/-- An instruction with an unwritten source faults and names one. -/
theorem withSources_fault {l : List Ureg} {s : State} {k : Out} (h : ∃ u ∈ l, uregUnwritten u s = true) :
    ∃ u ∈ l, uregUnwritten u s = true ∧ withSources l s k = .fault (.unwrittenRead u) := by
  unfold withSources
  split
  · rename_i u hf
    exact ⟨u, List.mem_of_find?_eq_some hf, by simpa using List.find?_some hf, rfl⟩
  · rename_i hf
    obtain ⟨u, hu, e⟩ := h
    exact absurd e (List.find?_eq_none.1 hf u hu)

/-- What an access that answers a next state did. -/
theorem withAccess_next {s : State} {a n : Nat} {k : Out} {t : State} (h : withAccess s a n k = .next t) :
    accessFault s.memMap a n = none ∧ k = .next t := by
  unfold withAccess at h
  split at h
  · cases h
  · exact ⟨by assumption, h⟩

@[simp] theorem withAccess_none {s : State} {a n : Nat} {k : Out} (h : accessFault s.memMap a n = none) :
    withAccess s a n k = k := by
  simp [withAccess, h]

/-- What a computed value that answers a next state was. -/
theorem withValue_next {v : Except Refusal Word} {k : Word → Out} {t : State} (h : withValue v k = .next t) :
    ∃ w, v = .ok w ∧ k w = .next t := by
  unfold withValue at h
  split at h
  · cases h
  · exact ⟨_, rfl, h⟩

@[simp] theorem withValue_ok (w : Word) (k : Word → Out) : withValue (.ok w) k = k w := rfl

/-- An access runs when it is aligned and every word of it exists. -/
theorem withAccess_ok {s : State} {a n : Nat} {k : Out} (h : Reachable s a n) : withAccess s a n k = k :=
  withAccess_none ((accessFault_none_iff _ _ _).2 h)

end Sys2Proof.Machine
end

