-- ==== Sys2Proof/Laws/Operands.lean ====
section
/-! SUPPORT. What the operand forms and index updates answer, each said once. -/

namespace Sys2Proof.Machine

/-! ## Circular updates -/

theorem baseOf_eq (I : Ialu) (m : RegNum) (s : State) : baseOf I m s = (s.ialu I).base[(bufferOf m).val] := by
  cases I <;> rfl

theorem lenOf_eq (I : Ialu) (m : RegNum) (s : State) : lenOf I m s = (s.ialu I).len[(bufferOf m).val] := by
  cases I <;> rfl

/-- What the slot count of a line may be, without the shortcut for two instructions (30_encoding.md R84 (a), (b)). -/
theorem slotsFit_iff (l : Line) : l.slotsFit = true ↔ l.slotsUsed ≤ 4 := by
  have h := List.length_filter_le (fun it : LineItem => it.item.extended) l.items
  simp only [Line.slotsFit, Bool.or_eq_true, decide_eq_true_eq]
  simp only [Line.slotsUsed]
  omega

/-- A buffer that is not held is not refused for its age. -/
theorem bufferHeld_false {I : Ialu} {m : RegNum} {s : State} (h : ¬ Held I m s) :
    bufferHeld (s.ialu I) (bufferOf m) = false := by
  simp only [Held, holdOf, not_or, not_lt, Nat.le_zero] at h
  simp [bufferHeld, h.1, h.2]

/-- A held buffer is refused when the parameter says so. -/
theorem bufferHeld_held {I : Ialu} {m : RegNum} {s : State} (h : Held I m s) :
    bufferHeld (s.ialu I) (bufferOf m) = Config.blStrict := by
  simp only [Held, holdOf] at h
  rcases h with h | h <;> simp [bufferHeld, h]

/-- `circOk` decides the preconditions. -/
theorem circOk_iff (idx : Word) (d : Int) (base len : Word) : circOk idx d base len = true ↔ InBuffer idx d base len := by
  unfold circOk InBuffer
  simp only [Bool.or_eq_true, beq_iff_eq, Bool.and_eq_true, decide_eq_true_eq, and_assoc, or_iff_not_imp_left, ne_eq]

/-- A circular use, by cases. -/
theorem circUse_eq (I : Ialu) (m : RegNum) (d : Int) (s : State) :
    circUse I m d s =
      if bufferHeld (s.ialu I) (bufferOf m) then .error .baseLengthHazard
      else if circOk (aluread I m s) d (baseOf I m s) (lenOf I m s) then .ok (circNext I m d s)
      else .error .circularPrecondition := by
  simp only [circUse, circNext, baseOf_eq, lenOf_eq]; rfl

/-- A circular use that is ready gives the circular step. -/
theorem circUse_ok {I : Ialu} {m : RegNum} {d : Int} {s : State} (h : CircularReady I m d s) :
    circUse I m d s = .ok (circNext I m d s) := by
  rw [circUse_eq, bufferHeld_false h.2.1, if_neg (by simp), if_pos ((circOk_iff _ _ _ _).2 h.2.2)]

/-- What a circular use that answers a value answers. -/
theorem circUse_ok_inv {I : Ialu} {m : RegNum} {d : Int} {s : State} {w : Word} (h : circUse I m d s = .ok w) :
    w = circNext I m d s ∧ InBuffer (aluread I m s) d (baseOf I m s) (lenOf I m s) := by
  rw [circUse_eq] at h
  split at h
  · cases h
  · split at h
    · rename_i h2
      exact ⟨by cases h; rfl, (circOk_iff _ _ _ _).1 h2⟩
    · cases h

/-- The update of a data-register access that is ready. -/
theorem postUpdate_ok {I : Ialu} {op : PmOp} {m : RegNum} {b : Opnd} {s : State} (h : UpdateReady I op m b s) :
    postUpdate I op m (opndVal I b s) s = .ok (nextIndex I op m b s) := by
  cases op with
  | lin => rfl
  | cb => exact circUse_ok h.2.2
  | br => rfl

/-- A DAB update, by cases. -/
theorem dabUpdate_eq (I : Ialu) (short : Bool) (m : RegNum) (md : Word) (s : State) :
    dabUpdate I short m md s =
      if bufferHeld (s.ialu I) (bufferOf m) then .error .baseLengthHazard
      else if lenOf I m s ≠ 0 ∧ md.toInt ≠ dabStep short then .error .circularPrecondition
      else if !circOk (aluread I m s) md.toInt (baseOf I m s) (lenOf I m s) then .error .circularPrecondition
      else if circWraps (aluread I m s) md.toInt (baseOf I m s) (lenOf I m s) then .error (.badForm .unspecifiedForm)
      else .ok (circNext I m md.toInt s) := by
  simp only [dabUpdate, circNext, baseOf_eq, lenOf_eq]; rfl

/-- The update of a DAB access that is ready. -/
theorem dabUpdate_ok {I : Ialu} {short : Bool} {m : RegNum} {b : Opnd} {s : State} (h : DabReady I short m b s) :
    dabUpdate I short m (opndVal I b s) s = .ok (circNext I m (opndVal I b s).toInt s) := by
  obtain ⟨_, hc, hd⟩ := h
  have hok := (circOk_iff _ _ _ _).2 hc.2.2
  have hs : lenOf I m s ≠ 0 → (opndVal I b s).toInt = dabStep short := fun hl => by
    rw [(hd hl).1]; cases short <;> rfl
  have hw : circWraps (aluread I m s) (opndVal I b s).toInt (baseOf I m s) (lenOf I m s) = false := by
    by_cases hl : lenOf I m s = 0
    · simp [circWraps, hl]
    · obtain ⟨h1, h2⟩ := hd hl
      have h3 := hc.2.2 hl
      simp only [circWraps, h1]
      cases short <;> simp at * <;> omega
  rw [dabUpdate_eq, bufferHeld_false hc.2.1, if_neg (by simp), if_neg (fun x => x.2 (hs x.1)), if_neg (by simp [hok]),
    if_neg (by simp [hw])]

/-! ## Which forms are admitted -/

theorem firstReason_none {l : List (Bool × FormReason)} : firstReason l = none ↔ ∀ p ∈ l, p.1 = false := by
  induction l with
  | nil => simp [firstReason]
  | cons p rest ih =>
    obtain ⟨b, r⟩ := p
    cases b <;> simp [firstReason, ih]

theorem isIndexReg_iff (m : RegNum) : isIndexReg m = true ↔ m.val < 4 := by simp [isIndexReg]

/-- `NDREG` lies between 8 and 32. -/
theorem ndreg_bounds : 8 ≤ Config.ndreg ∧ Config.ndreg ≤ 32 := by unfold Config.ndreg; split <;> omega

/-- A compute block has the registers below `NDREG`. -/
theorem hasDreg_iff (n : Nat) : hasDreg n = true ↔ n < Config.ndreg := by
  have h := ndreg_bounds
  simp only [hasDreg, Bool.or_eq_true, decide_eq_true_eq]
  omega

/-- The data registers of a group exist when the last one does. -/
theorem dregsInSet_iff (z : Size) (r : RegNum) : dregsInSet z r = true ↔ r.val + z.count ≤ Config.ndreg := by
  simp only [dregsInSet, List.all_eq_true, List.mem_range, hasDreg_iff]
  have hz : 0 < z.count := by cases z <;> decide
  constructor
  · intro h
    have := h (z.count - 1) (by omega)
    omega
  · intro h k hk
    omega

/-- The checks on the register of a data-register access pass. -/
theorem DregGroup.checks {z : Size} {r : RegNum} (h : DregGroup z r) : lowOk z r = true ∧ dregsInSet z r = true :=
  ⟨h.1, (dregsInSet_iff z r).2 h.2⟩

/-- A data-register access is admitted when its group exists and its index can be updated. -/
theorem dregChecks_none {I : Ialu} {z : Size} {r : RegNum} {op : PmOp} {m : RegNum} {b : Opnd} {s : State}
    (hr : DregGroup z r) (h : UpdateReady I op m b s) : firstReason (dregChecks z r op m b) = none := by
  obtain ⟨hm, h⟩ := h
  have hr := hr.checks
  rw [firstReason_none]
  cases op <;> simp_all [dregChecks, isIndexReg, CircularReady]

/-- A DAB access is admitted when its group exists and its index can be updated. -/
theorem dabForm_none {I : Ialu} {a : DabKind} {r m : RegNum} {b : Opnd} {short : Bool} {s : State}
    (hr : DregGroup .quad r) (h : DabReady I short m b s) : (Form.dab I a r m b).error = none := by
  obtain ⟨hb, hc, _⟩ := h
  have hr := hr.checks
  simp only [Form.error]
  rw [firstReason_none]
  simp_all [isIndexReg, CircularReady]

/-! ## Register groups -/

theorem regPlus_zero (r : RegNum) : regPlus r 0 = r := by
  apply Fin.ext; simp [regPlus, Fin.ofNat, Nat.mod_eq_of_lt r.isLt]

theorem regGroup_eq (z : Size) (r : RegNum) : regGroup z r = (List.range z.count).map (regPlus r) := by
  cases z <;> simp [regGroup, Size.count, List.range_succ, regPlus_zero]

/-- An aligned group stays below 32. -/
theorem regPlus_val {z : Size} {r : RegNum} (h : lowOk z r = true) {k : Nat} (hk : k < z.count) :
    (regPlus r k).val = r.val + k := by
  have := r.isLt
  cases z <;> simp [lowOk, Size.count] at h hk <;> simp [regPlus, Fin.ofNat] <;> omega

end Sys2Proof.Machine
end

