-- ==== Sys2Proof/Laws/Groups.lean ====
section
/-! SUPPORT. Reading and writing groups of registers and runs of memory words: what each operation delivers, once. -/

namespace Sys2Proof.Machine

/-! ## One register -/

/-- Whether a register is unwritten is part of its cell. -/
theorem SameCell.unwritten {u : Ureg} {s t : State} (h : SameCell (uregCell u) s t) :
    uregUnwritten u t = uregUnwritten u s := by
  cases u with
  | xr n => exact h.2
  | yr n => exact h.2
  | _ => rfl

/-- A universal register holds what was written to it. -/
theorem holds_writeUreg (u : Ureg) (w : Word) (s : State) : Holds u w (writeUreg u w s) := by
  cases u with
  | j n =>
    by_cases h : n = 31
    · simp [Holds, writeUreg, statOf, h]
    · simp [Holds, uregUnwritten, writeUreg, statOf, h, writePlain, readPlain, aluread_aluwrite]
  | k n =>
    by_cases h : n = 31
    · simp [Holds, writeUreg, statOf, h]
    · simp [Holds, uregUnwritten, writeUreg, statOf, h, writePlain, readPlain, aluread_aluwrite]
  | xr n => simp [Holds, uregUnwritten, writeUreg, statOf, writePlain, readPlain, readDreg_writeDreg, dregUnwritten_writeDreg]
  | yr n => simp [Holds, uregUnwritten, writeUreg, statOf, writePlain, readPlain, readDreg_writeDreg, dregUnwritten_writeDreg]
  | other n => simp [Holds, uregUnwritten, writeUreg, statOf, writePlain, readPlain]
  | jb n => simp [Holds, uregUnwritten, writeUreg, statOf, writePlain, readPlain, writeBL, IaluState.writeBL, State.setIalu, State.ialu]
  | jl n => simp [Holds, uregUnwritten, writeUreg, statOf, writePlain, readPlain, writeBL, IaluState.writeBL, State.setIalu, State.ialu]
  | kb n => simp [Holds, uregUnwritten, writeUreg, statOf, writePlain, readPlain, writeBL, IaluState.writeBL, State.setIalu, State.ialu]
  | kl n => simp [Holds, uregUnwritten, writeUreg, statOf, writePlain, readPlain, writeBL, IaluState.writeBL, State.setIalu, State.ialu]
  | _ => exact ⟨rfl, rfl⟩

/-- A register whose cell is the same holds the same. -/
theorem Holds.of_same {u : Ureg} {w : Word} {s t : State} (h : Holds u w s) (hc : SameCell (uregCell u) s t) :
    Holds u w t := by
  unfold Holds uregCell at *
  split
  · rename_i I hI; rw [hI] at h hc; exact Eq.trans hc h
  · rename_i hI; rw [hI] at h hc; exact ⟨hc.1.trans h.1, hc.2.trans h.2⟩

/-- What a read of a universal register delivers. -/
theorem delivers_readUreg (u : Ureg) (s : State) : Delivers u (readUreg u s).1 s := by
  unfold Delivers readUreg
  cases statOf u <;> simp

/-- A draw does not change what a register delivers. -/
theorem Delivers.of_same {u : Ureg} {w : Word} {s t : State} (h : Delivers u w t) (hc : SameCell (uregCell u) s t) :
    Delivers u w s := by
  unfold Delivers uregCell at *
  split
  · rename_i I hI; rw [hI] at h hc; exact Eq.trans h hc
  · rename_i hI; rw [hI] at h hc; exact h.trans hc.1

/-! ## Groups -/

/-- Every register of a group written without repeats holds its word. -/
theorem holds_writeUregs (l : List (Ureg × Word)) (s : State) (hn : (l.map fun p => uregCell p.1).Nodup) :
    ∀ p ∈ l, Holds p.1 p.2 (writeUregs l s) := by
  induction l generalizing s with
  | nil => simp
  | cons a rest ih =>
    simp only [List.map_cons, List.nodup_cons] at hn
    intro p hp
    rcases List.mem_cons.1 hp with rfl | hp
    · exact (holds_writeUreg p.1 p.2 s).of_same ((writeUregs_frame rest _).cells _ hn.1)
    · exact ih _ hn.2 p hp

/-- What a read of a group delivers, register by register. -/
theorem delivers_readUregs (l : List Ureg) (s : State) (k : Nat) (hk : k < l.length) :
    Delivers l[k] ((readUregs l s).1[k]'(by simpa using hk)) s := by
  induction l generalizing s k with
  | nil => simp at hk
  | cons u rest ih =>
    cases k with
    | zero => exact delivers_readUreg u s
    | succ k =>
      exact (ih (readUreg u s).2 k (by simpa using hk)).of_same ((readUreg_frame u s).cells _ (by simp))

theorem Ureg.shift_zero (u : Ureg) : u.shift 0 = u := by
  cases u <;> simp [Ureg.shift]

theorem group_length (z : Size) (u : Ureg) : (u.group z).length = z.count := by cases z <;> rfl

theorem group_getElem (z : Size) (u : Ureg) (k : Nat) (hk : k < (u.group z).length) : (u.group z)[k] = u.shift k := by
  cases z <;> simp [Ureg.group] at hk
  · subst hk; simp [Ureg.group, Ureg.shift_zero]
  · interval_cases k <;> simp [Ureg.group, Ureg.shift_zero]
  · interval_cases k <;> simp [Ureg.group, Ureg.shift_zero]

/-- The members of an aligned group are different cells. -/
theorem group_nodup {z : Size} {u : Ureg} (h : u.groupOk z = true) : ((u.group z).map uregCell).Nodup := by
  have j : ∀ (z : Size) (n : RegNum), lowOk z n = true → (((Ureg.j n).group z).map uregCell).Nodup := by
    intro z n; cases z <;> revert n <;> decide
  have k : ∀ (z : Size) (n : RegNum), lowOk z n = true → (((Ureg.k n).group z).map uregCell).Nodup := by
    intro z n; cases z <;> revert n <;> decide
  have x : ∀ (z : Size) (n : RegNum), lowOk z n = true → (((Ureg.xr n).group z).map uregCell).Nodup := by
    intro z n; cases z <;> revert n <;> decide
  have y : ∀ (z : Size) (n : RegNum), lowOk z n = true → (((Ureg.yr n).group z).map uregCell).Nodup := by
    intro z n; cases z <;> revert n <;> decide
  cases z with
  | single => simp [Ureg.group]
  | dual =>
    cases u <;> simp only [Ureg.groupOk, Ureg.number?] at h
    · exact j _ _ h
    · exact k _ _ h
    · exact x _ _ h
    · exact y _ _ h
    all_goals cases h
  | quad =>
    cases u <;> simp only [Ureg.groupOk, Ureg.number?] at h
    · exact j _ _ h
    · exact k _ _ h
    · exact x _ _ h
    · exact y _ _ h
    all_goals cases h

/-! ## Data registers -/

/-- A data register not in the list is as before. -/
theorem readDreg_writeDregs_ne (l : List ((Blk × RegNum) × Word)) (c : Blk) (i : RegNum) (s : State)
    (h : ∀ p ∈ l, p.1 ≠ (c, i)) : readDreg c i (writeDregs l s) = readDreg c i s := by
  induction l generalizing s with
  | nil => rfl
  | cons a rest ih =>
    simp only [writeDregs]
    rw [ih _ fun p hp => h p (List.mem_cons_of_mem _ hp), readDreg_writeDreg, if_neg]
    rintro ⟨rfl, rfl⟩
    exact h a (by simp) rfl

/-- A data register written without repeats holds its word. -/
theorem readDreg_writeDregs (l : List ((Blk × RegNum) × Word)) (s : State) (hn : (l.map fun p => p.1).Nodup) :
    ∀ p ∈ l, readDreg p.1.1 p.1.2 (writeDregs l s) = p.2 := by
  induction l generalizing s with
  | nil => simp
  | cons a rest ih =>
    simp only [List.map_cons, List.nodup_cons] at hn
    intro p hp
    rcases List.mem_cons.1 hp with rfl | hp
    · simp only [writeDregs]
      rw [readDreg_writeDregs_ne, readDreg_writeDreg]
      · simp
      · intro q hq e
        exact hn.1 (List.mem_map.2 ⟨q, hq, e⟩)
    · exact ih _ hn.2 p hp

/-- Elements put elsewhere leave a data register as it was. -/
theorem putDregs_ne (l : List ((Blk × RegNum) × Option Word)) (c : Blk) (i : RegNum) (s : State)
    (h : ∀ p ∈ l, p.1 ≠ (c, i)) :
    readDreg c i (putDregs l s) = readDreg c i s ∧ dregUnwritten c i (putDregs l s) = dregUnwritten c i s := by
  have same : SameCell (.reg (dregUreg c i)) s (putDregs l s) := by
    refine (putDregs_frame l s).cells _ fun hm => ?_
    obtain ⟨p, hp, e⟩ := List.mem_map.1 hm
    refine h p hp (Prod.ext ?_ ?_) <;>
      cases hc : p.1.1 <;> cases c <;> simp_all [dregUreg]
  cases c <;> exact same

/-- A data register takes its element of a DAB result: a defined one is its value, and it is unwritten exactly after an
undefined one (43_dab.md R209). -/
theorem readDreg_putDregs (l : List ((Blk × RegNum) × Option Word)) (s : State) (hn : (l.map fun p => p.1).Nodup) :
    ∀ p ∈ l, dregUnwritten p.1.1 p.1.2 (putDregs l s) = p.2.isNone ∧
      ∀ w, p.2 = some w → readDreg p.1.1 p.1.2 (putDregs l s) = w := by
  induction l generalizing s with
  | nil => simp
  | cons a rest ih =>
    simp only [List.map_cons, List.nodup_cons] at hn
    intro p hp
    rcases List.mem_cons.1 hp with rfl | hp
    · have ne := putDregs_ne rest p.1.1 p.1.2 (putDreg p.1.1 p.1.2 p.2 s)
        fun q hq e => hn.1 (List.mem_map.2 ⟨q, hq, e⟩)
      simp only [putDregs, ne]
      cases p.2 <;> simp [putDreg, dregUnwritten_writeDreg, dregUnwritten_markUnwritten, readDreg_writeDreg]
    · exact ih _ hn.2 p hp

/-! ## Runs of memory words -/

theorem readWords_getElem (m : Memory) (a n k : Nat) (hk : k < (readWords m a n).length) :
    (readWords m a n)[k] = readWord m (a + k) := by
  induction n generalizing a k with
  | zero => simp at hk
  | succ n ih =>
    cases k with
    | zero => rfl
    | succ k =>
      simp only [readWords, List.getElem_cons_succ]
      rw [ih (a + 1) k (by simpa [readWords] using hk), show a + 1 + k = a + (k + 1) by omega]

/-- The words written stand where they were written, in a canonical memory. -/
theorem readWord_writeWords {m : Memory} (h : m.wf = true) (a : Nat) (ws : List Word) (k : Nat) (hk : k < ws.length) :
    readWord (writeWords m a ws) (a + k) = ws[k] := by
  have e := readWords_writeWords h a ws
  have g := readWords_getElem (writeWords m a ws) a ws.length k (by simpa using hk)
  rw [← g]
  simp only [e]

end Sys2Proof.Machine
end

