-- ==== Sys2Proof/Laws/Exec.lean ====
section
/-! SUPPORT. What each shared meaning does when it answers a next state: that its form is admitted, that its access goes
through, and what it changes, each said once. -/

namespace Sys2Proof.Machine

/-! ## Arithmetic, logic, functions -/

/-- A result and flags written: the frame of every operation. -/
theorem aluResult_frame {s s' : State} (I : Ialu) (d : RegNum) (r : Word) (f : Flags) (h : Frame [] [] s s') :
    Frame (gprCells I d ++ [Cell.flags I]) [] s ((aluwrite I d r s').setFlags I f) :=
  ((h.comp (aluwrite_frame I d r s')).comp (setFlags_frame I f _)).mono (by simp) (by simp)

theorem execAddSub_frame {I : Ialu} {sub : Bool} {d m : RegNum} {b : Opnd} {s t : State}
    (h : execAddSub I sub d m b s = .next t) : Frame (gprCells I d ++ [Cell.flags I]) [] s t := by
  cases h; exact aluResult_frame I d _ _ (Frame.rfl' _ _ _)

theorem execAddSubCjmp_frame {I : Ialu} {sub : Bool} {d m : RegNum} {b : Opnd} {s t : State}
    (h : execAddSubCjmp I sub d m b s = .next t) :
    d ≠ 31 ∧ Frame (gprCells I d ++ [Cell.flags I] ++ [Cell.reg .cjmp]) [] s t := by
  obtain ⟨he, h⟩ := guardForm_next h
  cases h
  refine ⟨?_, ((aluResult_frame I d _ _ (Frame.rfl' _ _ _)).comp (writeUreg_frame .cjmp _ _)).mono
    (by simp [uregCell, statOf]) (by simp)⟩
  rintro rfl
  cases sub <;> simp [Form.error, firstReason] at he

theorem execAddSubCb_frame {I : Ialu} {sub : Bool} {d m : RegNum} {b : Opnd} {s t : State}
    (h : execAddSubCb I sub d m b s = .next t) : m.val < 4 ∧ Frame (gprCells I d ++ [Cell.flags I]) [] s t := by
  obtain ⟨he, h⟩ := guardForm_next h
  obtain ⟨w, _, h⟩ := withValue_next h
  cases h
  refine ⟨?_, aluResult_frame I d _ _ (draw_frame s)⟩
  cases sub <;> simpa [Form.error, firstReason, isIndexReg] using he

theorem execAddSubBr_frame {I : Ialu} {sub : Bool} {d m : RegNum} {b : Opnd} {s t : State}
    (h : execAddSubBr I sub d m b s = .next t) : m.val < 4 ∧ Frame (gprCells I d ++ [Cell.flags I]) [] s t := by
  obtain ⟨he, h⟩ := guardForm_next h
  cases h
  refine ⟨?_, aluResult_frame I d _ _ (draw_frame s)⟩
  cases sub <;> simpa [Form.error, firstReason, isIndexReg] using he

theorem execAddSubBL_frame {I : Ialu} {sub : Bool} {d : BLReg} {m : RegNum} {b : Opnd} {s t : State}
    (h : execAddSubBL I sub d m b s = .next t) : Frame [Cell.reg (blUreg I d), Cell.flags I] [] s t := by
  cases h; exact ((writeBL_frame I d _ _).comp (setFlags_frame I _ _)).mono (by simp) (by simp)

theorem execCarry_frame {I : Ialu} {sub : Bool} {d m : RegNum} {b : Opnd} {s t : State}
    (h : execCarry I sub d m b s = .next t) : Frame (gprCells I d ++ [Cell.flags I]) [] s t := by
  cases h; exact aluResult_frame I d _ _ (Frame.rfl' _ _ _)

theorem execHalf_frame {I : Ialu} {sub : Bool} {d m : RegNum} {b : Opnd} {s t : State}
    (h : execHalf I sub d m b s = .next t) : Frame (gprCells I d ++ [Cell.flags I]) [] s t := by
  cases h; exact aluResult_frame I d _ _ (draw_frame s)

theorem execComp_frame {I : Ialu} {unsigned : Bool} {m : RegNum} {b : Opnd} {s t : State}
    (h : execComp I unsigned m b s = .next t) : Frame [Cell.flags I] [] s t := by
  cases h; exact setFlags_frame I _ s

theorem execTwo_frame {I : Ialu} {f : Word → Word → Word} {d m : RegNum} {b : Opnd} {s t : State}
    (h : execTwo I f d m b s = .next t) : Frame (gprCells I d ++ [Cell.flags I]) [] s t := by
  cases h; exact aluResult_frame I d _ _ (Frame.rfl' _ _ _)

theorem execOne_frame {I : Ialu} {f : Word → Word} {d m : RegNum} {s t : State}
    (h : execOne I f d m s = .next t) : Frame (gprCells I d ++ [Cell.flags I]) [] s t := by
  cases h; exact aluResult_frame I d _ _ (Frame.rfl' _ _ _)

theorem execAbs_frame {I : Ialu} {d m : RegNum} {s t : State} (h : execAbs I d m s = .next t) :
    Frame (gprCells I d ++ [Cell.flags I]) [] s t := by
  cases h; exact aluResult_frame I d _ _ (Frame.rfl' _ _ _)

/-! ## Loads and stores -/

/-- Filling a group changes its cells only. -/
theorem fillGroup_frame (z : Size) (u : Ureg) (ws : List Word) (s : State) :
    Frame (groupCells z u) [] s (writeUregs ((u.group z).zip ws) s) := by
  refine (writeUregs_frame _ s).mono ?_ (by simp)
  intro c hc
  obtain ⟨p, hp, rfl⟩ := List.mem_map.1 hc
  exact List.mem_map.2 ⟨p.1, (List.of_mem_zip hp).1, rfl⟩

@[simp] theorem readUregs_mem (l : List Ureg) (s : State) : (readUregs l s).2.mem = s.mem := by
  induction l generalizing s with
  | nil => rfl
  | cons u rest ih => simp only [readUregs]; rw [ih]; unfold readUreg; split <;> rfl

@[simp] theorem readUregs_memMap (l : List Ureg) (s : State) : (readUregs l s).2.memMap = s.memMap :=
  (readUregs_frame l s).map

theorem uregUpdate_frame (I : Ialu) (p : Modify) (m : RegNum) (b : Opnd) (s0 s : State) :
    Frame (if p = .post then gprCells I m else []) [] s (uregUpdate I p m b s0 s) := by
  cases p
  · exact Frame.rfl' _ _ _
  · exact aluwrite_frame I m _ s

/-- An access without a fault reaches words that exist. -/
theorem reachable_of_accessFault {s : State} {a n : Nat} (h : accessFault s.memMap a n = none) : Reachable s a n :=
  (accessFault_none_iff _ _ _).1 h

theorem execLdUreg_next {I : Ialu} {z : Size} {p : Modify} {u : Ureg} {m : RegNum} {b : Opnd} {s t : State}
    (h : execLdUreg I z p u m b s = .next t) :
    (Form.ldU I z p u m b).error = none ∧ Reachable s (uregAddr I p m b s) z.count ∧
      t = uregUpdate I p m b s (writeUregs ((u.group z).zip (readWords s.mem (uregAddr I p m b s) z.count)) s) := by
  obtain ⟨he, h⟩ := guardForm_next h
  obtain ⟨ha, h⟩ := withAccess_next h
  cases h
  exact ⟨he, reachable_of_accessFault ha, rfl⟩

theorem execLdUreg_frame {I : Ialu} {z : Size} {p : Modify} {u : Ureg} {m : RegNum} {b : Opnd} {s t : State}
    (h : execLdUreg I z p u m b s = .next t) :
    Frame (groupCells z u ++ if p = .post then gprCells I m else []) [] s t := by
  obtain ⟨-, -, rfl⟩ := execLdUreg_next h
  exact ((fillGroup_frame z u _ s).comp (uregUpdate_frame I p m b s _)).mono (by simp) (by simp)

theorem execStUreg_next {I : Ialu} {z : Size} {p : Modify} {u : Ureg} {m : RegNum} {b : Opnd} {s t : State}
    (h : execStUreg I z p u m b s = .next t) :
    (Form.stU I z p u m b).error = none ∧ Readable (u.group z) s ∧ Reachable s (uregAddr I p m b s) z.count ∧
      t = uregUpdate I p m b s { (readUregs (u.group z) s).2 with
        mem := writeWords s.mem (uregAddr I p m b s) (readUregs (u.group z) s).1 } := by
  obtain ⟨he, h⟩ := guardForm_next h
  obtain ⟨hs, h⟩ := withSources_next h
  obtain ⟨ha, h⟩ := withAccess_next h
  cases h
  exact ⟨he, hs, reachable_of_accessFault ha, rfl⟩

theorem execStUreg_frame {I : Ialu} {z : Size} {p : Modify} {u : Ureg} {m : RegNum} {b : Opnd} {s t : State}
    (h : execStUreg I z p u m b s = .next t) :
    Frame (if p = .post then gprCells I m else []) (List.range' (uregAddr I p m b s) z.count) s t := by
  obtain ⟨-, -, -, rfl⟩ := execStUreg_next h
  have h1 := setMem_frame (readUregs (u.group z) s).2 (uregAddr I p m b s) (readUregs (u.group z) s).1
  rw [readUregs_mem, readUregs_length, group_length] at h1
  exact (((readUregs_frame (u.group z) s).comp h1).comp (uregUpdate_frame I p m b s _)).mono (by simp) (by simp)

theorem execLdDreg_next {I : Ialu} {a : LdAcc} {r : RegNum} {op : PmOp} {m : RegNum} {b : Opnd} {s t : State}
    (h : execLdDreg I a r op m b s = .next t) :
    (Form.ldD I a r op m b).error = none ∧ Reachable s (dregAddr I m s) (ldWidth a) ∧
      ∃ new, postUpdate I op m (opndVal I b s) s = .ok new ∧
        t = aluwrite I m new (writeDregs (ldTargets a r (readWords s.mem (dregAddr I m s) (ldWidth a))) s) := by
  obtain ⟨he, h⟩ := guardForm_next h
  obtain ⟨w, hw, h⟩ := withValue_next h
  obtain ⟨ha, h⟩ := withAccess_next h
  cases h
  exact ⟨he, reachable_of_accessFault ha, w, hw, rfl⟩

/-- Filling the targets of a load changes the data registers it names only. -/
theorem ldTargets_frame (a : LdAcc) (r : RegNum) (ws : List Word) (s : State) :
    Frame (ldCells a r) [] s (writeDregs (ldTargets a r ws) s) := by
  refine (writeDregs_frame _ s).mono ?_ (by simp)
  intro c hc
  obtain ⟨p, hp, rfl⟩ := List.mem_map.1 hc
  cases a with
  | normal z c => exact List.mem_map.2 ⟨p.1, (List.of_mem_zip hp).1, rfl⟩
  | merged d c => exact List.mem_map.2 ⟨p.1, (List.of_mem_zip hp).1, rfl⟩
  | bcast z c =>
    refine List.mem_map.2 ⟨p.1, ?_, rfl⟩
    rcases List.mem_append.1 hp with hp | hp
    · exact List.mem_append_left _ (List.of_mem_zip hp).1
    · exact List.mem_append_right _ (List.of_mem_zip hp).1

theorem execLdDreg_frame {I : Ialu} {a : LdAcc} {r : RegNum} {op : PmOp} {m : RegNum} {b : Opnd} {s t : State}
    (h : execLdDreg I a r op m b s = .next t) : Frame (ldCells a r ++ gprCells I m) [] s t := by
  obtain ⟨-, -, new, -, rfl⟩ := execLdDreg_next h
  exact ((ldTargets_frame a r _ s).comp (aluwrite_frame I m new _)).mono (by simp) (by simp)

theorem execStDreg_next {I : Ialu} {a : StAcc} {r : RegNum} {op : PmOp} {m : RegNum} {b : Opnd} {s t : State}
    (h : execStDreg I a r op m b s = .next t) :
    (Form.stD I a r op m b).error = none ∧ Readable ((stRegs a r).map fun t => dregUreg t.1 t.2) s ∧
      Reachable s (dregAddr I m s) (stRegs a r).length ∧
      ∃ new, postUpdate I op m (opndVal I b s) s = .ok new ∧
        t = aluwrite I m new { s with
          mem := writeWords s.mem (dregAddr I m s) ((stRegs a r).map fun x => readDreg x.1 x.2 s) } := by
  obtain ⟨he, h⟩ := guardForm_next h
  obtain ⟨w, hw, h⟩ := withValue_next h
  obtain ⟨hs, h⟩ := withSources_next h
  obtain ⟨ha, h⟩ := withAccess_next h
  cases h
  rw [List.length_map] at ha
  exact ⟨he, hs, reachable_of_accessFault ha, w, hw, rfl⟩

theorem execStDreg_frame {I : Ialu} {a : StAcc} {r : RegNum} {op : PmOp} {m : RegNum} {b : Opnd} {s t : State}
    (h : execStDreg I a r op m b s = .next t) :
    Frame (gprCells I m) (List.range' (dregAddr I m s) (stRegs a r).length) s t := by
  obtain ⟨-, -, -, new, -, rfl⟩ := execStDreg_next h
  have h1 := setMem_frame s (dregAddr I m s) ((stRegs a r).map fun x => readDreg x.1 x.2 s)
  rw [List.length_map] at h1
  exact (h1.comp (aluwrite_frame I m new _)).mono (by simp) (by simp)

/-! ## The data alignment buffers -/

theorem dabBlock_frame (short : Bool) (c : Blk) (sh : Nat) (r : RegNum) (new : Vector Word 4) (s : State) :
    Frame (((regGroup .quad r).map fun i => Cell.reg (dregUreg c i)) ++ [Cell.dab c]) [] s
      (dabBlock short c sh r new s) := by
  have h := putDregs_frame (((regGroup .quad r).map fun i => (c, i)).zip (dabResult short (s.dab c) new.toList sh)) s
  refine (h.comp (setDab_frame c ⟨new, true⟩ _)).mono ?_ (by simp)
  intro x hx
  simp only [List.mem_append, List.mem_map] at hx
  rcases hx with ⟨p, hp, rfl⟩ | hx
  · obtain ⟨i, hi, e⟩ := List.mem_map.1 (List.of_mem_zip hp).1
    exact List.mem_append_left _ (List.mem_map.2 ⟨i, hi, by rw [← e]⟩)
  · exact List.mem_append_right _ hx

theorem dabBlocks_frame (short : Bool) (mis : Nat) (r : RegNum) (new : Vector Word 4) (l : List (Blk × Nat))
    (s : State) :
    Frame ((l.flatMap fun p => (regGroup .quad r).map fun i => Cell.reg (dregUreg p.1 i))
      ++ l.map fun p => Cell.dab p.1) [] s (dabBlocks short mis r new l s) := by
  induction l generalizing s with
  | nil => exact Frame.rfl' s _ _
  | cons p rest ih =>
    refine ((dabBlock_frame short p.1 (mis + p.2) r new s).comp (ih _)).mono ?_ (by simp)
    intro x hx
    simp only [List.mem_append, List.flatMap_cons, List.map_cons, List.mem_cons] at hx ⊢
    tauto

theorem execDab_next {I : Ialu} {a : DabKind} {r m : RegNum} {b : Opnd} {s t : State}
    (h : execDab I a r m b s = .next t) :
    (Form.dab I a r m b).error = none ∧ Reachable s (dabQuad (dabIsShort a) (aluread I m s)) 4 ∧
      ∃ upd, dabUpdate I (dabIsShort a) m (opndVal I b s) s = .ok upd ∧
        t = aluwrite I m upd (dabBlocks (dabIsShort a) (dabMis (dabIsShort a) (aluread I m s)) r
          (quadAt s.mem (dabQuad (dabIsShort a) (aluread I m s))) (dabPlan a) s) := by
  obtain ⟨he, h⟩ := guardForm_next h
  obtain ⟨w, hw, h⟩ := withValue_next h
  obtain ⟨ha, h⟩ := withAccess_next h
  cases h
  exact ⟨he, reachable_of_accessFault ha, w, hw, rfl⟩

theorem execDab_frame {I : Ialu} {a : DabKind} {r m : RegNum} {b : Opnd} {s t : State}
    (h : execDab I a r m b s = .next t) :
    Frame ((dabBlks a).flatMap (fun c => (regGroup .quad r).map fun i => Cell.reg (dregUreg c i))
      ++ (dabBlks a).map Cell.dab ++ gprCells I m) [] s t := by
  obtain ⟨-, -, upd, -, rfl⟩ := execDab_next h
  refine ((dabBlocks_frame _ _ r _ (dabPlan a) s).comp (aluwrite_frame I m upd _)).mono ?_ (by simp)
  intro x hx
  simp only [dabBlks, List.flatMap_map, List.map_map, List.mem_append, Function.comp_def] at hx ⊢
  tauto

/-! ## Transfers -/

theorem execLoadImm_frame {u : Ureg} {v : Word} {s t : State} (h : execLoadImm u v s = .next t) :
    Frame [uregCell u] [] s t := by
  obtain ⟨-, h⟩ := guardForm_next h
  cases h
  exact writeUreg_frame u _ s

theorem execMove_next {z : Size} {d u : Ureg} {s t : State} (h : execMove z d u s = .next t) :
    (Form.move z d u).error = none ∧ Readable (u.group z) s ∧
      t = writeUregs ((d.group z).zip (readUregs (u.group z) s).1) (readUregs (u.group z) s).2 := by
  obtain ⟨he, h⟩ := guardForm_next h
  obtain ⟨hs, h⟩ := withSources_next h
  cases h
  exact ⟨he, hs, rfl⟩

theorem execMove_frame {z : Size} {d u : Ureg} {s t : State} (h : execMove z d u s = .next t) :
    Frame (groupCells z d) [] s t := by
  obtain ⟨-, -, rfl⟩ := execMove_next h
  exact ((readUregs_frame (u.group z) s).comp (fillGroup_frame z d _ _)).mono (by simp) (by simp)

theorem execGscf_frame {one : Bool} {q : Cond} {s t : State} (h : execGscf one q s = .next t) :
    Frame [Cell.staticFlag one] [] s t := by
  cases h
  constructor
  · intro c hc
    cases c with
    | reg u => cases one <;> cases u <;> exact ⟨rfl, rfl⟩
    | flags I => cases one <;> cases I <;> rfl
    | dab c => cases one <;> cases c <;> rfl
    | staticFlag o => cases one <;> cases o <;> first | rfl | simp at hc
    | programCounter => cases one <;> rfl
  · intro I d _
    cases one <;> cases I <;> cases d <;> rfl
  · intro a _
    cases one <;> rfl
  · cases one <;> rfl
  · cases one <;> rfl

end Sys2Proof.Machine
end

