-- ==== Sys2Proof/Laws/Locality.lean ====
section
/-! SUPPORT. What the outcome of an instruction depends on: the cells it reads or writes, the ages of the buffer registers
among them, the memory words it loads, the memory map, and how many open values were drawn before it (30_encoding.md
R82). -/

namespace Sys2Proof.Machine

theorem SameCell.refl (c : Cell) (s : State) : SameCell c s s := (Frame.rfl' s [] []).cells c (by simp)

theorem SameCell.symm {c : Cell} {s t : State} (h : SameCell c s t) : SameCell c t s := by
  cases c with
  | staticFlag one => cases one <;> exact Eq.symm h
  | reg u => exact ⟨h.1.symm, h.2.symm⟩
  | _ => exact Eq.symm h

/-! ## Two states that agree -/

/-- The states agree on the cells of `R`, on the ages of the base and length registers in `R`, on the words of `A` and on
the map. -/
structure Agree (R : List Cell) (A : List Nat) (s s' : State) : Prop where
  cells : ∀ c ∈ R, SameCell c s s'
  ages : ∀ I d, Cell.reg (blUreg I d) ∈ R → holdOf I d s' = holdOf I d s
  words : ∀ a ∈ A, readWord s'.mem a = readWord s.mem a
  map : s'.memMap = s.memMap

theorem Agree.mono {R R' : List Cell} {A A' : List Nat} {s s' : State} (h : Agree R A s s') (hr : R' ⊆ R) (ha : A' ⊆ A) :
    Agree R' A' s s' where
  cells c hc := h.cells c (hr hc)
  ages I d hd := h.ages I d (hr hd)
  words a x := h.words a (ha x)
  map := h.map

theorem Agree.symm {R : List Cell} {A : List Nat} {s s' : State} (h : Agree R A s s') : Agree R A s' s where
  cells c hc := (h.cells c hc).symm
  ages I d hd := (h.ages I d hd).symm
  words a x := (h.words a x).symm
  map := h.map.symm

theorem Agree.reachable {R : List Cell} {A : List Nat} {s s' : State} (h : Agree R A s s') {a n : Nat}
    (hr : Reachable s a n) : Reachable s' a n := by
  unfold Reachable
  rw [h.map]
  exact hr

/-! ## Agreeing states read alike -/

theorem Agree.aluread {R : List Cell} {A : List Nat} {s s' : State} (h : Agree R A s s') {I : Ialu} {m : RegNum}
    (hm : gprCells I m ⊆ R) : aluread I m s' = aluread I m s := by
  by_cases h31 : m = 31
  · subst h31; rfl
  · have := h.cells (.reg (I.ureg m)) (hm (by simp [gprCells, h31]))
    cases I <;> exact this.1

theorem Agree.opndVal {R : List Cell} {A : List Nat} {s s' : State} (h : Agree R A s s') {I : Ialu} {b : Opnd}
    (hb : opndCells I b ⊆ R) : opndVal I b s' = opndVal I b s := by
  cases b with
  | reg n => exact h.aluread hb
  | imm v => rfl

theorem Agree.circUse {R : List Cell} {A : List Nat} {s s' : State} (h : Agree R A s s') {I : Ialu} {m : RegNum}
    (hm : gprCells I m ⊆ R) (hb : bufferCells I m ⊆ R) (d : Int) : circUse I m d s' = circUse I m d s := by
  have h1 := h.cells _ (hb (List.mem_cons_self ..))
  have h2 := h.cells _ (hb (List.mem_cons_of_mem _ (List.mem_cons_self ..)))
  have h3 := h.ages I (.base (bufferOf m)) (hb (List.mem_cons_self ..))
  have h4 := h.ages I (.len (bufferOf m)) (hb (List.mem_cons_of_mem _ (List.mem_cons_self ..)))
  have hh : bufferHeld (s'.ialu I) (bufferOf m) = bufferHeld (s.ialu I) (bufferOf m) := by
    simp only [holdOf] at h3 h4
    simp only [bufferHeld, h3, h4]
  have e1 : baseOf I m s' = baseOf I m s := h1.1
  have e2 : lenOf I m s' = lenOf I m s := h2.1
  simp only [circUse_eq, hh, circNext, e1, e2, h.aluread hm]

theorem Agree.postUpdate {R : List Cell} {A : List Nat} {s s' : State} (h : Agree R A s s') {I : Ialu} {op : PmOp}
    {m : RegNum} (hm : gprCells I m ⊆ R) (hb : (if op = .cb then bufferCells I m else []) ⊆ R) (w : Word) :
    postUpdate I op m w s' = postUpdate I op m w s := by
  cases op with
  | lin => simp only [Machine.postUpdate, h.aluread hm]
  | cb => exact h.circUse hm (by simpa using hb) _
  | br => simp only [Machine.postUpdate, h.aluread hm]

theorem Agree.dabUpdate {R : List Cell} {A : List Nat} {s s' : State} (h : Agree R A s s') {I : Ialu} {m : RegNum}
    (hm : gprCells I m ⊆ R) (hb : bufferCells I m ⊆ R) (short : Bool) (w : Word) :
    dabUpdate I short m w s' = dabUpdate I short m w s := by
  have h1 := h.cells _ (hb (List.mem_cons_self ..))
  have h2 := h.cells _ (hb (List.mem_cons_of_mem _ (List.mem_cons_self ..)))
  have h3 := h.ages I (.base (bufferOf m)) (hb (List.mem_cons_self ..))
  have h4 := h.ages I (.len (bufferOf m)) (hb (List.mem_cons_of_mem _ (List.mem_cons_self ..)))
  have hh : bufferHeld (s'.ialu I) (bufferOf m) = bufferHeld (s.ialu I) (bufferOf m) := by
    simp only [holdOf] at h3 h4
    simp only [bufferHeld, h3, h4]
  have e1 : baseOf I m s' = baseOf I m s := h1.1
  have e2 : lenOf I m s' = lenOf I m s := h2.1
  simp only [dabUpdate_eq, hh, circNext, e1, e2, h.aluread hm]

theorem Agree.flagsOf {R : List Cell} {A : List Nat} {s s' : State} (h : Agree R A s s') {I : Ialu}
    (hf : Cell.flags I ∈ R) : s'.flagsOf I = s.flagsOf I := h.cells (.flags I) hf

theorem Agree.readWords {R : List Cell} {A : List Nat} {s s' : State} (h : Agree R A s s') {a n : Nat}
    (ha : List.range' a n ⊆ A) : readWords s'.mem a n = readWords s.mem a n := by
  refine List.ext_getElem (by simp) fun k h1 h2 => ?_
  rw [readWords_getElem, readWords_getElem]
  exact h.words _ (ha (by simp at h1; simp [List.mem_range'_1, h1]))

theorem Agree.readDreg {R : List Cell} {A : List Nat} {s s' : State} (h : Agree R A s s') {c : Blk} {i : RegNum}
    (hi : Cell.reg (dregUreg c i) ∈ R) : readDreg c i s' = readDreg c i s := by
  have := h.cells _ hi
  cases c <;> exact this.1

theorem Agree.readable {R : List Cell} {A : List Nat} {s s' : State} (h : Agree R A s s') {l : List Ureg}
    (hl : l.map uregCell ⊆ R) (hr : Readable l s) : Readable l s' := fun u hu =>
  (SameCell.unwritten (h.cells _ (hl (List.mem_map.2 ⟨u, hu, rfl⟩)))).trans (hr u hu)

/-! ## The same operation on both -/

/-- The states agree on the cells of `R` and have drawn as many open values. -/
def Sim (R : List Cell) (s s' : State) : Prop := (∀ c ∈ R, SameCell c s s') ∧ s'.draws = s.draws

theorem Agree.sim {R : List Cell} {A : List Nat} {s s' : State} (h : Agree R A s s') (hd : s'.draws = s.draws) :
    Sim R s s' := ⟨h.cells, hd⟩

/-- An operation that gives the cells it writes the same values on both states keeps them alike. -/
theorem Sim.step {R W : List Cell} {st st' : List Nat} {s s' t t' : State} (h : Sim R s s') (f : Frame W st s t)
    (f' : Frame W st' s' t') (hw : ∀ c ∈ W, SameCell c t t') (hd : t'.draws = t.draws) : Sim R t t' := by
  refine ⟨fun c hc => ?_, hd⟩
  by_cases x : c ∈ W
  · exact hw c x
  · exact ((f.cells c x).symm.trans (h.1 c hc)).trans (f'.cells c x)

theorem Sim.aluwrite {R : List Cell} {s s' : State} (h : Sim R s s') (I : Ialu) (d : RegNum) (v : Word) :
    Sim R (aluwrite I d v s) (aluwrite I d v s') := by
  refine h.step (aluwrite_frame I d v s) (aluwrite_frame I d v s') (fun c hc => ?_) (by simp [h.2])
  by_cases h31 : d = 31
  · simp [gprCells, h31] at hc
  · simp only [gprCells, h31, if_false, List.mem_singleton] at hc
    subst hc
    cases I <;> exact ⟨by simp [Ialu.ureg, readPlain, aluread_aluwrite, h31], rfl⟩

theorem Sim.setFlags {R : List Cell} {s s' : State} (h : Sim R s s') (I : Ialu) (f : Flags) :
    Sim R (s.setFlags I f) (s'.setFlags I f) := by
  refine h.step (setFlags_frame I f s) (setFlags_frame I f s') (fun c hc => ?_) (by simp [h.2])
  rw [List.mem_singleton] at hc
  subst hc
  simp [SameCell]

theorem Sim.draw {R : List Cell} {s s' : State} (h : Sim R s s') : Sim R (draw s).2 (draw s').2 :=
  h.step (draw_frame s) (draw_frame s') (by simp) (by simp [h.2])

theorem draw_same {R : List Cell} {s s' : State} (h : Sim R s s') : (draw s').1 = (draw s).1 := by
  simp [h.2]

theorem Sim.setMem {R : List Cell} {s s' : State} (h : Sim R s s') (a : Nat) (ws : List Word) :
    Sim R { s with mem := writeWords s.mem a ws } { s' with mem := writeWords s'.mem a ws } :=
  h.step (setMem_frame s a ws) (setMem_frame s' a ws) (by simp) h.2

theorem Sim.writeDreg {R : List Cell} {s s' : State} (h : Sim R s s') (c : Blk) (i : RegNum) (v : Word) :
    Sim R (writeDreg c i v s) (writeDreg c i v s') := by
  refine h.step (writeDreg_frame c i v s) (writeDreg_frame c i v s') (fun e he => ?_) (by simp [h.2])
  rw [List.mem_singleton] at he
  subst he
  cases c <;> simp [SameCell, dregUreg, readPlain, uregUnwritten, readDreg_writeDreg, dregUnwritten_writeDreg]

theorem Sim.putDreg {R : List Cell} {s s' : State} (h : Sim R s s') (c : Blk) (i : RegNum) (e : Option Word) :
    Sim R (putDreg c i e s) (putDreg c i e s') := by
  cases e with
  | some w => exact h.writeDreg c i w
  | none =>
    refine h.step (putDreg_frame c i none s) (putDreg_frame c i none s') (fun e he => ?_) (by simp [Machine.putDreg, h.2])
    rw [List.mem_singleton] at he
    subst he
    cases c <;> simp [SameCell, dregUreg, readPlain, uregUnwritten, Machine.putDreg, readDreg_writeDreg,
      dregUnwritten_markUnwritten, h.2]

theorem Sim.putDregs {R : List Cell} {s s' : State} (h : Sim R s s') (l : List ((Blk × RegNum) × Option Word)) :
    Sim R (putDregs l s) (putDregs l s') := by
  induction l generalizing s s' with
  | nil => exact h
  | cons p rest ih => exact ih (h.putDreg p.1.1 p.1.2 p.2)

theorem Sim.writeDregs {R : List Cell} {s s' : State} (h : Sim R s s') (l : List ((Blk × RegNum) × Word)) :
    Sim R (writeDregs l s) (writeDregs l s') := by
  induction l generalizing s s' with
  | nil => exact h
  | cons p rest ih => exact ih (h.writeDreg p.1.1 p.1.2 p.2)

theorem Sim.setDab {R : List Cell} {s s' : State} (h : Sim R s s') (c : Blk) (d : Dab) :
    Sim R (s.setDab c d) (s'.setDab c d) := by
  refine h.step (setDab_frame c d s) (setDab_frame c d s') (fun e he => ?_) (by simp [h.2])
  rw [List.mem_singleton] at he
  subst he
  simp [SameCell]

@[simp] theorem writeUreg_draws (u : Ureg) (v : Word) (s : State) : (writeUreg u v s).draws = s.draws := by
  unfold writeUreg
  split
  · simp
  · cases u <;> simp [writePlain, writeBL]

theorem Sim.writeUreg {R : List Cell} {s s' : State} (h : Sim R s s') (u : Ureg) (v : Word) :
    Sim R (writeUreg u v s) (writeUreg u v s') := by
  refine h.step (writeUreg_frame u v s) (writeUreg_frame u v s') (fun c hc => ?_) (by simp [h.2])
  rw [List.mem_singleton] at hc
  subst hc
  have h1 := holds_writeUreg u v s
  have h2 := holds_writeUreg u v s'
  unfold Holds at h1 h2
  unfold uregCell
  split at h1 <;> simp_all [SameCell]

theorem Sim.writeUregs {R : List Cell} {s s' : State} (h : Sim R s s') (l : List (Ureg × Word)) :
    Sim R (writeUregs l s) (writeUregs l s') := by
  induction l generalizing s s' with
  | nil => exact h
  | cons p rest ih => exact ih (h.writeUreg p.1 p.2)

theorem Sim.readUregs {R : List Cell} {s s' : State} (h : Sim R s s') {l : List Ureg} (hl : l.map uregCell ⊆ R) :
    (readUregs l s').1 = (readUregs l s).1 ∧ Sim R (readUregs l s).2 (readUregs l s').2 := by
  induction l generalizing s s' with
  | nil => exact ⟨rfl, h⟩
  | cons u rest ih =>
    have hu := h.1 (uregCell u) (hl (by simp))
    have key : (readUreg u s').1 = (readUreg u s).1 ∧ Sim R (readUreg u s).2 (readUreg u s').2 := by
      unfold uregCell at hu
      unfold readUreg
      cases hs : statOf u with
      | some I =>
        rw [hs] at hu
        exact ⟨by dsimp only; rw [draw_same h, show s'.flagsOf I = s.flagsOf I from hu], h.draw⟩
      | none =>
        rw [hs] at hu
        exact ⟨hu.1, h⟩
    have := ih key.2 fun c hc => hl (by simp only [List.map_cons]; exact List.mem_cons_of_mem _ hc)
    exact ⟨by simp only [Machine.readUregs, this.1, key.1], this.2⟩

theorem Sim.dabBlocks {R : List Cell} {s s' : State} (h : Sim R s s') (short : Bool) (mis : Nat) (r : RegNum)
    (new : Vector Word 4) {l : List (Blk × Nat)} (hl : ∀ p ∈ l, Cell.dab p.1 ∈ R) :
    Sim R (dabBlocks short mis r new l s) (dabBlocks short mis r new l s') := by
  induction l generalizing s s' with
  | nil => exact h
  | cons p rest ih =>
    refine ih ?_ fun q hq => hl q (List.mem_cons_of_mem _ hq)
    have e : s'.dab p.1 = s.dab p.1 := h.1 _ (hl p (by simp))
    simp only [dabBlock, e]
    exact (h.putDregs _).setDab _ _

/-! ## Memory under the operations on registers -/

@[simp] theorem writeUreg_mem (u : Ureg) (v : Word) (s : State) : (writeUreg u v s).mem = s.mem := by
  unfold writeUreg
  split
  · simp
  · cases u <;> simp [writePlain, writeBL]

@[simp] theorem writeUregs_mem (l : List (Ureg × Word)) (s : State) : (writeUregs l s).mem = s.mem := by
  induction l generalizing s with
  | nil => rfl
  | cons p rest ih => simp [writeUregs, ih]

@[simp] theorem writeDregs_mem (l : List ((Blk × RegNum) × Word)) (s : State) : (writeDregs l s).mem = s.mem := by
  induction l generalizing s with
  | nil => rfl
  | cons p rest ih => simp [writeDregs, ih]

@[simp] theorem putDregs_mem (l : List ((Blk × RegNum) × Option Word)) (s : State) : (putDregs l s).mem = s.mem := by
  induction l generalizing s with
  | nil => rfl
  | cons p rest ih => rcases p with ⟨t, _ | w⟩ <;> simp [putDregs, putDreg, ih]

@[simp] theorem dabBlocks_mem (short : Bool) (mis : Nat) (r : RegNum) (new : Vector Word 4) (l : List (Blk × Nat))
    (s : State) : (dabBlocks short mis r new l s).mem = s.mem := by
  induction l generalizing s with
  | nil => rfl
  | cons p rest ih => simp [dabBlocks, ih, dabBlock]

/-- A quad depends on its four words. -/
theorem quadAt_congr {m m' : Memory} {q : Nat} (h : ∀ k, k < 4 → readWord m' (q + k) = readWord m (q + k)) :
    quadAt m' q = quadAt m q := by
  have h0 := h 0 (by omega)
  rw [Nat.add_zero] at h0
  simp only [quadAt, h0, h 1 (by omega), h 2 (by omega), h 3 (by omega)]

/-! ## One meaning on two states that agree -/

/-- Two runs of one instruction, from `s` to `u` and from `s'` to `u'`, after equally many draws: they agree on the cells
of `R` and store the same words at the same addresses `st`. -/
def Alike (R : List Cell) (st : List Nat) (s s' u u' : State) : Prop :=
  s'.draws = s.draws → Sim R u u' ∧
    ∃ a ws, st = List.range' a ws.length ∧ u.mem = writeWords s.mem a ws ∧ u'.mem = writeWords s'.mem a ws

/-- The meaning `k`, which completes on `s` with `u`, completes on `s'` and does the same there. -/
def RunsAlike (R : List Cell) (st : List Nat) (k : State → Out) (s s' u : State) : Prop :=
  ∃ u', k s' = .next u' ∧ Alike R st s s' u u'

theorem RunsAlike.of_sim {R : List Cell} {k : State → Out} {s s' u u' : State} (hk : k s' = .next u')
    (h : s'.draws = s.draws → Sim R u u') (h1 : u.mem = s.mem) (h2 : u'.mem = s'.mem) : RunsAlike R [] k s s' u :=
  ⟨u', hk, fun hd => ⟨h hd, 0, [], rfl, h1, h2⟩⟩

section Meanings

variable {R : List Cell} {A : List Nat} {s s' u : State} (h : Agree R A s s')

include h

/-- A result and flags that both states compute alike. -/
theorem Agree.aluResult (I : Ialu) (d : RegNum) (r : Word) (f : Flags) (hd : s'.draws = s.draws) :
    Sim R ((aluwrite I d r s).setFlags I f) ((aluwrite I d r s').setFlags I f) :=
  ((h.sim hd).aluwrite I d r).setFlags I f

/-- The same where the state has drawn a value. -/
theorem Agree.drawResult (I : Ialu) (d : RegNum) (r : Word) (f : Flags) (hd : s'.draws = s.draws) :
    Sim R ((aluwrite I d r (draw s).2).setFlags I f) ((aluwrite I d r (draw s').2).setFlags I f) :=
  ((h.sim hd).draw.aluwrite I d r).setFlags I f

theorem execAddSub_local {I : Ialu} {sub : Bool} {d m : RegNum} {b : Opnd} (hm : gprCells I m ⊆ R)
    (hb : opndCells I b ⊆ R) (hx : execAddSub I sub d m b s = .next u) :
    RunsAlike R [] (execAddSub I sub d m b) s s' u := by
  cases hx
  refine .of_sim rfl ?_ (by simp) (by simp)
  simp only [h.aluread hm, h.opndVal hb]
  exact h.aluResult I d _ _

theorem execAddSubCjmp_local {I : Ialu} {sub : Bool} {d m : RegNum} {b : Opnd} (hm : gprCells I m ⊆ R)
    (hb : opndCells I b ⊆ R) (hx : execAddSubCjmp I sub d m b s = .next u) :
    RunsAlike R [] (execAddSubCjmp I sub d m b) s s' u := by
  obtain ⟨he, hx⟩ := guardForm_next hx
  cases hx
  refine .of_sim (by rw [execAddSubCjmp, guardForm_none he]) (fun hd => ?_) (by simp) (by simp)
  simp only [h.aluread hm, h.opndVal hb]
  exact (h.aluResult I d _ _ hd).writeUreg .cjmp _

theorem execAddSubCb_local {I : Ialu} {sub : Bool} {d m : RegNum} {b : Opnd} (hm : gprCells I m ⊆ R)
    (hb : opndCells I b ⊆ R) (hc : bufferCells I m ⊆ R) (hf : Cell.flags I ∈ R)
    (hx : execAddSubCb I sub d m b s = .next u) : RunsAlike R [] (execAddSubCb I sub d m b) s s' u := by
  obtain ⟨he, hx⟩ := guardForm_next hx
  obtain ⟨w, hw, hx⟩ := withValue_next hx
  cases hx
  refine .of_sim
    (by rw [execAddSubCb, guardForm_none he]; simp only [h.opndVal hb, h.circUse hm hc, hw, withValue_ok]; rfl)
    (fun hd => ?_) (by simp) (by simp)
  simp only [h.aluread hm, h.flagsOf hf, draw_same (h.sim hd)]
  exact h.drawResult I d _ _ hd

theorem execAddSubBr_local {I : Ialu} {sub : Bool} {d m : RegNum} {b : Opnd} (hm : gprCells I m ⊆ R)
    (hb : opndCells I b ⊆ R) (hf : Cell.flags I ∈ R) (hx : execAddSubBr I sub d m b s = .next u) :
    RunsAlike R [] (execAddSubBr I sub d m b) s s' u := by
  obtain ⟨he, hx⟩ := guardForm_next hx
  cases hx
  refine .of_sim (by rw [execAddSubBr, guardForm_none he]) (fun hd => ?_) (by simp) (by simp)
  simp only [h.aluread hm, h.opndVal hb, h.flagsOf hf, draw_same (h.sim hd)]
  exact h.drawResult I d _ _ hd

theorem execAddSubBL_local {I : Ialu} {sub : Bool} {d : BLReg} {m : RegNum} {b : Opnd} (hm : gprCells I m ⊆ R)
    (hb : opndCells I b ⊆ R) (hx : execAddSubBL I sub d m b s = .next u) :
    RunsAlike R [] (execAddSubBL I sub d m b) s s' u := by
  cases hx
  refine .of_sim rfl (fun hd => ?_) (by simp [writeBL]) (by simp [writeBL])
  simp only [h.aluread hm, h.opndVal hb]
  have e : ∀ v, Sim R (writeBL I d v s) (writeBL I d v s') := fun v => by
    have := (h.sim hd).writeUreg (blUreg I d) v
    cases I <;> cases d <;> exact this
  exact (e _).setFlags I _

theorem execCarry_local {I : Ialu} {sub : Bool} {d m : RegNum} {b : Opnd} (hm : gprCells I m ⊆ R)
    (hb : opndCells I b ⊆ R) (hf : Cell.flags I ∈ R) (hx : execCarry I sub d m b s = .next u) :
    RunsAlike R [] (execCarry I sub d m b) s s' u := by
  cases hx
  refine .of_sim rfl ?_ (by simp) (by simp)
  simp only [h.aluread hm, h.opndVal hb, h.flagsOf hf]
  exact h.aluResult I d _ _

theorem execHalf_local {I : Ialu} {sub : Bool} {d m : RegNum} {b : Opnd} (hm : gprCells I m ⊆ R)
    (hb : opndCells I b ⊆ R) (hf : Cell.flags I ∈ R) (hx : execHalf I sub d m b s = .next u) :
    RunsAlike R [] (execHalf I sub d m b) s s' u := by
  cases hx
  refine .of_sim rfl (fun hd => ?_) (by simp) (by simp)
  simp only [h.aluread hm, h.opndVal hb, h.flagsOf hf, draw_same (h.sim hd)]
  exact h.drawResult I d _ _ hd

theorem execComp_local {I : Ialu} {unsigned : Bool} {m : RegNum} {b : Opnd} (hm : gprCells I m ⊆ R)
    (hb : opndCells I b ⊆ R) (hf : Cell.flags I ∈ R) (hx : execComp I unsigned m b s = .next u) :
    RunsAlike R [] (execComp I unsigned m b) s s' u := by
  cases hx
  refine .of_sim rfl (fun hd => ?_) (by simp) (by simp)
  simp only [h.aluread hm, h.opndVal hb, h.flagsOf hf]
  exact (h.sim hd).setFlags I _

theorem execTwo_local {I : Ialu} {f : Word → Word → Word} {d m : RegNum} {b : Opnd} (hm : gprCells I m ⊆ R)
    (hb : opndCells I b ⊆ R) (hf : Cell.flags I ∈ R) (hx : execTwo I f d m b s = .next u) :
    RunsAlike R [] (execTwo I f d m b) s s' u := by
  cases hx
  refine .of_sim rfl ?_ (by simp) (by simp)
  simp only [h.aluread hm, h.opndVal hb, h.flagsOf hf]
  exact h.aluResult I d _ _

theorem execOne_local {I : Ialu} {f : Word → Word} {d m : RegNum} (hm : gprCells I m ⊆ R) (hf : Cell.flags I ∈ R)
    (hx : execOne I f d m s = .next u) : RunsAlike R [] (execOne I f d m) s s' u := by
  cases hx
  refine .of_sim rfl ?_ (by simp) (by simp)
  simp only [h.aluread hm, h.flagsOf hf]
  exact h.aluResult I d _ _

theorem execAbs_local {I : Ialu} {d m : RegNum} (hm : gprCells I m ⊆ R) (hf : Cell.flags I ∈ R)
    (hx : execAbs I d m s = .next u) : RunsAlike R [] (execAbs I d m) s s' u := by
  cases hx
  refine .of_sim rfl ?_ (by simp) (by simp)
  simp only [h.aluread hm, h.flagsOf hf]
  exact h.aluResult I d _ _

theorem Agree.uregAddr {I : Ialu} {p : Modify} {m : RegNum} {b : Opnd} (hm : gprCells I m ⊆ R)
    (hb : opndCells I b ⊆ R) : uregAddr I p m b s' = uregAddr I p m b s := by
  cases p <;> simp [Machine.uregAddr, h.aluread hm, h.opndVal hb]

theorem Agree.dregAddr {I : Ialu} {m : RegNum} (hm : gprCells I m ⊆ R) : dregAddr I m s' = dregAddr I m s := by
  simp [Machine.dregAddr, h.aluread hm]

theorem execLdUreg_local {I : Ialu} {z : Size} {p : Modify} {v : Ureg} {m : RegNum} {b : Opnd} (hm : gprCells I m ⊆ R)
    (hb : opndCells I b ⊆ R) (hw : List.range' (uregAddr I p m b s) z.count ⊆ A)
    (hx : execLdUreg I z p v m b s = .next u) : RunsAlike R [] (execLdUreg I z p v m b) s s' u := by
  obtain ⟨he, hr, rfl⟩ := execLdUreg_next hx
  refine .of_sim (by rw [execLdUreg, guardForm_none he, h.uregAddr hm hb, withAccess_ok (h.reachable hr)])
    (fun hd => ?_) (by cases p <;> simp [uregUpdate]) (by cases p <;> simp [uregUpdate])
  rw [h.readWords hw]
  cases p with
  | pre => exact (h.sim hd).writeUregs _
  | post =>
    simp only [uregUpdate, h.aluread hm, h.opndVal hb]
    exact ((h.sim hd).writeUregs _).aluwrite I m _

theorem execStUreg_local {I : Ialu} {z : Size} {p : Modify} {v : Ureg} {m : RegNum} {b : Opnd} (hm : gprCells I m ⊆ R)
    (hb : opndCells I b ⊆ R) (hv : (v.group z).map uregCell ⊆ R) (hx : execStUreg I z p v m b s = .next u) :
    RunsAlike R (List.range' (uregAddr I p m b s) z.count) (execStUreg I z p v m b) s s' u := by
  obtain ⟨he, hs, hr, rfl⟩ := execStUreg_next hx
  refine ⟨_, by rw [execStUreg, guardForm_none he, withSources_ok (h.readable hv hs), h.uregAddr hm hb, withAccess_ok (h.reachable hr)], fun hd => ?_⟩
  obtain ⟨g1, g2⟩ := (h.sim hd).readUregs hv
  refine ⟨?_, uregAddr I p m b s, (readUregs (v.group z) s).1, by rw [readUregs_length, group_length],
    by cases p <;> simp [uregUpdate], by rw [g1]; cases p <;> simp [uregUpdate]⟩
  have g3 := g2.setMem (uregAddr I p m b s) (readUregs (v.group z) s).1
  rw [readUregs_mem, readUregs_mem] at g3
  rw [g1]
  cases p with
  | pre => exact g3
  | post =>
    simp only [uregUpdate, h.aluread hm, h.opndVal hb]
    exact g3.aluwrite I m _

theorem execLdDreg_local {I : Ialu} {a : LdAcc} {r : RegNum} {op : PmOp} {m : RegNum} {b : Opnd}
    (hm : gprCells I m ⊆ R) (hb : opndCells I b ⊆ R) (hc : (if op = .cb then bufferCells I m else []) ⊆ R)
    (hw : List.range' (dregAddr I m s) (ldWidth a) ⊆ A) (hx : execLdDreg I a r op m b s = .next u) :
    RunsAlike R [] (execLdDreg I a r op m b) s s' u := by
  obtain ⟨he, hr, new, hn, rfl⟩ := execLdDreg_next hx
  rw [← h.postUpdate hm hc, ← h.opndVal hb] at hn
  refine .of_sim
    (by rw [execLdDreg, guardForm_none he, hn, withValue_ok, h.dregAddr hm, withAccess_ok (h.reachable hr)])
    (fun hd => ?_) (by simp) (by simp)
  rw [h.readWords hw]
  exact ((h.sim hd).writeDregs _).aluwrite I m _

theorem execStDreg_local {I : Ialu} {a : StAcc} {r : RegNum} {op : PmOp} {m : RegNum} {b : Opnd}
    (hm : gprCells I m ⊆ R) (hb : opndCells I b ⊆ R) (hc : (if op = .cb then bufferCells I m else []) ⊆ R)
    (hv : ((stRegs a r).map fun t => Cell.reg (dregUreg t.1 t.2)) ⊆ R) (hx : execStDreg I a r op m b s = .next u) :
    RunsAlike R (List.range' (dregAddr I m s) (stRegs a r).length) (execStDreg I a r op m b) s s' u := by
  obtain ⟨he, hs, hr, new, hn, rfl⟩ := execStDreg_next hx
  rw [← h.postUpdate hm hc, ← h.opndVal hb] at hn
  have ew : ((stRegs a r).map fun t => Machine.readDreg t.1 t.2 s')
      = (stRegs a r).map fun t => Machine.readDreg t.1 t.2 s :=
    List.map_congr_left fun t ht => h.readDreg (hv (List.mem_map.2 ⟨t, ht, rfl⟩))
  have run : execStDreg I a r op m b s' = .next (aluwrite I m new { s' with
      mem := writeWords s'.mem (dregAddr I m s) ((stRegs a r).map fun t => Machine.readDreg t.1 t.2 s) }) := by
    have hs' : Readable ((stRegs a r).map fun t => dregUreg t.1 t.2) s' := h.readable (by
      rw [List.map_map]
      intro c hc
      obtain ⟨t, ht, rfl⟩ := List.mem_map.1 hc
      have : uregCell (dregUreg t.1 t.2) = Cell.reg (dregUreg t.1 t.2) := by cases t.1 <;> rfl
      exact hv (List.mem_map.2 ⟨t, ht, this.symm⟩)) hs
    rw [execStDreg, guardForm_none he, hn, withValue_ok, withSources_ok hs', h.dregAddr hm]
    simp only [ew, List.length_map]
    rw [withAccess_ok (s := s') (a := dregAddr I m s) (n := (stRegs a r).length) (h.reachable hr)]
  refine ⟨_, run, fun hd => ⟨?_, dregAddr I m s, (stRegs a r).map fun t => Machine.readDreg t.1 t.2 s, by simp, by simp,
    by simp⟩⟩
  exact ((h.sim hd).setMem _ _).aluwrite I m new

theorem execDab_local {I : Ialu} {a : DabKind} {r m : RegNum} {b : Opnd} (hm : gprCells I m ⊆ R)
    (hb : opndCells I b ⊆ R) (hc : bufferCells I m ⊆ R) (hv : (dabBlks a).map Cell.dab ⊆ R)
    (hw : List.range' (dabQuad (dabIsShort a) (aluread I m s)) 4 ⊆ A) (hx : execDab I a r m b s = .next u) :
    RunsAlike R [] (execDab I a r m b) s s' u := by
  obtain ⟨he, hr, new, hn, rfl⟩ := execDab_next hx
  rw [← h.dabUpdate hm hc, ← h.opndVal hb] at hn
  have hq : quadAt s'.mem (dabQuad (dabIsShort a) (Machine.aluread I m s))
      = quadAt s.mem (dabQuad (dabIsShort a) (Machine.aluread I m s)) :=
    quadAt_congr fun k hk => h.words _ (hw (List.mem_range'_1.2 (by omega)))
  have run : execDab I a r m b s' = .next (aluwrite I m new (dabBlocks (dabIsShort a)
      (dabMis (dabIsShort a) (Machine.aluread I m s)) r
      (quadAt s'.mem (dabQuad (dabIsShort a) (Machine.aluread I m s))) (dabPlan a) s')) := by
    rw [execDab, guardForm_none he]
    simp only [hn, withValue_ok, h.aluread hm]
    rw [withAccess_ok (h.reachable hr)]
  refine .of_sim run (fun hd => ?_) (by simp) (by simp)
  rw [hq]
  exact ((h.sim hd).dabBlocks _ _ _ _ fun p hp =>
    hv (List.mem_map.2 ⟨p.1, List.mem_map.2 ⟨p, hp, rfl⟩, rfl⟩)).aluwrite I m _

theorem execLoadImm_local {v : Ureg} {w : Word} (hx : execLoadImm v w s = .next u) :
    RunsAlike R [] (execLoadImm v w) s s' u := by
  obtain ⟨he, hx⟩ := guardForm_next hx
  cases hx
  exact .of_sim (by rw [execLoadImm, guardForm_none he]) (fun hd => (h.sim hd).writeUreg v w) (by simp) (by simp)

theorem execMove_local {z : Size} {d v : Ureg} (hv : (v.group z).map uregCell ⊆ R) (hx : execMove z d v s = .next u) :
    RunsAlike R [] (execMove z d v) s s' u := by
  obtain ⟨he, hs, rfl⟩ := execMove_next hx
  refine .of_sim (by rw [execMove, guardForm_none he, withSources_ok (h.readable hv hs)]) (fun hd => ?_) (by simp) (by simp)
  obtain ⟨g1, g2⟩ := (h.sim hd).readUregs hv
  rw [g1]
  exact g2.writeUregs _

theorem execGscf_local {one : Bool} {q : Cond} (hq : Cell.flags (condIalu q) ∈ R) (hx : execGscf one q s = .next u) :
    RunsAlike R [] (execGscf one q) s s' u := by
  have e : condHolds q s'.j.flags s'.k.flags = condHolds q s.j.flags s.k.flags := by
    have hf := h.cells (.flags (condIalu q)) hq
    cases q <;> (simp only [SameCell, condIalu, State.flagsOf, State.ialu] at hf; simp [condHolds, hf])
  have f := execGscf_frame hx
  cases hx
  refine .of_sim rfl
    (fun hd => (h.sim hd).step f (execGscf_frame (one := one) (q := q) (s := s') rfl) (fun c hc => ?_) ?_)
    (by cases one <;> rfl) (by cases one <;> rfl)
  · rw [List.mem_singleton] at hc
    subst hc
    cases one <;> simp [SameCell, e]
  · cases one <;> exact hd

end Meanings

end Sys2Proof.Machine
end

