-- ==== Sys2Proof/Laws/PerInstr.lean ====
section
/-! SUPPORT. The per-instruction family `FormView`: grouping an instruction by its shared rule loses nothing of it. -/

namespace Sys2Proof.Laws

/-- An instruction is the instruction of its form: every operand survives the grouping. -/
def FormView.Statement : Instr → Prop := fun i => i.form.instr = i

theorem FormView.jAdd (d : RegNum) (m : RegNum) (b : Opnd) : FormView.Statement (.jAdd d m b) := rfl
theorem FormView.jSub (d : RegNum) (m : RegNum) (b : Opnd) : FormView.Statement (.jSub d m b) := rfl
theorem FormView.jAddCjmp (d : RegNum) (m : RegNum) (b : Opnd) : FormView.Statement (.jAddCjmp d m b) := rfl
theorem FormView.jSubCjmp (d : RegNum) (m : RegNum) (b : Opnd) : FormView.Statement (.jSubCjmp d m b) := rfl
theorem FormView.jAddCb (d : RegNum) (m : RegNum) (b : Opnd) : FormView.Statement (.jAddCb d m b) := rfl
theorem FormView.jSubCb (d : RegNum) (m : RegNum) (b : Opnd) : FormView.Statement (.jSubCb d m b) := rfl
theorem FormView.jAddBr (d : RegNum) (m : RegNum) (b : Opnd) : FormView.Statement (.jAddBr d m b) := rfl
theorem FormView.jSubBr (d : RegNum) (m : RegNum) (b : Opnd) : FormView.Statement (.jSubBr d m b) := rfl
theorem FormView.jAddBl (d : BLReg) (m : RegNum) (b : Opnd) : FormView.Statement (.jAddBl d m b) := rfl
theorem FormView.jSubBl (d : BLReg) (m : RegNum) (b : Opnd) : FormView.Statement (.jSubBl d m b) := rfl
theorem FormView.jAddc (d : RegNum) (m : RegNum) (b : Opnd) : FormView.Statement (.jAddc d m b) := rfl
theorem FormView.jSubb (d : RegNum) (m : RegNum) (b : Opnd) : FormView.Statement (.jSubb d m b) := rfl
theorem FormView.jAddHalf (d : RegNum) (m : RegNum) (b : Opnd) : FormView.Statement (.jAddHalf d m b) := rfl
theorem FormView.jSubHalf (d : RegNum) (m : RegNum) (b : Opnd) : FormView.Statement (.jSubHalf d m b) := rfl
theorem FormView.jComp (m : RegNum) (b : Opnd) : FormView.Statement (.jComp m b) := rfl
theorem FormView.jCompU (m : RegNum) (b : Opnd) : FormView.Statement (.jCompU m b) := rfl
theorem FormView.jMax (d : RegNum) (m : RegNum) (b : Opnd) : FormView.Statement (.jMax d m b) := rfl
theorem FormView.jMin (d : RegNum) (m : RegNum) (b : Opnd) : FormView.Statement (.jMin d m b) := rfl
theorem FormView.jAbs (d : RegNum) (m : RegNum) : FormView.Statement (.jAbs d m) := rfl
theorem FormView.jOr (d : RegNum) (m : RegNum) (b : Opnd) : FormView.Statement (.jOr d m b) := rfl
theorem FormView.jAnd (d : RegNum) (m : RegNum) (b : Opnd) : FormView.Statement (.jAnd d m b) := rfl
theorem FormView.jXor (d : RegNum) (m : RegNum) (b : Opnd) : FormView.Statement (.jXor d m b) := rfl
theorem FormView.jAndNot (d : RegNum) (m : RegNum) (b : Opnd) : FormView.Statement (.jAndNot d m b) := rfl
theorem FormView.jNot (d : RegNum) (m : RegNum) : FormView.Statement (.jNot d m) := rfl
theorem FormView.jAshiftr (d : RegNum) (m : RegNum) : FormView.Statement (.jAshiftr d m) := rfl
theorem FormView.jLshiftr (d : RegNum) (m : RegNum) : FormView.Statement (.jLshiftr d m) := rfl
theorem FormView.jRotr (d : RegNum) (m : RegNum) : FormView.Statement (.jRotr d m) := rfl
theorem FormView.jRotl (d : RegNum) (m : RegNum) : FormView.Statement (.jRotl d m) := rfl
theorem FormView.kAdd (d : RegNum) (m : RegNum) (b : Opnd) : FormView.Statement (.kAdd d m b) := rfl
theorem FormView.kSub (d : RegNum) (m : RegNum) (b : Opnd) : FormView.Statement (.kSub d m b) := rfl
theorem FormView.kAddCjmp (d : RegNum) (m : RegNum) (b : Opnd) : FormView.Statement (.kAddCjmp d m b) := rfl
theorem FormView.kSubCjmp (d : RegNum) (m : RegNum) (b : Opnd) : FormView.Statement (.kSubCjmp d m b) := rfl
theorem FormView.kAddCb (d : RegNum) (m : RegNum) (b : Opnd) : FormView.Statement (.kAddCb d m b) := rfl
theorem FormView.kSubCb (d : RegNum) (m : RegNum) (b : Opnd) : FormView.Statement (.kSubCb d m b) := rfl
theorem FormView.kAddBr (d : RegNum) (m : RegNum) (b : Opnd) : FormView.Statement (.kAddBr d m b) := rfl
theorem FormView.kSubBr (d : RegNum) (m : RegNum) (b : Opnd) : FormView.Statement (.kSubBr d m b) := rfl
theorem FormView.kAddBl (d : BLReg) (m : RegNum) (b : Opnd) : FormView.Statement (.kAddBl d m b) := rfl
theorem FormView.kSubBl (d : BLReg) (m : RegNum) (b : Opnd) : FormView.Statement (.kSubBl d m b) := rfl
theorem FormView.kAddc (d : RegNum) (m : RegNum) (b : Opnd) : FormView.Statement (.kAddc d m b) := rfl
theorem FormView.kSubb (d : RegNum) (m : RegNum) (b : Opnd) : FormView.Statement (.kSubb d m b) := rfl
theorem FormView.kAddHalf (d : RegNum) (m : RegNum) (b : Opnd) : FormView.Statement (.kAddHalf d m b) := rfl
theorem FormView.kSubHalf (d : RegNum) (m : RegNum) (b : Opnd) : FormView.Statement (.kSubHalf d m b) := rfl
theorem FormView.kComp (m : RegNum) (b : Opnd) : FormView.Statement (.kComp m b) := rfl
theorem FormView.kCompU (m : RegNum) (b : Opnd) : FormView.Statement (.kCompU m b) := rfl
theorem FormView.kMax (d : RegNum) (m : RegNum) (b : Opnd) : FormView.Statement (.kMax d m b) := rfl
theorem FormView.kMin (d : RegNum) (m : RegNum) (b : Opnd) : FormView.Statement (.kMin d m b) := rfl
theorem FormView.kAbs (d : RegNum) (m : RegNum) : FormView.Statement (.kAbs d m) := rfl
theorem FormView.kOr (d : RegNum) (m : RegNum) (b : Opnd) : FormView.Statement (.kOr d m b) := rfl
theorem FormView.kAnd (d : RegNum) (m : RegNum) (b : Opnd) : FormView.Statement (.kAnd d m b) := rfl
theorem FormView.kXor (d : RegNum) (m : RegNum) (b : Opnd) : FormView.Statement (.kXor d m b) := rfl
theorem FormView.kAndNot (d : RegNum) (m : RegNum) (b : Opnd) : FormView.Statement (.kAndNot d m b) := rfl
theorem FormView.kNot (d : RegNum) (m : RegNum) : FormView.Statement (.kNot d m) := rfl
theorem FormView.kAshiftr (d : RegNum) (m : RegNum) : FormView.Statement (.kAshiftr d m) := rfl
theorem FormView.kLshiftr (d : RegNum) (m : RegNum) : FormView.Statement (.kLshiftr d m) := rfl
theorem FormView.kRotr (d : RegNum) (m : RegNum) : FormView.Statement (.kRotr d m) := rfl
theorem FormView.kRotl (d : RegNum) (m : RegNum) : FormView.Statement (.kRotl d m) := rfl
theorem FormView.jLdUregSPre (u : Ureg) (m : RegNum) (b : Opnd) : FormView.Statement (.jLdUregSPre u m b) := rfl
theorem FormView.jLdUregSPost (u : Ureg) (m : RegNum) (b : Opnd) : FormView.Statement (.jLdUregSPost u m b) := rfl
theorem FormView.jLdUregDPre (u : Ureg) (m : RegNum) (b : Opnd) : FormView.Statement (.jLdUregDPre u m b) := rfl
theorem FormView.jLdUregDPost (u : Ureg) (m : RegNum) (b : Opnd) : FormView.Statement (.jLdUregDPost u m b) := rfl
theorem FormView.jLdUregQPre (u : Ureg) (m : RegNum) (b : Opnd) : FormView.Statement (.jLdUregQPre u m b) := rfl
theorem FormView.jLdUregQPost (u : Ureg) (m : RegNum) (b : Opnd) : FormView.Statement (.jLdUregQPost u m b) := rfl
theorem FormView.jStUregSPre (u : Ureg) (m : RegNum) (b : Opnd) : FormView.Statement (.jStUregSPre u m b) := rfl
theorem FormView.jStUregSPost (u : Ureg) (m : RegNum) (b : Opnd) : FormView.Statement (.jStUregSPost u m b) := rfl
theorem FormView.jStUregDPre (u : Ureg) (m : RegNum) (b : Opnd) : FormView.Statement (.jStUregDPre u m b) := rfl
theorem FormView.jStUregDPost (u : Ureg) (m : RegNum) (b : Opnd) : FormView.Statement (.jStUregDPost u m b) := rfl
theorem FormView.jStUregQPre (u : Ureg) (m : RegNum) (b : Opnd) : FormView.Statement (.jStUregQPre u m b) := rfl
theorem FormView.jStUregQPost (u : Ureg) (m : RegNum) (b : Opnd) : FormView.Statement (.jStUregQPost u m b) := rfl
theorem FormView.kLdUregSPre (u : Ureg) (m : RegNum) (b : Opnd) : FormView.Statement (.kLdUregSPre u m b) := rfl
theorem FormView.kLdUregSPost (u : Ureg) (m : RegNum) (b : Opnd) : FormView.Statement (.kLdUregSPost u m b) := rfl
theorem FormView.kLdUregDPre (u : Ureg) (m : RegNum) (b : Opnd) : FormView.Statement (.kLdUregDPre u m b) := rfl
theorem FormView.kLdUregDPost (u : Ureg) (m : RegNum) (b : Opnd) : FormView.Statement (.kLdUregDPost u m b) := rfl
theorem FormView.kLdUregQPre (u : Ureg) (m : RegNum) (b : Opnd) : FormView.Statement (.kLdUregQPre u m b) := rfl
theorem FormView.kLdUregQPost (u : Ureg) (m : RegNum) (b : Opnd) : FormView.Statement (.kLdUregQPost u m b) := rfl
theorem FormView.kStUregSPre (u : Ureg) (m : RegNum) (b : Opnd) : FormView.Statement (.kStUregSPre u m b) := rfl
theorem FormView.kStUregSPost (u : Ureg) (m : RegNum) (b : Opnd) : FormView.Statement (.kStUregSPost u m b) := rfl
theorem FormView.kStUregDPre (u : Ureg) (m : RegNum) (b : Opnd) : FormView.Statement (.kStUregDPre u m b) := rfl
theorem FormView.kStUregDPost (u : Ureg) (m : RegNum) (b : Opnd) : FormView.Statement (.kStUregDPost u m b) := rfl
theorem FormView.kStUregQPre (u : Ureg) (m : RegNum) (b : Opnd) : FormView.Statement (.kStUregQPre u m b) := rfl
theorem FormView.kStUregQPost (u : Ureg) (m : RegNum) (b : Opnd) : FormView.Statement (.kStUregQPost u m b) := rfl
theorem FormView.jLdDregS (c : Blk) (r : RegNum) (op : PmOp) (m : RegNum) (b : Opnd) :
    FormView.Statement (.jLdDregS c r op m b) := rfl
theorem FormView.jLdDregD (c : Blk) (r : RegNum) (op : PmOp) (m : RegNum) (b : Opnd) :
    FormView.Statement (.jLdDregD c r op m b) := rfl
theorem FormView.jLdDregQ (c : Blk) (r : RegNum) (op : PmOp) (m : RegNum) (b : Opnd) :
    FormView.Statement (.jLdDregQ c r op m b) := rfl
theorem FormView.jLdDregSBcast (c : Both) (r : RegNum) (op : PmOp) (m : RegNum) (b : Opnd) :
    FormView.Statement (.jLdDregSBcast c r op m b) := rfl
theorem FormView.jLdDregDBcast (c : Both) (r : RegNum) (op : PmOp) (m : RegNum) (b : Opnd) :
    FormView.Statement (.jLdDregDBcast c r op m b) := rfl
theorem FormView.jLdDregQBcast (c : Both) (r : RegNum) (op : PmOp) (m : RegNum) (b : Opnd) :
    FormView.Statement (.jLdDregQBcast c r op m b) := rfl
theorem FormView.jLdDregSMerged (c : Both) (r : RegNum) (op : PmOp) (m : RegNum) (b : Opnd) :
    FormView.Statement (.jLdDregSMerged c r op m b) := rfl
theorem FormView.jLdDregDMerged (c : Both) (r : RegNum) (op : PmOp) (m : RegNum) (b : Opnd) :
    FormView.Statement (.jLdDregDMerged c r op m b) := rfl
theorem FormView.jStDregS (c : Blk) (r : RegNum) (op : PmOp) (m : RegNum) (b : Opnd) :
    FormView.Statement (.jStDregS c r op m b) := rfl
theorem FormView.jStDregD (c : Blk) (r : RegNum) (op : PmOp) (m : RegNum) (b : Opnd) :
    FormView.Statement (.jStDregD c r op m b) := rfl
theorem FormView.jStDregQ (c : Blk) (r : RegNum) (op : PmOp) (m : RegNum) (b : Opnd) :
    FormView.Statement (.jStDregQ c r op m b) := rfl
theorem FormView.jStDregSMerged (c : Both) (r : RegNum) (op : PmOp) (m : RegNum) (b : Opnd) :
    FormView.Statement (.jStDregSMerged c r op m b) := rfl
theorem FormView.jStDregDMerged (c : Both) (r : RegNum) (op : PmOp) (m : RegNum) (b : Opnd) :
    FormView.Statement (.jStDregDMerged c r op m b) := rfl
theorem FormView.kLdDregS (c : Blk) (r : RegNum) (op : PmOp) (m : RegNum) (b : Opnd) :
    FormView.Statement (.kLdDregS c r op m b) := rfl
theorem FormView.kLdDregD (c : Blk) (r : RegNum) (op : PmOp) (m : RegNum) (b : Opnd) :
    FormView.Statement (.kLdDregD c r op m b) := rfl
theorem FormView.kLdDregQ (c : Blk) (r : RegNum) (op : PmOp) (m : RegNum) (b : Opnd) :
    FormView.Statement (.kLdDregQ c r op m b) := rfl
theorem FormView.kLdDregSBcast (c : Both) (r : RegNum) (op : PmOp) (m : RegNum) (b : Opnd) :
    FormView.Statement (.kLdDregSBcast c r op m b) := rfl
theorem FormView.kLdDregDBcast (c : Both) (r : RegNum) (op : PmOp) (m : RegNum) (b : Opnd) :
    FormView.Statement (.kLdDregDBcast c r op m b) := rfl
theorem FormView.kLdDregQBcast (c : Both) (r : RegNum) (op : PmOp) (m : RegNum) (b : Opnd) :
    FormView.Statement (.kLdDregQBcast c r op m b) := rfl
theorem FormView.kLdDregSMerged (c : Both) (r : RegNum) (op : PmOp) (m : RegNum) (b : Opnd) :
    FormView.Statement (.kLdDregSMerged c r op m b) := rfl
theorem FormView.kLdDregDMerged (c : Both) (r : RegNum) (op : PmOp) (m : RegNum) (b : Opnd) :
    FormView.Statement (.kLdDregDMerged c r op m b) := rfl
theorem FormView.kStDregS (c : Blk) (r : RegNum) (op : PmOp) (m : RegNum) (b : Opnd) :
    FormView.Statement (.kStDregS c r op m b) := rfl
theorem FormView.kStDregD (c : Blk) (r : RegNum) (op : PmOp) (m : RegNum) (b : Opnd) :
    FormView.Statement (.kStDregD c r op m b) := rfl
theorem FormView.kStDregQ (c : Blk) (r : RegNum) (op : PmOp) (m : RegNum) (b : Opnd) :
    FormView.Statement (.kStDregQ c r op m b) := rfl
theorem FormView.kStDregSMerged (c : Both) (r : RegNum) (op : PmOp) (m : RegNum) (b : Opnd) :
    FormView.Statement (.kStDregSMerged c r op m b) := rfl
theorem FormView.kStDregDMerged (c : Both) (r : RegNum) (op : PmOp) (m : RegNum) (b : Opnd) :
    FormView.Statement (.kStDregDMerged c r op m b) := rfl
theorem FormView.jDab (c : Blk) (r : RegNum) (m : RegNum) (b : Opnd) : FormView.Statement (.jDab c r m b) := rfl
theorem FormView.jSdab (c : Blk) (r : RegNum) (m : RegNum) (b : Opnd) : FormView.Statement (.jSdab c r m b) := rfl
theorem FormView.jDabBcast (c : Both) (r : RegNum) (m : RegNum) (b : Opnd) :
    FormView.Statement (.jDabBcast c r m b) := rfl
theorem FormView.jSdabBcast (c : Both) (r : RegNum) (m : RegNum) (b : Opnd) :
    FormView.Statement (.jSdabBcast c r m b) := rfl
theorem FormView.jXdab (c : Both) (r : RegNum) (m : RegNum) (b : Opnd) : FormView.Statement (.jXdab c r m b) := rfl
theorem FormView.jXsdab (c : Both) (r : RegNum) (m : RegNum) (b : Opnd) : FormView.Statement (.jXsdab c r m b) := rfl
theorem FormView.jYdab (c : Both) (r : RegNum) (m : RegNum) (b : Opnd) : FormView.Statement (.jYdab c r m b) := rfl
theorem FormView.jYsdab (c : Both) (r : RegNum) (m : RegNum) (b : Opnd) : FormView.Statement (.jYsdab c r m b) := rfl
theorem FormView.kDab (c : Blk) (r : RegNum) (m : RegNum) (b : Opnd) : FormView.Statement (.kDab c r m b) := rfl
theorem FormView.kSdab (c : Blk) (r : RegNum) (m : RegNum) (b : Opnd) : FormView.Statement (.kSdab c r m b) := rfl
theorem FormView.kDabBcast (c : Both) (r : RegNum) (m : RegNum) (b : Opnd) :
    FormView.Statement (.kDabBcast c r m b) := rfl
theorem FormView.kSdabBcast (c : Both) (r : RegNum) (m : RegNum) (b : Opnd) :
    FormView.Statement (.kSdabBcast c r m b) := rfl
theorem FormView.kXdab (c : Both) (r : RegNum) (m : RegNum) (b : Opnd) : FormView.Statement (.kXdab c r m b) := rfl
theorem FormView.kXsdab (c : Both) (r : RegNum) (m : RegNum) (b : Opnd) : FormView.Statement (.kXsdab c r m b) := rfl
theorem FormView.kYdab (c : Both) (r : RegNum) (m : RegNum) (b : Opnd) : FormView.Statement (.kYdab c r m b) := rfl
theorem FormView.kYsdab (c : Both) (r : RegNum) (m : RegNum) (b : Opnd) : FormView.Statement (.kYsdab c r m b) := rfl
theorem FormView.ldImm (u : Ureg) (v : Word) : FormView.Statement (.ldImm u v) := rfl
theorem FormView.moveS (d : Ureg) (u : Ureg) : FormView.Statement (.moveS d u) := rfl
theorem FormView.moveD (d : Ureg) (u : Ureg) : FormView.Statement (.moveD d u) := rfl
theorem FormView.moveQ (d : Ureg) (u : Ureg) : FormView.Statement (.moveQ d u) := rfl
theorem FormView.ldGscf0 (q : Cond) : FormView.Statement (.ldGscf0 q) := rfl
theorem FormView.ldGscf1 (q : Cond) : FormView.Statement (.ldGscf1 q) := rfl

/-- The instruction of a form has that form. -/
@[simp] theorem instr_form (f : Form) : f.instr.form = f := by
  rcases f with ⟨I, o, _, _, _⟩ | ⟨I, o, _, _⟩ | ⟨I, o, _, _, _⟩ | ⟨I, o, _, _⟩ | ⟨I, z, p, _, _, _⟩ | ⟨I, z, p, _, _, _⟩ |
    ⟨I, a, _, _, _, _⟩ | ⟨I, a, _, _, _, _⟩ | ⟨I, a, _, _, _⟩ | _ | ⟨z, _, _⟩ | ⟨o, _⟩
  · cases I <;> cases o <;> rfl
  · cases I <;> cases o <;> rfl
  · cases I <;> cases o <;> rfl
  · cases I <;> cases o <;> rfl
  · cases I <;> cases z <;> cases p <;> rfl
  · cases I <;> cases z <;> cases p <;> rfl
  · cases I <;> rcases a with ⟨z, _⟩ | ⟨z, _⟩ | ⟨d, _⟩ <;> first | (cases z <;> rfl) | (cases d <;> rfl)
  · cases I <;> rcases a with ⟨z, _⟩ | ⟨d, _⟩ <;> first | (cases z <;> rfl) | (cases d <;> rfl)
  · cases I <;> rcases a with ⟨z, _⟩ | ⟨z, _⟩ | ⟨y, z, _⟩ <;> first | (cases z <;> rfl) | (cases y <;> cases z <;> rfl)
  · rfl
  · cases z <;> rfl
  · cases o <;> rfl

end Sys2Proof.Laws
end

