-- ==== Sys2Proof/Tests/Slice0.lean ====
section
/-! SUPPORT. The model's own tests. Expected results come from the spec's vectors (95_test_vectors.md, V1 to V50) or from
its encoding layout; the last part shows that the hypotheses of the statements can be met. -/

namespace Sys2Proof.Tests

set_option Elab.async false

open Sys2Proof.Machine

/-! ## Helpers -/

/-- The state with general registers of one IALU set. -/
def withRegs (I : Ialu) (l : List (RegNum × Word)) (s : State) : State :=
  l.foldl (fun s p => aluwrite I p.1 p.2 s) s

/-- The state with data registers of one block set. -/
def withDregs (c : Blk) (l : List (RegNum × Word)) (s : State) : State :=
  l.foldl (fun s p => writeDreg c p.1 p.2 s) s

/-- The state with words in memory from one address on. -/
def withWords (a : Nat) (ws : List Word) (s : State) : State := { s with mem := writeWords s.mem a ws }

/-- The state with a circular buffer that was set up long ago. -/
def withBuffer (I : Ialu) (k : Fin 4) (base len : Word) (s : State) : State :=
  s.setIalu I { s.ialu I with base := (s.ialu I).base.set k.val base, len := (s.ialu I).len.set k.val len }

/-- A view of the next state, if there is one. -/
def seen {α : Type} (o : Out) (f : State → α) : Option α :=
  match o with
  | .next t => some (f t)
  | .fault _ => none
  | .refused _ => none

/-- Why an outcome is no next state. -/
def stopped (o : Out) : Option (Fault ⊕ Refusal) :=
  match o with
  | .next _ => none
  | .fault f => some (.inl f)
  | .refused r => some (.inr r)

/-- Z and N. -/
def zn (I : Ialu) (s : State) : Bool × Bool := ((s.flagsOf I).z, (s.flagsOf I).n)

/-- Z, N, V and C. -/
def znvc (I : Ialu) (s : State) : Bool × Bool × Bool × Bool :=
  ((s.flagsOf I).z, (s.flagsOf I).n, (s.flagsOf I).v, (s.flagsOf I).c)

/-- Result register 2 and all flags after an instruction on registers 1 and 0. -/
def alu (I : Ialu) (i : Instr) (a b : Word) (c : Bool := false) : Option (Word × Bool × Bool × Bool × Bool) :=
  seen (exec i ((withRegs I [(1, a), (0, b)] State.reset).setFlags I ⟨false, false, false, c⟩)) fun t =>
    (aluread I 2 t, znvc I t)

/-- Result register 2, Z and N after an instruction on registers 1 and 0. -/
def alu2 (I : Ialu) (i : Instr) (a b : Word) : Option (Word × Bool × Bool) :=
  seen (exec i (withRegs I [(1, a), (0, b)] State.reset)) fun t => (aluread I 2 t, zn I t)

/-- The words decode to the instructions they are listed with; the second slot of each holds 0x89ABCDEF. -/
def reads (l : List (Word × Instr)) : Bool :=
  l.all fun p => decodeWord p.1 0x89ABCDEF == some (.ialu p.2)

/-- A line of unmarked instructions without a condition. -/
def plain (l : List Instr) : Line := ⟨none, l.map fun i => ⟨false, .ialu i⟩⟩

/-- The state whose program is one line. -/
def withLine (l : Line) (s : State) : State := { s with prog := [l.assemble] }

/-! ## Forms that are refused (60_exceptions.md R262) -/

theorem test_cjmp_31 : WellFormed (.jAddCjmp 31 1 (.reg 0)) = false := by decide
theorem test_cjmp_31_sub : WellFormed (.kSubCjmp 31 1 (.reg 0)) = false := by decide
theorem test_cb_index : WellFormed (.jAddCb 5 7 (.imm 4)) = false := by decide
theorem test_br_index : WellFormed (.kSubBr 5 4 (.imm 4)) = false := by decide
theorem test_load_group : WellFormed (.jLdUregDPre (.j 5) 2 (.reg 0)) = false := by decide
theorem test_load_no_group : WellFormed (.kLdUregQPre .cjmp 2 (.reg 0)) = false := by decide
theorem test_load_post_31 : WellFormed (.jLdUregSPost (.xr 0) 31 (.imm 1)) = false := by decide
theorem test_load_own_index : WellFormed (.jLdUregQPost (.j 0) 2 (.imm 1)) = false := by decide
theorem test_store_group : WellFormed (.jStUregQPre (.xr 6) 2 (.reg 0)) = false := by decide
theorem test_store_post_31 : WellFormed (.kStUregSPost (.xr 6) 31 (.imm 1)) = false := by decide
theorem test_dreg_group : WellFormed (.jLdDregD .x 1 .lin 1 (.reg 2)) = false := by decide
theorem test_dreg_index : WellFormed (.jLdDregS .x 0 .cb 5 (.imm 1)) = false := by decide
theorem test_dreg_31 : WellFormed (.kStDregS .y 0 .lin 31 (.imm 1)) = false := by decide
theorem test_dreg_own_modifier : WellFormed (.kStDregS .y 0 .cb 3 (.reg 3)) = false := by decide
theorem test_dab_group : WellFormed (.jDab .x 2 0 (.imm 4)) = false := by decide
theorem test_dab_index : WellFormed (.jDab .x 0 4 (.imm 4)) = false := by decide
theorem test_dab_own_modifier : WellFormed (.kXsdab .xy 0 3 (.reg 3)) = false := by decide
theorem test_move_destination : WellFormed (.moveQ (.j 2) (.j 4)) = false := by decide
theorem test_move_source : WellFormed (.moveD (.j 2) (.jb 0)) = false := by decide
/-- A data register that does not exist, and one that always does. -/
theorem test_dreg_missing : (Config.ndreg ≤ 20 → WellFormed (.jLdDregS .x 20 .lin 1 (.reg 2)) = false) ∧
    WellFormed (.jLdDregS .x 7 .lin 1 (.reg 2)) = true := by
  refine ⟨fun h => ?_, by decide⟩
  have h2 : dregsInSet .single 20 = false := by
    rw [Bool.eq_false_iff]
    intro h3
    exact absurd ((dregsInSet_iff .single 20).1 h3) (not_le.2 (Nat.lt_succ_of_le h))
  rw [WellFormed, Instr.form, Form.error, LdAcc.size, dregChecks, h2]
  rfl
theorem test_ureg_missing (h : Config.uregOther 5 = false) : WellFormed (.moveS (.other 5) .cjmp) = false ∧
    WellFormed (.ldImm (.other 5) 1) = false ∧ WellFormed (.jStUregSPre (.other 5) 1 (.reg 2)) = false := by
  refine ⟨?_, ?_, ?_⟩ <;>
    simp [WellFormed, Instr.form, Form.error, firstReason, Ureg.groupInSet, Ureg.group, Ureg.inSet, Ureg.groupOk, h]
theorem test_line_slots : (plain [.jAdd 1 0 (.imm 0x900), .kAdd 1 0 (.reg 0), .moveS .xstat .ystat,
    .moveS .cjmp .lc0]).layoutOk = false := by decide
/-- A short immediate takes no second slot wherever it stands (30_encoding.md R83). -/
theorem test_line_short : (plain [.kAdd 1 0 (.imm 127), .jAdd 1 0 (.imm 5), .ldImm .cjmp 16383, .moveS .xstat .ystat]).layoutOk
    = true := by decide
theorem test_line_extension : (plain [.kAdd 1 0 (.imm 1), .jAdd 1 0 (.imm 0x12345)]).layoutOk = false := by decide
theorem test_line_conditional : (Line.mk (some .sf0) [⟨true, .nop⟩, ⟨true, .nop⟩, ⟨true, .nop⟩, ⟨true, .nop⟩]).layoutOk
    = false := by decide
theorem test_line_marks : (Line.mk none [⟨true, .nop⟩]).marksOk = false := by decide

/-! ## Decoding: a word of every instruction, written from the layout of Decode.lean -/

theorem test_decode_jArithmetic : reads [
    (0xC0061102, .jAdd 3 1 (.reg 2)),
    (0xC0542010, .jSub 10 2 (.imm 16)),
    (0xC0A23120, .jAddCjmp 17 3 (.imm 0x89ABCDEF)),
    (0xC0F0010B, .jSubCjmp 24 0 (.reg 11)),
    (0xC1001031, .jAddCb 0 1 (.imm 49)),
    (0xC14E2120, .jSubCb 7 2 (.imm 0x89ABCDEF)),
    (0xC19C3114, .jAddBr 14 3 (.reg 20)),
    (0xC1EA0052, .jSubBr 21 0 (.imm 82)),
    (0xC2021120, .jAddBl (.base 1) 1 (.imm 0x89ABCDEF)),
    (0xC248211D, .jSubBl (.len 0) 2 (.reg 29)),
    (0xC2963073, .jAddc 11 3 (.imm 115)),
    (0xC2E40120, .jSubb 18 0 (.imm 0x89ABCDEF)),
    (0xC3321106, .jAddHalf 25 1 (.reg 6)),
    (0xC3422094, .jSubHalf 1 2 (.imm 148)),
    (0xC3803120, .jComp 3 (.imm 0x89ABCDEF)),
    (0xC3C0010F, .jCompU 0 (.reg 15)),
    (0xC42C10B5, .jMax 22 1 (.imm 181)),
    (0xC47A2120, .jMin 29 2 (.imm 0x89ABCDEF)),
    (0xC48A3000, .jAbs 5 3),
    (0xC4D800D6, .jOr 12 0 (.imm 214)),
    (0xC5261120, .jAnd 19 1 (.imm 0x89ABCDEF)),
    (0xC5742101, .jXor 26 2 (.reg 1)),
    (0xC58430F7, .jAndNot 2 3 (.imm 247)),
    (0xC5D20000, .jNot 9 0),
    (0xC6201000, .jAshiftr 16 1),
    (0xC66E2000, .jLshiftr 23 2),
    (0xC6BC3000, .jRotr 30 3),
    (0xC6CC0000, .jRotl 6 0)] = true := by decide +kernel

theorem test_decode_kArithmetic : reads [
    (0xC81A1039, .kAdd 13 1 (.imm 57)),
    (0xC8682120, .kSub 20 2 (.imm 0x89ABCDEF)),
    (0xC8B6311C, .kAddCjmp 27 3 (.reg 28)),
    (0xC8C6005A, .kSubCjmp 3 0 (.imm 90)),
    (0xC9141120, .kAddCb 10 1 (.imm 0x89ABCDEF)),
    (0xC9622105, .kSubCb 17 2 (.reg 5)),
    (0xC9B0307B, .kAddBr 24 3 (.imm 123)),
    (0xC9C00120, .kSubBr 0 0 (.imm 0x89ABCDEF)),
    (0xCA0A110E, .kAddBl (.len 1) 1 (.reg 14)),
    (0xCA40209C, .kSubBl (.base 0) 2 (.imm 156)),
    (0xCAAA3120, .kAddc 21 3 (.imm 0x89ABCDEF)),
    (0xCAF80117, .kSubb 28 0 (.reg 23)),
    (0xCB0810BD, .kAddHalf 4 1 (.imm 189)),
    (0xCB562120, .kSubHalf 11 2 (.imm 0x89ABCDEF)),
    (0xCB803100, .kComp 3 (.reg 0)),
    (0xCBC000DE, .kCompU 0 (.imm 222)),
    (0xCC021120, .kMax 1 1 (.imm 0x89ABCDEF)),
    (0xCC502109, .kMin 8 2 (.reg 9)),
    (0xCC9E3000, .kAbs 15 3),
    (0xCCEC0120, .kOr 22 0 (.imm 0x89ABCDEF)),
    (0xCD3A1112, .kAnd 29 1 (.reg 18)),
    (0xCD4A2020, .kXor 5 2 (.imm 32)),
    (0xCD983120, .kAndNot 12 3 (.imm 0x89ABCDEF)),
    (0xCDE60000, .kNot 19 0),
    (0xCE341000, .kAshiftr 26 1),
    (0xCE442000, .kLshiftr 2 2),
    (0xCE923000, .kRotr 9 3),
    (0xCEE00000, .kRotl 16 0)] = true := by decide +kernel

theorem test_decode_uregAccesses : reads [
    (0x82052120, .jLdUregSPre (.jb 1) 9 (.imm 0x89ABCDEF)),
    (0x924D210D, .jLdUregSPost .lc0 9 (.reg 13)),
    (0x85312083, .jLdUregDPre (.xr 12) 9 (.imm 131)),
    (0x95C12120, .jLdUregDPost (.yr 16) 9 (.imm 0x89ABCDEF)),
    (0x88512116, .jLdUregQPre (.j 20) 9 (.reg 22)),
    (0x98E120A4, .jLdUregQPost (.k 24) 9 (.imm 164)),
    (0x822D2320, .jStUregSPre (.kb 3) 9 (.imm 0x89ABCDEF)),
    (0x9231231F, .jStUregSPost (.kl 0) 9 (.reg 31)),
    (0x842122C5, .jStUregDPre (.j 8) 9 (.imm 197)),
    (0x94B12320, .jStUregDPost (.k 12) 9 (.imm 0x89ABCDEF)),
    (0x89412308, .jStUregQPre (.xr 16) 9 (.reg 8)),
    (0x99D122E6, .jStUregQPost (.yr 20) 9 (.imm 230)),
    (0xA2492120, .kLdUregSPre .ystat 9 (.imm 0x89ABCDEF)),
    (0xB2412111, .kLdUregSPost .cjmp 9 (.reg 17)),
    (0xA5112007, .kLdUregDPre (.xr 4) 9 (.imm 7)),
    (0xB5A12120, .kLdUregDPost (.yr 8) 9 (.imm 0x89ABCDEF)),
    (0xA831211A, .kLdUregQPre (.j 12) 9 (.reg 26)),
    (0xB8C12028, .kLdUregQPost (.k 16) 9 (.imm 40)),
    (0xA2192320, .kStUregSPre (.jl 2) 9 (.imm 0x89ABCDEF)),
    (0xB2452303, .kStUregSPost .xstat 9 (.reg 3)),
    (0xA4712249, .kStUregDPre (.j 28) 9 (.imm 73)),
    (0xB4912320, .kStUregDPost (.k 4) 9 (.imm 0x89ABCDEF)),
    (0xA921230C, .kStUregQPre (.xr 8) 9 (.reg 12)),
    (0xB9B1226A, .kStUregQPost (.yr 12) 9 (.imm 106))] = true := by decide +kernel

theorem test_decode_jDregAccesses : reads [
    (0x0C402920, .jLdDregS .x 16 .br 1 (.imm 0x89ABCDEF)),
    (0x10D04115, .jLdDregD .y 20 .lin 2 (.reg 21)),
    (0x0D60648B, .jLdDregQ .x 24 .cb 3 (.imm 139)),
    (0x08700920, .jLdDregSBcast .bare 28 .br 0 (.imm 0x89ABCDEF)),
    (0x0090211E, .jLdDregDBcast .xy 4 .lin 1 (.reg 30)),
    (0x052044AC, .jLdDregQBcast .yx 8 .cb 2 (.imm 172)),
    (0x09B06920, .jLdDregSMerged .bare 12 .br 3 (.imm 0x89ABCDEF)),
    (0x02400107, .jLdDregDMerged .xy 16 .lin 0 (.reg 7)),
    (0x4C5024CD, .jStDregS .x 20 .cb 1 (.imm 205)),
    (0x50E04920, .jStDregD .y 24 .br 2 (.imm 0x89ABCDEF)),
    (0x4D706110, .jStDregQ .x 28 .lin 3 (.reg 16)),
    (0x459004EE, .jStDregSMerged .yx 4 .cb 0 (.imm 238)),
    (0x4A202920, .jStDregDMerged .bare 8 .br 1 (.imm 0x89ABCDEF))] = true := by decide +kernel

theorem test_decode_kDregAccesses : reads [
    (0x30304119, .kLdDregS .y 12 .lin 2 (.reg 25)),
    (0x2CC0640F, .kLdDregD .x 16 .cb 3 (.imm 15)),
    (0x31500920, .kLdDregQ .y 20 .br 0 (.imm 0x89ABCDEF)),
    (0x20602102, .kLdDregSBcast .xy 24 .lin 1 (.reg 2)),
    (0x24F04430, .kLdDregDBcast .yx 28 .cb 2 (.imm 48)),
    (0x29106920, .kLdDregQBcast .bare 4 .br 3 (.imm 0x89ABCDEF)),
    (0x21A0010B, .kLdDregSMerged .xy 8 .lin 0 (.reg 11)),
    (0x26302451, .kLdDregDMerged .yx 12 .cb 1 (.imm 81)),
    (0x70404920, .kStDregS .y 16 .br 2 (.imm 0x89ABCDEF)),
    (0x6CD06114, .kStDregD .x 20 .lin 3 (.reg 20)),
    (0x71600472, .kStDregQ .y 24 .cb 0 (.imm 114)),
    (0x69F02920, .kStDregSMerged .bare 28 .br 1 (.imm 0x89ABCDEF)),
    (0x6210411D, .kStDregDMerged .xy 4 .lin 2 (.reg 29))] = true := by decide +kernel

theorem test_decode_dabAccesses : reads [
    (0x0D206C93, .jDab .x 8 3 (.imm 147)),
    (0x12B00D20, .jSdab .y 12 0 (.imm 0x89ABCDEF)),
    (0x01402D06, .jDabBcast .xy 16 1 (.reg 6)),
    (0x06D04CB4, .jSdabBcast .yx 20 2 (.imm 180)),
    (0x08607120, .jXdab .bare 24 3 (.imm 0x89ABCDEF)),
    (0x0070150F, .jXsdab .xy 28 0 (.reg 15)),
    (0x041038D5, .jYdab .yx 4 1 (.imm 213)),
    (0x08205D20, .jYsdab .bare 8 2 (.imm 0x89ABCDEF)),
    (0x2D306D18, .kDab .x 12 3 (.reg 24)),
    (0x32C00CF6, .kSdab .y 16 0 (.imm 246)),
    (0x29502D20, .kDabBcast .bare 20 1 (.imm 0x89ABCDEF)),
    (0x22E04D01, .kSdabBcast .xy 24 2 (.reg 1)),
    (0x24707017, .kXdab .yx 28 3 (.imm 23)),
    (0x28101520, .kXsdab .bare 4 0 (.imm 0x89ABCDEF)),
    (0x2020390A, .kYdab .xy 8 1 (.reg 10)),
    (0x24305C38, .kYsdab .yx 12 2 (.imm 56))] = true := by decide +kernel

theorem test_decode_transfers : reads [
    (0xD9280000, .ldImm .ystat 0x89ABCDEF),
    (0xDFF0C000, .ldImm (.other 107) 0xFFFFC000),
    (0xD9007FFF, .ldImm .cjmp 0x7FFF),
    (0xE2664000, .moveS (.other 5) .cjmp),
    (0xE0FC7C00, .moveS (.k 31) (.j 31)),
    (0xE4109800, .moveD (.j 4) (.k 6)),
    (0xE9811000, .moveQ (.yr 0) (.xr 4)),
    (0xF0800000, .ldGscf0 .njlt),
    (0xF3600000, .ldGscf1 .nkle)] = true := by decide +kernel

/-- Words outside the layout: broadcast store (V44), operand code, operation 28, block code 5, a fixed bit set, loaded
value 32768, and two words whose value stands in the next word although it is short. -/
theorem test_decode_refuses : ([0x40000000, 0xC0000121, 0xC7000000, 0x14000000, 0x00000200, 0xF0000001, 0xD9008000,
    0xC0020120, 0xD9080000] : List Word).all (fun w => (decodeWord w 0).isNone) = true := by decide

/-- Negative immediates in the word itself: the ends of -128..-1 and -16384..-1. -/
theorem test_decode_negative : reads [(0xC0020180, .jAdd 1 0 (.imm 0xFFFFFF80)), (0xC00201FF, .jAdd 1 0 (.imm 0xFFFFFFFF)),
    (0xD900C000, .ldImm .cjmp 0xFFFFC000), (0xD900FFFF, .ldImm .cjmp 0xFFFFFFFF)] = true := by decide

/-- The host's numbering: the second word is the extension. -/
theorem test_decodeTableWord : decodeTableWord 64 0x00008181C0020120 = some (.jAdd 1 0 (.imm 0x8181)) := by decide

theorem test_decode_no_extension : decode [0xC0020120] = .error .noExtension := by rfl

/-! ## Arithmetic, logic and functions, in both IALUs -/

/-- V20: a signed overflow, a carry out. -/
theorem test_add (I : Ialu) : alu I (pickIalu I (.jAdd 2 1 (.reg 0)) (.kAdd 2 1 (.reg 0))) 0x70000000 0x70000000
    = some (0xE0000000, false, true, true, false) ∧
    alu I (pickIalu I (.jAdd 2 1 (.reg 0)) (.kAdd 2 1 (.reg 0))) 0xFFFFFFFF 1 = some (0, true, false, false, true) := by
  cases I <;> decide

/-- V21: no borrow sets C. -/
theorem test_sub (I : Ialu) : alu I (pickIalu I (.jSub 2 1 (.reg 0)) (.kSub 2 1 (.reg 0))) 0x80000000 1
    = some (0x7FFFFFFF, false, false, true, true) ∧
    alu I (pickIalu I (.jSub 2 1 (.reg 0)) (.kSub 2 1 (.reg 0))) 5 7 = some (0xFFFFFFFE, false, true, false, false) := by
  cases I <;> decide

/-- V29: the difference goes to CJMP too. -/
theorem test_cjmp (I : Ialu) :
    (seen (exec (pickIalu I (.jSubCjmp 2 1 (.reg 0)) (.kSubCjmp 2 1 (.reg 0)))
      (withRegs I [(1, 0x2000), (0, 0x10)] State.reset)) fun t => (aluread I 2 t, t.cjmp)) = some (0x1FF0, 0x1FF0) ∧
    (seen (exec (pickIalu I (.jAddCjmp 2 1 (.reg 0)) (.kAddCjmp 2 1 (.reg 0)))
      (withRegs I [(1, 0x2000), (0, 0x10)] State.reset)) fun t => (aluread I 2 t, t.cjmp)) = some (0x2010, 0x2010) := by
  cases I <;> decide

/-- The buffer of V32: base 0x100000, length 11, index 0 at 0x100008. -/
def ring (I : Ialu) : State := withBuffer I 0 0x100000 11 (withRegs I [(0, 0x100008), (6, 4), (7, 9)] State.reset)

/-- V32. -/
theorem test_cb (I : Ialu) :
    (seen (exec (pickIalu I (.jAddCb 5 0 (.reg 6)) (.kAddCb 5 0 (.reg 6))) (ring I)) fun t =>
      (aluread I 5 t, aluread I 0 t)) = some (0x100001, 0x100008) ∧
    (seen (exec (pickIalu I (.jSubCb 5 0 (.reg 7)) (.kSubCb 5 0 (.reg 7))) (ring I)) fun t =>
      aluread I 5 t) = some 0x10000A := by
  cases I <;> decide

/-- V33. -/
theorem test_br (I : Ialu) :
    alu2 I (pickIalu I (.jAddBr 2 1 (.reg 0)) (.kAddBr 2 1 (.reg 0))) 0x10000004 4 = some (0x10000002, false, false) ∧
    alu2 I (pickIalu I (.jSubBr 2 1 (.reg 0)) (.kSubBr 2 1 (.reg 0))) 0x10000004 4 = some (0x10000000, false, false) := by
  cases I <;> decide +kernel

/-- V30. -/
theorem test_bl (I : Ialu) :
    (seen (exec (pickIalu I (.jAddBl (.base 1) 2 (.imm 0x10)) (.kAddBl (.base 1) 2 (.imm 0x10)))
      (withRegs I [(2, 0x100000)] State.reset)) fun t => (readPlain (blUreg I (.base 1)) t, znvc I t))
      = some (0x100010, false, false, false, false) ∧
    (seen (exec (pickIalu I (.jSubBl (.len 2) 5 (.reg 5)) (.kSubBl (.len 2) 5 (.reg 5)))
      (withRegs I [(5, 77)] State.reset)) fun t => (readPlain (blUreg I (.len 2)) t, znvc I t))
      = some (0, true, false, false, true) := by
  cases I <;> decide

/-- V22. -/
theorem test_addc (I : Ialu) :
    alu I (pickIalu I (.jAddc 2 1 (.reg 0)) (.kAddc 2 1 (.reg 0))) 0xFFFFFFFF 0xFFFFFFFF true
      = some (0xFFFFFFFF, false, true, false, true) ∧
    alu I (pickIalu I (.jAddc 2 1 (.reg 0)) (.kAddc 2 1 (.reg 0))) 1 2 false = some (3, false, false, false, false) := by
  cases I <;> decide

/-- V23. -/
theorem test_subb (I : Ialu) :
    alu I (pickIalu I (.jSubb 2 1 (.reg 0)) (.kSubb 2 1 (.reg 0))) 0x80000000 0 false
      = some (0x7FFFFFFF, false, false, true, true) ∧
    alu I (pickIalu I (.jSubb 2 1 (.reg 0)) (.kSubb 2 1 (.reg 0))) 5 3 true = some (2, false, false, false, true) := by
  cases I <;> decide

/-- V24, V3: the source's data point, and -6/2. -/
theorem test_half (I : Ialu) :
    alu2 I (pickIalu I (.jAddHalf 2 1 (.reg 0)) (.kAddHalf 2 1 (.reg 0))) 0xFFFFFFFE 0
      = some (0xFFFFFFFF, false, true) ∧
    alu2 I (pickIalu I (.jSubHalf 2 1 (.reg 0)) (.kSubHalf 2 1 (.reg 0))) 4 10 = some (0xFFFFFFFD, false, true) := by
  cases I <;> decide

/-- V25: the order, not bit 31 of the difference; no register is written. -/
theorem test_comp (I : Ialu) :
    alu2 I (pickIalu I (.jComp 1 (.reg 0)) (.kComp 1 (.reg 0))) 0x80000000 1 = some (0, false, true) ∧
    alu2 I (pickIalu I (.jCompU 1 (.reg 0)) (.kCompU 1 (.reg 0))) 0xFFFFFFFF 1 = some (0, false, false) := by
  cases I <;> decide

/-- V26. -/
theorem test_max_min (I : Ialu) :
    alu2 I (pickIalu I (.jMax 2 1 (.reg 0)) (.kMax 2 1 (.reg 0))) 0xFFFFFFFB 3 = some (3, false, false) ∧
    alu2 I (pickIalu I (.jMin 2 1 (.reg 0)) (.kMin 2 1 (.reg 0))) 0xFFFFFFFB 3 = some (0xFFFFFFFB, false, true) := by
  cases I <;> decide

/-- V26: N is the input's sign. -/
theorem test_abs (I : Ialu) :
    alu2 I (pickIalu I (.jAbs 2 1) (.kAbs 2 1)) 0xFFFFFFF9 0 = some (7, false, true) := by
  cases I <;> decide

/-- V27. -/
theorem test_logic (I : Ialu) :
    alu2 I (pickIalu I (.jOr 2 1 (.reg 0)) (.kOr 2 1 (.reg 0))) 0xF0F0 0x0F0F = some (0xFFFF, false, false) ∧
    alu2 I (pickIalu I (.jAnd 2 1 (.reg 0)) (.kAnd 2 1 (.reg 0))) 0xF0F0 0x0FF0 = some (0xF0, false, false) ∧
    alu2 I (pickIalu I (.jXor 2 1 (.reg 0)) (.kXor 2 1 (.reg 0))) 0xFFFF0000 0x0F0F0F0F
      = some (0xF0F00F0F, false, true) ∧
    alu2 I (pickIalu I (.jAndNot 2 1 (.reg 0)) (.kAndNot 2 1 (.reg 0))) 0xFFFF 0x0F0F = some (0xF0F0, false, false) ∧
    alu2 I (pickIalu I (.jNot 2 1) (.kNot 2 1)) 0xFFFFFFFF 0 = some (0, true, false) := by
  cases I <;> decide

/-- V28. -/
theorem test_shifts (I : Ialu) :
    alu2 I (pickIalu I (.jAshiftr 2 1) (.kAshiftr 2 1)) 0xFFFFFFF8 0 = some (0xFFFFFFFC, false, true) ∧
    alu2 I (pickIalu I (.jLshiftr 2 1) (.kLshiftr 2 1)) 0x80000000 0 = some (0x40000000, false, false) ∧
    alu2 I (pickIalu I (.jRotr 2 1) (.kRotr 2 1)) 3 0 = some (0x80000001, false, true) ∧
    alu2 I (pickIalu I (.jRotl 2 1) (.kRotl 2 1)) 0xC0000000 0 = some (0x80000001, false, true) := by
  cases I <;> decide

/-- V20: register 31 reads zero and discards. -/
theorem test_register_31 (I : Ialu) :
    (seen (exec (pickIalu I (.jAdd 31 1 (.reg 0)) (.kAdd 31 1 (.reg 0)))
      (withRegs I [(1, 1), (0, 0xFFFFFFFF)] State.reset)) fun t => (aluread I 31 t, znvc I t))
      = some (0, true, false, false, true) := by
  cases I <;> decide

/-! ## Loads and stores -/

/-- Four words at 0x4000, as in V39 to V41, with index 1 at 0x4000 and register 2 = 4. -/
def four (I : Ialu) : State := withWords 0x4000 [0xA, 0xB, 0xC, 0xD] (withRegs I [(1, 0x4000), (2, 4)] State.reset)

/-- V36, V37: the pre-modify load leaves the index, the post-modify load moves it. -/
theorem test_load_single (I : Ialu) :
    (seen (exec (pickIalu I (.jLdUregSPre .xstat 1 (.imm 2)) (.kLdUregSPre .xstat 1 (.imm 2))) (four I)) fun t =>
      (t.xstat, aluread I 1 t)) = some (0xC, 0x4000) ∧
    (seen (exec (pickIalu I (.jLdUregSPost (.xr 0) 1 (.reg 2)) (.kLdUregSPost (.xr 0) 1 (.reg 2))) (four I)) fun t =>
      (readDreg .x 0 t, aluread I 1 t)) = some (0xA, 0x4004) := by
  cases I <;> decide +kernel

theorem test_load_dual (I : Ialu) :
    (seen (exec (pickIalu I (.jLdUregDPre (.k 4) 1 (.imm 2)) (.kLdUregDPre (.k 4) 1 (.imm 2))) (four I)) fun t =>
      (aluread .k 4 t, aluread .k 5 t, aluread I 1 t)) = some (0xC, 0xD, 0x4000) ∧
    (seen (exec (pickIalu I (.jLdUregDPost (.yr 6) 1 (.reg 2)) (.kLdUregDPost (.yr 6) 1 (.reg 2))) (four I)) fun t =>
      (readDreg .y 6 t, readDreg .y 7 t, aluread I 1 t)) = some (0xA, 0xB, 0x4004) := by
  cases I <;> decide +kernel

theorem test_load_quad (I : Ialu) :
    (seen (exec (pickIalu I (.jLdUregQPre (.j 28) 1 (.reg 31)) (.kLdUregQPre (.j 28) 1 (.reg 31))) (four I)) fun t =>
      (aluread .j 28 t, aluread .j 29 t, aluread .j 30 t, aluread .j 31 t)) = some (0xA, 0xB, 0xC, 0) ∧
    (seen (exec (pickIalu I (.jLdUregQPost (.k 8) 1 (.reg 2)) (.kLdUregQPost (.k 8) 1 (.reg 2))) (four I)) fun t =>
      (aluread .k 8 t, aluread .k 11 t, aluread I 1 t)) = some (0xA, 0xD, 0x4004) := by
  cases I <;> decide +kernel

/-- V38: the old index is stored. -/
theorem test_store_single (I : Ialu) :
    (seen (exec (pickIalu I (.jStUregSPost (I.ureg 1) 1 (.reg 2)) (.kStUregSPost (I.ureg 1) 1 (.reg 2))) (four I)) fun t =>
      (readWord t.mem 0x4000, aluread I 1 t)) = some (0x4000, 0x4004) ∧
    (seen (exec (pickIalu I (.jStUregSPre (I.ureg 2) 1 (.imm 3)) (.kStUregSPre (I.ureg 2) 1 (.imm 3))) (four I))
      fun t => (readWord t.mem 0x4003, aluread I 1 t)) = some (4, 0x4000) := by
  cases I <;> decide +kernel

theorem test_store_dual (I : Ialu) :
    (seen (exec (pickIalu I (.jStUregDPost (I.ureg 0) 1 (.reg 2)) (.kStUregDPost (I.ureg 0) 1 (.reg 2)))
      (withRegs I [(0, 7)] (four I))) fun t => (readWord t.mem 0x4000, readWord t.mem 0x4001, aluread I 1 t))
      = some (7, 0x4000, 0x4004) ∧
    (seen (exec (pickIalu I (.jStUregDPre (I.ureg 2) 1 (.imm 2)) (.kStUregDPre (I.ureg 2) 1 (.imm 2))) (four I))
      fun t => (readWord t.mem 0x4002, readWord t.mem 0x4003)) = some (4, 0) := by
  cases I <;> decide +kernel

theorem test_store_quad (I : Ialu) :
    (seen (exec (pickIalu I (.jStUregQPost (I.ureg 0) 1 (.reg 2)) (.kStUregQPost (I.ureg 0) 1 (.reg 2)))
      (withRegs I [(0, 7), (3, 9)] (four I))) fun t =>
        (readWord t.mem 0x4000, readWord t.mem 0x4002, readWord t.mem 0x4003, aluread I 1 t)) = some (7, 4, 9, 0x4004) ∧
    (seen (exec (pickIalu I (.jStUregQPre (I.ureg 0) 1 (.imm 0x10)) (.kStUregQPre (I.ureg 0) 1 (.imm 0x10))) (four I))
      fun t => (readWord t.mem 0x4011, readWord t.mem 0x4001)) = some (0x4000, 0xB) := by
  cases I <;> decide +kernel

/-- V37, V39: the source's runtime error. -/
theorem test_misaligned (I : Ialu) :
    stopped (exec (pickIalu I (.jLdDregQ .x 0 .lin 1 (.reg 2)) (.kLdDregQ .x 0 .lin 1 (.reg 2)))
      (withRegs I [(1, 0x4001)] (four I))) = some (.inl (.misalignedAccess 0x4001 4)) := by
  cases I <;> decide +kernel

/-- A fault names the address of the access, not of the missing word (00_scope.md R10); at launch the addresses of the
memory-mapped registers do not exist (20_memory.md R58, assumption 17). -/
theorem test_unmapped (I : Ialu) :
    stopped (exec (pickIalu I (.jLdDregQ .x 0 .lin 1 (.reg 2)) (.kLdDregQ .x 0 .lin 1 (.reg 2)))
      { four I with memMap := [⟨0x4000, 3⟩] }) = some (.inl (.unmappedAccess 0x4000)) ∧
    stopped (exec (pickIalu I (.jLdUregSPre .xstat 31 (.imm 0x1E0000)) (.kLdUregSPre .xstat 31 (.imm 0x1E0000))) (four I))
      = some (.inl (.unmappedAccess 0x1E0000)) := by
  cases I <;> decide +kernel

/-- The edges of the register windows of the launch map. -/
theorem test_launchMap :
    ([0, 0x1DFFFF, 0x200000, 0x0C1DFFFF, 0x0C200000, 0x2C1DFFFF, 0x2C200000, 0xFFFFFFFF].all (mapped launchMap)) = true ∧
    ([0x1E0000, 0x1FFFFF, 0x0C1E0000, 0x0C1FFFFF, 0x101E0000, 0x2C1E0000, 0x2C1FFFFF, 2 ^ 32].any (mapped launchMap))
      = false := by decide +kernel

/-- V39. -/
theorem test_dreg_loads (I : Ialu) :
    (seen (exec (pickIalu I (.jLdDregS .x 0 .lin 1 (.reg 2)) (.kLdDregS .x 0 .lin 1 (.reg 2))) (four I)) fun t =>
      (readDreg .x 0 t, aluread I 1 t)) = some (0xA, 0x4004) ∧
    (seen (exec (pickIalu I (.jLdDregD .y 4 .lin 1 (.reg 2)) (.kLdDregD .y 4 .lin 1 (.reg 2))) (four I)) fun t =>
      (readDreg .y 4 t, readDreg .y 5 t)) = some (0xA, 0xB) ∧
    (seen (exec (pickIalu I (.jLdDregQ .x 0 .lin 1 (.reg 2)) (.kLdDregQ .x 0 .lin 1 (.reg 2))) (four I)) fun t =>
      (readDreg .x 0 t, readDreg .x 3 t)) = some (0xA, 0xD) := by
  cases I <;> decide +kernel

/-- V39: CB and BR. -/
theorem test_dreg_operators (I : Ialu) :
    (seen (exec (pickIalu I (.jLdDregS .x 0 .cb 1 (.imm 3)) (.kLdDregS .x 0 .cb 1 (.imm 3)))
      (withBuffer I 1 0x4000 4 (withRegs I [(1, 0x4002)] (four I)))) fun t => (readDreg .x 0 t, aluread I 1 t))
      = some (0xC, 0x4001) ∧
    (seen (exec (pickIalu I (.jLdDregS .x 0 .br 1 (.imm 2)) (.kLdDregS .x 0 .br 1 (.imm 2)))
      (withRegs I [(1, 0x4002)] (four I))) fun t => (readDreg .x 0 t, aluread I 1 t)) = some (0xC, 0x4001) := by
  cases I <;> decide +kernel

/-- V40. -/
theorem test_broadcast (I : Ialu) :
    (seen (exec (pickIalu I (.jLdDregSBcast .yx 0 .lin 1 (.reg 2)) (.kLdDregSBcast .yx 0 .lin 1 (.reg 2))) (four I))
      fun t => (readDreg .x 0 t, readDreg .y 0 t)) = some (0xA, 0xA) ∧
    (seen (exec (pickIalu I (.jLdDregDBcast .bare 0 .lin 1 (.reg 2)) (.kLdDregDBcast .bare 0 .lin 1 (.reg 2))) (four I))
      fun t => (readDreg .x 1 t, readDreg .y 1 t)) = some (0xB, 0xB) ∧
    (seen (exec (pickIalu I (.jLdDregQBcast .xy 0 .lin 1 (.reg 2)) (.kLdDregQBcast .xy 0 .lin 1 (.reg 2))) (four I))
      fun t => (readDreg .x 2 t, readDreg .y 3 t, aluread I 1 t)) = some (0xC, 0xD, 0x4004) := by
  cases I <;> decide +kernel

/-- V41. -/
theorem test_merged_loads (I : Ialu) :
    (seen (exec (pickIalu I (.jLdDregSMerged .xy 0 .lin 1 (.imm 2)) (.kLdDregSMerged .xy 0 .lin 1 (.imm 2))) (four I))
      fun t => (readDreg .x 0 t, readDreg .y 0 t, aluread I 1 t)) = some (0xB, 0xA, 0x4002) ∧
    (seen (exec (pickIalu I (.jLdDregDMerged .yx 0 .lin 1 (.reg 2)) (.kLdDregDMerged .yx 0 .lin 1 (.reg 2))) (four I))
      fun t => (readDreg .y 1 t, readDreg .y 0 t, readDreg .x 1 t, readDreg .x 0 t)) = some (0xD, 0xC, 0xB, 0xA) := by
  cases I <;> decide +kernel

/-- V42. -/
theorem test_dreg_stores (I : Ialu) :
    (seen (exec (pickIalu I (.jStDregS .x 2 .lin 0 (.imm 1)) (.kStDregS .x 2 .lin 0 (.imm 1)))
      (withDregs .x [(2, 3)] (withRegs I [(0, 0x400)] State.reset))) fun t => (readWord t.mem 0x400, aluread I 0 t))
      = some (3, 0x401) ∧
    (seen (exec (pickIalu I (.jStDregD .y 0 .lin 0 (.imm 2)) (.kStDregD .y 0 .lin 0 (.imm 2)))
      (withDregs .y [(0, 1), (1, 2)] (withRegs I [(0, 0x400)] State.reset))) fun t =>
        (readWord t.mem 0x400, readWord t.mem 0x401)) = some (1, 2) ∧
    (seen (exec (pickIalu I (.jStDregQ .x 0 .lin 0 (.imm 4)) (.kStDregQ .x 0 .lin 0 (.imm 4)))
      (withDregs .x [(0, 1), (3, 4)] (withRegs I [(0, 0x400)] State.reset))) fun t =>
        (readWord t.mem 0x400, readWord t.mem 0x403, aluread I 0 t)) = some (1, 4, 0x404) := by
  cases I <;> decide +kernel

/-- V43. -/
theorem test_merged_stores (I : Ialu) :
    (seen (exec (pickIalu I (.jStDregSMerged .xy 5 .lin 0 (.imm 2)) (.kStDregSMerged .xy 5 .lin 0 (.imm 2)))
      (withDregs .x [(5, 0x11)] (withDregs .y [(5, 0x22)] (withRegs I [(0, 0x500)] State.reset)))) fun t =>
        (readWord t.mem 0x500, readWord t.mem 0x501, aluread I 0 t)) = some (0x22, 0x11, 0x502) ∧
    (seen (exec (pickIalu I (.jStDregDMerged .yx 0 .lin 0 (.imm 4)) (.kStDregDMerged .yx 0 .lin 0 (.imm 4)))
      (withDregs .x [(0, 0xC), (1, 0xD)] (withDregs .y [(0, 0xA), (1, 0xB)] (withRegs I [(0, 0x500)] State.reset))))
      fun t => (readWord t.mem 0x500, readWord t.mem 0x501, readWord t.mem 0x502, readWord t.mem 0x503))
      = some (0xC, 0xD, 0xA, 0xB) := by
  cases I <;> decide +kernel

/-! ## The data alignment buffers -/

/-- V45, V46: both buffers hold 10, 11, 12, 13; words 14 to 17 follow in memory; the index is 0x105. -/
def primed (I : Ialu) : State :=
  { withWords 0x104 [14, 15, 16, 17] (withRegs I [(0, 0x105)] State.reset) with
    dabX := ⟨#v[10, 11, 12, 13], true⟩, dabY := ⟨#v[10, 11, 12, 13], true⟩ }

/-- Registers 0 and 3 of both blocks and the index. -/
def corners (I : Ialu) (t : State) : Word × Word × Word × Word × Word :=
  (readDreg .x 0 t, readDreg .x 3 t, readDreg .y 0 t, readDreg .y 3 t, aluread I 0 t)

theorem test_dab (I : Ialu) :
    seen (exec (pickIalu I (.jDab .x 0 0 (.imm 4)) (.kDab .x 0 0 (.imm 4))) (primed I)) (corners I)
      = some (11, 14, 0, 0, 0x109) ∧
    seen (exec (pickIalu I (.jDabBcast .xy 0 0 (.imm 4)) (.kDabBcast .xy 0 0 (.imm 4))) (primed I)) (corners I)
      = some (11, 14, 11, 14, 0x109) := by
  cases I <;> decide +kernel

theorem test_dab_offset (I : Ialu) :
    seen (exec (pickIalu I (.jXdab .xy 0 0 (.imm 4)) (.kXdab .xy 0 0 (.imm 4))) (primed I)) (corners I)
      = some (12, 15, 11, 14, 0x109) ∧
    seen (exec (pickIalu I (.jYdab .yx 0 0 (.imm 4)) (.kYdab .yx 0 0 (.imm 4))) (primed I)) (corners I)
      = some (11, 14, 12, 15, 0x109) := by
  cases I <;> decide +kernel

/-- V45, V46: the short form. -/
def primedShort (I : Ialu) : State :=
  { withWords 0x104 [0x00090008, 0x000B000A, 0x000D000C, 0x000F000E] (withRegs I [(0, 0x20B)] State.reset) with
    dabX := ⟨#v[0x00010000, 0x00030002, 0x00050004, 0x00070006], true⟩
    dabY := ⟨#v[0x00010000, 0x00030002, 0x00050004, 0x00070006], true⟩ }

theorem test_sdab (I : Ialu) :
    seen (exec (pickIalu I (.jSdab .y 0 0 (.imm 8)) (.kSdab .y 0 0 (.imm 8))) (primedShort I)) (corners I)
      = some (0, 0, 0x00040003, 0x000A0009, 0x213) ∧
    seen (exec (pickIalu I (.jSdabBcast .bare 0 0 (.imm 8)) (.kSdabBcast .bare 0 0 (.imm 8))) (primedShort I))
      (corners I) = some (0x00040003, 0x000A0009, 0x00040003, 0x000A0009, 0x213) := by
  cases I <;> decide +kernel

theorem test_sdab_offset (I : Ialu) :
    seen (exec (pickIalu I (.jXsdab .xy 0 0 (.imm 8)) (.kXsdab .xy 0 0 (.imm 8))) (primedShort I)) (corners I)
      = some (0x00050004, 0x000B000A, 0x00040003, 0x000A0009, 0x213) ∧
    seen (exec (pickIalu I (.jYsdab .xy 0 0 (.imm 8)) (.kYsdab .xy 0 0 (.imm 8))) (primedShort I)) (corners I)
      = some (0x00040003, 0x000A0009, 0x00050004, 0x000B000A, 0x213) := by
  cases I <;> decide +kernel

/-- V45: an unprimed buffer leaves the registers unwritten that take an element of it; in the short form a register with
one such half is unwritten as a whole. -/
theorem test_unprimed_dab : (seen (exec (.jDab .x 0 0 (.imm 4)) (withRegs .j [(0, 0x107)] { primed .j with dabX := Dab.reset }))
      fun t => (t.xUnwritten.toList.take 4, readDreg .x 1 t, readDreg .x 3 t)) = some ([true, false, false, false], 14, 16) ∧
    (seen (exec (.jSdab .x 0 0 (.imm 8)) { withWords 0x100 [0x00010000, 0x00030002] (withRegs .j [(0, 0x203)] State.reset)
      with xUnwritten := Vector.replicate 32 true }) fun t => (t.xUnwritten.toList.take 5, readDreg .x 3 t))
      = some ([true, true, true, false, true], 0x00020001) := by decide +kernel

/-- R209, R264: reading such a register faults, before the alignment is looked at; a write makes it readable. -/
theorem test_unwritten_read :
    stopped (exec (.moveS (.j 0) (.xr 2)) (markUnwritten .x 2 State.reset)) = some (.inl (.unwrittenRead (.xr 2))) ∧
    stopped (exec (.kStUregDPre (.xr 2) 31 (.imm 1)) (markUnwritten .x 3 State.reset)) = some (.inl (.unwrittenRead (.xr 3))) ∧
    stopped (exec (.jStDregSMerged .xy 2 .lin 0 (.imm 2)) (markUnwritten .x 2 State.reset))
      = some (.inl (.unwrittenRead (.xr 2))) ∧
    stopped (exec (.jStDregS .y 2 .lin 0 (.imm 2)) (markUnwritten .x 2 State.reset)) = none ∧
    (seen (exec (.ldImm (.xr 2) 7) (markUnwritten .x 2 State.reset)) fun t => (readDreg .x 2 t, dregUnwritten .x 2 t))
      = some (7, false) := by decide +kernel

/-- V45: a wrap, another modifier, another index. -/
theorem test_dab_stops : (
    stopped (exec (.jDab .x 0 0 (.imm 4)) (withBuffer .j 0 0x100 8 (primed .j))),
    stopped (exec (.jDab .x 0 0 (.imm 2)) (withBuffer .j 0 0x100 8 (primed .j))),
    stopped (exec (.jDab .x 0 4 (.imm 4)) (primed .j)))
    = (some (.inr (.badForm .unspecifiedForm)), some (.inr .circularPrecondition),
      some (.inr (.badForm .notAnIndexRegister))) := by decide +kernel

/-! ## Circular buffers and bit reverse -/

/-- V31. -/
theorem test_circ : circ 0x100008 4 0x100000 11 = 0x100001 ∧ circ 0x100007 4 0x100000 11 = 0x100000 ∧
    circ 0x100001 (-4) 0x100000 11 = 0x100008 ∧ circ 0x100005 5 0x100000 11 = 0x10000A ∧
    circ 0x100008 4 0x100000 0 = 0x10000C ∧ circ 3 (-3) 0 5 = 0 := by decide

/-- V31: what the preconditions refuse. -/
theorem test_circ_refused : circOk 0x10000B 1 0x100000 11 = false ∧ circOk 0x100000 11 0x100000 11 = false ∧
    circOk 0x100000 (-11) 0x100000 11 = false ∧ circOk 0xFFFFFFF8 1 0xFFFFFFF8 16 = false := by decide

/-- V33. -/
theorem test_bradd : bradd 0x10000006 4 = 0x10000001 ∧ bradd 0xA5A5 0x2121 = 0x9454 ∧
    bradd 0x80000000 0x80000000 = 0x40000000 ∧ bradd 1 1 = 0 := by decide +kernel

/-! ## Transfers, static flags, conditions, lines -/

/-- V47. -/
theorem test_ldImm : (seen (exec (.ldImm .ystat 0x8181) State.reset) fun t => t.ystat) = some 0x8181 := by decide
theorem test_moveD : (seen (exec (.moveD (.j 4) (.k 6)) (withRegs .k [(6, 1), (7, 2)] State.reset)) fun t =>
    (aluread .j 4 t, aluread .j 5 t)) = some (1, 2) := by decide
theorem test_moveQ : (seen (exec (.moveQ (.yr 0) (.xr 4)) (withDregs .x [(4, 4), (7, 7)] State.reset)) fun t =>
    (readDreg .y 0 t, readDreg .y 3 t)) = some (4, 7) := by decide
theorem test_moveS : (seen (exec (.moveS (.jb 2) (.k 9)) (withRegs .k [(9, 5)] State.reset)) fun t =>
    (readPlain (.jb 2) t, holdOf .j (.base 2) t)) = some (5, 5) := by decide

/-- V48. -/
theorem test_static_flags : (seen (exec (.ldGscf1 .jlt) (State.reset.setFlags .j ⟨false, true, false, false⟩)) fun t =>
    (t.gscf0, t.gscf1)) = some (false, true) ∧
    (seen (exec (.ldGscf0 .nkeq) State.reset) fun t => (t.gscf0, t.gscf1)) = some (true, false) := by decide

/-- V34: the row Z N = 1 0 of the J-IALU. -/
theorem test_conditions : [Cond.jeq, .jlt, .jle, .njeq, .njlt, .njle].map
    (fun q => condHolds q ⟨true, false, false, false⟩ ⟨false, false, false, false⟩)
    = [true, false, true, false, true, false] := by decide

/-- The load and the add of V35, the second marked or not. -/
def condLine (m : Bool) : Line :=
  ⟨some (.ialu .jeq), [⟨true, .ialu (.jLdUregSPost (.xr 0) 0 (.reg 1))⟩, ⟨m, .ialu (.kAdd 1 2 (.reg 3))⟩]⟩

/-- The registers of V35; Z of the J-IALU is 0. -/
def condState (m : Bool) : State :=
  withLine (condLine m) (withWords 0x200 [9] (withDregs .x [(0, 1)] (withRegs .j [(0, 0x200), (1, 2)]
    (withRegs .k [(2, 1), (3, 2)] State.reset))))

/-- V35: a false condition; without `DO` the add executes. -/
theorem test_conditional_line : (seen (step (condState true)) fun t => (readDreg .x 0 t, aluread .k 1 t, t.pc))
      = some (1, 0, 1) ∧
    (seen (step (condState false)) fun t => (readDreg .x 0 t, aluread .j 0 t, aluread .k 1 t)) = some (1, 0x200, 3) ∧
    (seen (step ((condState true).setFlags .j ⟨true, false, false, false⟩)) fun t =>
      (readDreg .x 0 t, aluread .j 0 t, aluread .k 1 t)) = some (9, 0x202, 3) := by decide +kernel

/-- V49, line by line. -/
theorem test_lines :
    (stopped (step (withLine (plain [.jAdd 1 0 (.imm 1), .kAdd 1 0 (.imm 1)]) State.reset)) = none ∧
    stopped (step (withLine (plain [.jAdd 1 0 (.imm 1), .jAdd 2 3 (.imm 1)]) State.reset))
      = some (.inr .intraLineConflict) ∧
    stopped (step (withLine (plain [.jAdd 1 0 (.imm 1), .kLdUregSPost (.xr 0) 2 (.imm 1)]) State.reset)) = none ∧
    stopped (step (withLine (plain [.jStUregSPost (.xr 0) 0 (.imm 1), .kLdUregSPost (.yr 0) 0 (.imm 1)]) State.reset))
      = some (.inr .intraLineConflict)) ∧
    stopped (step (withLine (plain [.jAdd 1 0 (.imm 0x12345), .kAdd 1 0 (.imm 1), .moveQ (.yr 0) (.xr 4)]) State.reset))
      = none ∧
    stopped (step (withLine (plain [.kAdd 1 0 (.imm 1), .jAdd 1 0 (.imm 0x12345)]) State.reset))
      = some (.inr .malformedLine) ∧
    stopped (step (withLine (plain [.kLdUregSPre (.j 31) 0 (.imm 0), .jAdd 1 0 (.imm 1)]) State.reset))
      = some (.inr .statusWriteConflict) := by decide +kernel

/-- A jump to line 7, and a loop whose counter goes on. -/
theorem test_jump : (seen (step (withLine ⟨some .nlc0e, [⟨true, .jump 7⟩]⟩ { State.reset with lc0 := 2 })) fun t =>
    (t.pc, t.lc0)) = some (7, 1) ∧
    stopped (step State.reset) = some (.inr .endOfProgram) := by decide

/-- The host's placement of one instruction runs it. -/
theorem test_withFetchWord : (seen (step (State.reset.withFetchWord 64 0x00008181C0020120)) fun t =>
    (aluread .j 1 t, t.pc)) = some (0x8181, 1) := by decide +kernel

theorem test_reset_memory : State.reset.mem.wf = true := by decide

/-! ## The hypotheses of the statements can be met

One theorem per statement that has hypotheses, with the values where its clauses begin and end. -/

/-- A state for both IALUs: index 1 at 0x4000 with four words there, register 2 = 4, index 3 at a buffer of 8 words. -/
def both : State :=
  withBuffer .k 3 0x100 8 (withBuffer .j 3 0x100 8 (withRegs .k [(1, 0x4000), (2, 4), (3, 0x103)]
    (withRegs .j [(1, 0x4000), (2, 4), (3, 0x103)] (withWords 0x4000 [0xA, 0xB, 0xC, 0xD] State.reset))))

/-- A group among the first eight data registers exists whatever `NDREG` is. -/
theorem firstEight {z : Size} {r : RegNum} (h : lowOk z r = true) (h8 : r.val + z.count ≤ 8) : DregGroup z r :=
  ⟨h, le_trans h8 ndreg_bounds.1⟩

/-- The greatest groups that exist whatever `NDREG` is. -/
theorem someGroups : DregGroup .single 7 ∧ DregGroup .dual 6 ∧ DregGroup .quad 4 :=
  ⟨firstEight (by decide) (by decide), firstEight (by decide) (by decide), firstEight (by decide) (by decide)⟩

/-- While no data register is unwritten, every register is readable. -/
theorem readable_of {s : State} (hx : s.xUnwritten = Vector.replicate 32 false) (hy : s.yUnwritten = Vector.replicate 32 false)
    (l : List Ureg) : Readable l s := by
  intro u _
  cases u <;> simp [uregUnwritten, dregUnwritten, hx, hy]

theorem both_readable (l : List Ureg) : Readable l both := readable_of rfl rfl l

theorem both_wf : both.mem.wf = true := by decide +kernel

theorem witness_DecodedWordsAreTheEncoding :
    decode [0xC0020120, 0x700, 8] = .ok (.ialu (.jAdd 1 0 (.imm 0x700)), [8]) := by rfl

/-- One load for each of the four values of bits 12:10, and one with another value. -/
theorem witness_LoadBitsSelectOffsetOperator :
    (decodeWord 0x00001004 0 = some (.ialu (.jXdab .xy 0 0 (.imm 4))) ∧ LoadsDregs (.jXdab .xy 0 0 (.imm 4))) ∧
    (decodeWord 0x00001404 0 = some (.ialu (.jXsdab .xy 0 0 (.imm 4))) ∧ LoadsDregs (.jXsdab .xy 0 0 (.imm 4))) ∧
    (decodeWord 0x00001804 0 = some (.ialu (.jYdab .xy 0 0 (.imm 4))) ∧ LoadsDregs (.jYdab .xy 0 0 (.imm 4))) ∧
    (decodeWord 0x00001C04 0 = some (.ialu (.jYsdab .xy 0 0 (.imm 4))) ∧ LoadsDregs (.jYsdab .xy 0 0 (.imm 4))) ∧
    (decodeWord 0x0C000804 0 = some (.ialu (.jLdDregS .x 0 .br 0 (.imm 4))) ∧
      LoadsDregs (.jLdDregS .x 0 .br 0 (.imm 4))) :=
  ⟨⟨rfl, trivial⟩, ⟨rfl, trivial⟩, ⟨rfl, trivial⟩, ⟨rfl, trivial⟩, ⟨rfl, trivial⟩⟩

/-- An instruction of two slots and one of one slot. -/
theorem witness_StepRunsDecodedInstruction :
    (WellFormed (.jAdd 1 0 (.imm 0x700)) = true ∧
      decode [0xC0020120, 0x700] = .ok (.ialu (.jAdd 1 0 (.imm 0x700)), []) ∧
      (State.reset.withFetchWord 64 0x700C0020120).prog[State.reset.pc]?
        = some ⟨none, [0xC0020120, 0x700].map fun w => ⟨false, w⟩⟩) ∧
    WellFormed (.kRotr 2 0) = true ∧ decode [0xCE840000] = .ok (.ialu (.kRotr 2 0), []) ∧
      (State.reset.withFetchWord 32 0xCE840000).prog[State.reset.pc]?
        = some ⟨none, [0xCE840000].map fun w => ⟨false, w⟩⟩ :=
  ⟨⟨rfl, rfl, rfl⟩, rfl, rfl, rfl⟩

theorem witness_StepRunsAssembledLine : (condState true).prog[(condState true).pc]? = some (condLine true).assemble := rfl

/-- The line of V35 on a state where its condition holds; the next state is `loaded`. -/
theorem condLine_fetched : fetchLine (condState false) = .ok (condLine false) := by rfl

/-- What one step makes of a state. -/
def after (s : State) : State := (seen (step s) id).getD s

theorem condState_steps : step (condState false) = .next (after (condState false)) := by rfl

theorem witness_StepKeepsInvariant : Inv (condState false) ∧
    step (condState false) = .next (after (condState false)) := by
  refine ⟨⟨by decide +kernel, ?_, ?_⟩, condState_steps⟩
  · have h : (condState false).mem.all (fun c => mapped (condState false).memMap (c.1 / 4)) = true := by decide +kernel
    simpa using h
  · intro I d
    have h : ∀ k : Fin 4, holdOf I (.base k) (condState false) = 0 ∧ holdOf I (.len k) (condState false) = 0 := by
      cases I <;> decide +kernel
    cases d with
    | base k => rw [(h k).1]; exact Nat.zero_le _
    | len k => rw [(h k).2]; exact Nat.zero_le _

theorem witness_StepKeepsProgramAndMap : step (condState false) = .next (after (condState false)) := condState_steps

theorem witness_LineWithoutJumpGoesToTheNext : fetchLine (condState false) = .ok (condLine false) ∧
    (∀ it ∈ (condLine false).items, ∀ n, it.item ≠ .jump n) ∧
    step (condState false) = .next (after (condState false)) :=
  ⟨condLine_fetched, by simp [condLine], condState_steps⟩

/-- A store, which changes memory and its index. -/
theorem witness_EveryInstructionKeepsItsFrame : ∃ t, exec (.jStUregSPost (.j 2) 1 (.reg 2)) both = .next t ∧
    aluread .j 1 t = 0x4004 ∧ readWord t.mem 0x4000 = 4 ∧ storedWords (.jStUregSPost (.j 2) 1 (.reg 2)) both = [0x4000] :=
  ⟨_, rfl, by decide +kernel, by decide +kernel, by decide +kernel⟩

/-- An operation and an immediate load of JSTAT, each with changed flags. -/
theorem witness_FlagsChangeOnlyByTheirIalu :
    (∃ t, exec (.jSub 4 1 (.reg 1)) both = .next t ∧ t.flagsOf .j ≠ both.flagsOf .j) ∧
    ∃ t, exec (.ldImm (.j 31) 0xFFFFFFFF) both = .next t ∧ t.flagsOf .j ≠ both.flagsOf .j := by
  refine ⟨⟨_, rfl, by decide +kernel⟩, ⟨_, rfl, ?_⟩⟩
  intro h
  have h1 : (0xFFFFFFFF : Word).getLsbD Config.flagPos.z.val = false := congrArg Flags.z h
  have h2 : ∀ n : Fin 16, (0xFFFFFFFF : Word).getLsbD n.val = true := by decide
  rw [h2 Config.flagPos.z] at h1
  cases h1

/-- A line that loads neither static flag, one that loads GSCF0 and one that loads GSCF1. -/
theorem witness_StaticFlagsHoldTheirValue : (fetchLine (condState false) = .ok (condLine false) ∧
      step (condState false) = .next (after (condState false)) ∧
      (∀ it ∈ (condLine false).items, ∀ q, it.item ≠ .ialu (.ldGscf0 q)) ∧
      ∀ it ∈ (condLine false).items, ∀ q, it.item ≠ .ialu (.ldGscf1 q)) ∧
    ∀ l ∈ [plain [.ldGscf0 .nkeq], plain [.ldGscf1 .nkeq]],
      fetchLine (withLine l State.reset) = .ok l ∧
        step (withLine l State.reset) = .next (after (withLine l State.reset)) := by
  refine ⟨⟨condLine_fetched, condState_steps, by simp [condLine], by simp [condLine]⟩, ?_⟩
  intro l hl
  rcases List.mem_cons.1 hl with rfl | hl
  · exact ⟨rfl, rfl⟩
  · rw [List.mem_singleton] at hl
    subst hl
    exact ⟨rfl, rfl⟩

/-- A line that writes JB0, and for all other buffers a line that does not. -/
theorem witness_WriteAgeCountsFourLines :
    fetchLine (withLine (plain [.ldImm (.jb 0) 5]) State.reset) = .ok (plain [.ldImm (.jb 0) 5]) ∧
    step (withLine (plain [.ldImm (.jb 0) 5]) State.reset)
      = .next (after (withLine (plain [.ldImm (.jb 0) 5]) State.reset)) ∧
    (∃ it ∈ activeItems (plain [.ldImm (.jb 0) 5]) State.reset, Cell.reg (blUreg .j (.base 0)) ∈ itemWrites it) ∧
    ∀ it ∈ activeItems (plain [.ldImm (.jb 0) 5]) State.reset, Cell.reg (blUreg .k (.base 0)) ∉ itemWrites it := by
  refine ⟨rfl, rfl, ⟨.ialu (.ldImm (.jb 0) 5), by simp [plain, activeItems], by decide⟩, ?_⟩
  simp only [plain, activeItems]
  decide

/-- Five slots; an extended second instruction; four marked instructions. -/
theorem witness_MalformedLineIsRefused :
    4 < (plain [.jAdd 1 0 (.imm 0x900), .kNot 1 0, .moveS .xstat .ystat, .moveS .cjmp .lc0]).items.length +
      ((plain [.jAdd 1 0 (.imm 0x900), .kNot 1 0, .moveS .xstat .ystat, .moveS .cjmp .lc0]).items.filter
        fun it => it.item.extended).length ∧
    (∃ it ∈ (plain [.kNot 1 0, .jAdd 1 0 (.imm 0x900)]).items.tail, it.item.extended = true) ∧
    3 < ((Line.mk (some .sf0) [⟨true, .nop⟩, ⟨true, .nop⟩, ⟨true, .nop⟩, ⟨true, .nop⟩]).items.filter
      fun it => it.marked).length := by
  refine ⟨by decide, ⟨⟨false, .ialu (.jAdd 1 0 (.imm 0x900))⟩, by decide, by decide⟩, by decide⟩

/-- Two writes of one register, a write and a read, a read and a write, two instructions of one IALU; a store and a load
of one word. -/
theorem witness_ConflictingInstructionsAreRefused :
    (∃ e ∈ itemWrites (.ialu (.moveS .cjmp .lc0)), e ∈ itemWrites (.ialu (.ldImm .cjmp 1))) ∧
    (∃ e ∈ itemWrites (.ialu (.moveS .cjmp .lc0)), e ∈ itemReads (.ialu (.moveS .xstat .cjmp))) ∧
    (∃ e ∈ itemReads (.ialu (.moveS .xstat .cjmp)), e ∈ itemWrites (.ialu (.moveS .cjmp .lc0))) ∧
    (∃ I, itemIalu (.ialu (.jNot 1 0)) = some I ∧ itemIalu (.ialu (.jLdUregSPre .cjmp 2 (.reg 3))) = some I) ∧
    lineError ⟨none, [⟨false, .ialu (.jStUregSPost .cjmp 1 (.reg 2))⟩, ⟨false, .ialu (.kLdUregSPost .xstat 1 (.reg 2))⟩]⟩
      = none ∧
    0x4000 ∈ (accessOf (.ialu (.jStUregSPost .cjmp 1 (.reg 2))) both).1 ∧
    0x4000 ∈ (accessOf (.ialu (.kLdUregSPost .xstat 1 (.reg 2))) both).1 ∧
    (accessOf (.ialu (.jStUregSPost .cjmp 1 (.reg 2))) both).2 = true :=
  ⟨⟨.reg .cjmp, by decide, by decide⟩, ⟨.reg .cjmp, by decide, by decide⟩, ⟨.reg .cjmp, by decide, by decide⟩,
    ⟨.j, by decide, by decide⟩, by decide, by decide +kernel, by decide +kernel, by decide +kernel⟩

theorem witness_StatusWriteBesideOperationIsRefused :
    (plain [.kLdUregSPre (.j 31) 0 (.imm 0), .jAdd 1 0 (.imm 1)]).layoutOk = true ∧
    (plain [.kLdUregSPre (.j 31) 0 (.imm 0), .jAdd 1 0 (.imm 1)]).marksOk = true ∧
    (∀ it ∈ (plain [.kLdUregSPre (.j 31) 0 (.imm 0), .jAdd 1 0 (.imm 1)]).items, itemError it.item = none) ∧
    itemOperates (.ialu (.jAdd 1 0 (.imm 1))) = some .j ∧ itemOperates (.ialu (.kLdUregSPre (.j 31) 0 (.imm 0))) = none ∧
    Cell.flags .j ∈ itemWrites (.ialu (.kLdUregSPre (.j 31) 0 (.imm 0))) := by
  refine ⟨by decide, by decide, ?_, by decide, by decide, by decide⟩
  simp only [plain]
  decide

/-- A line of marked instructions only, and one that mixes both. -/
theorem witness_FalseConditionHasNoEffect : (lineError (condLine true) = none ∧ (condLine true).cond ≠ some .nlc0e ∧
      headHolds (condLine true).cond (condState true) = false ∧ ∀ it ∈ (condLine true).items, it.marked = true) ∧
    (lineError (condLine false) = none ∧ (condLine false).cond ≠ some .nlc0e ∧
      headHolds (condLine false).cond (condState false) = false) ∧
    (lineError ⟨some .nlc0e, [⟨true, .jump 7⟩]⟩ = none ∧ headHolds (some .nlc0e) State.reset = false) := by
  refine ⟨⟨by decide, by decide, by decide +kernel, by simp [condLine]⟩,
    ⟨by decide, by decide, by decide +kernel⟩, by decide, by decide⟩

/-- The line of V35 on a state where its condition holds: both instructions execute. -/
theorem witness_LineDoesWhatEachInstructionDoesAlone :
    let s := (condState false).setFlags .j ⟨true, false, false, false⟩
    s.mem.wf = true ∧ lineError (condLine false) = none ∧ anyPair (wordClash s) (activeItems (condLine false) s) = false ∧
    (activeItems (condLine false) s).length = 2 ∧
    (∀ it ∈ activeItems (condLine false) s, ∃ u, execItem it s = .next u) ∧
    runLine (condLine false) s = .next ((seen (runLine (condLine false) s) id).getD s) := by
  refine ⟨by decide +kernel, by decide, by decide +kernel, by decide +kernel, ?_, rfl⟩
  simp only [condLine, activeItems]
  intro it h
  rcases List.mem_cons.1 h with rfl | h
  · exact ⟨_, rfl⟩
  · rw [List.mem_map] at h
    obtain ⟨a, ha, rfl⟩ := h
    have := (List.mem_filter.1 ha).1
    rw [List.mem_singleton] at this
    subst this
    exact ⟨_, rfl⟩

/-- For each clause a form it refuses, with groups that exist: an odd dual, a quad at no multiple of four and a group
without a number; a group past every data register and, by the parameter, a register outside `UregSet`; index 31; an
index in its own group, at both ends of the group; the lowest and highest number above I3; a modifier that is its index. -/
theorem witness_RefusedFormIsRefusedAlways :
    (Instr.jDab .x 2 0 (.imm 4)).form.error = some .registerGroupAlignment ∧
    (Misnumbered .dual (.j 5) ∧ Misnumbered .quad (.xr 6) ∧ Misnumbered .dual .cjmp) ∧
    ((1 : RegNum).val % (LdAcc.merged true .xy).size.count ≠ 0 ∧ (6 : RegNum).val % (StAcc.normal .quad .x).size.count ≠ 0 ∧
      (2 : RegNum).val % 4 ≠ 0) ∧
    ((Config.uregOther 5 = false → (Ureg.other 5).groupInSet .single = false) ∧ (Ureg.other 5).groupOk .single = true) ∧
    (Config.ndreg < (31 : RegNum).val + (LdAcc.normal .dual .x).size.count ∧ Config.ndreg < (29 : RegNum).val + 4) ∧
    (UregGroup .quad (.xr 4) ∧ DregGroup .quad 4) ∧
    (Ialu.j.ureg 4 ∈ (Ureg.j 4).group .quad ∧ Ialu.k.ureg 7 ∈ (Ureg.k 4).group .quad ∧ UregGroup .quad (.k 4)) ∧
    (4 ≤ (4 : RegNum).val ∧ 4 ≤ (31 : RegNum).val ∧ PmOp.br ≠ .lin) ∧ (3 : RegNum).val < 4 := by
  refine ⟨by decide, by unfold Misnumbered; decide, by decide, ⟨fun h => by simp [Ureg.groupInSet, Ureg.group, Ureg.inSet, h],
    by decide⟩, ⟨?_, ?_⟩, ⟨by unfold UregGroup; decide, someGroups.2.2⟩, by unfold UregGroup; decide, by decide, by decide⟩
  · exact lt_of_le_of_lt ndreg_bounds.2 (by decide)
  · exact lt_of_le_of_lt ndreg_bounds.2 (by decide)

/-- A buffer whose registers were written just now. -/
def fresh : State := writeBL .j (.base 3) 0x100 both

theorem both_not_held (I : Ialu) : ¬ Held I 3 both := by unfold Held; cases I <;> decide +kernel

theorem fresh_held : Held .j 3 fresh := by unfold Held; decide +kernel

/-- A step of the length less one, from the buffer's first place and its last. -/
theorem both_ready (I : Ialu) : CircularReady I 3 4 both ∧ CircularReady I 3 (-4) both ∧ CircularReady I 3 7 both := by
  refine ⟨⟨by decide, both_not_held I, ?_⟩, ⟨by decide, both_not_held I, ?_⟩, ⟨by decide, both_not_held I, ?_⟩⟩ <;>
    (unfold InBuffer; cases I <;> decide +kernel)

/-- The five access forms with an admitted form and an index that can be updated; each of them meets a misaligned
address, and the quad load at the end of a map of three words an unmapped one. -/
theorem witness_ReadFaultsThenAlignmentThenMap :
    (Form.ldU .j .quad .post (.j 4) 1 (.reg 2)).error = none ∧ (Form.stU .k .dual .pre (.xr 4) 1 (.imm 1)).error = none ∧
    (DregGroup (LdAcc.normal .quad .x).size 4 ∧ UpdateReady .j .lin 1 (.reg 2) both) ∧
    (DregGroup (StAcc.merged true .xy).size 6 ∧ UpdateReady .j .lin 1 (.reg 2) both) ∧
    (Readable ((Ureg.xr 4).group .dual) both ∧ Readable (stSources (.merged true .xy) 6) both) ∧
    (UregGroup .quad (.yr 4) ∧ UregGroup .quad (.xr 4) ∧
      (∃ u ∈ (Ureg.xr 4).group .quad, uregUnwritten u (markUnwritten .x 7 both) = true) ∧
      ∃ u ∈ stSources (.merged true .xy) 6, uregUnwritten u (markUnwritten .x 7 both) = true) ∧
    (DregGroup .quad 4 ∧ DabReady .k false 3 (.reg 2) both) ∧
    uregAddr .k .pre 1 (.imm 1) both % 2 ≠ 0 ∧
    (0x4000 % 4 = 0 ∧ ∃ k, k < 4 ∧ mapped [⟨0x4000, 3⟩] (0x4000 + k) = false) := by
  refine ⟨by decide, by decide, ⟨someGroups.2.2, by decide, trivial⟩, ⟨someGroups.2.1, by decide, trivial⟩,
    ⟨both_readable _, both_readable _⟩,
    ⟨by unfold UregGroup; decide, by unfold UregGroup; decide, by decide +kernel, by decide +kernel⟩,
    ⟨someGroups.2.2, by decide, ?_, fun _ => by decide +kernel⟩, by decide +kernel, by decide, 3, by decide, by decide⟩
  have h : (opndVal .k (.reg 2) both).toInt = 4 := by decide +kernel
  rw [h]
  exact (both_ready .k).1

/-- A buffer of 16 short words with room for one more access, and index 1 with length 0. -/
def bothShort (I : Ialu) : State := withBuffer I 3 0x100 16 (withRegs I [(2, 8), (3, 0x107)] both)

/-- `both` with the index at another place. -/
def bothAt (a : Word) : State := withRegs .j [(3, a)] both

/-- `bothShort` with the index at the first place from which a step of 8 wraps. -/
def shortAt : State := withRegs .j [(3, 0x108)] (bothShort .j)

/-- `bothShort` with its length register written just now. -/
def freshShort : State := writeBL .j (.len 3) 16 (bothShort .j)

/-- The modifier meets the preconditions for index J3. -/
def fitsJ3 (b : Opnd) (s : State) : Prop :=
  InBuffer (aluread .j 3 s) (opndVal .j b s).toInt (baseOf .j 3 s) (lenOf .j 3 s)

/-- The modifier takes index J3 to the end of its buffer or past it. -/
def passesEnd (b : Opnd) (s : State) : Prop :=
  ((baseOf .j 3 s).toNat : Int) + (lenOf .j 3 s).toNat ≤ (aluread .j 3 s).toNat + (opndVal .j b s).toInt

/-- A step as long as the buffer, up and down; for words and short words another modifier than 4 (8), the right one with
the index just past the buffer, and the right one where it first wraps. -/
theorem witness_CircularPreconditionIsChecked :
    (¬ Held .j 3 both ∧ lenOf .j 3 both ≠ 0 ∧ Opnd.imm 8 ≠ .reg 3 ∧ Opnd.reg 2 ≠ .reg 3 ∧
      DregGroup (LdAcc.bcast .quad .xy).size 4 ∧ DregGroup (StAcc.merged true .yx).size 6) ∧
    (¬ fitsJ3 (.imm 8) both ∧
      ¬ InBuffer (aluread .j 3 both) (-(opndVal .j (.imm 8) both).toInt) (baseOf .j 3 both) (lenOf .j 3 both)) ∧
    ((opndVal .j (.imm 3) both).toInt ≠ (if dabIsShort (.offset false false .xy) then 8 else 4) ∧
      (opndVal .j (.imm 4) both).toInt ≠ (if dabIsShort (.both true .xy) then 8 else 4)) ∧
    (¬ Held .j 3 (bothAt 0x108) ∧ opndVal .j (.reg 2) (bothAt 0x108) = 4 ∧ ¬ fitsJ3 (.reg 2) (bothAt 0x108)) ∧
    (¬ Held .j 3 (bothAt 0x104) ∧ opndVal .j (.reg 2) (bothAt 0x104) = 4 ∧
      fitsJ3 (.reg 2) (bothAt 0x104) ∧ passesEnd (.reg 2) (bothAt 0x104)) ∧
    (¬ Held .j 3 shortAt ∧ opndVal .j (.reg 2) shortAt = 8 ∧ fitsJ3 (.reg 2) shortAt ∧ passesEnd (.reg 2) shortAt) := by
  refine ⟨⟨both_not_held .j, by decide +kernel, by decide, by decide, someGroups.2.2, someGroups.2.1⟩, ?_,
    by decide +kernel, ?_, ?_, ?_⟩
  all_goals simp only [fitsJ3, passesEnd, InBuffer]
  · decide +kernel
  all_goals (unfold Held; decide +kernel)

/-- A step up and down, words and short words (a step of 8 at length 16), within a buffer written just now. -/
theorem witness_HeldBufferFollowsTheParameter :
    (Held .j 3 fresh ∧ Opnd.reg 2 ≠ .reg 3 ∧ (∀ a r, Readable (stSources a r) fresh) ∧ DregGroup .quad 4 ∧ fitsJ3 (.reg 2) fresh ∧
      InBuffer (aluread .j 3 fresh) (-(opndVal .j (.imm 3) fresh).toInt) (baseOf .j 3 fresh) (lenOf .j 3 fresh) ∧
      Reachable (withRegs .j [(3, 0x100)] fresh) (postAddr .j 3 (withRegs .j [(3, 0x100)] fresh)) 4 ∧
      Reachable fresh (dabQuad (dabIsShort (.offset true false .xy)) (aluread .j 3 fresh)) 4 ∧
      (opndVal .j (.reg 2) fresh).toInt = 4 ∧ ¬ passesEnd (.reg 2) fresh) ∧
    (Held .j 3 freshShort ∧ Reachable freshShort (dabQuad (dabIsShort (.one true .x)) (aluread .j 3 freshShort)) 4 ∧
      fitsJ3 (.reg 2) freshShort ∧ (opndVal .j (.reg 2) freshShort).toInt = 8 ∧ ¬ passesEnd (.reg 2) freshShort) := by
  refine ⟨⟨fresh_held, by decide, fun _ _ => readable_of rfl rfl _, someGroups.2.2, ?_⟩, ?_⟩
  all_goals simp only [fitsJ3, passesEnd, InBuffer, Reachable]
  · decide +kernel
  · unfold Held; decide +kernel

theorem witness_CjmpOptionWritesCjmpToo : (30 : RegNum) ≠ 31 := by decide

/-- Both directions, with the modifier 4. -/
theorem witness_CircularOptionWritesTheCircularStep (I : Ialu) :
    CircularReady I 3 (opndVal I (.reg 2) both).toInt both ∧ CircularReady I 3 (-(opndVal I (.reg 2) both).toInt) both := by
  have h : (opndVal I (.reg 2) both).toInt = 4 := by cases I <;> decide +kernel
  rw [h]
  exact ⟨(both_ready I).1, (both_ready I).2.1⟩

theorem witness_BitReverseOptionCarriesRight : (3 : RegNum).val < 4 := by decide

theorem witness_CarryFormsChainToSixtyFourBits : (6 : RegNum) ≠ 31 ∧ (7 : RegNum) ≠ 31 ∧ (6 : RegNum) ≠ 7 ∧
    (6 : RegNum) ≠ 3 ∧ (6 : RegNum) ≠ 5 := by decide

theorem witness_LogicalResultsBitByBit :
    (pickIalu .j (Instr.jNot 2 1) (.kNot 2 1), fun x (_ : Bool) => !x) ∈
      [(pickIalu .j (Instr.jOr 2 1 (.reg 0)) (.kOr 2 1 (.reg 0)), fun x y => x || y),
        (pickIalu .j (Instr.jNot 2 1) (.kNot 2 1), fun x _ => !x)] := by simp

theorem witness_ShiftsMoveOnePlace :
    (pickIalu .k (Instr.jRotl 2 1) (.kRotl 2 1), fun (x : Word) (n : Nat) => x.getLsbD ((n + 31) % 32)) ∈
      [(pickIalu .k (Instr.jRotl 2 1) (.kRotl 2 1), fun (x : Word) (n : Nat) => x.getLsbD ((n + 31) % 32))] ∧
    0 < 32 ∧ 31 < 32 := by simp

/-- A buffer of length 11 at 0x100000: the sum at the end, one below the base, at the base, and one below the end. -/
theorem witness_CircularUpdateComparesExactly : (11 : Word) ≠ 0 ∧
    (((0x100000 : Word).toNat : Int) + (11 : Word).toNat ≤ (0x100007 : Word).toNat + 4) ∧
    ((0x100003 : Word).toNat : Int) + (-4) < (0x100000 : Word).toNat ∧
    (((0x100000 : Word).toNat : Int) ≤ (0x100004 : Word).toNat + (-4) ∧
      ((0x100004 : Word).toNat : Int) + (-4) < (0x100000 : Word).toNat + (11 : Word).toNat) ∧
    ((0x100006 : Word).toNat : Int) + 4 < (0x100000 : Word).toNat + (11 : Word).toNat := by decide

/-- The first and the last place of a buffer that ends at 2^32, with the greatest steps. -/
theorem witness_CircularStepStaysInTheBuffer : (16 : Word) ≠ 0 ∧ InBuffer 0xFFFFFFF0 15 0xFFFFFFF0 16 ∧
    InBuffer 0xFFFFFFFF (-15) 0xFFFFFFF0 16 := by
  refine ⟨by decide, ?_, ?_⟩ <;> (unfold InBuffer; decide)

theorem witness_BitReverseAddCarriesToTheRight : 0 < 32 ∧ 31 < 32 := by decide

/-- The greatest shift, and the two sides of the place where the new elements begin. -/
theorem witness_AlignmentTakesOldThenNew : ([0, 1, 2, 3] : List Word).length = 4 ∧ ([4, 5, 6, 7] : List Word).length = 4 ∧
    4 ≤ 4 ∧ 3 < 4 ∧ 0 + 3 < 4 ∧ 4 ≤ 1 + 3 := by decide

/-- Quads, through both IALUs, with a modifier that keeps the quad. -/
theorem witness_PreModifyLoadsFillTheGroup (I : Ialu) : UregGroup .quad (.j 28) ∧
    Reachable both (preAddr I 1 (.imm 0x10) both) Size.quad.count := by
  refine ⟨by unfold UregGroup; decide, ?_⟩
  unfold Reachable; cases I <;> decide +kernel

theorem witness_PostModifyLoadsFillTheGroupAndStep (I : Ialu) : UregGroup .quad (.xr 4) ∧ (1 : RegNum) ≠ 31 ∧
    I.ureg 1 ∉ (Ureg.xr 4).group .quad ∧ Reachable both (postAddr I 1 both) Size.quad.count := by
  refine ⟨by unfold UregGroup; decide, by decide, by cases I <;> decide, ?_⟩
  unfold Reachable; cases I <;> decide +kernel

theorem witness_PreModifyStoresWriteTheGroup (I : Ialu) : both.mem.wf = true ∧ UregGroup .quad (.xr 4) ∧
    Readable ((Ureg.xr 4).group .quad) both ∧ Reachable both (preAddr I 1 (.imm 0x10) both) Size.quad.count :=
  ⟨both_wf, by unfold UregGroup; decide, both_readable _, (witness_PreModifyLoadsFillTheGroup I).2⟩

theorem witness_PostModifyStoresWriteTheGroupAndStep (I : Ialu) : both.mem.wf = true ∧
    UregGroup .quad (I.ureg 0) ∧ Readable ((I.ureg 0).group .quad) both ∧ (1 : RegNum) ≠ 31 ∧
    Reachable both (postAddr I 1 both) Size.quad.count :=
  ⟨both_wf, by unfold UregGroup; cases I <;> decide, both_readable _, by decide, (witness_PostModifyLoadsFillTheGroupAndStep I).2.2.2⟩

/-- The state to save and, after the save and a change of register 28, the state to restore. -/
theorem witness_StatusQuadSavesAndRestores : both.mem.wf = true ∧ Reachable both (preAddr .k 1 (.imm 0x10) both) 4 ∧
    ∃ s1, exec (pickIalu .k (.jStUregQPre (Ialu.j.ureg 28) 1 (.imm 0x10)) (.kStUregQPre (Ialu.j.ureg 28) 1 (.imm 0x10)))
      both = .next s1 ∧ (aluwrite .j 28 7 s1).mem = s1.mem ∧ (aluwrite .j 28 7 s1).memMap = s1.memMap ∧
      preAddr .k 1 (.imm 0x10) (aluwrite .j 28 7 s1) = preAddr .k 1 (.imm 0x10) both :=
  ⟨both_wf, (witness_PreModifyLoadsFillTheGroup .k).2, _, rfl, rfl, rfl, rfl⟩

/-- The three operators: linear through index 1, CB and BR through index 3. -/
theorem both_update (I : Ialu) : UpdateReady I .lin 1 (.reg 2) both ∧ UpdateReady I .cb 3 (.reg 2) both ∧
    UpdateReady I .br 3 (.reg 2) both :=
  ⟨⟨by decide, trivial⟩, ⟨by decide, by decide, (witness_CircularOptionWritesTheCircularStep I).1⟩,
    ⟨by decide, (by decide : (3 : RegNum).val < 4)⟩⟩

theorem both_reachable (I : Ialu) : Reachable both (postAddr I 1 both) 4 ∧ Reachable both (postAddr I 1 both) 2 ∧
    Reachable both (postAddr I 3 both) 1 := by
  unfold Reachable; cases I <;> decide +kernel

theorem witness_NormalLoadsFillOneBlock (I : Ialu) :
    (DregGroup .quad 4 ∧ UpdateReady I .lin 1 (.reg 2) both ∧ Reachable both (postAddr I 1 both) Size.quad.count) ∧
    (DregGroup .single 7 ∧ UpdateReady I .cb 3 (.reg 2) both ∧ UpdateReady I .br 3 (.reg 2) both ∧
      Reachable both (postAddr I 3 both) Size.single.count) :=
  ⟨⟨someGroups.2.2, (both_update I).1, (both_reachable I).1⟩,
    ⟨someGroups.1, (both_update I).2.1, (both_update I).2.2, (both_reachable I).2.2⟩⟩

theorem witness_BroadcastLoadsFillBothBlocks (I : Ialu) :
    DregGroup .quad 4 ∧ UpdateReady I .lin 1 (.reg 2) both ∧ Reachable both (postAddr I 1 both) Size.quad.count :=
  (witness_NormalLoadsFillOneBlock I).1

theorem witness_MergedLoadsSplitTheWords (I : Ialu) : UpdateReady I .lin 1 (.reg 2) both ∧ DregGroup .single 7 ∧
    Reachable both (postAddr I 1 both) 2 ∧ DregGroup .dual 6 ∧ Reachable both (postAddr I 1 both) 4 :=
  ⟨(both_update I).1, someGroups.1, (both_reachable I).2.1, someGroups.2.1, (both_reachable I).1⟩

theorem witness_NormalStoresWriteOneBlock (I : Ialu) : both.mem.wf = true ∧ Readable (blockRegs .x 4 4) both ∧
    DregGroup .quad 4 ∧ UpdateReady I .lin 1 (.reg 2) both ∧ Reachable both (postAddr I 1 both) Size.quad.count :=
  ⟨both_wf, both_readable _, (witness_NormalLoadsFillOneBlock I).1⟩

theorem witness_MergedStoresSplitTheWords (I : Ialu) : both.mem.wf = true ∧
    Readable [.xr 7, .yr 7] both ∧ Readable (blockRegs .x 6 2 ++ blockRegs .y 6 2) both ∧
    UpdateReady I .lin 1 (.reg 2) both ∧ DregGroup .single 7 ∧ Reachable both (postAddr I 1 both) 2 ∧ DregGroup .dual 6 ∧
    Reachable both (postAddr I 1 both) 4 :=
  ⟨both_wf, both_readable _, both_readable _, witness_MergedLoadsSplitTheWords I⟩

/-- A buffer with room for one more quad and no more, and index 1, whose buffer has length 0. -/
theorem witness_WordDabAccessesAlignThroughTheBuffer (I : Ialu) :
    (DregGroup .quad 4 ∧ DabReady I false 3 (.reg 2) both ∧
      Reachable both ((aluread I 3 both).toNat / 4 * 4) 4) ∧
    (DabReady I false 1 (.reg 2) both ∧ Reachable both ((aluread I 1 both).toNat / 4 * 4) 4) := by
  refine ⟨⟨someGroups.2.2, ⟨by decide, (witness_CircularOptionWritesTheCircularStep I).1, fun _ => by cases I <;> decide +kernel⟩,
    ?_⟩, ⟨by decide, ⟨by decide, ?_, ?_⟩, fun h => ?_⟩, ?_⟩
  · unfold Reachable; cases I <;> decide +kernel
  · unfold Held; cases I <;> decide +kernel
  · unfold InBuffer; cases I <;> decide +kernel
  · exact absurd (by cases I <;> decide +kernel) h
  · unfold Reachable; cases I <;> decide +kernel

theorem witness_ShortDabAccessesAlignThroughTheBuffer (I : Ialu) :
    (DregGroup .quad 4 ∧ DabReady I true 3 (.reg 2) (bothShort I) ∧
      Reachable (bothShort I) ((aluread I 3 (bothShort I)).toNat / 8 * 4) 4) ∧
    DabReady I true 1 (.reg 2) (bothShort I) := by
  refine ⟨⟨someGroups.2.2, ⟨by decide, ⟨by decide, ?_, ?_⟩, fun _ => ?_⟩, ?_⟩, ⟨by decide, ⟨by decide, ?_, ?_⟩, fun h => ?_⟩⟩
  · unfold Held; cases I <;> decide +kernel
  · unfold InBuffer; cases I <;> decide +kernel
  · cases I <;> decide +kernel
  · unfold Reachable; cases I <;> decide +kernel
  · unfold Held; cases I <;> decide +kernel
  · unfold InBuffer; cases I <;> decide +kernel
  · exact absurd (by cases I <;> decide +kernel) h

/-- An index whose last address before 2^32 is just reached, and the words of both quads. -/
def lastQuads (I : Ialu) : State := withRegs I [(1, 0xFFFFFFFB), (2, 4)] State.reset

theorem witness_SecondDabAccessDeliversTheUnalignedQuad (I : Ialu) : DregGroup .quad 4 ∧ Opnd.reg 2 ≠ .reg 1 ∧
    (1 : RegNum).val < 4 ∧ ¬ Held I 1 (lastQuads I) ∧ lenOf I 1 (lastQuads I) = 0 ∧
    opndVal I (.reg 2) (lastQuads I) = 4 ∧ (aluread I 1 (lastQuads I)).toNat + 4 < 2 ^ 32 ∧
    ∀ k, k < 8 → mapped (lastQuads I).memMap ((aluread I 1 (lastQuads I)).toNat / 4 * 4 + k) = true := by
  refine ⟨someGroups.2.2, by decide, by decide, ?_, ?_, ?_, ?_, ?_⟩
  · unfold Held; cases I <;> decide +kernel
  all_goals cases I <;> decide +kernel

theorem witness_ImmediateLoadWritesTheRegister : (Ureg.xr 7).inSet = true ∧ (Ureg.lc0).inSet = true := by decide

theorem witness_MovesCopyTheGroup : UregGroup .quad (.j 28) ∧ UregGroup .quad (.k 28) ∧ UregGroup .dual (.j 30) ∧
    UregGroup .dual (.yr 0) ∧ UregGroup .single (.jb 0) ∧ Readable ((Ureg.yr 0).group .dual) both := by
  unfold UregGroup
  exact ⟨by decide, by decide, by decide, by decide, by decide, both_readable _⟩

end Sys2Proof.Tests
end

