-- ==== Sys2Proof/Proofs/Encoding.lean ====
section
/-! The container encoding read back (assumption 1): the codes of the parts, the fields of a packed word, and the
decoder on the words the encoder writes. -/

namespace Sys2Proof.Proofs

open Sys2Proof

/-- An instruction is the instruction of its form. -/
@[simp] theorem form_instr (i : Instr) : i.form.instr = i := by cases i <;> rfl

/-! ## Codes of the parts: bounds, and each code read back -/

@[simp] theorem regNum_val (n : RegNum) : regNum n.val = n := Fin.ofNat_val_eq_self n

@[simp] theorem ialu_ofCode_code (I : Ialu) : Ialu.ofCode I.code = I := by cases I <;> rfl

@[simp] theorem size_ofCode_code (z : Size) : Size.ofCode z.code = some z := by cases z <;> rfl

@[simp] theorem pmOp_ofCode_code (o : PmOp) : PmOp.ofCode o.code = some o := by cases o <;> rfl

@[simp] theorem cond_ofCode_code (q : Cond) : Cond.ofCode q.code = some q := by cases q <;> rfl

@[simp] theorem alu2_ofCode_code (o : Alu2) : Alu2.ofCode o.code = some o := by cases o <;> rfl

@[simp] theorem alu1_ofCode_code (o : Alu1) : Alu1.ofCode o.code = some o := by cases o <;> rfl

/-- The numbers of one-operand operations are none of the two-operand ones. -/
@[simp] theorem alu2_ofCode_alu1_code (o : Alu1) : Alu2.ofCode o.code = none := by cases o <;> rfl

@[simp] theorem blReg_ofCode_code (d : BLReg) : BLReg.ofCode d.code = some d := by
  cases d with
  | base k => fin_cases k <;> rfl
  | len k => fin_cases k <;> rfl

@[simp] theorem ldAcc_ofCode_code (a : LdAcc) : LdAcc.ofCode a.code.1 a.code.2 = some a := by
  cases a with
  | normal z c => cases z <;> cases c <;> rfl
  | bcast z c => cases z <;> cases c <;> rfl
  | merged dual c => cases dual <;> cases c <;> rfl

@[simp] theorem stAcc_ofCode_code (a : StAcc) : StAcc.ofCode a.code.1 a.code.2 = some a := by
  cases a with
  | normal z c => cases z <;> cases c <;> rfl
  | merged dual c => cases dual <;> cases c <;> rfl

@[simp] theorem dabKind_ofCode_code (a : DabKind) : DabKind.ofCode a.opCode a.blockCode a.widthCode = some a := by
  cases a with
  | one short c => cases short <;> cases c <;> rfl
  | both short c => cases short <;> cases c <;> rfl
  | offset onY short c => cases onY <;> cases short <;> cases c <;> rfl

/-- The operators of DAB accesses are none of the plain ones (30_encoding.md R95). -/
@[simp] theorem pmOp_ofCode_dab (a : DabKind) : PmOp.ofCode a.opCode = none := by
  cases a with
  | one short c => rfl
  | both short c => rfl
  | offset onY short c => cases onY <;> cases short <;> rfl

@[simp] theorem ureg_ofCode_code (u : Ureg) : Ureg.ofCode u.code = some u := by
  cases u with
  | j n => fin_cases n <;> rfl
  | k n => fin_cases n <;> rfl
  | xr n => fin_cases n <;> rfl
  | yr n => fin_cases n <;> rfl
  | jb n => fin_cases n <;> rfl
  | jl n => fin_cases n <;> rfl
  | kb n => fin_cases n <;> rfl
  | kl n => fin_cases n <;> rfl
  | cjmp => rfl
  | xstat => rfl
  | ystat => rfl
  | lc0 => rfl
  | other n => fin_cases n <;> rfl

theorem ialu_code_lt (I : Ialu) : I.code < 2 := by cases I <;> decide

theorem size_code_lt (z : Size) : z.code < 4 := by cases z <;> decide

theorem pmOp_code_lt (o : PmOp) : o.code < 8 := by cases o <;> decide

theorem cond_code_lt (q : Cond) : q.code < 16 := by cases q <;> decide

theorem alu2_code_lt (o : Alu2) : o.code < 32 := by cases o <;> decide

theorem alu1_code_lt (o : Alu1) : o.code < 32 := by cases o <;> decide

theorem blReg_code_lt (d : BLReg) : d.code < 32 := by
  cases d <;> simp only [BLReg.code] <;> omega

theorem ldAcc_code_lt (a : LdAcc) : a.code.1 < 8 ∧ a.code.2 < 8 := by
  cases a with
  | normal z c => cases z <;> cases c <;> decide
  | bcast z c => cases z <;> cases c <;> decide
  | merged dual c => cases dual <;> cases c <;> decide

theorem stAcc_code_lt (a : StAcc) : a.code.1 < 8 ∧ a.code.2 < 8 := by
  cases a with
  | normal z c => cases z <;> cases c <;> decide
  | merged dual c => cases dual <;> cases c <;> decide

theorem dabKind_code_lt (a : DabKind) : a.blockCode < 8 ∧ a.widthCode < 8 ∧ a.opCode < 8 := by
  cases a with
  | one short c => cases short <;> cases c <;> decide
  | both short c => cases short <;> cases c <;> decide
  | offset onY short c => cases onY <;> cases short <;> cases c <;> decide

theorem ureg_code_lt (u : Ureg) : u.code < 256 := by
  cases u <;> simp only [Ureg.code] <;> omega

/-- An operand that is not long is in -128..255 (assumption 1). -/
theorem isLong8_eq_false {v : Word} : isLong8 v = false ↔ v.toNat < 256 ∨ 2 ^ 32 - 128 ≤ v.toNat := by
  simp only [isLong8, Bool.and_eq_false_iff, decide_eq_false_iff_not]
  omega

theorem isLong15_eq_false {v : Word} : isLong15 v = false ↔ v.toNat < 32768 ∨ 2 ^ 32 - 16384 ≤ v.toNat := by
  simp only [isLong15, Bool.and_eq_false_iff, decide_eq_false_iff_not]
  omega

theorem opnd_code_lt (b : Opnd) : b.code < 512 := by
  cases b with
  | reg n => simp only [Opnd.code]; omega
  | imm v => simp only [Opnd.code]; split <;> omega

/-- An operand is read back from its code and its next word, whatever follows where it has none. -/
theorem opnd_ofCode_code (b : Opnd) (e : Word) : Opnd.ofCode b.code (b.ext.headD e) = some b := by
  cases b with
  | reg n =>
    have hlow : ¬ 256 + n.val < 256 := by omega
    have hhigh : 256 + n.val < 288 := by omega
    simp only [Opnd.code, Opnd.ofCode, if_neg hlow, if_pos hhigh, Nat.add_sub_cancel_left, regNum_val]
  | imm v =>
    cases hv : isLong8 v with
    | true => simp [Opnd.ofCode, Opnd.code, Opnd.ext, hv]
    | false =>
      have hlt := v.isLt
      simp only [Opnd.ofCode, Opnd.code, hv, Bool.false_eq_true, if_false]
      rcases isLong8_eq_false.mp hv with h | h
      · have hc : v.toNat % 2 ^ 9 = v.toNat := by omega
        rw [hc, if_pos h, BitVec.ofNat_toNat, BitVec.setWidth_eq]
      · have hc : v.toNat % 2 ^ 9 + (2 ^ 32 - 2 ^ 9) = v.toNat := by omega
        rw [if_neg (by omega), if_neg (by omega), if_neg (by omega), if_pos (by omega), hc, BitVec.ofNat_toNat,
          BitVec.setWidth_eq]

/-! ## The fields of a packed word -/

/-- A field of the word of a number that fits in 32 bits. -/
theorem field_ofNat {N : Nat} (hN : N < 2 ^ 32) (lo n : Nat) :
    field (BitVec.ofNat 32 N) lo n = N / 2 ^ lo % 2 ^ n := by
  rw [field, BitVec.toNat_ofNat, Nat.mod_eq_of_lt hN]

/-- The fields of a data-register access word: class, IALU, blocks, width, register, index, operator, operand. -/
structure DregFields (w : Word) (cls I p wd r m o b : Nat) : Prop where
  cls : field w 30 2 = cls
  ialu : field w 29 1 = I
  blocks : field w 26 3 = p
  width : field w 23 3 = wd
  reg : field w 18 5 = r
  index : field w 13 5 = m
  operator : field w 10 3 = o
  zero : field w 9 1 = 0
  operand : field w 0 9 = b

theorem dregFields_ofNat {cls I p wd r m o b : Nat} (hcls : cls < 4) (hI : I < 2) (hp : p < 8) (hwd : wd < 8)
    (hr : r < 32) (hm : m < 32) (ho : o < 8) (hb : b < 512) :
    DregFields (BitVec.ofNat 32 (cls * 2 ^ 30 + I * 2 ^ 29 + p * 2 ^ 26 + wd * 2 ^ 23 + r * 2 ^ 18 + m * 2 ^ 13
      + o * 2 ^ 10 + b)) cls I p wd r m o b := by
  constructor <;> rw [field_ofNat (by omega)] <;> omega

/-- The fields of a universal-register access word. -/
structure UregFields (w : Word) (I p z u m st b : Nat) : Prop where
  cls : field w 30 2 = 2
  ialu : field w 29 1 = I
  post : field w 28 1 = p
  size : field w 26 2 = z
  ureg : field w 18 8 = u
  index : field w 13 5 = m
  zero : field w 10 3 = 0
  store : field w 9 1 = st
  operand : field w 0 9 = b

theorem uregFields_ofNat {I p z u m st b : Nat} (hI : I < 2) (hp : p < 2) (hz : z < 4) (hu : u < 256)
    (hm : m < 32) (hst : st < 2) (hb : b < 512) :
    UregFields (BitVec.ofNat 32 (2 * 2 ^ 30 + I * 2 ^ 29 + p * 2 ^ 28 + z * 2 ^ 26 + u * 2 ^ 18 + m * 2 ^ 13
      + st * 2 ^ 9 + b)) I p z u m st b := by
  constructor <;> rw [field_ofNat (by omega)] <;> omega

/-- The fields of an arithmetic, logical or function word. -/
structure ArithFields (w : Word) (I o d m b : Nat) : Prop where
  top : field w 30 2 = 3
  cls : field w 28 2 = 0
  ialu : field w 27 1 = I
  operation : field w 22 5 = o
  result : field w 17 5 = d
  reg : field w 12 5 = m
  zero : field w 9 3 = 0
  operand : field w 0 9 = b

theorem arithFields_ofNat {I o d m b : Nat} (hI : I < 2) (ho : o < 32) (hd : d < 32) (hm : m < 32) (hb : b < 512) :
    ArithFields (BitVec.ofNat 32 (12 * 2 ^ 28 + I * 2 ^ 27 + o * 2 ^ 22 + d * 2 ^ 17 + m * 2 ^ 12 + b)) I o d m b := by
  constructor <;> rw [field_ofNat (by omega)] <;> omega

/-- The fields of an immediate load word. -/
structure LdImmFields (w : Word) (u long v : Nat) : Prop where
  top : field w 30 2 = 3
  cls : field w 28 2 = 1
  ureg : field w 20 8 = u
  long : field w 19 1 = long
  zero : field w 16 3 = 0
  value : field w 0 16 = v

theorem ldImmFields_ofNat {u long v : Nat} (hu : u < 256) (hl : long < 2) (hv : v < 2 ^ 16) :
    LdImmFields (BitVec.ofNat 32 (13 * 2 ^ 28 + u * 2 ^ 20 + long * 2 ^ 19 + v)) u long v := by
  constructor <;> rw [field_ofNat (by omega)] <;> omega

/-- The fields of a transfer word. -/
structure MoveFields (w : Word) (z d u : Nat) : Prop where
  top : field w 30 2 = 3
  cls : field w 28 2 = 2
  size : field w 26 2 = z
  dest : field w 18 8 = d
  source : field w 10 8 = u
  zero : field w 0 10 = 0

theorem moveFields_ofNat {z d u : Nat} (hz : z < 4) (hd : d < 256) (hu : u < 256) :
    MoveFields (BitVec.ofNat 32 (14 * 2 ^ 28 + z * 2 ^ 26 + d * 2 ^ 18 + u * 2 ^ 10)) z d u := by
  constructor <;> rw [field_ofNat (by omega)] <;> omega

/-- The fields of a static-flag load word. -/
structure GscfFields (w : Word) (one q : Nat) : Prop where
  top : field w 30 2 = 3
  cls : field w 28 2 = 3
  kind : field w 26 2 = 0
  flag : field w 25 1 = one
  cond : field w 21 4 = q
  zero : field w 0 21 = 0

theorem gscfFields_ofNat {one q : Nat} (ho : one < 2) (hq : q < 16) :
    GscfFields (BitVec.ofNat 32 (60 * 2 ^ 26 + one * 2 ^ 25 + q * 2 ^ 21)) one q := by
  constructor <;> rw [field_ofNat (by omega)] <;> omega

/-! ## Each form's word decodes to the form -/

theorem decodeWord_ldD (I : Ialu) (a : LdAcc) (r : RegNum) (op : PmOp) (m : RegNum) (b : Opnd) (e : Word) :
    decodeWord (BitVec.ofNat 32 (Form.ldD I a r op m b).firstWord) (b.ext.headD e)
      = some (.ialu (Form.ldD I a r op m b).instr) := by
  have hw := dregFields_ofNat (cls := 0) (by decide) (ialu_code_lt I) (ldAcc_code_lt a).1 (ldAcc_code_lt a).2 r.isLt
    m.isLt (pmOp_code_lt op) (opnd_code_lt b)
  rw [Nat.zero_mul, Nat.zero_add] at hw
  simp only [decodeWord, decodeDregLoad, Form.firstWord, hw.cls, hw.ialu, hw.blocks, hw.width, hw.reg, hw.index,
    hw.operator, hw.zero, hw.operand, opnd_ofCode_code]
  simp

theorem decodeWord_dab (I : Ialu) (a : DabKind) (r m : RegNum) (b : Opnd) (e : Word) :
    decodeWord (BitVec.ofNat 32 (Form.dab I a r m b).firstWord) (b.ext.headD e)
      = some (.ialu (Form.dab I a r m b).instr) := by
  obtain ⟨hblock, hwidth, hop⟩ := dabKind_code_lt a
  have hw := dregFields_ofNat (cls := 0) (by decide) (ialu_code_lt I) hblock hwidth r.isLt m.isLt hop (opnd_code_lt b)
  rw [Nat.zero_mul, Nat.zero_add] at hw
  simp only [decodeWord, decodeDregLoad, Form.firstWord, hw.cls, hw.ialu, hw.blocks, hw.width, hw.reg, hw.index,
    hw.operator, hw.zero, hw.operand, opnd_ofCode_code]
  simp

theorem decodeWord_stD (I : Ialu) (a : StAcc) (r : RegNum) (op : PmOp) (m : RegNum) (b : Opnd) (e : Word) :
    decodeWord (BitVec.ofNat 32 (Form.stD I a r op m b).firstWord) (b.ext.headD e)
      = some (.ialu (Form.stD I a r op m b).instr) := by
  have hw := dregFields_ofNat (cls := 1) (by decide) (ialu_code_lt I) (stAcc_code_lt a).1 (stAcc_code_lt a).2 r.isLt
    m.isLt (pmOp_code_lt op) (opnd_code_lt b)
  rw [Nat.one_mul] at hw
  simp only [decodeWord, decodeDregStore, Form.firstWord, hw.cls, hw.ialu, hw.blocks, hw.width, hw.reg, hw.index,
    hw.operator, hw.zero, hw.operand, opnd_ofCode_code]
  simp

theorem decodeWord_ldU (I : Ialu) (z : Size) (p : Modify) (u : Ureg) (m : RegNum) (b : Opnd) (e : Word) :
    decodeWord (BitVec.ofNat 32 (Form.ldU I z p u m b).firstWord) (b.ext.headD e)
      = some (.ialu (Form.ldU I z p u m b).instr) := by
  have hp : (if p = .post then 1 else 0) < 2 := by split <;> decide
  have hw := uregFields_ofNat (st := 0) (ialu_code_lt I) hp (size_code_lt z) (ureg_code_lt u) m.isLt (by decide)
    (opnd_code_lt b)
  rw [Nat.zero_mul, Nat.add_zero] at hw
  simp only [decodeWord, decodeUregAccess, Form.firstWord, hw.cls, hw.ialu, hw.post, hw.size, hw.ureg, hw.index,
    hw.store, hw.zero, hw.operand, opnd_ofCode_code]
  cases p <;> simp

theorem decodeWord_stU (I : Ialu) (z : Size) (p : Modify) (u : Ureg) (m : RegNum) (b : Opnd) (e : Word) :
    decodeWord (BitVec.ofNat 32 (Form.stU I z p u m b).firstWord) (b.ext.headD e)
      = some (.ialu (Form.stU I z p u m b).instr) := by
  have hp : (if p = .post then 1 else 0) < 2 := by split <;> decide
  have hw := uregFields_ofNat (st := 1) (ialu_code_lt I) hp (size_code_lt z) (ureg_code_lt u) m.isLt (by decide)
    (opnd_code_lt b)
  rw [Nat.one_mul] at hw
  simp only [decodeWord, decodeUregAccess, Form.firstWord, hw.cls, hw.ialu, hw.post, hw.size, hw.ureg, hw.index,
    hw.store, hw.zero, hw.operand, opnd_ofCode_code]
  cases p <;> simp

theorem decodeWord_alu (I : Ialu) (o : Alu2) (d m : RegNum) (b : Opnd) (e : Word) :
    decodeWord (BitVec.ofNat 32 (Form.alu I o d m b).firstWord) (b.ext.headD e)
      = some (.ialu (Form.alu I o d m b).instr) := by
  have hw := arithFields_ofNat (ialu_code_lt I) (alu2_code_lt o) d.isLt m.isLt (opnd_code_lt b)
  simp only [decodeWord, decodeArith, Form.firstWord, hw.top, hw.cls, hw.ialu, hw.operation, hw.result, hw.reg, hw.zero,
    hw.operand, opnd_ofCode_code]
  simp

theorem decodeWord_alu1 (I : Ialu) (o : Alu1) (d m : RegNum) (e : Word) :
    decodeWord (BitVec.ofNat 32 (Form.alu1 I o d m).firstWord) e = some (.ialu (Form.alu1 I o d m).instr) := by
  have hw := arithFields_ofNat (b := 0) (ialu_code_lt I) (alu1_code_lt o) d.isLt m.isLt (by decide)
  rw [Nat.add_zero] at hw
  simp only [decodeWord, decodeArith, Form.firstWord, hw.top, hw.cls, hw.ialu, hw.operation, hw.result, hw.reg, hw.zero,
    hw.operand]
  simp

theorem decodeWord_bl (I : Ialu) (sub : Bool) (d : BLReg) (m : RegNum) (b : Opnd) (e : Word) :
    decodeWord (BitVec.ofNat 32 (Form.bl I sub d m b).firstWord) (b.ext.headD e)
      = some (.ialu (Form.bl I sub d m b).instr) := by
  have ho : 8 + sub.toNat < 32 := by cases sub <;> decide
  have hw := arithFields_ofNat (ialu_code_lt I) ho (blReg_code_lt d) m.isLt (opnd_code_lt b)
  simp only [decodeWord, decodeArith, Form.firstWord, hw.top, hw.cls, hw.ialu, hw.operation, hw.result, hw.reg, hw.zero,
    hw.operand, opnd_ofCode_code]
  cases sub <;> simp [Alu2.ofCode, Alu1.ofCode]

theorem decodeWord_comp (I : Ialu) (unsigned : Bool) (m : RegNum) (b : Opnd) (e : Word) :
    decodeWord (BitVec.ofNat 32 (Form.comp I unsigned m b).firstWord) (b.ext.headD e)
      = some (.ialu (Form.comp I unsigned m b).instr) := by
  have ho : 14 + unsigned.toNat < 32 := by cases unsigned <;> decide
  have hw := arithFields_ofNat (d := 0) (ialu_code_lt I) ho (by decide) m.isLt (opnd_code_lt b)
  rw [Nat.zero_mul, Nat.add_zero] at hw
  simp only [decodeWord, decodeArith, Form.firstWord, hw.top, hw.cls, hw.ialu, hw.operation, hw.result, hw.reg, hw.zero,
    hw.operand, opnd_ofCode_code]
  cases unsigned <;> simp [Alu2.ofCode, Alu1.ofCode]

theorem decodeWord_move (z : Size) (d u : Ureg) (e : Word) :
    decodeWord (BitVec.ofNat 32 (Form.move z d u).firstWord) e = some (.ialu (Form.move z d u).instr) := by
  have hw := moveFields_ofNat (size_code_lt z) (ureg_code_lt d) (ureg_code_lt u)
  simp only [decodeWord, decodeMove, Form.firstWord, hw.top, hw.cls, hw.size, hw.dest, hw.source, hw.zero]
  simp

theorem decodeWord_gscf (one : Bool) (q : Cond) (e : Word) :
    decodeWord (BitVec.ofNat 32 (Form.gscf one q).firstWord) e = some (.ialu (Form.gscf one q).instr) := by
  have hw := gscfFields_ofNat one.toNat_lt (cond_code_lt q)
  simp only [decodeWord, decodeOther, Form.firstWord, hw.top, hw.cls, hw.kind, hw.flag, hw.cond, hw.zero]
  cases one <;> simp

/-- Where the loaded value stands, in the word or in the next one (assumption 1), the decoder looks for it. -/
theorem decodeWord_ldImm (u : Ureg) (v e : Word) :
    decodeWord (BitVec.ofNat 32 (Form.ldImm u v).firstWord) ((Form.ldImm u v).extWords.headD e)
      = some (.ialu (Form.ldImm u v).instr) := by
  cases hv : isLong15 v with
  | true =>
    have hw := ldImmFields_ofNat (v := 0) (ureg_code_lt u) (show 1 < 2 by decide) (by decide)
    rw [Nat.one_mul, Nat.add_zero] at hw
    simp only [decodeWord, decodeLdImm, Form.firstWord, Form.extWords, hv, if_true, hw.top, hw.cls, hw.ureg, hw.long,
      hw.zero, hw.value]
    simp [hv]
  | false =>
    have hlt := v.isLt
    have hw := ldImmFields_ofNat (ureg_code_lt u) (show 0 < 2 by decide)
      (Nat.mod_lt v.toNat (show 0 < 2 ^ 16 by decide))
    rw [Nat.zero_mul, Nat.add_zero] at hw
    simp only [decodeWord, decodeLdImm, Form.firstWord, hv, Bool.false_eq_true, if_false, hw.top, hw.cls, hw.ureg,
      hw.long, hw.zero, hw.value, ureg_ofCode_code]
    rcases isLong15_eq_false.mp hv with h | h
    · have hc : v.toNat % 2 ^ 16 = v.toNat := by omega
      simp only [hc, if_pos (show v.toNat < 2 ^ 15 by omega)]
      simp
    · have hc : v.toNat % 2 ^ 16 + (2 ^ 32 - 2 ^ 16) = v.toNat := by omega
      simp only [hc, if_neg (show ¬ v.toNat % 2 ^ 16 < 2 ^ 15 by omega),
        if_pos (show 2 ^ 16 - 2 ^ 14 ≤ v.toNat % 2 ^ 16 by omega)]
      simp

/-- The word of a form, with the form's own next word or, where it has none, any word after it. -/
theorem decodeWord_firstWord (f : Form) (e : Word) :
    decodeWord (BitVec.ofNat 32 f.firstWord) (f.extWords.headD e) = some (.ialu f.instr) := by
  cases f with
  | alu I o d m b => exact decodeWord_alu I o d m b e
  | alu1 I o d m => exact decodeWord_alu1 I o d m e
  | bl I sub d m b => exact decodeWord_bl I sub d m b e
  | comp I unsigned m b => exact decodeWord_comp I unsigned m b e
  | ldU I z p u m b => exact decodeWord_ldU I z p u m b e
  | stU I z p u m b => exact decodeWord_stU I z p u m b e
  | ldD I a r op m b => exact decodeWord_ldD I a r op m b e
  | stD I a r op m b => exact decodeWord_stD I a r op m b e
  | dab I a r m b => exact decodeWord_dab I a r m b e
  | ldImm u v => exact decodeWord_ldImm u v e
  | move z d u => exact decodeWord_move z d u e
  | gscf one q => exact decodeWord_gscf one q e

theorem decodeWord_jump (t : BitVec 26) (e : Word) :
    decodeWord (BitVec.ofNat 32 (62 * 2 ^ 26 + t.toNat)) e = some (.jump t) := by
  have ht := t.isLt
  have hfield := field_ofNat (show 62 * 2 ^ 26 + t.toNat < 2 ^ 32 by omega)
  have htop : field (BitVec.ofNat 32 (62 * 2 ^ 26 + t.toNat)) 30 2 = 3 := by rw [hfield]; omega
  have hcls : field (BitVec.ofNat 32 (62 * 2 ^ 26 + t.toNat)) 28 2 = 3 := by rw [hfield]; omega
  have hkind : field (BitVec.ofNat 32 (62 * 2 ^ 26 + t.toNat)) 26 2 = 2 := by rw [hfield]; omega
  have htarget : field (BitVec.ofNat 32 (62 * 2 ^ 26 + t.toNat)) 0 26 = t.toNat := by rw [hfield]; omega
  simp only [decodeWord, decodeOther, htop, hcls, hkind, htarget]
  simp

/-! ## Items -/

theorem opnd_ext_short_or_long (b : Opnd) : b.ext = [] ∨ ∃ v, b.ext = [v] := by
  cases b with
  | reg n => exact .inl rfl
  | imm v => cases h : isLong8 v <;> simp [Opnd.ext, h]

/-- An item has at most one next word. -/
theorem extWords_short_or_long (it : Item) : it.extWords = [] ∨ ∃ v, it.extWords = [v] := by
  cases it with
  | nop => exact .inl rfl
  | jump t => exact .inl rfl
  | ialu i =>
    simp only [Item.extWords]
    cases i.form with
    | alu1 I o d m => exact .inl rfl
    | move z d u => exact .inl rfl
    | gscf one q => exact .inl rfl
    | ldImm u v => cases h : isLong15 v <;> simp [Form.extWords, h]
    | _ => exact opnd_ext_short_or_long _

/-- The words of an item are a word that decodes to it, whatever follows where the item has no next word, and its next
word if it has one. -/
theorem words_eq_cons (it : Item) :
    ∃ w, it.words = w :: it.extWords ∧ ∀ e, decodeWord w (it.extWords.headD e) = some it := by
  cases it with
  | ialu i => exact ⟨_, rfl, fun e => by rw [Item.extWords, decodeWord_firstWord, form_instr]⟩
  | nop => exact ⟨_, rfl, fun _ => rfl⟩
  | jump t => exact ⟨_, rfl, decodeWord_jump t⟩

end Sys2Proof.Proofs
end

