-- ==== Sys2Proof/Proofs/Fetch.lean ====
section
/-! Fetching: decoding the slots of a line undoes assembling it, and the step at a decoded line runs that line
(00_scope.md R15, 30_encoding.md R82). -/

namespace Sys2Proof.Proofs

open Sys2Proof Sys2Proof.Machine

/-! ## Decoding slots, one item at a time -/

/-- A slot that holds an item without a next word is that item, and decoding goes on after it. -/
theorem decodeSlots_short {a : Slot} {l : List Slot} {it : Item}
    (hdec : decodeWord a.word ((l.map Slot.word).headD pastEnd) = some it) (hext : it.extWords = []) :
    decodeSlots (a :: l) = (decodeSlots l).map (⟨a.marked, it⟩ :: ·) := by
  cases l with
  | nil =>
    have hdec' : decodeWord a.word pastEnd = some it := hdec
    simp only [decodeSlots, hdec', hext, Except.map]
  | cons b l =>
    have hdec' : decodeWord a.word b.word = some it := hdec
    simp only [decodeSlots, hdec', hext]

/-- Two slots that hold an item with a next word are that item, and decoding goes on after them. -/
theorem decodeSlots_long {a b : Slot} {l : List Slot} {it : Item}
    (hdec : decodeWord a.word b.word = some it) (hext : it.extWords ≠ []) :
    decodeSlots (a :: b :: l) = (decodeSlots l).map (⟨a.marked, it⟩ :: ·) := by
  obtain ⟨v, vs, hv⟩ := List.exists_cons_of_ne_nil hext
  simp only [decodeSlots, hdec, hv]

/-- The slots of an item decode to it, and decoding goes on after them. -/
theorem decodeSlots_slots_append (x : LineItem) (l : List Slot) :
    decodeSlots (x.slots ++ l) = (decodeSlots l).map (x :: ·) := by
  obtain ⟨w, hwords, hdec⟩ := words_eq_cons x.item
  rcases extWords_short_or_long x.item with hext | ⟨v, hext⟩
  · have hslots : x.slots = [⟨x.marked, w⟩] := by simp only [LineItem.slots, hwords, hext, List.map_nil]
    have hw := hdec ((l.map Slot.word).headD pastEnd)
    rw [hext] at hw
    rw [hslots]
    exact decodeSlots_short hw hext
  · have hslots : x.slots = [⟨x.marked, w⟩, ⟨false, v⟩] := by
      simp only [LineItem.slots, hwords, hext, List.map_cons, List.map_nil]
    have hw := hdec pastEnd
    rw [hext] at hw
    rw [hslots]
    exact decodeSlots_long hw (by simp [hext])

/-- The slots of a list of items decode to that list. -/
theorem decodeSlots_flatMap_slots (items : List LineItem) : decodeSlots (items.flatMap LineItem.slots) = .ok items := by
  induction items with
  | nil => rfl
  | cons x items ih => rw [List.flatMap_cons, decodeSlots_slots_append, ih]; rfl

/-- Decoding undoes assembling. -/
@[simp] theorem decodeLine_assemble (l : Line) : decodeLine l.assemble = .ok l := by
  rw [decodeLine, Line.assemble, decodeSlots_flatMap_slots]; rfl

/-! ## Words that decode, held as unmarked slots -/

/-- What the decoder takes from a sequence of words: the item's word and, for an item that has one, its next word. -/
theorem decode_ok_inv {ws rest : List Word} {it : Item} (h : decode ws = .ok (it, rest)) :
    (∃ w, ws = w :: rest ∧ decodeWord w (rest.headD pastEnd) = some it ∧ it.extWords = []) ∨
      ∃ w e, ws = w :: e :: rest ∧ decodeWord w e = some it ∧ it.extWords ≠ [] := by
  cases ws with
  | nil => simp [decode] at h
  | cons w tail =>
    cases hdec : decodeWord w (tail.headD pastEnd) with
    | none => simp only [decode, hdec, reduceCtorEq] at h
    | some it' =>
      cases hext : it'.extWords with
      | nil =>
        obtain ⟨rfl, rfl⟩ : it' = it ∧ tail = rest := by
          simpa only [decode, hdec, hext, Except.ok.injEq, Prod.mk.injEq] using h
        exact .inl ⟨w, rfl, hdec, hext⟩
      | cons v vs =>
        cases tail with
        | nil => simp only [decode, hdec, hext, reduceCtorEq] at h
        | cons e after =>
          obtain ⟨rfl, rfl⟩ : it' = it ∧ after = rest := by
            simpa only [decode, hdec, hext, Except.ok.injEq, Prod.mk.injEq] using h
          exact .inr ⟨w, e, rfl, hdec, by simp [hext]⟩

/-- Words that decode to one item and nothing more are, as unmarked slots, the line of that item. -/
theorem decodeSlots_of_decode {ws : List Word} {it : Item} (h : decode ws = .ok (it, [])) :
    decodeSlots (ws.map fun w => ⟨false, w⟩) = .ok [⟨false, it⟩] := by
  rcases decode_ok_inv h with ⟨w, rfl, hdec, hext⟩ | ⟨w, e, rfl, hdec, hext⟩
  · exact decodeSlots_short hdec hext
  · exact decodeSlots_long hdec hext

/-! ## The step -/

/-- The step at a line of the text that decodes runs what it decodes to. -/
theorem step_of_decodeLine {s : State} {p : ProgLine} {l : Line} (hprog : s.prog[s.pc]? = some p)
    (hdec : decodeLine p = .ok l) : step s = runLine l s := by
  simp only [step, stepLine, fetchLine, hprog, hdec]

/-- The text of a line of one well-formed instruction is refused for nothing. -/
theorem lineError_single {i : Instr} (hi : WellFormed i = true) : lineError ⟨none, [⟨false, .ialu i⟩]⟩ = none := by
  have herror : i.form.error = none := Option.isNone_iff_eq_none.mp hi
  simp [lineError, Line.layoutOk, Line.slotsFit, noneExtended, Line.marksOk, itemError, herror, anyPair, headClash]

/-- A line of one well-formed instruction is that instruction, completed at the next line (10_state.md R36). -/
theorem runLine_single {i : Instr} (hi : WellFormed i = true) (s : State) :
    runLine ⟨none, [⟨false, .ialu i⟩]⟩ s = finish (s.pc + 1) (exec i s) := by
  have hacts : activeItems ⟨none, [⟨false, .ialu i⟩]⟩ s = [.ialu i] := rfl
  have hhead : headEffect none s = s := rfl
  simp only [runLine, lineError_single hi, hacts, hhead, anyPair, List.any_nil, Bool.or_self, Bool.false_eq_true,
    if_false, List.map_cons, List.map_nil, execItem, execItems, nextLine]
  cases hexec : exec i s <;> simp [firstRefusal, firstFault, finish]

end Sys2Proof.Proofs
end

