-- ==== Sys2Proof/Proofs/Scope.lean ====
section
/-! The statements of 00_scope.md: what a step is. -/

namespace Sys2Proof.Proofs

open Sys2Proof Sys2Proof.Machine

/-- Settles O6: fetching an assembled line gives the line back (`decodeLine_assemble`). -/
theorem stepRunsAssembledLine : Obligations.StepRunsAssembledLine := by
  unfold Obligations.StepRunsAssembledLine
  intro s l hprog
  exact step_of_decodeLine hprog (decodeLine_assemble l)

/-- Settles O5: the words decode to the line of that one instruction (`decodeSlots_of_decode`), and such a line is the
instruction's `exec`, completed (`runLine_single`). -/
theorem stepRunsDecodedInstruction : Obligations.StepRunsDecodedInstruction := by
  unfold Obligations.StepRunsDecodedInstruction
  intro s i ws hi hdecode hprog
  have hline : decodeLine ⟨none, ws.map fun w => ⟨false, w⟩⟩ = .ok ⟨none, [⟨false, .ialu i⟩]⟩ := by
    rw [decodeLine, decodeSlots_of_decode hdecode]; rfl
  rw [step_of_decodeLine hprog hline, runLine_single hi]

end Sys2Proof.Proofs
end

