-- ==== Sys2Proof/Proofs/Meaning.lean ====
section
/-! The meaning of an instruction by its form: `exec` has one arm for each row of the opcode table, and the rows of one
form share their rule (30_encoding.md, section 4). What all meanings keep is said here once, form by form. -/

namespace Sys2Proof.Proofs

open Sys2Proof Sys2Proof.Machine

/-! ## One meaning for each form -/

/-- The shared meaning of the instructions `Is = Im op B`. -/
def execAlu (I : Ialu) (o : Alu2) (d m : RegNum) (b : Opnd) (s : State) : Out :=
  match o with
  | .add => execAddSub I false d m b s
  | .sub => execAddSub I true d m b s
  | .addCjmp => execAddSubCjmp I false d m b s
  | .subCjmp => execAddSubCjmp I true d m b s
  | .addCb => execAddSubCb I false d m b s
  | .subCb => execAddSubCb I true d m b s
  | .addBr => execAddSubBr I false d m b s
  | .subBr => execAddSubBr I true d m b s
  | .addc => execCarry I false d m b s
  | .subb => execCarry I true d m b s
  | .addHalf => execHalf I false d m b s
  | .subHalf => execHalf I true d m b s
  | .max => execTwo I maxWord d m b s
  | .min => execTwo I minWord d m b s
  | .or => execTwo I (fun x y => x ||| y) d m b s
  | .and => execTwo I (fun x y => x &&& y) d m b s
  | .xor => execTwo I (fun x y => x ^^^ y) d m b s
  | .andNot => execTwo I (fun x y => x &&& ~~~y) d m b s

/-- The shared meaning of the instructions `Is = op Im`. -/
def execAlu1 (I : Ialu) (o : Alu1) (d m : RegNum) (s : State) : Out :=
  match o with
  | .abs => execAbs I d m s
  | .not => execOne I (fun x => ~~~x) d m s
  | .ashiftr => execOne I ashiftr1 d m s
  | .lshiftr => execOne I lshiftr1 d m s
  | .rotr => execOne I rotr1 d m s
  | .rotl => execOne I rotl1 d m s

/-- The shared meaning of the instructions of a form. -/
def execForm (f : Form) (s : State) : Out :=
  match f with
  | .alu I o d m b => execAlu I o d m b s
  | .alu1 I o d m => execAlu1 I o d m s
  | .bl I sub d m b => execAddSubBL I sub d m b s
  | .comp I unsigned m b => execComp I unsigned m b s
  | .ldU I z p u m b => execLdUreg I z p u m b s
  | .stU I z p u m b => execStUreg I z p u m b s
  | .ldD I a r op m b => execLdDreg I a r op m b s
  | .stD I a r op m b => execStDreg I a r op m b s
  | .dab I a r m b => execDab I a r m b s
  | .ldImm u v => execLoadImm u v s
  | .move z d u => execMove z d u s
  | .gscf one q => execGscf one q s

/-- An instruction means what its form means: no row of the opcode table departs from its shared rule. -/
theorem exec_eq_execForm (i : Instr) (s : State) : exec i s = execForm i.form s := by
  cases i <;> rfl

/-- The instruction of a form means what the form means. -/
theorem exec_instr (f : Form) (s : State) : exec f.instr s = execForm f s := by
  rw [exec_eq_execForm, Laws.instr_form]

/-! ## The words a form stores to -/

/-- The words the instructions of a form store to: none but for the two kinds of store. -/
def formStored (f : Form) (s : State) : List Nat :=
  match f with
  | .stU I z p _ m b => List.range' (uregAddr I p m b s) z.count
  | .stD I a r _ m _ => List.range' (dregAddr I m s) (stRegs a r).length
  | _ => []

theorem storedWords_eq_formStored (i : Instr) (s : State) : storedWords i s = formStored i.form s := by
  cases hf : i.form <;> simp [storedWords, itemStored, accessOf, formStored, hf]

/-! ## The frame of every form -/

/-- Only (CJMP) writes more than the result and the flags (40_arith_logic.md R108, R109). -/
theorem execAlu_frame {I : Ialu} {o : Alu2} {d m : RegNum} {b : Opnd} {s t : State}
    (h : execAlu I o d m b s = .next t) : Frame (formWrites (.alu I o d m b)) [] s t := by
  have plain : Frame (gprCells I d ++ [Cell.flags I]) [] s t → Frame (formWrites (.alu I o d m b)) [] s t :=
    fun hf => hf.mono (List.subset_append_left _ _) (List.Subset.refl _)
  cases o with
  | add => exact plain (execAddSub_frame h)
  | sub => exact plain (execAddSub_frame h)
  | addCjmp => exact (execAddSubCjmp_frame h).2
  | subCjmp => exact (execAddSubCjmp_frame h).2
  | addCb => exact plain (execAddSubCb_frame h).2
  | subCb => exact plain (execAddSubCb_frame h).2
  | addBr => exact plain (execAddSubBr_frame h).2
  | subBr => exact plain (execAddSubBr_frame h).2
  | addc => exact plain (execCarry_frame h)
  | subb => exact plain (execCarry_frame h)
  | addHalf => exact plain (execHalf_frame h)
  | subHalf => exact plain (execHalf_frame h)
  | max => exact plain (execTwo_frame h)
  | min => exact plain (execTwo_frame h)
  | or => exact plain (execTwo_frame h)
  | and => exact plain (execTwo_frame h)
  | xor => exact plain (execTwo_frame h)
  | andNot => exact plain (execTwo_frame (f := fun x y => x &&& ~~~y) h)

theorem execAlu1_frame {I : Ialu} {o : Alu1} {d m : RegNum} {s t : State} (h : execAlu1 I o d m s = .next t) :
    Frame (gprCells I d ++ [Cell.flags I]) [] s t := by
  cases o with
  | abs => exact execAbs_frame h
  | not => exact execOne_frame h
  | ashiftr => exact execOne_frame h
  | lshiftr => exact execOne_frame h
  | rotr => exact execOne_frame h
  | rotl => exact execOne_frame h

/-- Every form leaves alone all but the cells it writes and the words it stores to. -/
theorem execForm_frame {f : Form} {s t : State} (h : execForm f s = .next t) :
    Frame (formWrites f) (formStored f s) s t := by
  cases f with
  | alu I o d m b => exact execAlu_frame h
  | alu1 I o d m => exact execAlu1_frame h
  | bl I sub d m b => exact execAddSubBL_frame h
  | comp I unsigned m b => exact execComp_frame h
  | ldU I z p u m b => exact execLdUreg_frame h
  | stU I z p u m b => exact execStUreg_frame h
  | ldD I a r op m b => exact execLdDreg_frame h
  | stD I a r op m b => exact execStDreg_frame h
  | dab I a r m b => exact execDab_frame h
  | ldImm u v => exact execLoadImm_frame h
  | move z d u => exact execMove_frame h
  | gscf one q => exact execGscf_frame h

/-! ## Which forms write flags -/

/-- The cell of a universal register is a flag group for JSTAT and KSTAT only (10_state.md R25). -/
theorem uregCell_eq_flags_iff (u : Ureg) (I : Ialu) : uregCell u = .flags I ↔ u = I.ureg 31 := by
  cases u with
  | j n => by_cases h : n = 31 <;> cases I <;> simp [uregCell, statOf, Ialu.ureg, h]
  | k n => by_cases h : n = 31 <;> cases I <;> simp [uregCell, statOf, Ialu.ureg, h]
  | _ => cases I <;> simp [uregCell, statOf, Ialu.ureg]

/-- Registers named as operand, index or result are no flags: number 31 stands for none of them (10_state.md R23, R24). -/
@[simp] theorem flags_notMem_gprCells (I I' : Ialu) (d : RegNum) : Cell.flags I ∉ gprCells I' d := by
  unfold gprCells; split <;> simp

/-- The cells of a group hold a flag group when the group has register 31 of that IALU. -/
theorem flags_mem_groupCells_iff (I : Ialu) (z : Size) (u : Ureg) :
    Cell.flags I ∈ groupCells z u ↔ I.ureg 31 ∈ u.group z := by
  simp [groupCells, uregCell_eq_flags_iff]

/-- Data-register loads fill no flags. -/
@[simp] theorem flags_notMem_ldCells (I : Ialu) (a : LdAcc) (r : RegNum) : Cell.flags I ∉ ldCells a r := by
  cases a <;> simp [ldCells]

/-- The forms that write flags: the operations of the IALU, and loads and moves into a group with its register 31. -/
theorem operates_or_fills_of_flags_mem {f : Form} {I : Ialu} (h : Cell.flags I ∈ formWrites f) :
    itemOperates (.ialu f.instr) = some I ∨
      ∃ z u, I.ureg 31 ∈ u.group z ∧
        ((∃ I' p m b, f = .ldU I' z p u m b) ∨ (∃ v, f = .ldImm u v ∧ z = .single) ∨ ∃ u', f = .move z u u') := by
  simp only [itemOperates, Laws.instr_form]
  cases f with
  | alu I' o d m b => left; simpa [formWrites, apply_ite (Cell.flags I ∈ ·), eq_comm] using h
  | alu1 I' o d m => left; simpa [formWrites, eq_comm] using h
  | bl I' sub d m b => left; simpa [formWrites, eq_comm] using h
  | comp I' unsigned m b => left; simpa [formWrites, eq_comm] using h
  | ldU I' z p u m b =>
    have hgroup : Cell.flags I ∈ groupCells z u :=
      (List.mem_append.1 h).resolve_right (by split <;> simp)
    exact .inr ⟨z, u, (flags_mem_groupCells_iff I z u).1 hgroup, .inl ⟨I', p, m, b, rfl⟩⟩
  | stU I' z p u m b => simp [formWrites, apply_ite (Cell.flags I ∈ ·)] at h
  | ldD I' a r op m b => simp [formWrites] at h
  | stD I' a r op m b => simp [formWrites] at h
  | dab I' a r m b => simp [formWrites] at h
  | ldImm u v =>
    have hu : Cell.flags I ∈ groupCells .single u := h
    exact .inr ⟨.single, u, (flags_mem_groupCells_iff I .single u).1 hu, .inr (.inl ⟨v, rfl, rfl⟩)⟩
  | move z d u => exact .inr ⟨z, d, (flags_mem_groupCells_iff I z d).1 h, .inr (.inr ⟨u, rfl⟩)⟩
  | gscf one q => simp [formWrites] at h

end Sys2Proof.Proofs
end

