-- ==== Sys2Proof/Proofs/RunLine.lean ====
section
/-! A line that completes: what it passed, where it ends, and where it goes on (10_state.md R36, 30_encoding.md R82). -/

namespace Sys2Proof.Proofs

open Sys2Proof Sys2Proof.Machine

theorem step_of_fetchLine {s : State} {l : Line} (h : fetchLine s = .ok l) : step s = runLine l s := by
  simp only [step, stepLine, h]

theorem finish_eq_next_iff {target : Nat} {o : Out} {t : State} :
    finish target o = .next t ↔ ∃ u, o = .next u ∧ t = endLine target u := by
  cases o <;> simp [finish, eq_comm]

/-- A line that answers a next state passed every check, executed its items and then ended. -/
theorem runLine_next {l : Line} {s t : State} (h : runLine l s = .next t) :
    lineError l = none ∧ anyPair (wordClash s) (activeItems l s) = false ∧
      firstRefusal ((activeItems l s).map fun it => execItem it s) = none ∧
      firstFault ((activeItems l s).map fun it => execItem it s) = none ∧
      ∃ u, execItems (activeItems l s) (headEffect l.cond s) = .next u ∧
        t = endLine (nextLine (activeItems l s) s) u := by
  simp only [runLine] at h
  split at h
  · cases h
  next htext =>
  split at h
  · cases h
  next hwords =>
  split at h
  · cases h
  next hrefusal =>
  split at h
  · cases h
  next hfault =>
  exact ⟨htext, Bool.eq_false_iff.2 hwords, hrefusal, hfault, finish_eq_next_iff.1 h⟩

/-- Items without a jump go on at the next line. -/
theorem nextLine_of_noJump {l : List Item} (h : ∀ it ∈ l, ∀ n, it ≠ .jump n) (s : State) : nextLine l s = s.pc + 1 := by
  induction l with
  | nil => rfl
  | cons it rest ih =>
    have hrest := ih fun it' hit => h it' (List.mem_cons_of_mem _ hit)
    cases it with
    | ialu i => exact hrest
    | nop => exact hrest
    | jump n => exact absurd rfl (h (.jump n) (List.mem_cons_self ..) n)

/-- Only items of the line execute. -/
theorem mem_of_mem_activeItems {l : Line} {s : State} {it : Item} (h : it ∈ activeItems l s) :
    ∃ li ∈ l.items, li.item = it := by
  obtain ⟨li, hli, rfl⟩ := List.mem_map.1 h
  exact ⟨li, (List.mem_filter.1 hli).1, rfl⟩

end Sys2Proof.Proofs
end

