-- ==== Sys2Proof/Proofs/UregMemory.lean ====
section
/-! Universal registers to memory and back (42_load_store.md R167 to R173): when a load or store completes and with what,
and that a group stored and loaded back is the group that was stored. -/

namespace Sys2Proof.Proofs

open Sys2Proof Sys2Proof.Machine

/-! ## Which forms are admitted -/

theorem ldU_error_none_iff (I : Ialu) (z : Size) (p : Modify) (u : Ureg) (m : RegNum) (b : Opnd) :
    (Form.ldU I z p u m b).error = none ↔ UregGroup z u ∧ (p = .post → m ≠ 31 ∧ I.ureg m ∉ u.group z) := by
  simp only [Form.error, firstReason_none, UregGroup]
  cases p <;> simp [and_assoc]

theorem stU_error_none_iff (I : Ialu) (z : Size) (p : Modify) (u : Ureg) (m : RegNum) (b : Opnd) :
    (Form.stU I z p u m b).error = none ↔ UregGroup z u ∧ (p = .post → m ≠ 31) := by
  simp only [Form.error, firstReason_none, UregGroup]
  cases p <;> simp [and_assoc]

/-! ## Completion -/

/-- The registers of an IALU are never unwritten; only a data register can be (43_dab.md R209). -/
theorem readable_ialuGroup (I : Ialu) (m : RegNum) (z : Size) (s : State) : Readable ((I.ureg m).group z) s := by
  intro u hu
  obtain ⟨k, hk, rfl⟩ := List.getElem_of_mem hu
  rw [group_getElem]
  cases I <;> rfl

section Completion

variable {I : Ialu} {z : Size} {p : Modify} {u : Ureg} {m : RegNum} {b : Opnd} {s : State}

theorem execLdUreg_completes (he : (Form.ldU I z p u m b).error = none) (hr : Reachable s (uregAddr I p m b s) z.count) :
    execLdUreg I z p u m b s =
      .next (uregUpdate I p m b s (writeUregs ((u.group z).zip (readWords s.mem (uregAddr I p m b s) z.count)) s)) := by
  rw [execLdUreg, guardForm_none he, withAccess_ok hr]

theorem execStUreg_completes (he : (Form.stU I z p u m b).error = none) (hs : Readable (u.group z) s)
    (hr : Reachable s (uregAddr I p m b s) z.count) :
    execStUreg I z p u m b s =
      .next (uregUpdate I p m b s { (readUregs (u.group z) s).2 with
        mem := writeWords s.mem (uregAddr I p m b s) (readUregs (u.group z) s).1 }) := by
  rw [execStUreg, guardForm_none he, withSources_ok hs, withAccess_ok hr]

end Completion

/-! ## What is loaded and stored -/

/-- Filling a group from memory loads it. -/
theorem loaded_writeUregs {z : Size} {u : Ureg} (hu : u.groupOk z = true) (a : Nat) (s : State) :
    Loaded z u a s (writeUregs ((u.group z).zip (readWords s.mem a z.count)) s) := by
  intro k hk
  have hlen : (u.group z).length ≤ (readWords s.mem a z.count).length := by simp [group_length]
  have hg : k < (u.group z).length := by rwa [group_length]
  have hn : (((u.group z).zip (readWords s.mem a z.count)).map fun p => uregCell p.1).Nodup := by
    have := group_nodup hu
    rwa [← List.map_fst_zip hlen, List.map_map] at this
  have hmem : (u.shift k, readWord s.mem (a + k)) ∈ (u.group z).zip (readWords s.mem a z.count) := by
    rw [List.mem_iff_getElem]
    exact ⟨k, by simpa [group_length] using hk, by simp [group_getElem, readWords_getElem]⟩
  exact holds_writeUregs _ s hn _ hmem

/-- Memory that took the words of a group stores it. -/
theorem stored_of_mem {z : Size} {u : Ureg} {a : Nat} {s t : State} (hwf : s.mem.wf = true)
    (hmem : t.mem = writeWords s.mem a (readUregs (u.group z) s).1) : Stored z u a s t := by
  intro k hk
  have hg : k < (u.group z).length := by rwa [group_length]
  rw [hmem, readWord_writeWords hwf a _ k (by simpa using hg), ← group_getElem z u k hg]
  exact delivers_readUregs (u.group z) s k hg

/-! ## There and back -/

/-- A general register that holds a word it delivered before has its value back; number 31 reads 0 in any case. -/
theorem aluread_of_delivers_holds {I : Ialu} {r : RegNum} {w : Word} {s t : State} (hd : Delivers (I.ureg r) w s)
    (hh : Holds (I.ureg r) w t) : aluread I r t = aluread I r s := by
  by_cases h31 : r = 31
  · subst h31; rfl
  · have hstat : statOf (I.ureg r) = none := by cases I <;> simp [Ialu.ureg, statOf, h31]
    rw [Delivers, hstat] at hd
    rw [Holds, hstat] at hh
    cases I <;> exact hh.1.trans hd

/-- A status register that holds a word it delivered before has its flags back, wherever they stand in the word. -/
theorem flagsOf_of_delivers_holds {I : Ialu} {w : Word} {s t : State} (hd : Delivers (I.ureg 31) w s)
    (hh : Holds (I.ureg 31) w t) : t.flagsOf I = s.flagsOf I := by
  cases I <;> exact Eq.trans hh hd

end Sys2Proof.Proofs
end

