-- ==== Sys2Proof/Proofs/State.lean ====
section
/-! The statements of 10_state.md: reset, the program counter, register 31, the status registers, and what an instruction
leaves alone. -/

namespace Sys2Proof.Proofs

open Sys2Proof Sys2Proof.Machine

/-! ## Reset -/

/-- Settles O8: nothing is listed in memory after reset, and no write age counts. -/
theorem resetMeetsInvariant : Obligations.ResetMeetsInvariant := by
  unfold Obligations.ResetMeetsInvariant
  have ages : ∀ I d, holdOf I d State.reset = 0 := by
    intro I d
    cases I <;> cases d <;> exact Vector.getElem_replicate _
  exact ⟨rfl, by simp [State.reset], fun I d => by simp [ages]⟩

/-! ## What an instruction leaves alone -/

/-- Settles O11: an instruction means what its form means (`exec_eq_execForm`), and every form keeps its frame
(`execForm_frame`). -/
theorem everyInstructionKeepsItsFrame : Obligations.EveryInstructionKeepsItsFrame := by
  unfold Obligations.EveryInstructionKeepsItsFrame
  intro i s t h
  rw [storedWords_eq_formStored]
  exact execForm_frame ((exec_eq_execForm i s).symm.trans h)

/-- Flags that change are among the cells the instruction writes. -/
theorem flags_mem_formWrites_of_ne {i : Instr} {s t : State} {I : Ialu} (h : exec i s = .next t)
    (hne : t.flagsOf I ≠ s.flagsOf I) : Cell.flags I ∈ formWrites i.form := by
  by_contra hw
  exact hne ((everyInstructionKeepsItsFrame i s t h).cells (.flags I) hw)

/-- Settles O12: by the frame of the instruction, flags change only where its form writes them. -/
theorem flagsChangeOnlyByTheirIalu : Obligations.FlagsChangeOnlyByTheirIalu := by
  unfold Obligations.FlagsChangeOnlyByTheirIalu
  intro i s t I h hne
  have hforms := operates_or_fills_of_flags_mem (flags_mem_formWrites_of_ne h hne)
  rwa [form_instr] at hforms

/-! ## The program counter -/

/-- Settles O10: a line that completes ends at `nextLine`, which only a jump takes elsewhere. -/
theorem lineWithoutJumpGoesToTheNext : Obligations.LineWithoutJumpGoesToTheNext := by
  unfold Obligations.LineWithoutJumpGoesToTheNext
  intro s t l hfetch hjump hstep
  rw [step_of_fetchLine hfetch] at hstep
  obtain ⟨-, -, -, -, u, -, rfl⟩ := runLine_next hstep
  refine nextLine_of_noJump (fun it hit n => ?_) s
  obtain ⟨li, hli, rfl⟩ := mem_of_mem_activeItems hit
  exact hjump li hli n

/-! ## Register 31 -/

/-- Settles O25: register 31 has no stored word (`aluread_31`, `aluwrite_31`), so the add only sets the flags. -/
theorem register31ReadsZeroAndDiscards : Obligations.Register31ReadsZeroAndDiscards := by
  unfold Obligations.Register31ReadsZeroAndDiscards
  intro I m b s
  have hexec : exec (pickIalu I (.jAdd 31 m b) (.kAdd 31 m b)) s
      = .next (s.setFlags I (addFlags (aluread I m s) (opndVal I b s))) := by
    have hform : pickIalu I (.jAdd 31 m b) (.kAdd 31 m b) = (Form.alu I .add 31 m b).instr := by cases I <;> rfl
    rw [hform, exec_instr]
    simp [execForm, execAlu, execAddSub]
  exact ⟨aluread_31 s I, aluwrite_31 s I, _, hexec, setFlags_frame I _ s, setFlags_flagsOf s I _⟩

/-! ## The status registers in memory -/

/-- J31:28 and K31:28 are quads (10_state.md R37). -/
theorem uregGroup_statusQuad (I : Ialu) : UregGroup .quad (I.ureg 28) := by
  cases I <;> exact ⟨rfl, rfl⟩

/-- The registers from 28 on are the members of the quad. -/
theorem ureg_eq_shift (I : Ialu) {r : RegNum} (hr : 28 ≤ r.val) :
    ∃ k, k < Size.quad.count ∧ I.ureg r = (I.ureg 28).shift k := by
  refine ⟨r.val - 28, by simp [Size.count]; omega, ?_⟩
  have hval : 28 + (r.val - 28) = r.val := by omega
  cases I <;> simp [Ialu.ureg, Ureg.shift, hval]

/-- Settles O49: the store leaves in memory what each register of the quad delivers (`stored_of_mem`), and the load makes
each register hold its word (`loaded_writeUregs`). -/
theorem statusQuadSavesAndRestores : Obligations.StatusQuadSavesAndRestores := by
  unfold Obligations.StatusQuadSavesAndRestores
  intro I I' m b s u hwf hr
  have hgroup := uregGroup_statusQuad I'
  have hst : pickIalu I (.jStUregQPre (I'.ureg 28) m b) (.kStUregQPre (I'.ureg 28) m b)
      = (Form.stU I .quad .pre (I'.ureg 28) m b).instr := by cases I <;> rfl
  have hld : pickIalu I (.jLdUregQPre (I'.ureg 28) m b) (.kLdUregQPre (I'.ureg 28) m b)
      = (Form.ldU I .quad .pre (I'.ureg 28) m b).instr := by cases I <;> rfl
  rw [hst, hld]
  simp only [exec_instr, execForm]
  refine ⟨_, execStUreg_completes ((stU_error_none_iff ..).2 ⟨hgroup, nofun⟩) (readable_ialuGroup I' 28 .quad s) hr, ?_⟩
  intro hmem hmap haddr
  have hr' : Reachable u (preAddr I m b u) 4 := by
    simpa [Reachable, haddr, hmap, uregUpdate] using hr
  refine ⟨_, execLdUreg_completes ((ldU_error_none_iff ..).2 ⟨hgroup, nofun⟩) hr', ?_⟩
  have hstored : Stored .quad (I'.ureg 28) (preAddr I m b u) s u := by
    rw [haddr]
    exact stored_of_mem hwf hmem
  have hloaded := loaded_writeUregs hgroup.1 (preAddr I m b u) u
  refine ⟨?_, fun r hr28 => ?_⟩
  · obtain ⟨k, hk, h31⟩ := ureg_eq_shift I' (r := 31) (by decide)
    exact flagsOf_of_delivers_holds (h31 ▸ hstored k hk) (h31 ▸ hloaded k hk)
  · obtain ⟨k, hk, hrk⟩ := ureg_eq_shift I' hr28
    exact aluread_of_delivers_holds (hrk ▸ hstored k hk) (hrk ▸ hloaded k hk)

end Sys2Proof.Proofs
end

/-! The statements of 20_memory.md: what every step keeps. An item of a line may write words that exist and start write
ages; the end of the line makes every age one line older. -/

namespace Sys2Proof.Proofs

open Sys2Proof Sys2Proof.Machine

/-! ## Running a line -/

/-- Evaluating the head changes LC0 at most (92_eei_decisions.md D23). -/
theorem headEffect_frame (q : Option LineCond) (s : State) : Frame [.reg .lc0] [] s (headEffect q s) := by
  unfold headEffect
  split
  · split
    · exact writeUreg_frame .lc0 (s.lc0 - 1) s
    · exact (draw_frame s).comp (writeUreg_frame .lc0 (draw s).1 (draw s).2)
  · exact Frame.rfl' s _ _

@[simp] theorem headEffect_mem (q : Option LineCond) (s : State) : (headEffect q s).mem = s.mem := by
  unfold headEffect
  split
  · split <;> rfl
  · rfl

/-- An item leaves alone all but the cells it writes and the words it stores to. -/
theorem execItem_frame {it : Item} {s t : State} (h : execItem it s = .next t) :
    Frame (itemWrites it) (itemStored it s) s t := by
  cases it with
  | ialu i => exact everyInstructionKeepsItsFrame i s t h
  | nop => cases h; exact Frame.rfl' s _ _
  | jump n => cases h; exact Frame.rfl' s _ _

/-- What every item keeps, a run of items keeps. -/
theorem execItems_keeps {P : State → Prop} (hP : ∀ it s t, execItem it s = .next t → P s → P t) {l : List Item}
    {s t : State} (h : execItems l s = .next t) (hs : P s) : P t := by
  induction l generalizing s with
  | nil => cases h; exact hs
  | cons it rest ih =>
    simp only [execItems] at h
    split at h
    next u hu => exact ih h (hP it s u hu hs)
    · cases h
    · cases h

/-- A step that answers a next state ran the items of its line after the head, and then ended the line. -/
theorem step_next {s t : State} (h : step s = .next t) :
    ∃ l u, execItems (activeItems l s) (headEffect l.cond s) = .next u ∧
      t = endLine (nextLine (activeItems l s) s) u := by
  simp only [step, stepLine] at h
  split at h
  · cases h
  next l hfetch =>
    obtain ⟨-, -, -, -, u, hu, ht⟩ := runLine_next h
    exact ⟨l, u, hu, ht⟩

/-! ## The program text and the map -/

/-- Settles O9: no item has the text or the map in its frame (`execItem_frame`), neither has the head
(`headEffect_frame`), and the end of a line moves ages and the program counter only. -/
theorem stepKeepsProgramAndMap : Obligations.StepKeepsProgramAndMap := by
  unfold Obligations.StepKeepsProgramAndMap
  intro s t h
  obtain ⟨l, u, hu, rfl⟩ := step_next h
  have hhead := headEffect_frame l.cond s
  have hitems : u.prog = s.prog ∧ u.memMap = s.memMap := by
    refine execItems_keeps (P := fun v => v.prog = s.prog ∧ v.memMap = s.memMap) ?_ hu ⟨hhead.text, hhead.map⟩
    rintro it v w hw ⟨htext, hmap⟩
    have hitem := execItem_frame hw
    exact ⟨hitem.text.trans htext, hitem.map.trans hmap⟩
  exact hitems

/-! ## Write ages inside a line -/

theorem blUreg_inj {I I' : Ialu} {d d' : BLReg} (h : blUreg I d = blUreg I' d') : I = I' ∧ d = d' := by
  cases I <;> cases I' <;> cases d <;> cases d' <;> simp_all [blUreg]

/-- The countdown of every base or length register is as before, or a write has just started it (70_reset_and_hazards.md
R286). -/
def AgesKeptOrStarted (s t : State) : Prop := ∀ I d, holdOf I d t = holdOf I d s ∨ holdOf I d t = holdStart

theorem AgesKeptOrStarted.trans {s t u : State} (h1 : AgesKeptOrStarted s t) (h2 : AgesKeptOrStarted t u) :
    AgesKeptOrStarted s u := by
  intro I d
  rcases h2 I d with h | h
  · rw [h]; exact h1 I d
  · exact .inr h

/-- An effect that writes no base or length register starts no age. -/
theorem AgesKeptOrStarted.of_frame {w : List Cell} {st : List Nat} {s t : State} (h : Frame w st s t)
    (hw : ∀ I d, Cell.reg (blUreg I d) ∉ w) : AgesKeptOrStarted s t :=
  fun I d => .inl (h.ages I d (hw I d))

@[simp] theorem holdOf_writeBL_self (I : Ialu) (d : BLReg) (v : Word) (s : State) :
    holdOf I d (writeBL I d v s) = holdStart := by
  cases d <;> simp [holdOf, writeBL, IaluState.writeBL]

theorem writeBL_ages (I : Ialu) (d : BLReg) (v : Word) (s : State) : AgesKeptOrStarted s (writeBL I d v s) := by
  intro I' d'
  by_cases h : blUreg I' d' = blUreg I d
  · obtain ⟨rfl, rfl⟩ := blUreg_inj h
    exact .inr (holdOf_writeBL_self ..)
  · exact .inl ((writeBL_frame I d v s).ages I' d' (by simpa using h))

theorem writeUreg_blUreg (I : Ialu) (d : BLReg) (v : Word) (s : State) :
    writeUreg (blUreg I d) v s = writeBL I d v s := by
  cases I <;> cases d <;> rfl

/-- The cell of a base or length register is that of no other register: status registers are flags (10_state.md R25). -/
theorem uregCell_eq_blUreg_iff (u : Ureg) (I : Ialu) (d : BLReg) : uregCell u = .reg (blUreg I d) ↔ u = blUreg I d := by
  have hbl : statOf (blUreg I d) = none := by cases I <;> cases d <;> rfl
  unfold uregCell
  cases hu : statOf u with
  | some I' =>
    have hne : u ≠ blUreg I d := by rintro rfl; simp [hbl] at hu
    simp [hne]
  | none => simp

theorem writeUreg_ages (u : Ureg) (v : Word) (s : State) : AgesKeptOrStarted s (writeUreg u v s) := by
  by_cases h : ∃ I d, u = blUreg I d
  · obtain ⟨I, d, rfl⟩ := h
    rw [writeUreg_blUreg]
    exact writeBL_ages I d v s
  · refine .of_frame (writeUreg_frame u v s) fun I d hmem => h ⟨I, d, ?_⟩
    exact (uregCell_eq_blUreg_iff u I d).1 (List.mem_singleton.1 hmem).symm

theorem writeUregs_ages (l : List (Ureg × Word)) (s : State) : AgesKeptOrStarted s (writeUregs l s) := by
  induction l generalizing s with
  | nil => exact fun _ _ => .inl rfl
  | cons p rest ih => exact (writeUreg_ages p.1 p.2 s).trans (ih _)

/-- General registers are no base or length registers. -/
@[simp] theorem blUreg_notMem_gprCells (I I' : Ialu) (d : BLReg) (m : RegNum) :
    Cell.reg (blUreg I d) ∉ gprCells I' m := by
  unfold gprCells
  split
  · simp
  · cases I <;> cases I' <;> cases d <;> simp [blUreg, Ialu.ureg]

@[simp] theorem dregUreg_ne_blUreg (c : Blk) (r : RegNum) (I : Ialu) (d : BLReg) : dregUreg c r ≠ blUreg I d := by
  cases c <;> cases I <;> cases d <;> simp [dregUreg, blUreg]

@[simp] theorem cjmp_ne_blUreg (I : Ialu) (d : BLReg) : blUreg I d ≠ .cjmp := by
  cases I <;> cases d <;> simp [blUreg]

@[simp] theorem blUreg_notMem_ldCells (I : Ialu) (d : BLReg) (a : LdAcc) (r : RegNum) :
    Cell.reg (blUreg I d) ∉ ldCells a r := by
  cases a <;> simp [ldCells]

/-- A form starts ages where it writes base or length registers, and changes no other age. -/
theorem execForm_ages {f : Form} {s t : State} (h : execForm f s = .next t) : AgesKeptOrStarted s t := by
  have no_age : (∀ I d, Cell.reg (blUreg I d) ∉ formWrites f) → AgesKeptOrStarted s t := .of_frame (execForm_frame h)
  cases f with
  | alu I o d m b => exact no_age (by simp [formWrites])
  | alu1 I o d m => exact no_age (by simp [formWrites])
  | bl I sub d m b =>
    cases h
    exact (writeBL_ages I d _ s).trans (.of_frame (setFlags_frame I _ _) (by simp))
  | comp I unsigned m b => exact no_age (by simp [formWrites])
  | ldU I z p u m b =>
    obtain ⟨-, -, rfl⟩ := execLdUreg_next h
    exact (writeUregs_ages _ s).trans (.of_frame (uregUpdate_frame I p m b s _) (by simp))
  | stU I z p u m b => exact no_age (by simp [formWrites])
  | ldD I a r op m b => exact no_age (by simp [formWrites])
  | stD I a r op m b => exact no_age (by simp [formWrites])
  | dab I a r m b => exact no_age (by simp [formWrites])
  | ldImm u v =>
    obtain ⟨-, h⟩ := guardForm_next h
    cases h
    exact writeUreg_ages u v s
  | move z d u =>
    obtain ⟨-, -, rfl⟩ := execMove_next h
    exact (AgesKeptOrStarted.of_frame (readUregs_frame (u.group z) s) (by simp)).trans (writeUregs_ages _ _)
  | gscf one q => exact no_age (by simp [formWrites])

/-! ## Memory inside a line -/

/-- Memory changes by a write of consecutive words that all exist, possibly none (20_memory.md R58). -/
def StoresMapped (s t : State) : Prop :=
  ∃ a ws, (∀ k, k < ws.length → mapped s.memMap (a + k) = true) ∧ t.mem = writeWords s.mem a ws

theorem StoresMapped.of_mem_eq {s t : State} (h : t.mem = s.mem) : StoresMapped s t := ⟨0, [], nofun, h⟩

@[simp] theorem uregUpdate_mem (I : Ialu) (p : Modify) (m : RegNum) (b : Opnd) (s0 s : State) :
    (uregUpdate I p m b s0 s).mem = s.mem := by
  cases p <;> simp [uregUpdate]

/-- Operations of the IALU work on registers only. -/
theorem execAlu_mem {I : Ialu} {o : Alu2} {d m : RegNum} {b : Opnd} {s t : State}
    (h : execAlu I o d m b s = .next t) : t.mem = s.mem := by
  cases o with
  | addCjmp | subCjmp | addBr | subBr =>
    obtain ⟨-, h⟩ := guardForm_next h
    cases h
    simp
  | addCb | subCb =>
    obtain ⟨-, h⟩ := guardForm_next h
    obtain ⟨new, -, h⟩ := withValue_next h
    cases h
    simp
  | _ => cases h; simp

theorem execAlu1_mem {I : Ialu} {o : Alu1} {d m : RegNum} {s t : State} (h : execAlu1 I o d m s = .next t) :
    t.mem = s.mem := by
  cases o with
  | _ => cases h; simp

/-- Only the two kinds of store change memory, and only words their access reaches. -/
theorem execForm_mem {f : Form} {s t : State} (h : execForm f s = .next t) : StoresMapped s t := by
  cases f with
  | alu I o d m b => exact .of_mem_eq (execAlu_mem h)
  | alu1 I o d m => exact .of_mem_eq (execAlu1_mem h)
  | bl I sub d m b => cases h; exact .of_mem_eq (by simp [writeBL])
  | comp I unsigned m b => cases h; exact .of_mem_eq (by simp)
  | ldU I z p u m b =>
    obtain ⟨-, -, rfl⟩ := execLdUreg_next h
    exact .of_mem_eq (by simp)
  | stU I z p u m b =>
    obtain ⟨-, -, ⟨-, hmapped⟩, rfl⟩ := execStUreg_next h
    exact ⟨uregAddr I p m b s, (readUregs (u.group z) s).1, by simpa [group_length] using hmapped, by simp⟩
  | ldD I a r op m b =>
    obtain ⟨-, -, new, -, rfl⟩ := execLdDreg_next h
    exact .of_mem_eq (by simp)
  | stD I a r op m b =>
    obtain ⟨-, -, ⟨-, hmapped⟩, new, -, rfl⟩ := execStDreg_next h
    exact ⟨dregAddr I m s, _, by simpa using hmapped, aluwrite_mem ..⟩
  | dab I a r m b =>
    obtain ⟨-, -, upd, -, rfl⟩ := execDab_next h
    exact .of_mem_eq (by simp)
  | ldImm u v =>
    obtain ⟨-, h⟩ := guardForm_next h
    cases h
    exact .of_mem_eq (by simp)
  | move z d u =>
    obtain ⟨-, -, rfl⟩ := execMove_next h
    exact .of_mem_eq (by simp)
  | gscf one q => cases h; cases one <;> exact .of_mem_eq rfl

/-! ## The invariant -/

/-- The invariant inside a line: as between lines (`Inv`), but an age that the line has started has not been counted
down yet. -/
structure MidLineInv (s : State) : Prop where
  memWf : s.mem.wf = true
  memMapped : ∀ c, c ∈ s.mem → mapped s.memMap (c.1 / 4) = true
  holds : ∀ I d, holdOf I d s ≤ holdStart

theorem MidLineInv.of_inv {s : State} (h : Inv s) : MidLineInv s where
  memWf := h.memWf
  memMapped := h.memMapped
  holds I d := (h.holds I d).trans (by decide)

/-- Writing words that exist and starting ages keeps the invariant inside a line. -/
theorem MidLineInv.preserved {s t : State} (h : MidLineInv s) (hmem : StoresMapped s t) (hages : AgesKeptOrStarted s t)
    (hmap : t.memMap = s.memMap) : MidLineInv t := by
  obtain ⟨a, ws, hws, hmem⟩ := hmem
  refine ⟨?_, fun c hc => ?_, fun I d => ?_⟩
  · rw [hmem]
    exact writeWords_wf h.memWf a ws
  · rw [hmem] at hc
    rw [hmap]
    rcases mem_writeWords hc with hold | ⟨hlow, hhigh⟩
    · exact h.memMapped c hold
    · have hword := hws (c.1 / 4 - a) (by omega)
      rwa [Nat.add_sub_cancel' hlow] at hword
  · rcases hages I d with hkept | hstarted
    · exact hkept.le.trans (h.holds I d)
    · exact hstarted.le

theorem headEffect_midLineInv {s : State} (q : Option LineCond) (h : MidLineInv s) : MidLineInv (headEffect q s) := by
  have hlc0 : ∀ I d, Cell.reg (blUreg I d) ∉ [Cell.reg .lc0] := by
    intro I d; cases I <;> cases d <;> simp [blUreg]
  have hframe := headEffect_frame q s
  exact h.preserved (.of_mem_eq (headEffect_mem q s)) (.of_frame hframe hlc0) hframe.map

theorem execItem_midLineInv {it : Item} {s t : State} (hx : execItem it s = .next t) (h : MidLineInv s) :
    MidLineInv t := by
  cases it with
  | ialu i =>
    have hform : execForm i.form s = .next t := (exec_eq_execForm i s).symm.trans hx
    exact h.preserved (execForm_mem hform) (execForm_ages hform) (execForm_frame hform).map
  | nop => cases hx; exact h
  | jump n => cases hx; exact h

/-- Ending a line takes one off every countdown (70_reset_and_hazards.md R286). -/
@[simp] theorem holdOf_endLine (I : Ialu) (d : BLReg) (target : Nat) (s : State) :
    holdOf I d (endLine target s) = holdOf I d s - 1 := by
  cases I <;> cases d <;> simp [holdOf, endLine, State.ialu, IaluState.tick]

theorem MidLineInv.endLine {s : State} (h : MidLineInv s) (target : Nat) : Inv (endLine target s) where
  memWf := h.memWf
  memMapped := h.memMapped
  holds I d := by
    rw [holdOf_endLine]
    exact Nat.sub_le_sub_right (h.holds I d) 1

/-- Settles O7: the head and every item keep the invariant inside a line, in which an age may stand at its start, and the
end of the line takes that age back to four. -/
theorem stepKeepsInvariant : Obligations.StepKeepsInvariant := by
  unfold Obligations.StepKeepsInvariant
  intro s t hinv h
  obtain ⟨l, u, hu, rfl⟩ := step_next h
  have hmid : MidLineInv u :=
    execItems_keeps (fun _ _ _ => execItem_midLineInv) hu (headEffect_midLineInv l.cond (.of_inv hinv))
  exact hmid.endLine _

end Sys2Proof.Proofs

/-! The container encoding the other way (assumption 1): a word that decodes is the word the encoder writes for what it
decodes to. -/

namespace Sys2Proof.Proofs

open Sys2Proof Sys2Proof.Machine

/-! ## The code of a part that was read from a number is that number -/

theorem field_lt (w : Word) (lo n : Nat) : field w lo n < 2 ^ n := Nat.mod_lt _ (Nat.two_pow_pos n)

theorem regNum_val_of_lt {n : Nat} (h : n < 32) : (regNum n).val = n := Nat.mod_eq_of_lt h

theorem ialu_code_ofCode {n : Nat} (h : n < 2) : (Ialu.ofCode n).code = n := by
  interval_cases n <;> rfl

theorem size_code_of_ofCode {n : Nat} {z : Size} (h : Size.ofCode n = some z) : z.code = n := by
  unfold Size.ofCode at h
  split at h <;> cases h <;> rfl

theorem merged_code_of_ofCode {n : Nat} {d : Bool} (h : mergedOfCode n = some d) : mergedCode d = n := by
  unfold mergedOfCode at h
  split at h <;> cases h <;> rfl

theorem both_code_of_ofCode {n : Nat} {c : Both} (h : Both.ofCode n = some c) : c.code = n := by
  unfold Both.ofCode at h
  split at h <;> cases h <;> rfl

theorem blk_code_of_ofCode {n : Nat} {c : Blk} (h : Blk.ofCode n = some c) : c.code = n := by
  unfold Blk.ofCode at h
  split at h <;> cases h <;> rfl

theorem pmOp_code_of_ofCode {n : Nat} {o : PmOp} (h : PmOp.ofCode n = some o) : o.code = n := by
  unfold PmOp.ofCode at h
  split at h <;> cases h <;> rfl

theorem cond_code_of_ofCode {n : Nat} {q : Cond} (h : Cond.ofCode n = some q) : q.code = n := by
  unfold Cond.ofCode at h
  split at h <;> cases h <;> rfl

theorem alu2_code_of_ofCode {n : Nat} {o : Alu2} (h : Alu2.ofCode n = some o) : o.code = n := by
  unfold Alu2.ofCode at h
  split at h <;> cases h <;> rfl

theorem alu1_code_of_ofCode {n : Nat} {o : Alu1} (h : Alu1.ofCode n = some o) : o.code = n := by
  unfold Alu1.ofCode at h
  split at h <;> cases h <;> rfl

theorem blReg_code_of_ofCode {n : Nat} {d : BLReg} (h : BLReg.ofCode n = some d) : d.code = n := by
  unfold BLReg.ofCode at h
  split at h
  · cases h
    simp only [BLReg.code, Fin.val_ofNat]
    omega
  · split at h <;> cases h
    simp only [BLReg.code, Fin.val_ofNat]
    omega

theorem ureg_code_of_ofCode {n : Nat} {u : Ureg} (h : Ureg.ofCode n = some u) : u.code = n := by
  simp only [Ureg.ofCode, regNum] at h
  repeat' split at h
  case h_5.isTrue h144 h145 h146 h147 _ =>
    rw [imp_false] at h144 h145 h146 h147
    cases h
    simp only [Ureg.code, Fin.val_ofNat]
    omega
  all_goals
    cases h <;> simp only [Ureg.code, Fin.val_ofNat] <;> omega

theorem ldAcc_code_of_ofCode {p wd : Nat} {a : LdAcc} (h : LdAcc.ofCode p wd = some a) : a.code = (p, wd) := by
  unfold LdAcc.ofCode at h
  split at h <;> cases h
  case h_1 hc hz => simp only [LdAcc.code, both_code_of_ofCode hc, size_code_of_ofCode hz]
  case h_2 hc hd _ => simp only [LdAcc.code, both_code_of_ofCode hc, merged_code_of_ofCode hd]
  case h_3 hc hz _ => simp only [LdAcc.code, blk_code_of_ofCode hc, size_code_of_ofCode hz]

theorem stAcc_code_of_ofCode {p wd : Nat} {a : StAcc} (h : StAcc.ofCode p wd = some a) : a.code = (p, wd) := by
  unfold StAcc.ofCode at h
  split at h <;> cases h
  case h_1 hc hd => simp only [StAcc.code, both_code_of_ofCode hc, merged_code_of_ofCode hd]
  case h_2 hc hz _ => simp only [StAcc.code, blk_code_of_ofCode hc, size_code_of_ofCode hz]

theorem dab_width_of_dabShort {n : Nat} {short : Bool} (h : dabShort n = some short) :
    (if short then 5 else 2) = n := by
  unfold dabShort at h
  split at h <;> cases h <;> rfl

/-- The codes below 3 are those of the plain operators. -/
theorem three_le_of_pmOp_ofCode {o : Nat} (h : PmOp.ofCode o = none) : 3 ≤ o := by
  by_contra hlt
  rw [not_le] at hlt
  interval_cases o <;> cases h

theorem dabKind_codes_of_ofCode {o p wd : Nat} {a : DabKind} (ho : o < 8) (hpm : PmOp.ofCode o = none)
    (h : DabKind.ofCode o p wd = some a) : a.opCode = o ∧ a.blockCode = p ∧ a.widthCode = wd := by
  have hlow := three_le_of_pmOp_ofCode hpm
  unfold DabKind.ofCode at h
  split at h
  next h3 =>
    split at h <;> cases h
    case h_1 hs hc => exact ⟨h3.symm, both_code_of_ofCode hc, dab_width_of_dabShort hs⟩
    case h_2 hs hc _ => exact ⟨h3.symm, blk_code_of_ofCode hc, dab_width_of_dabShort hs⟩
  next h3 =>
    split at h <;> cases h
    next hc =>
    have hoffset : 4 ≤ o := by omega
    refine ⟨?_, both_code_of_ofCode hc, rfl⟩
    interval_cases o <;> rfl

/-- An operand read from a nine-bit code has that code, and the value it takes from the next word, if it takes one, is
that word. -/
theorem opnd_code_of_ofCode {n : Nat} {e : Word} {b : Opnd} (hn : n < 512) (h : Opnd.ofCode n e = some b) :
    b.code = n ∧ (b.ext = [] ∨ b.ext = [e]) := by
  unfold Opnd.ofCode at h
  split at h
  next hpos =>
    cases h
    have hv : (BitVec.ofNat 32 n).toNat = n := by rw [BitVec.toNat_ofNat]; omega
    have hshort : isLong8 (BitVec.ofNat 32 n) = false := isLong8_eq_false.2 (by omega)
    simp [Opnd.code, Opnd.ext, hshort, hv, Nat.mod_eq_of_lt hn]
  split at h
  next hreg =>
    cases h
    refine ⟨?_, .inl rfl⟩
    rw [Opnd.code, regNum_val_of_lt (by omega)]
    omega
  split at h
  next hlong =>
    split at h <;> cases h
    next he => simp [Opnd.code, Opnd.ext, he, hlong]
  split at h <;> cases h
  next hneg =>
    have hv : (BitVec.ofNat 32 (n + (2 ^ 32 - 2 ^ 9))).toNat = n + (2 ^ 32 - 2 ^ 9) := by
      rw [BitVec.toNat_ofNat]; omega
    have hshort : isLong8 (BitVec.ofNat 32 (n + (2 ^ 32 - 2 ^ 9))) = false := isLong8_eq_false.2 (by omega)
    refine ⟨?_, .inl (by simp only [Opnd.ext, hshort, Bool.false_eq_true, if_false])⟩
    simp only [Opnd.code, hshort, Bool.false_eq_true, if_false, hv]
    omega

/-! ## A word is the sum of its fields -/

/-- Taking a field off the low end of what is above bit `lo`. -/
theorem div_eq_field_add (w : Word) (lo n hi : Nat) (h : lo + n = hi) :
    w.toNat / 2 ^ lo = field w lo n + 2 ^ n * (w.toNat / 2 ^ hi) := by
  rw [← h, pow_add, ← Nat.div_div_eq_div_mul, field, Nat.mod_add_div]

theorem toNat_eq_div_pow_zero (w : Word) : w.toNat = w.toNat / 2 ^ 0 := by rw [pow_zero, Nat.div_one]

theorem div_pow_32_eq_zero (w : Word) : w.toNat / 2 ^ 32 = 0 := Nat.div_eq_of_lt w.isLt

theorem toNat_eq_dregFields (w : Word) : w.toNat = field w 30 2 * 2 ^ 30 + field w 29 1 * 2 ^ 29
    + field w 26 3 * 2 ^ 26 + field w 23 3 * 2 ^ 23 + field w 18 5 * 2 ^ 18 + field w 13 5 * 2 ^ 13
    + field w 10 3 * 2 ^ 10 + field w 9 1 * 2 ^ 9 + field w 0 9 := by
  have hsplit := div_eq_field_add w
  rw [toNat_eq_div_pow_zero, hsplit 0 9 9 rfl, hsplit 9 1 10 rfl, hsplit 10 3 13 rfl, hsplit 13 5 18 rfl,
    hsplit 18 5 23 rfl, hsplit 23 3 26 rfl, hsplit 26 3 29 rfl, hsplit 29 1 30 rfl, hsplit 30 2 32 rfl,
    div_pow_32_eq_zero]
  omega

theorem toNat_eq_uregFields (w : Word) : w.toNat = field w 30 2 * 2 ^ 30 + field w 29 1 * 2 ^ 29
    + field w 28 1 * 2 ^ 28 + field w 26 2 * 2 ^ 26 + field w 18 8 * 2 ^ 18 + field w 13 5 * 2 ^ 13
    + field w 10 3 * 2 ^ 10 + field w 9 1 * 2 ^ 9 + field w 0 9 := by
  have hsplit := div_eq_field_add w
  rw [toNat_eq_div_pow_zero, hsplit 0 9 9 rfl, hsplit 9 1 10 rfl, hsplit 10 3 13 rfl, hsplit 13 5 18 rfl,
    hsplit 18 8 26 rfl, hsplit 26 2 28 rfl, hsplit 28 1 29 rfl, hsplit 29 1 30 rfl, hsplit 30 2 32 rfl,
    div_pow_32_eq_zero]
  omega

theorem toNat_eq_arithFields (w : Word) : w.toNat = field w 30 2 * 2 ^ 30 + field w 28 2 * 2 ^ 28
    + field w 27 1 * 2 ^ 27 + field w 22 5 * 2 ^ 22 + field w 17 5 * 2 ^ 17 + field w 12 5 * 2 ^ 12
    + field w 9 3 * 2 ^ 9 + field w 0 9 := by
  have hsplit := div_eq_field_add w
  rw [toNat_eq_div_pow_zero, hsplit 0 9 9 rfl, hsplit 9 3 12 rfl, hsplit 12 5 17 rfl,
    hsplit 17 5 22 rfl, hsplit 22 5 27 rfl, hsplit 27 1 28 rfl, hsplit 28 2 30 rfl, hsplit 30 2 32 rfl,
    div_pow_32_eq_zero]
  omega

theorem toNat_eq_ldImmFields (w : Word) : w.toNat = field w 30 2 * 2 ^ 30 + field w 28 2 * 2 ^ 28
    + field w 20 8 * 2 ^ 20 + field w 19 1 * 2 ^ 19 + field w 16 3 * 2 ^ 16 + field w 0 16 := by
  have hsplit := div_eq_field_add w
  rw [toNat_eq_div_pow_zero, hsplit 0 16 16 rfl, hsplit 16 3 19 rfl, hsplit 19 1 20 rfl, hsplit 20 8 28 rfl,
    hsplit 28 2 30 rfl, hsplit 30 2 32 rfl, div_pow_32_eq_zero]
  omega

theorem toNat_eq_moveFields (w : Word) : w.toNat = field w 30 2 * 2 ^ 30 + field w 28 2 * 2 ^ 28
    + field w 26 2 * 2 ^ 26 + field w 18 8 * 2 ^ 18 + field w 10 8 * 2 ^ 10 + field w 0 10 := by
  have hsplit := div_eq_field_add w
  rw [toNat_eq_div_pow_zero, hsplit 0 10 10 rfl, hsplit 10 8 18 rfl, hsplit 18 8 26 rfl, hsplit 26 2 28 rfl,
    hsplit 28 2 30 rfl, hsplit 30 2 32 rfl, div_pow_32_eq_zero]
  omega

theorem toNat_eq_otherFields (w : Word) : w.toNat = field w 30 2 * 2 ^ 30 + field w 28 2 * 2 ^ 28
    + field w 26 2 * 2 ^ 26 + field w 0 26 := by
  have hsplit := div_eq_field_add w
  rw [toNat_eq_div_pow_zero, hsplit 0 26 26 rfl, hsplit 26 2 28 rfl, hsplit 28 2 30 rfl, hsplit 30 2 32 rfl,
    div_pow_32_eq_zero]
  omega

theorem toNat_eq_gscfFields (w : Word) : w.toNat = field w 30 2 * 2 ^ 30 + field w 28 2 * 2 ^ 28
    + field w 26 2 * 2 ^ 26 + field w 25 1 * 2 ^ 25 + field w 21 4 * 2 ^ 21 + field w 0 21 := by
  have hsplit := div_eq_field_add w
  rw [toNat_eq_div_pow_zero, hsplit 0 21 21 rfl, hsplit 21 4 25 rfl, hsplit 25 1 26 rfl, hsplit 26 2 28 rfl,
    hsplit 28 2 30 rfl, hsplit 30 2 32 rfl, div_pow_32_eq_zero]
  omega

/-! ## Each class of words: a word that decodes is the first word of its form -/

/-- The encoder writes the word `w` for the form and after it, if anything, the word `e`. -/
structure WordsOf (f : Form) (w e : Word) : Prop where
  first : w.toNat = f.firstWord
  next : f.extWords = [] ∨ f.extWords = [e]

theorem decodeDregLoad_wordsOf {w e : Word} {f : Form} (hcls : field w 30 2 = 0) (h : decodeDregLoad w e = some f) :
    WordsOf f w e := by
  simp only [decodeDregLoad, Option.bind_eq_bind, Option.bind_none, Option.ite_none_left_eq_some,
    Option.bind_eq_some_iff, not_not] at h
  obtain ⟨hzero, b, hb, h⟩ := h
  obtain ⟨hcode, hnext⟩ := opnd_code_of_ofCode (field_lt w 0 9) hb
  have hw := toNat_eq_dregFields w
  have hI := ialu_code_ofCode (field_lt w 29 1)
  have hr := regNum_val_of_lt (field_lt w 18 5)
  have hm := regNum_val_of_lt (field_lt w 13 5)
  split at h
  next op hop =>
    obtain ⟨a, ha, rfl⟩ := Option.map_eq_some_iff.1 h
    refine ⟨?_, hnext⟩
    rw [hw, hcls, hzero, Form.firstWord, hI, hr, hm, hcode, pmOp_code_of_ofCode hop, ldAcc_code_of_ofCode ha]
    omega
  next hop =>
    obtain ⟨a, ha, rfl⟩ := Option.map_eq_some_iff.1 h
    obtain ⟨hopCode, hblock, hwidth⟩ := dabKind_codes_of_ofCode (field_lt w 10 3) hop ha
    refine ⟨?_, hnext⟩
    rw [hw, hcls, hzero, Form.firstWord, hI, hr, hm, hcode, hopCode, hblock, hwidth]
    omega

theorem decodeDregStore_wordsOf {w e : Word} {f : Form} (hcls : field w 30 2 = 1) (h : decodeDregStore w e = some f) :
    WordsOf f w e := by
  simp only [decodeDregStore, Option.bind_eq_bind, Option.bind_none, Option.ite_none_left_eq_some,
    Option.bind_eq_some_iff, not_not, Option.some.injEq] at h
  obtain ⟨hzero, b, hb, op, hop, a, ha, rfl⟩ := h
  obtain ⟨hcode, hnext⟩ := opnd_code_of_ofCode (field_lt w 0 9) hb
  refine ⟨?_, hnext⟩
  rw [toNat_eq_dregFields w, hcls, hzero, Form.firstWord, ialu_code_ofCode (field_lt w 29 1),
    regNum_val_of_lt (field_lt w 18 5), regNum_val_of_lt (field_lt w 13 5), hcode, pmOp_code_of_ofCode hop,
    stAcc_code_of_ofCode ha]
  omega

theorem decodeUregAccess_wordsOf {w e : Word} {f : Form} (hcls : field w 30 2 = 2)
    (h : decodeUregAccess w e = some f) : WordsOf f w e := by
  simp only [decodeUregAccess, Option.bind_eq_bind, Option.bind_none, Option.ite_none_left_eq_some,
    Option.bind_eq_some_iff, not_not, Option.some.injEq] at h
  obtain ⟨hzero, z, hz, u, hu, b, hb, rfl⟩ := h
  obtain ⟨hcode, hnext⟩ := opnd_code_of_ofCode (field_lt w 0 9) hb
  have hw := toNat_eq_uregFields w
  have hpost := field_lt w 28 1
  have hstore := field_lt w 9 1
  have hp : (if (if field w 28 1 = 0 then Modify.pre else .post) = .post then 1 else 0) = field w 28 1 := by
    interval_cases field w 28 1 <;> rfl
  split
  all_goals
    refine ⟨?_, hnext⟩
    rw [hw, hcls, hzero, Form.firstWord, ialu_code_ofCode (field_lt w 29 1), regNum_val_of_lt (field_lt w 13 5), hcode,
      size_code_of_ofCode hz, ureg_code_of_ofCode hu, hp]
    omega

theorem decodeArith_wordsOf {w e : Word} {f : Form} (htop : field w 30 2 = 3) (hcls : field w 28 2 = 0)
    (h : decodeArith w e = some f) : WordsOf f w e := by
  have hw := toNat_eq_arithFields w
  have hI := ialu_code_ofCode (field_lt w 27 1)
  have hd := regNum_val_of_lt (field_lt w 17 5)
  have hm := regNum_val_of_lt (field_lt w 12 5)
  simp only [decodeArith, Option.bind_eq_bind, Option.bind_none, Option.ite_none_left_eq_some, not_not] at h
  obtain ⟨hzero, h⟩ := h
  split at h
  next o ho =>
    obtain ⟨b, hb, rfl⟩ := Option.map_eq_some_iff.1 h
    obtain ⟨hcode, hnext⟩ := opnd_code_of_ofCode (field_lt w 0 9) hb
    refine ⟨?_, hnext⟩
    rw [hw, htop, hcls, hzero, Form.firstWord, hI, hd, hm, hcode, alu2_code_of_ofCode ho]
    omega
  next o ho _ =>
    obtain ⟨hnone, ⟨⟩⟩ := Option.ite_none_right_eq_some.1 h
    refine ⟨?_, .inl rfl⟩
    rw [hw, htop, hcls, hzero, hnone, Form.firstWord, hI, hd, hm, alu1_code_of_ofCode ho]
    omega
  next =>
    obtain ⟨b, hb, h⟩ := Option.bind_eq_some_iff.1 h
    obtain ⟨hcode, hnext⟩ := opnd_code_of_ofCode (field_lt w 0 9) hb
    split at h
    case h_1 ho | h_2 ho =>
      obtain ⟨d, hbl, rfl⟩ := Option.map_eq_some_iff.1 h
      refine ⟨?_, hnext⟩
      rw [hw, htop, hcls, hzero, ho, Form.firstWord, hI, hm, hcode, blReg_code_of_ofCode hbl]
      simp only [Bool.toNat_true, Bool.toNat_false]
      omega
    case h_3 ho | h_4 ho =>
      obtain ⟨hnone, ⟨⟩⟩ := Option.ite_none_right_eq_some.1 h
      refine ⟨?_, hnext⟩
      rw [hw, htop, hcls, hzero, ho, hnone, Form.firstWord, hI, hm, hcode]
      simp only [Bool.toNat_true, Bool.toNat_false]
      omega
    case h_5 => cases h

theorem decodeLdImm_wordsOf {w e : Word} {f : Form} (htop : field w 30 2 = 3) (hcls : field w 28 2 = 1)
    (h : decodeLdImm w e = some f) : WordsOf f w e := by
  have hw := toNat_eq_ldImmFields w
  have hlong := field_lt w 19 1
  have hvalue := field_lt w 0 16
  simp only [decodeLdImm, Option.bind_eq_bind, Option.bind_none, Option.ite_none_left_eq_some,
    Option.bind_eq_some_iff, not_not] at h
  obtain ⟨u, hu, hzero, h⟩ := h
  -- The value stands in the word: it is short, and its low 16 bits are the field.
  have short : ∀ v : Word, isLong15 v = false → v.toNat % 2 ^ 16 = field w 0 16 → field w 19 1 = 0 →
      WordsOf (.ldImm u v) w e := by
    intro v hv hmod hbit
    refine ⟨?_, .inl (by simp only [Form.extWords, hv, Bool.false_eq_true, if_false])⟩
    rw [hw, htop, hcls, hzero, hbit, Form.firstWord, ureg_code_of_ofCode hu, hv, hmod, if_neg Bool.false_ne_true]
    omega
  split at h
  next hbit =>
    split at h
    next hpos =>
      cases h
      have hv : (BitVec.ofNat 32 (field w 0 16)).toNat = field w 0 16 := by rw [BitVec.toNat_ofNat]; omega
      exact short _ (isLong15_eq_false.2 (by omega)) (by omega) hbit
    · obtain ⟨hneg, ⟨⟩⟩ := Option.ite_none_right_eq_some.1 h
      have hv : (BitVec.ofNat 32 (field w 0 16 + (2 ^ 32 - 2 ^ 16))).toNat = field w 0 16 + (2 ^ 32 - 2 ^ 16) := by
        rw [BitVec.toNat_ofNat]; omega
      exact short _ (isLong15_eq_false.2 (by omega)) (by omega) hbit
  · obtain ⟨⟨hnone, he⟩, ⟨⟩⟩ := Option.ite_none_right_eq_some.1 h
    refine ⟨?_, .inr (by simp only [Form.extWords, he, if_true])⟩
    rw [hw, htop, hcls, hzero, hnone, Form.firstWord, ureg_code_of_ofCode hu, if_pos he]
    omega

theorem decodeMove_wordsOf {w : Word} {f : Form} (e : Word) (htop : field w 30 2 = 3) (hcls : field w 28 2 = 2)
    (h : decodeMove w = some f) : WordsOf f w e := by
  simp only [decodeMove, Option.bind_eq_bind, Option.bind_eq_some_iff, Option.ite_none_right_eq_some,
    Option.some.injEq] at h
  obtain ⟨z, hz, d, hd, u, hu, hzero, rfl⟩ := h
  refine ⟨?_, .inl rfl⟩
  rw [toNat_eq_moveFields w, htop, hcls, hzero, Form.firstWord, size_code_of_ofCode hz, ureg_code_of_ofCode hd,
    ureg_code_of_ofCode hu]
  omega

/-! ## Items -/

/-- The encoder writes the word `w` for the item and after it, if anything, the word `e`. -/
def ItemWordsOf (it : Item) (w e : Word) : Prop := it.words = w :: it.extWords ∧ (it.extWords = [] ∨ it.extWords = [e])

theorem WordsOf.item {f : Form} {w e : Word} (h : WordsOf f w e) : ItemWordsOf (.ialu f.instr) w e := by
  refine ⟨?_, ?_⟩
  · rw [Item.words, encode, Item.extWords, Laws.instr_form, ← h.first, BitVec.ofNat_toNat, BitVec.setWidth_eq]
  · rw [Item.extWords, Laws.instr_form]
    exact h.next

/-- A word of class 15 is a static-flag load or an item of the sequencer (92_eei_decisions.md D23). -/
theorem decodeOther_wordsOf {w : Word} {x : Form ⊕ Item} (e : Word) (htop : field w 30 2 = 3) (hcls : field w 28 2 = 3)
    (h : decodeOther w = some x) : ItemWordsOf (x.elim (fun f => .ialu f.instr) id) w e := by
  have hw := toNat_eq_otherFields w
  have heq : ∀ n, w.toNat = n → BitVec.ofNat 32 n = w := by
    rintro n rfl
    rw [BitVec.ofNat_toNat, BitVec.setWidth_eq]
  unfold decodeOther at h
  split at h
  case h_1 hkind =>
    obtain ⟨hzero, h⟩ := Option.ite_none_right_eq_some.1 h
    obtain ⟨q, hq, rfl⟩ := Option.map_eq_some_iff.1 h
    refine WordsOf.item ⟨?_, .inl rfl⟩
    have hone : (field w 25 1 == 1).toNat = field w 25 1 := by
      have hlt := field_lt w 25 1
      interval_cases field w 25 1 <;> rfl
    rw [toNat_eq_gscfFields w, htop, hcls, hkind, hzero, Form.firstWord, cond_code_of_ofCode hq, hone]
    omega
  case h_2 hkind =>
    obtain ⟨hzero, ⟨⟩⟩ := Option.ite_none_right_eq_some.1 h
    refine ⟨congrArg (· :: []) (heq _ ?_), .inl rfl⟩
    rw [hw, htop, hcls, hkind, hzero]
    omega
  case h_3 hkind =>
    cases h
    refine ⟨congrArg (· :: []) (heq _ ?_), .inl rfl⟩
    rw [hw, htop, hcls, hkind, BitVec.toNat_ofNat, Nat.mod_eq_of_lt (field_lt w 0 26)]
    omega
  case h_4 => cases h

/-- A word that decodes is the first word of its item, and the item's next word, if it has one, is the next word. -/
theorem decodeWord_wordsOf {w e : Word} {it : Item} (h : decodeWord w e = some it) : ItemWordsOf it w e := by
  unfold decodeWord at h
  dsimp only at h
  split at h
  case h_1 hcls =>
    obtain ⟨f, hf, rfl⟩ := Option.map_eq_some_iff.1 h
    exact (decodeDregLoad_wordsOf hcls hf).item
  case h_2 hcls =>
    obtain ⟨f, hf, rfl⟩ := Option.map_eq_some_iff.1 h
    exact (decodeDregStore_wordsOf hcls hf).item
  case h_3 hcls =>
    obtain ⟨f, hf, rfl⟩ := Option.map_eq_some_iff.1 h
    exact (decodeUregAccess_wordsOf hcls hf).item
  case h_4 h0 h1 h2 =>
    have htop : field w 30 2 = 3 := by
      have hlt := field_lt w 30 2
      rw [imp_false] at h0 h1 h2
      omega
    split at h
    case h_1 hcls =>
      obtain ⟨f, hf, rfl⟩ := Option.map_eq_some_iff.1 h
      exact (decodeArith_wordsOf htop hcls hf).item
    case h_2 hcls =>
      obtain ⟨f, hf, rfl⟩ := Option.map_eq_some_iff.1 h
      exact (decodeLdImm_wordsOf htop hcls hf).item
    case h_3 hcls =>
      obtain ⟨f, hf, rfl⟩ := Option.map_eq_some_iff.1 h
      exact (decodeMove_wordsOf e htop hcls hf).item
    case h_4 h0' h1' h2' =>
      have hcls : field w 28 2 = 3 := by
        have hlt := field_lt w 28 2
        rw [imp_false] at h0' h1' h2'
        omega
      obtain ⟨x, hx, rfl⟩ := Option.map_eq_some_iff.1 h
      have hitem := decodeOther_wordsOf e htop hcls hx
      cases x <;> exact hitem

/-! ## The round trip -/

/-- The words of an item, whatever follows them, decode to the item. -/
theorem decode_words_append (it : Item) (rest : List Word) : decode (it.words ++ rest) = .ok (it, rest) := by
  obtain ⟨w, hwords, hdec⟩ := words_eq_cons it
  rw [hwords, List.cons_append]
  rcases extWords_short_or_long it with hext | ⟨v, hext⟩
  · have hw := hdec (rest.headD pastEnd)
    rw [hext] at hw ⊢
    simp only [List.headD_nil] at hw
    simp only [decode, List.nil_append, hw, hext]
  · have hw := hdec pastEnd
    rw [hext] at hw ⊢
    simp only [List.headD_cons] at hw
    simp only [decode, List.cons_append, List.nil_append, List.headD_cons, hw, hext]

/-- Settles O1: an instruction's words are those of its item, which decode to it whatever follows
(`decode_words_append`). -/
theorem decodeOfEncodeIsTheInstruction : Obligations.DecodeOfEncodeIsTheInstruction := by
  unfold Obligations.DecodeOfEncodeIsTheInstruction
  exact fun i rest => decode_words_append (.ialu i) rest

/-- Settles O2: what the decoder takes from the list (`decode_ok_inv`) are the words of the item it answers
(`decodeWord_wordsOf`). -/
theorem decodedWordsAreTheEncoding : Obligations.DecodedWordsAreTheEncoding := by
  unfold Obligations.DecodedWordsAreTheEncoding
  intro ws rest it h
  rcases decode_ok_inv h with ⟨w, rfl, hdec, hext⟩ | ⟨w, e, rfl, hdec, hext⟩
  · obtain ⟨hwords, -⟩ := decodeWord_wordsOf hdec
    rw [hwords, hext]; rfl
  · obtain ⟨hwords, hnext⟩ := decodeWord_wordsOf hdec
    rw [hwords, hnext.resolve_left hext]; rfl

/-! ## Words written from the layout -/

/-- Settles O3: the decoder evaluates on each of the eight lists. -/
theorem writtenWordsDecode : Obligations.WrittenWordsDecode := by
  unfold Obligations.WrittenWordsDecode
  refine ⟨?_, ?_, ?_, ?_, ?_, ?_, ?_, ?_⟩ <;> rfl

/-! ## Bits 12:10 of a data-register load -/

theorem extractLsb'_eq_iff_field (w : Word) (k : BitVec 3) : w.extractLsb' 10 3 = k ↔ field w 10 3 = k.toNat := by
  rw [← BitVec.toNat_inj, BitVec.extractLsb'_toNat, Nat.shiftRight_eq_div_pow, field]

theorem operatorField_ldD (I : Ialu) (a : LdAcc) (r : RegNum) (op : PmOp) (m : RegNum) (b : Opnd) :
    field (BitVec.ofNat 32 (Form.ldD I a r op m b).firstWord) 10 3 = op.code := by
  have hw := dregFields_ofNat (cls := 0) (by decide) (ialu_code_lt I) (ldAcc_code_lt a).1 (ldAcc_code_lt a).2 r.isLt
    m.isLt (pmOp_code_lt op) (opnd_code_lt b)
  rw [Nat.zero_mul, Nat.zero_add] at hw
  exact hw.operator

theorem operatorField_dab (I : Ialu) (a : DabKind) (r m : RegNum) (b : Opnd) :
    field (BitVec.ofNat 32 (Form.dab I a r m b).firstWord) 10 3 = a.opCode := by
  obtain ⟨hblock, hwidth, hop⟩ := dabKind_code_lt a
  have hw := dregFields_ofNat (cls := 0) (by decide) (ialu_code_lt I) hblock hwidth r.isLt m.isLt hop (opnd_code_lt b)
  rw [Nat.zero_mul, Nat.zero_add] at hw
  exact hw.operator

/-- Only the offset accesses have the codes 100 to 111, each its own (30_encoding.md R95). -/
theorem opCode_eq_offset_iff (a : DabKind) (onY short : Bool) :
    a.opCode = 4 + 2 * onY.toNat + short.toNat ↔ ∃ c, a = .offset onY short c := by
  cases a with
  | one short' c => simp only [DabKind.opCode, reduceCtorEq, exists_false, iff_false]; omega
  | both short' c => simp only [DabKind.opCode, reduceCtorEq, exists_false, iff_false]; omega
  | offset onY' short' c => cases onY <;> cases onY' <;> cases short <;> cases short' <;> simp [DabKind.opCode]

/-- A load of data registers has an offset operator exactly if its word has that operator's code. -/
theorem operatorField_eq_offset_iff {w e : Word} {i : Instr} (hdec : decodeWord w e = some (.ialu i))
    (hload : LoadsDregs i) (onY short : Bool) :
    field w 10 3 = 4 + 2 * onY.toNat + short.toNat ↔ IsOffset onY short i := by
  obtain ⟨hwords, -⟩ := decodeWord_wordsOf hdec
  obtain rfl : BitVec.ofNat 32 i.form.firstWord = w := (List.cons.inj hwords).1
  unfold LoadsDregs at hload
  unfold IsOffset
  split at hload
  next I a r op m b hform =>
    have hcode : op.code < 4 := by cases op <;> decide
    simp only [hform, operatorField_ldD, reduceCtorEq, exists_false, iff_false]
    omega
  next I a r m b hform =>
    rw [hform, operatorField_dab, opCode_eq_offset_iff]
    simp
  next => exact hload.elim

/-- Settles O4: bits 12:10 are the operator field (`extractLsb'_eq_iff_field`), which has an offset operator's code
exactly for that operator (`operatorField_eq_offset_iff`). -/
theorem loadBitsSelectOffsetOperator : Obligations.LoadBitsSelectOffsetOperator := by
  unfold Obligations.LoadBitsSelectOffsetOperator
  intro w e i hdec hload
  have key := operatorField_eq_offset_iff hdec hload
  simp only [extractLsb'_eq_iff_field]
  exact ⟨key false false, key false true, key true false, key true true⟩

end Sys2Proof.Proofs

/-! Which lines are admitted and what they are refused for (30_encoding.md R82 to R84, 41_conditions.md R151). -/

namespace Sys2Proof.Proofs

open Sys2Proof Sys2Proof.Machine

/-! ## The checks of a line, each said as a property -/

theorem meets_eq_false_iff {a b : List Cell} : meets a b = false ↔ ∀ c ∈ a, c ∉ b := by
  simp [meets]

/-- No pair of a list is in the relation, whatever the pair's place in the list. -/
theorem anyPair_eq_false_iff {r : Item → Item → Bool} {l : List Item} :
    anyPair r l = false ↔ l.Pairwise fun a b => r a b = false := by
  induction l with
  | nil => simp [anyPair]
  | cons a rest ih => simp [anyPair, List.pairwise_cons, ih]

/-- Items that do not clash: what the first writes the second neither writes nor reads, what the first reads the second
does not write, and no IALU executes both (30_encoding.md R82). -/
theorem itemsClash_eq_false_iff {x y : Item} : itemsClash x y = false ↔
    (∀ c ∈ itemWrites x, c ∉ itemWrites y) ∧ (∀ c ∈ itemWrites x, c ∉ itemReads y) ∧
      (∀ c ∈ itemReads x, c ∉ itemWrites y) ∧ ∀ I, ¬(itemIalu x = some I ∧ itemIalu y = some I) := by
  have hialu : ((itemIalu x).isSome && itemIalu x == itemIalu y) = false ↔
      ∀ I, ¬(itemIalu x = some I ∧ itemIalu y = some I) := by
    cases itemIalu x with
    | none => simp
    | some I => cases itemIalu y with
      | none => simp
      | some I' => simpa using ne_comm
  simp only [itemsClash, Bool.or_eq_false_iff, meets_eq_false_iff, hialu, and_assoc]

/-- What an item's access touches, the other item's access does not, if one of them stores (20_memory.md R62). -/
theorem wordClash_eq_false_iff {s : State} {x y : Item} : wordClash s x y = false ↔
    ((accessOf x s).2 = true ∨ (accessOf y s).2 = true → ∀ w ∈ (accessOf x s).1, w ∉ (accessOf y s).1) := by
  cases hx : (accessOf x s).2 <;> cases hy : (accessOf y s).2 <;> simp [wordClash, hx, hy]

/-- A line whose text is refused for nothing has no two items that clash, and no item that touches the loop counter its
head counts down. -/
theorem noClash_of_lineError_none {l : Line} (h : lineError l = none) :
    (l.items.map fun it => it.item).Pairwise (fun a b => itemsClash a b = false) ∧ headClash l = false := by
  simp only [lineError] at h
  split at h
  · cases h
  split at h
  · cases h
  split at h
  · cases h
  split at h
  · cases h
  split at h
  · cases h
  next hclash =>
  obtain ⟨hpair, hhead⟩ := Bool.or_eq_false_iff.1 (Bool.eq_false_iff.2 hclash)
  exact ⟨anyPair_eq_false_iff.1 hpair, hhead⟩

theorem runLine_of_lineError {l : Line} {r : Refusal} (h : lineError l = some r) (s : State) :
    runLine l s = .refused r := by
  simp only [runLine, h]

/-! ## Malformed lines -/

theorem layoutOk_eq_true_iff {l : Line} : l.layoutOk = true ↔
    l.items.length + (l.items.filter fun it => it.item.extended).length ≤ 4 ∧
      (∀ it ∈ l.items.tail, it.item.extended = false) ∧ (l.items.filter fun it => it.marked).length ≤ 3 := by
  have hlen := List.length_filter_le (fun it : LineItem => it.item.extended) l.items
  have hused : l.slotsUsed = l.items.length + (l.items.filter fun it => it.item.extended).length := rfl
  have hfit : l.slotsFit = true ↔ l.items.length + (l.items.filter fun it => it.item.extended).length ≤ 4 := by
    rw [Line.slotsFit, Bool.or_eq_true, decide_eq_true_iff, decide_eq_true_iff, hused]
    omega
  simp [Line.layoutOk, hfit, noneExtended, and_assoc]

theorem runLine_of_layoutOk_false {l : Line} (h : ¬ l.layoutOk = true) (s : State) :
    runLine l s = .refused .malformedLine :=
  runLine_of_lineError (by simp [lineError, h]) s

/-- The short range of operands is the signed one or the unsigned one (30_encoding.md R83, assumption 6). -/
theorem opnd_extended_iff :
    (∀ v, (Opnd.imm v).extended = true ↔ ¬(-128 ≤ v.toInt ∧ v.toInt ≤ 127)) ∨
      ∀ v, (Opnd.imm v).extended = true ↔ 255 < v.toNat := by
  cases hsigned : Config.imm8Signed with
  | true =>
    left
    intro v
    have hrange : inImm8 v = true ↔ v.toNat < 128 ∨ 2 ^ 32 - 128 ≤ v.toNat := by simp [inImm8, hsigned]
    have hv := BitVec.toInt_eq_toNat_cond v
    rw [Opnd.extended, Bool.not_eq_true', ← Bool.not_eq_true, hrange]
    omega
  | false =>
    right
    intro v
    have hrange : inImm8 v = true ↔ v.toNat < 128 ∨ v.toNat < 256 := by simp [inImm8, hsigned]
    rw [Opnd.extended, Bool.not_eq_true', ← Bool.not_eq_true, hrange]
    omega

/-- The short range of loaded values is the signed one or the unsigned one (30_encoding.md R83, assumption 6). -/
theorem ldImm_extended_iff :
    (∀ u v, (Item.ialu (.ldImm u v)).extended = true ↔ ¬(-16384 ≤ v.toInt ∧ v.toInt ≤ 16383)) ∨
      ∀ u v, (Item.ialu (.ldImm u v)).extended = true ↔ 32767 < v.toNat := by
  have hext : ∀ u v, (Item.ialu (.ldImm u v)).extended = !inImm15 v := fun _ _ => rfl
  cases hsigned : Config.imm15Signed with
  | true =>
    left
    intro u v
    have hrange : inImm15 v = true ↔ v.toNat < 16384 ∨ 2 ^ 32 - 16384 ≤ v.toNat := by simp [inImm15, hsigned]
    have hv := BitVec.toInt_eq_toNat_cond v
    rw [hext, Bool.not_eq_true', ← Bool.not_eq_true, hrange]
    omega
  | false =>
    right
    intro u v
    have hrange : inImm15 v = true ↔ v.toNat < 16384 ∨ v.toNat < 32768 := by simp [inImm15, hsigned]
    rw [hext, Bool.not_eq_true', ← Bool.not_eq_true, hrange]
    omega

/-- Settles O15: each of the three reasons breaks the layout (`layoutOk_eq_true_iff`), which is what the line's text is
refused for first. -/
theorem malformedLineIsRefused : Obligations.MalformedLineIsRefused := by
  unfold Obligations.MalformedLineIsRefused
  refine ⟨fun l s hbad => runLine_of_layoutOk_false (fun hok => ?_) s, opnd_extended_iff, ldImm_extended_iff⟩
  obtain ⟨hslots, hfirst, hmarked⟩ := layoutOk_eq_true_iff.1 hok
  rcases hbad with hmany | ⟨it, hit, hext⟩ | hconditional
  · omega
  · exact Bool.false_ne_true ((hfirst it hit).symm.trans hext)
  · omega

/-! ## Conflicting items -/

/-- Items that clash do not stand in a line whose text is refused for nothing. -/
theorem lineError_isSome_of_clash {q : Option LineCond} {a b c : List LineItem} {x y : LineItem}
    (h : itemsClash x.item y.item = true) : ∃ r, lineError ⟨q, a ++ x :: b ++ y :: c⟩ = some r := by
  cases herror : lineError ⟨q, a ++ x :: b ++ y :: c⟩ with
  | some r => exact ⟨r, rfl⟩
  | none =>
    obtain ⟨hpair, -⟩ := noClash_of_lineError_none herror
    have hxy : itemsClash x.item y.item = false := by
      simp only [List.map_append, List.map_cons] at hpair
      exact (List.pairwise_append.1 hpair).2.2 _ (by simp) _ (List.mem_cons_self ..)
    exact absurd h (Bool.eq_false_iff.1 hxy)

/-- Settles O16: items that share what one of them writes, or an IALU, clash, for which the text is refused
(`lineError_isSome_of_clash`); and of two unmarked items both accesses are compared. -/
theorem conflictingInstructionsAreRefused : Obligations.ConflictingInstructionsAreRefused := by
  unfold Obligations.ConflictingInstructionsAreRefused
  refine ⟨fun q a b c x y s hshared => ?_, fun x y s w htext hx hy hstore => ?_⟩
  · have hclash : itemsClash x.item y.item = true := by
      by_contra hno
      obtain ⟨hww, hwr, hrw, hialu⟩ := itemsClash_eq_false_iff.1 (Bool.eq_false_iff.2 hno)
      rcases hshared with ⟨e, he, hwritten | hread⟩ | ⟨e, he, hwritten⟩ | ⟨I, hsame⟩
      · exact hww e he hwritten
      · exact hwr e he hread
      · exact hrw e he hwritten
      · exact hialu I hsame
    obtain ⟨r, hr⟩ := lineError_isSome_of_clash (q := q) (a := a) (b := b) (c := c) hclash
    exact ⟨r, runLine_of_lineError hr s⟩
  · have hacts : activeItems ⟨none, [⟨false, x⟩, ⟨false, y⟩]⟩ s = [x, y] := rfl
    have hclash : wordClash s x y = true := by
      by_contra hno
      exact wordClash_eq_false_iff.1 (Bool.eq_false_iff.2 hno) hstore w hx hy
    simp [runLine, htext, hacts, anyPair, hclash]

end Sys2Proof.Proofs

/-! What an item of a line does, and what it depends on: the meaning of its form on two states that agree
(30_encoding.md R82). -/

namespace Sys2Proof.Proofs

open Sys2Proof Sys2Proof.Machine

/-! ## The meaning of a form on two states that agree -/

/-- The words a form loads from. -/
def formLoaded (f : Form) (s : State) : List Nat :=
  match f with
  | .ldU I z p _ m b => List.range' (uregAddr I p m b s) z.count
  | .ldD I a _ _ m _ => List.range' (dregAddr I m s) (ldWidth a)
  | .dab I a _ m _ => List.range' (dabQuad (dabIsShort a) (aluread I m s)) 4
  | _ => []

/-- A form that loads touches no word but those it loads. -/
theorem formLoaded_subset_access (i : Instr) (s : State) : formLoaded i.form s ⊆ (accessOf (.ialu i) s).1 := by
  cases hf : i.form <;> simp [formLoaded, accessOf, hf]

section Local

variable {R : List Cell} {A : List Nat} {s s' u : State} (h : Agree R A s s')

include h

theorem execAlu_local {I : Ialu} {o : Alu2} {d m : RegNum} {b : Opnd} (hr : formReads (.alu I o d m b) ⊆ R)
    (hf : Cell.flags I ∈ R) (hx : execAlu I o d m b s = .next u) : RunsAlike R [] (execAlu I o d m b) s s' u := by
  simp only [formReads, List.append_subset] at hr
  obtain ⟨⟨⟨hm, hb⟩, hbuffer⟩, -⟩ := hr
  cases o with
  | add | sub => exact execAddSub_local h hm hb hx
  | addCjmp | subCjmp => exact execAddSubCjmp_local h hm hb hx
  | addCb | subCb => exact execAddSubCb_local h hm hb (by simpa using hbuffer) hf hx
  | addBr | subBr => exact execAddSubBr_local h hm hb hf hx
  | addc | subb => exact execCarry_local h hm hb hf hx
  | addHalf | subHalf => exact execHalf_local h hm hb hf hx
  | max | min | or | and | xor => exact execTwo_local h hm hb hf hx
  | andNot => exact execTwo_local (f := fun x y => x &&& ~~~y) h hm hb hf hx

theorem execAlu1_local {I : Ialu} {o : Alu1} {d m : RegNum} (hm : gprCells I m ⊆ R) (hf : Cell.flags I ∈ R)
    (hx : execAlu1 I o d m s = .next u) : RunsAlike R [] (execAlu1 I o d m) s s' u := by
  cases o with
  | abs => exact execAbs_local h hm hf hx
  | not | ashiftr | lshiftr | rotr | rotl => exact execOne_local h hm hf hx

/-- A form that completes on a state completes and does the same on every state that agrees on the cells it reads or
writes and on the words it loads. -/
theorem execForm_local {f : Form} (hr : formReads f ⊆ R) (hw : formWrites f ⊆ R) (hl : formLoaded f s ⊆ A)
    (hx : execForm f s = .next u) : RunsAlike R (formStored f s) (execForm f) s s' u := by
  cases f with
  | alu I o d m b => exact execAlu_local h hr (hw (by simp [formWrites])) hx
  | alu1 I o d m => exact execAlu1_local h hr (hw (by simp [formWrites])) hx
  | bl I sub d m b =>
    obtain ⟨hm, hb⟩ := List.append_subset.1 hr
    exact execAddSubBL_local h hm hb hx
  | comp I unsigned m b =>
    obtain ⟨hm, hb⟩ := List.append_subset.1 hr
    exact execComp_local h hm hb (hw (by simp [formWrites])) hx
  | ldU I z p v m b =>
    obtain ⟨hm, hb⟩ := List.append_subset.1 hr
    exact execLdUreg_local h hm hb hl hx
  | stU I z p v m b =>
    simp only [formReads, List.append_subset] at hr
    obtain ⟨⟨hm, hb⟩, hv⟩ := hr
    exact execStUreg_local h hm hb hv hx
  | ldD I a r op m b =>
    simp only [formReads, List.append_subset] at hr
    obtain ⟨⟨hm, hb⟩, hc⟩ := hr
    exact execLdDreg_local h hm hb hc hl hx
  | stD I a r op m b =>
    simp only [formReads, List.append_subset] at hr
    obtain ⟨⟨⟨hm, hb⟩, hc⟩, hv⟩ := hr
    exact execStDreg_local h hm hb hc hv hx
  | dab I a r m b =>
    simp only [formReads, List.append_subset] at hr
    obtain ⟨⟨⟨hm, hb⟩, hc⟩, hv⟩ := hr
    exact execDab_local h hm hb hc hv hl hx
  | ldImm v w => exact execLoadImm_local h hx
  | move z d v => exact execMove_local h hr hx
  | gscf one q => exact execGscf_local h (hr (by simp [formReads])) hx

end Local

/-! ## An item on two states that agree -/

/-- The cells an item reads or writes. -/
def itemCells (it : Item) : List Cell := itemReads it ++ itemWrites it

theorem itemReads_subset_cells (it : Item) : itemReads it ⊆ itemCells it := List.subset_append_left ..

theorem itemWrites_subset_cells (it : Item) : itemWrites it ⊆ itemCells it := List.subset_append_right ..

theorem itemStored_subset_access (it : Item) (s : State) : itemStored it s ⊆ (accessOf it s).1 := by
  unfold itemStored
  split
  · exact List.Subset.refl _
  · exact List.nil_subset _

/-- The states agree on all that an item reads, writes and touches. -/
abbrev AgreeFor (it : Item) (s s' : State) : Prop := Agree (itemCells it) (accessOf it s).1 s s'

/-- States that agree on what an item reads give it the same access. -/
theorem accessOf_of_agree {R : List Cell} {A : List Nat} {s s' : State} (h : Agree R A s s') {it : Item}
    (hr : itemReads it ⊆ R) : accessOf it s' = accessOf it s := by
  cases it with
  | nop => rfl
  | jump n => rfl
  | ialu i =>
    rw [itemReads] at hr
    cases hf : i.form
    case ldU I z p u m b =>
      rw [hf, formReads, List.append_subset] at hr
      obtain ⟨hm, hb⟩ := hr
      simp only [accessOf, hf, h.uregAddr hm hb]
    case stU I z p u m b =>
      rw [hf, formReads, List.append_subset, List.append_subset] at hr
      obtain ⟨⟨hm, hb⟩, -⟩ := hr
      simp only [accessOf, hf, h.uregAddr hm hb]
    case ldD I a r op m b =>
      rw [hf, formReads, List.append_subset, List.append_subset] at hr
      obtain ⟨⟨hm, -⟩, -⟩ := hr
      simp only [accessOf, hf, h.dregAddr hm]
    case stD I a r op m b =>
      simp only [hf, formReads, List.append_subset] at hr
      obtain ⟨⟨⟨hm, -⟩, -⟩, -⟩ := hr
      simp only [accessOf, hf, h.dregAddr hm]
    case dab I a r m b =>
      simp only [hf, formReads, List.append_subset] at hr
      obtain ⟨⟨⟨hm, -⟩, -⟩, -⟩ := hr
      simp only [accessOf, hf, h.aluread hm]
    all_goals simp only [accessOf, hf]

theorem AgreeFor.itemStored {it : Item} {s s' : State} (h : AgreeFor it s s') :
    itemStored it s' = itemStored it s := by
  simp only [Machine.itemStored, accessOf_of_agree h (itemReads_subset_cells it)]

/-- An item that completes on a state completes and does the same on every state that agrees on what it reads, writes
and touches. -/
theorem execItem_local {it : Item} {s s' u : State} (h : AgreeFor it s s') (hx : execItem it s = .next u) :
    RunsAlike (itemCells it) (itemStored it s) (execItem it) s s' u := by
  cases it with
  | ialu i =>
    have hform : execForm i.form s = .next u := (exec_eq_execForm i s).symm.trans hx
    have hlocal := execForm_local h (itemReads_subset_cells (.ialu i)) (itemWrites_subset_cells (.ialu i))
      (formLoaded_subset_access i s) hform
    have hexec : execItem (.ialu i) = execForm i.form := funext (exec_eq_execForm i)
    rw [hexec, show Machine.itemStored (.ialu i) s = formStored i.form s from storedWords_eq_formStored i s]
    exact hlocal
  | nop => cases hx; exact .of_sim rfl (fun hd => h.sim hd) rfl rfl
  | jump n => cases hx; exact .of_sim rfl (fun hd => h.sim hd) rfl rfl

end Sys2Proof.Proofs

/-! The items of an admitted line, one after the other: each does what it does alone on the state before the line
(30_encoding.md R82). -/

namespace Sys2Proof.Proofs

open Sys2Proof Sys2Proof.Machine

/-! ## States that agree, and what keeps them agreeing -/

theorem readWord_congr {m m' : Memory} {a : Nat} (h : ∀ b, b / 4 = a → readByte m' b = readByte m b) :
    readWord m' a = readWord m a := by
  simp only [readWord, h (4 * a) (by omega), h (4 * a + 1) (by omega), h (4 * a + 2) (by omega),
    h (4 * a + 3) (by omega)]

theorem readWord_of_frame {W : List Cell} {st : List Nat} {s t : State} (h : Frame W st s t) {a : Nat} (ha : a ∉ st) :
    readWord t.mem a = readWord s.mem a :=
  readWord_congr fun b hb => h.memory b (by rwa [hb])

theorem agree_refl (R : List Cell) (A : List Nat) (s : State) : Agree R A s s where
  cells c _ := .refl c s
  ages _ _ _ := rfl
  words _ _ := rfl
  map := rfl

/-- States go on agreeing on what an effect leaves alone. -/
theorem agree_of_frame {R W : List Cell} {A st : List Nat} {s v w : State} (h : Agree R A s v) (hf : Frame W st v w)
    (hcells : ∀ c ∈ W, c ∉ R) (hwords : ∀ a ∈ st, a ∉ A) : Agree R A s w where
  cells c hc := (h.cells c hc).trans (hf.cells c fun hw => hcells c hw hc)
  ages I d hd := (hf.ages I d fun hw => hcells _ hw hd).trans (h.ages I d hd)
  words a ha := (readWord_of_frame hf fun hst => hwords a hst ha).trans (h.words a ha)
  map := hf.map.trans h.map

/-- How many open values were drawn is no part of what states agree on. -/
theorem agree_setDraws {R : List Cell} {A : List Nat} {s v : State} (h : Agree R A s v) (n : Nat) :
    Agree R A { s with draws := n } v where
  cells c hc := by
    have hcell : SameCell c { s with draws := n } s := by
      cases c with
      | staticFlag one => cases one <;> rfl
      | reg u => cases u <;> exact ⟨rfl, rfl⟩
      | dab c => cases c <;> rfl
      | flags I => cases I <;> rfl
      | programCounter => rfl
    exact hcell.trans (h.cells c hc)
  ages I d hd := by
    have hage : holdOf I d { s with draws := n } = holdOf I d s := by cases I <;> cases d <;> rfl
    exact (h.ages I d hd).trans hage.symm
  words := h.words
  map := h.map

theorem accessOf_setDraws (it : Item) (s : State) (n : Nat) : accessOf it { s with draws := n } = accessOf it s :=
  (accessOf_of_agree (agree_setDraws (agree_refl (itemReads it) [] s) n) (List.Subset.refl _)).symm

theorem AgreeFor.setDraws {it : Item} {s v : State} (h : AgreeFor it s v) (n : Nat) :
    AgreeFor it { s with draws := n } v := by
  unfold AgreeFor
  rw [accessOf_setDraws]
  exact agree_setDraws h n

theorem AgreeFor.refl (it : Item) (s : State) : AgreeFor it s s := agree_refl _ _ s

/-- What is written into two memories in canonical form reads the same afterwards. -/
theorem readWord_writeWords_congr {m m' : Memory} (hm : m.wf = true) (hm' : m'.wf = true) {a : Nat} {ws : List Word}
    {b : Nat} (hb : b ∈ List.range' a ws.length) :
    readWord (writeWords m' a ws) b = readWord (writeWords m a ws) b := by
  obtain ⟨hlow, hhigh⟩ := List.mem_range'_1.1 hb
  have hk : b - a < ws.length := by omega
  rw [← Nat.add_sub_cancel' hlow, readWord_writeWords hm a ws _ hk, readWord_writeWords hm' a ws _ hk]

/-! ## One item inside a line -/

/-- The item, run alone on the state `s` with some number of open values drawn, completes with a state that agrees with
`t` on what the item writes and stores. -/
def DoneAlone (it : Item) (s t : State) : Prop :=
  ∃ n u, execItem it { s with draws := n } = .next u ∧ (∀ c ∈ itemWrites it, SameCell c u t) ∧
    ∀ a ∈ itemStored it s, readWord t.mem a = readWord u.mem a

/-- What an item has done stays done where nothing it wrote or stored is changed. -/
theorem DoneAlone.frame {it : Item} {s t w : State} {W : List Cell} {st : List Nat} (h : DoneAlone it s t)
    (hf : Frame W st t w) (hcells : ∀ c ∈ itemWrites it, c ∉ W) (hwords : ∀ a ∈ itemStored it s, a ∉ st) :
    DoneAlone it s w := by
  obtain ⟨n, u, hrun, hsame, hread⟩ := h
  exact ⟨n, u, hrun, fun c hc => (hsame c hc).trans (hf.cells c (hcells c hc)),
    fun a ha => (readWord_of_frame hf (hwords a ha)).trans (hread a ha)⟩

/-- An item that completes on `s` completes on a state that agrees with `s` on what the item depends on, and does there
what it does alone on `s`. -/
theorem execItem_doneAlone {it : Item} {s v : State} (h : AgreeFor it s v) (hs : s.mem.wf = true)
    (hv : v.mem.wf = true) (hx : ∃ u, execItem it s = .next u) :
    ∃ w, execItem it v = .next w ∧ DoneAlone it s w ∧ Frame (itemWrites it) (itemStored it s) v w ∧
      w.mem.wf = true := by
  obtain ⟨u, hu⟩ := hx
  have hself : AgreeFor it s { s with draws := v.draws } := by
    have hdraws := ((AgreeFor.refl it s).setDraws v.draws).symm
    rwa [accessOf_setDraws] at hdraws
  obtain ⟨u1, hu1, -⟩ := execItem_local hself hu
  obtain ⟨w, hw, halike⟩ := execItem_local (h.setDraws v.draws) hu1
  obtain ⟨⟨hcells, -⟩, a, ws, hst, hmem1, hmem⟩ := halike rfl
  rw [hself.itemStored] at hst
  have hframe := execItem_frame hw
  rw [h.itemStored] at hframe
  refine ⟨w, hw, ⟨v.draws, u1, hu1, fun c hc => hcells c (itemWrites_subset_cells it hc), fun b hb => ?_⟩, hframe, ?_⟩
  · rw [hmem, hmem1]
    exact readWord_writeWords_congr hs hv (hst ▸ hb)
  · rw [hmem]
    exact writeWords_wf hv a ws

/-! ## The items of a line, one after the other -/

/-- The items can stand in one line in this order: the later one depends on nothing the earlier one writes or stores,
and changes nothing of it (30_encoding.md R82). -/
def Compatible (s : State) (x y : Item) : Prop := itemsClash x y = false ∧ wordClash s x y = false

theorem Compatible.writes_notMem_cells {s : State} {x y : Item} (h : Compatible s x y) :
    ∀ c ∈ itemWrites x, c ∉ itemCells y := by
  obtain ⟨hww, hwr, -, -⟩ := itemsClash_eq_false_iff.1 h.1
  intro c hc hy
  rcases List.mem_append.1 hy with hread | hwrite
  · exact hwr c hc hread
  · exact hww c hc hwrite

theorem Compatible.writes_disjoint {s : State} {x y : Item} (h : Compatible s x y) :
    ∀ c ∈ itemWrites x, c ∉ itemWrites y :=
  (itemsClash_eq_false_iff.1 h.1).1

theorem Compatible.stored_notMem_access {s : State} {x y : Item} (h : Compatible s x y) :
    ∀ a ∈ itemStored x s, a ∉ (accessOf y s).1 := by
  intro a ha
  cases hstore : (accessOf x s).2 with
  | false => simp [itemStored, hstore] at ha
  | true => exact wordClash_eq_false_iff.1 h.2 (.inl hstore) a (itemStored_subset_access x s ha)

theorem Compatible.stored_disjoint {s : State} {x y : Item} (h : Compatible s x y) :
    ∀ a ∈ itemStored x s, a ∉ itemStored y s :=
  fun a ha hy => h.stored_notMem_access a ha (itemStored_subset_access y s hy)

/-- Items that complete on `s` and do not clash complete one after the other from a state that agrees with `s` on what
each depends on. Each does what it does alone on `s`, and nothing else changes. -/
theorem execItems_doneAlone {s : State} (hs : s.mem.wf = true) {l : List Item} {v : State}
    (hpair : l.Pairwise (Compatible s)) (hagree : ∀ it ∈ l, AgreeFor it s v)
    (hrun : ∀ it ∈ l, ∃ u, execItem it s = .next u) (hv : v.mem.wf = true) :
    ∃ t, execItems l v = .next t ∧ (∀ it ∈ l, DoneAlone it s t) ∧
      Frame (l.flatMap itemWrites) (l.flatMap fun it => itemStored it s) v t := by
  induction l generalizing v with
  | nil => exact ⟨v, rfl, List.forall_mem_nil _, Frame.rfl' v _ _⟩
  | cons x rest ih =>
    obtain ⟨hx, hrest⟩ := List.pairwise_cons.1 hpair
    obtain ⟨hagreex, hagree⟩ := List.forall_mem_cons.1 hagree
    obtain ⟨hrunx, hrun⟩ := List.forall_mem_cons.1 hrun
    obtain ⟨w, hw, hdone, hframe, hwf⟩ := execItem_doneAlone hagreex hs hv hrunx
    have hagreew : ∀ it ∈ rest, AgreeFor it s w := fun it hit =>
      agree_of_frame (hagree it hit) hframe (hx it hit).writes_notMem_cells (hx it hit).stored_notMem_access
    obtain ⟨t, ht, hdones, hframes⟩ := ih hrest hagreew hrun hwf
    have hdonet : DoneAlone x s t := by
      refine hdone.frame hframes (fun c hc hmem => ?_) fun a ha hmem => ?_
      · obtain ⟨it, hit, hw⟩ := List.mem_flatMap.1 hmem
        exact (hx it hit).writes_disjoint c hc hw
      · obtain ⟨it, hit, hst⟩ := List.mem_flatMap.1 hmem
        exact (hx it hit).stored_disjoint a ha hst
    refine ⟨t, by rw [execItems, hw]; exact ht, List.forall_mem_cons.2 ⟨hdonet, hdones⟩, ?_⟩
    simp only [List.flatMap_cons]
    exact hframe.comp hframes

/-! ## The head and the end of a line -/

/-- The cells evaluating the head changes: the loop counter, where it is counted down (92_eei_decisions.md D23). -/
def headCells (q : Option LineCond) : List Cell := if q = some .nlc0e then [.reg .lc0] else []

theorem mem_headCells_iff {q : Option LineCond} {c : Cell} :
    c ∈ headCells q ↔ c = .reg .lc0 ∧ q = some .nlc0e := by
  by_cases hq : q = some .nlc0e <;> simp [headCells, hq]

theorem headEffect_frame_headCells (q : Option LineCond) (s : State) : Frame (headCells q) [] s (headEffect q s) := by
  by_cases hq : q = some .nlc0e
  · rw [headCells, if_pos hq]
    exact headEffect_frame q s
  · rw [headEffect, if_neg hq]
    exact Frame.rfl' s _ _

/-- In an admitted line no item touches what the head changes. -/
theorem headCells_notMem_itemCells {l : Line} (h : headClash l = false) {li : LineItem} (hli : li ∈ l.items) :
    ∀ c ∈ headCells l.cond, c ∉ itemCells li.item := by
  intro c hc hmem
  obtain ⟨rfl, hq⟩ := mem_headCells_iff.1 hc
  have hitem : ¬((itemWrites li.item).contains (.reg .lc0) || (itemReads li.item).contains (.reg .lc0)) = true := by
    rw [headClash, hq, beq_self_eq_true, Bool.true_and, List.any_eq_false] at h
    exact h li hli
  rw [Bool.or_eq_true, List.contains_iff_mem, List.contains_iff_mem] at hitem
  exact hitem (List.mem_append.1 hmem).symm

/-- Ending a line changes write ages and the program counter only. -/
theorem sameCell_endLine {c : Cell} (hc : c ≠ .programCounter) (target : Nat) (s : State) :
    SameCell c s (endLine target s) := by
  cases c with
  | staticFlag one => cases one <;> rfl
  | reg u => cases u <;> exact ⟨rfl, rfl⟩
  | dab c => cases c <;> rfl
  | flags I => cases I <;> rfl
  | programCounter => exact absurd rfl hc

/-! ## Running a line -/

/-- No outcome of a list is a refusal or a fault when each is a next state. -/
theorem allNext_iff {l : List Out} :
    firstRefusal l = none ∧ firstFault l = none ↔ ∀ o ∈ l, ∃ u, o = .next u := by
  induction l with
  | nil => simp [firstRefusal, firstFault]
  | cons o rest ih => cases o <;> simp [firstRefusal, firstFault, ← ih]

/-- The items that execute stand in the line in this order. -/
theorem activeItems_sublist (l : Line) (s : State) : (activeItems l s).Sublist (l.items.map fun it => it.item) :=
  List.filter_sublist.map _

/-- The items of an admitted line that execute, on the state after the head: when each completes on the state before the
line, they complete, each does what it does alone, and nothing else changes. -/
theorem activeItems_doneAlone {l : Line} {s : State} (hs : s.mem.wf = true) (htext : lineError l = none)
    (hwords : anyPair (wordClash s) (activeItems l s) = false)
    (hrun : ∀ it ∈ activeItems l s, ∃ u, execItem it s = .next u) :
    ∃ t, execItems (activeItems l s) (headEffect l.cond s) = .next t ∧ (∀ it ∈ activeItems l s, DoneAlone it s t) ∧
      Frame (headCells l.cond ++ (activeItems l s).flatMap itemWrites)
        ((activeItems l s).flatMap fun it => itemStored it s) s t := by
  obtain ⟨hclash, hhead⟩ := noClash_of_lineError_none htext
  have hpair : (activeItems l s).Pairwise (Compatible s) :=
    (hclash.sublist (activeItems_sublist l s)).and (anyPair_eq_false_iff.1 hwords)
  have hheadFrame := headEffect_frame_headCells l.cond s
  have hagree : ∀ it ∈ activeItems l s, AgreeFor it s (headEffect l.cond s) := by
    intro it hit
    obtain ⟨li, hli, rfl⟩ := mem_of_mem_activeItems hit
    exact agree_of_frame (AgreeFor.refl _ s) hheadFrame (headCells_notMem_itemCells hhead hli) (List.forall_mem_nil _)
  obtain ⟨t, ht, hdone, hframe⟩ := execItems_doneAlone hs hpair hagree hrun (by rwa [headEffect_mem])
  exact ⟨t, ht, hdone, hheadFrame.comp hframe⟩

/-- Settles O19: a line that completes ran its items on the state after the head, where each does what it does alone and
nothing else changes (`activeItems_doneAlone`), and then ended (`sameCell_endLine`). -/
theorem lineDoesWhatEachInstructionDoesAlone : Obligations.LineDoesWhatEachInstructionDoesAlone := by
  unfold Obligations.LineDoesWhatEachInstructionDoesAlone
  intro l s hs
  refine ⟨fun htext hwords hrun => ?_, fun t h => ?_⟩
  · obtain ⟨t, ht, -, -⟩ := activeItems_doneAlone hs htext hwords hrun
    obtain ⟨hrefusal, hfault⟩ := allNext_iff.2 (List.forall_mem_map.2 hrun)
    refine ⟨endLine (nextLine (activeItems l s) s) t, ?_⟩
    simp only [runLine, htext, hwords, Bool.false_eq_true, if_false, hrefusal, hfault, ht, finish]
  · obtain ⟨htext, hwords, hrefusal, hfault, u, hu, rfl⟩ := runLine_next h
    have hrun := List.forall_mem_map.1 (allNext_iff.1 ⟨hrefusal, hfault⟩)
    obtain ⟨u', hu', hdone, hframe⟩ := activeItems_doneAlone hs htext hwords hrun
    obtain rfl : u = u' := Host.Outcome.next.inj (hu.symm.trans hu')
    refine ⟨fun it hit => ?_, fun c hpc hlc0 hc => ?_, fun a ha => ?_, hframe.map, hframe.text⟩
    · obtain ⟨n, v, hv, hsame, hread⟩ := hdone it hit
      exact ⟨n, v, hv, fun c hc hpc => (hsame c hc).trans (sameCell_endLine hpc _ u), hread⟩
    · refine (hframe.cells c fun hmem => ?_).trans (sameCell_endLine hpc _ u)
      rcases List.mem_append.1 hmem with hhead | hitem
      · obtain ⟨hc, hq⟩ := mem_headCells_iff.1 hhead
        exact hlc0 hc hq
      · obtain ⟨it, hit, hw⟩ := List.mem_flatMap.1 hitem
        exact hc it hit hw
    · refine hframe.memory a fun hmem => ?_
      obtain ⟨it, hit, hst⟩ := List.mem_flatMap.1 hmem
      exact ha it hit hst

end Sys2Proof.Proofs

/-! The arithmetic instructions (40_arith_logic.md R105 to R116): that each completes, and what it does and leaves
alone. The J and the K row of an instruction share its form's meaning (`exec_eq_execForm`), so each effect is said once,
of that meaning. -/

namespace Sys2Proof.Proofs

open Sys2Proof Sys2Proof.Machine

/-! ## The J and the K row of one form -/

/-- The row of either IALU means what the shared form means for that IALU. -/
theorem exec_pickIalu {onJ onK : Instr} (f : Ialu → Form) (hj : onJ.form = f .j) (hk : onK.form = f .k) (I : Ialu)
    (s : State) : exec (pickIalu I onJ onK) s = execForm (f I) s := by
  rw [exec_eq_execForm]
  cases I with
  | j => exact congrArg (execForm · s) hj
  | k => exact congrArg (execForm · s) hk

theorem runsTo_pickIalu {onJ onK : Instr} (f : Ialu → Form) (hj : onJ.form = f .j) (hk : onK.form = f .k) {I : Ialu}
    {s : State} {P : State → Prop} (h : ∃ t, execForm (f I) s = .next t ∧ P t) :
    RunsTo (pickIalu I onJ onK) s P := by
  rwa [RunsTo, exec_pickIalu f hj hk]

/-! ## Effects -/

/-- Writing a result and flags, after draws at most, is the effect of an IALU operation. -/
theorem aluEffect_of_result {I : Ialu} {d : RegNum} {r : Word} {F : Flags → Prop} {f : Flags} {s s' : State}
    (hs : Frame [] [] s s') (hF : F f) : AluEffect I d r F [] s ((aluwrite I d r s').setFlags I f) where
  result hd := by simp [aluread_aluwrite, hd]
  flags := by rwa [setFlags_flagsOf]
  frame := aluResult_frame I d r f hs

/-- An operation leaves every register but its result register alone. -/
theorem aluread_of_aluEffect {I : Ialu} {d i : RegNum} {r : Word} {F : Flags → Prop} {s t : State}
    (h : AluEffect I d r F [] s t) (hi : i ≠ d) : aluread I i t = aluread I i s := by
  by_cases h31 : i = 31
  · rw [h31, aluread_31, aluread_31]
  · have hcell : Cell.reg (I.ureg i) ∉ gprCells I d ++ [Cell.flags I] := by
      cases I <;> simp [gprCells, Ialu.ureg, hi]
    have hsame := (h.frame.cells _ hcell).1
    cases I <;> exact hsame

/-- Add and subtract (R105, R106). -/
theorem execAddSub_effect (I : Ialu) (sub : Bool) (d m : RegNum) (b : Opnd) (s : State) :
    let x := addSub sub (aluread I m s) (opndVal I b s)
    ∃ t, execAddSub I sub d m b s = .next t ∧ AluEffect I d x.r (fun f => f = x.flags) [] s t :=
  ⟨_, rfl, aluEffect_of_result (Frame.rfl' ..) rfl⟩

/-- Writing CJMP after an operation adds CJMP to what changes, and nothing else. -/
theorem aluEffect_writeCjmp {I : Ialu} {d : RegNum} {r : Word} {F : Flags → Prop} {s t : State}
    (h : AluEffect I d r F [] s t) (v : Word) : AluEffect I d r F [.reg .cjmp] s (writePlain .cjmp v t) where
  result hd := by cases I <;> exact h.result hd
  flags := by cases I <;> exact h.flags
  frame := (h.frame.comp (writeUreg_frame .cjmp v t)).mono (by simp [uregCell, statOf]) (by simp)

/-- With (CJMP) and a result register, CJMP takes the result after the plain form (R109). -/
theorem execAddSubCjmp_effect (I : Ialu) (sub : Bool) {d : RegNum} (hd : d ≠ 31) (m : RegNum) (b : Opnd) (s : State) :
    let x := addSub sub (aluread I m s) (opndVal I b s)
    ∃ t, execAddSubCjmp I sub d m b s = .next t ∧
      AluEffect I d x.r (fun f => f = x.flags) [.reg .cjmp] s t ∧ t.cjmp = x.r := by
  have hform : (Form.alu I (if sub then .subCjmp else .addCjmp) d m b).error = none := by
    cases sub <;> simp [Form.error, firstReason, hd]
  obtain ⟨t, ht, heff⟩ := execAddSub_effect I sub d m b s
  cases ht
  exact ⟨_, guardForm_none hform, aluEffect_writeCjmp heff _, rfl⟩

/-- (CJMP) with result register 31 is refused (R109). -/
theorem execAddSubCjmp_31 (I : Ialu) (sub : Bool) (m : RegNum) (b : Opnd) (s : State) :
    execAddSubCjmp I sub 31 m b s = .refused (.badForm .unspecifiedForm) := by
  cases sub <;> rfl

/-- With (CB), for an index that is ready for the step (R110). -/
theorem execAddSubCb_effect {I : Ialu} {sub : Bool} {m : RegNum} {b : Opnd} {s : State} {step : Int}
    (hstep : (if sub then -(opndVal I b s).toInt else (opndVal I b s).toInt) = step) (hready : CircularReady I m step s)
    (d : RegNum) :
    ∃ t, execAddSubCb I sub d m b s = .next t ∧
      AluEffect I d (circNext I m step s)
        (fun f => ZN (circNext I m step s) f ∧ VCCbOf (addSub sub (aluread I m s) (opndVal I b s)).flags f) [] s t := by
  have hform : (Form.alu I (if sub then .subCb else .addCb) d m b).error = none := by
    cases sub <;> simp [Form.error, firstReason, isIndexReg, hready.1]
  refine ⟨_, ?_, aluEffect_of_result (draw_frame s) (vcCb_spec (s.flagsOf I) _ _ (draw s).1)⟩
  simp only [execAddSubCb, guardForm_none hform, hstep, circUse_ok hready, withValue_ok]

/-- With (BR), for an index register (R111). -/
theorem execAddSubBr_effect (I : Ialu) (sub : Bool) (d : RegNum) {m : RegNum} (hm : m.val < 4) (b : Opnd) (s : State) :
    let r := brResult sub (aluread I m s) (opndVal I b s)
    ∃ t, execAddSubBr I sub d m b s = .next t ∧
      AluEffect I d r (fun f => ZN r f ∧ VCBrKept (s.flagsOf I) f) [] s t := by
  have hform : (Form.alu I (if sub then .subBr else .addBr) d m b).error = none := by
    cases sub <;> simp [Form.error, firstReason, isIndexReg, hm]
  exact ⟨_, guardForm_none hform, aluEffect_of_result (draw_frame s) (vcBr_spec ..)⟩

/-- A base or length register holds what was written to it. -/
theorem readPlain_writeBL_self (I : Ialu) (d : BLReg) (v : Word) (s : State) :
    readPlain (blUreg I d) (writeBL I d v s) = v := by
  cases I <;> cases d <;> exact Vector.getElem_set_self ..

/-- Add and subtract to a base or length register: the flags are written after the register, which they leave alone
(R112). -/
theorem execAddSubBL_effect (I : Ialu) (sub : Bool) (d : BLReg) (m : RegNum) (b : Opnd) (s : State) :
    let x := addSub sub (aluread I m s) (opndVal I b s)
    ∃ t, execAddSubBL I sub d m b s = .next t ∧ readPlain (blUreg I d) t = x.r ∧ holdOf I d t = 5 ∧
      t.flagsOf I = x.flags ∧ Frame [.reg (blUreg I d), .flags I] [] s t := by
  intro x
  have hflags := setFlags_frame I x.flags (writeBL I d x.r s)
  have hreg := (hflags.cells (.reg (blUreg I d)) (by simp)).1
  have hage := hflags.ages I d (by simp)
  exact ⟨_, rfl, hreg.trans (readPlain_writeBL_self ..), hage.trans (holdOf_writeBL_self ..), setFlags_flagsOf ..,
    execAddSubBL_frame (sub := sub) (m := m) (b := b) rfl⟩

/-- Add with carry and subtract with borrow (R113, R114). -/
theorem execCarry_effect (I : Ialu) (sub : Bool) (d m : RegNum) (b : Opnd) (s : State) :
    let x := (if sub then subCarry else addCarry) (aluread I m s) (opndVal I b s) (s.flagsOf I).c
    ∃ t, execCarry I sub d m b s = .next t ∧ AluEffect I d x.r (fun f => f = x.flags) [] s t := by
  cases sub <;> exact ⟨_, rfl, aluEffect_of_result (Frame.rfl' ..) rfl⟩

/-- Add and subtract with the divide by two (R115, R116). -/
theorem execHalf_effect (I : Ialu) (sub : Bool) (d m : RegNum) (b : Opnd) (s : State) :
    let r := halve (halfSum sub (aluread I m s) (opndVal I b s))
    ∃ t, execHalf I sub d m b s = .next t ∧ AluEffect I d r (ZN r) [] s t :=
  ⟨_, rfl, aluEffect_of_result (draw_frame s) ⟨rfl, rfl⟩⟩

/-! ## Halves -/

/-- Half of an integer is its floor or its ceiling. -/
theorem halfRound_floor_or_ceil (x y : Int) : halfRound x y = y / 2 ∨ halfRound x y = (y + 1) / 2 := by
  have hceil : y % 2 ≠ 0 → y / 2 + 1 = (y + 1) / 2 := by omega
  unfold halfRound
  split
  · exact .inl rfl
  next hodd =>
    split
    · exact .inr (hceil hodd)
    · exact .inl rfl

/-- In range the sum itself is halved, even or odd (R115). -/
theorem halve_of_inRange32 {x : Int} (h : inRange32 x = true) : halve x = BitVec.ofInt 32 (halfRound x x) := by
  by_cases heven : x % 2 = 0 <;> simp [halve, half33, halfRound, h, heven]

/-- Out of range the sum or its low 32 bits are halved (R115). -/
theorem halve_of_not_inRange32 {x : Int} (h : inRange32 x = false) :
    ∃ y, (y = x ∨ y = (BitVec.ofInt 32 x).toInt) ∧ halve x = BitVec.ofInt 32 (halfRound x y) := by
  cases htrunc : Config.halfTrunc x with
  | true => exact ⟨_, .inr rfl, by simp [halve, half33, h, htrunc]⟩
  | false => exact ⟨x, .inl rfl, by simp [halve, half33, h, htrunc]⟩

/-- The result of the divide by two is a half that R115 allows. -/
theorem isHalf_halve (x : Int) : IsHalf x (halve x) := by
  have hrange := inRange32_eq x
  unfold IsHalf
  cases hin : inRange32 x with
  | false =>
    rw [if_pos (by rw [← hrange, hin]; rfl)]
    obtain ⟨y, hy, hr⟩ := halve_of_not_inRange32 hin
    refine ⟨y, hy, ?_⟩
    rw [hr]
    exact (halfRound_floor_or_ceil x y).imp (congrArg _) (congrArg _)
  | true =>
    rw [if_neg (by rw [← hrange, hin]; decide), halve_of_inRange32 hin]
    have hbounds : minInt32 ≤ x ∧ x ≤ maxInt32 := by simpa [inRange32] using hin
    simp only [minInt32, maxInt32] at hbounds
    have hround := halfRound_floor_or_ceil x x
    rw [BitVec.toInt_ofInt_eq_self (by decide) (by omega) (by omega)]
    omega

/-! ## The statements -/

/-- Settles O26: the effect of the plain form (`execAddSub_effect`), with the flags in the formulas of R105
(`addSub_add_flags`). -/
theorem addWritesSumAndFlags : Obligations.AddWritesSumAndFlags := by
  unfold Obligations.AddWritesSumAndFlags
  intro I d m b s
  have h := execAddSub_effect I false d m b s
  simp only [addSub_add_r, addSub_add_flags] at h
  exact runsTo_pickIalu (.alu · .add d m b) rfl rfl h

/-- Settles O27: as O26, by the formulas of R106 (`addSub_sub_flags`). -/
theorem subtractWritesDifferenceAndFlags : Obligations.SubtractWritesDifferenceAndFlags := by
  unfold Obligations.SubtractWritesDifferenceAndFlags
  intro I d m b s
  have h := execAddSub_effect I true d m b s
  simp only [addSub_sub_r, addSub_sub_flags] at h
  exact runsTo_pickIalu (.alu · .sub d m b) rfl rfl h

/-- Settles O28: CJMP is written after the plain form (`execAddSubCjmp_effect`), and number 31 is refused
(`execAddSubCjmp_31`). -/
theorem cjmpOptionWritesCjmpToo : Obligations.CjmpOptionWritesCjmpToo := by
  unfold Obligations.CjmpOptionWritesCjmpToo
  intro I d m b s
  refine ⟨fun hd => ⟨?_, ?_⟩, ?_, ?_⟩
  · have h := execAddSubCjmp_effect I false hd m b s
    simp only [addSub_add_r, addSub_add_flags] at h
    exact runsTo_pickIalu (.alu · .addCjmp d m b) rfl rfl h
  · have h := execAddSubCjmp_effect I true hd m b s
    simp only [addSub_sub_r, addSub_sub_flags] at h
    exact runsTo_pickIalu (.alu · .subCjmp d m b) rfl rfl h
  · exact (exec_pickIalu (.alu · .addCjmp 31 m b) rfl rfl I s).trans (execAddSubCjmp_31 I false m b s)
  · exact (exec_pickIalu (.alu · .subCjmp 31 m b) rfl rfl I s).trans (execAddSubCjmp_31 I true m b s)

/-- Settles O29: an index that is ready takes the circular step (`execAddSubCb_effect`). -/
theorem circularOptionWritesTheCircularStep : Obligations.CircularOptionWritesTheCircularStep := by
  unfold Obligations.CircularOptionWritesTheCircularStep
  intro I d m b s
  refine ⟨fun hready => ?_, fun hready => ?_⟩
  · have h := execAddSubCb_effect (sub := false) rfl hready d
    simp only [addSub_add_flags] at h
    exact runsTo_pickIalu (.alu · .addCb d m b) rfl rfl h
  · have h := execAddSubCb_effect (sub := true) rfl hready d
    simp only [addSub_sub_flags] at h
    exact runsTo_pickIalu (.alu · .subCb d m b) rfl rfl h

/-- Settles O30: the sum is the bit-reverse-carry one and the difference the ordinary one (`execAddSubBr_effect`). -/
theorem bitReverseOptionCarriesRight : Obligations.BitReverseOptionCarriesRight := by
  unfold Obligations.BitReverseOptionCarriesRight
  intro I d m b s hm
  exact ⟨runsTo_pickIalu (.alu · .addBr d m b) rfl rfl (execAddSubBr_effect I false d hm b s),
    runsTo_pickIalu (.alu · .subBr d m b) rfl rfl (execAddSubBr_effect I true d hm b s)⟩

/-- Settles O31: the result and its age stand in the register named (`execAddSubBL_effect`). -/
theorem baseLengthFormsWriteTheRegister : Obligations.BaseLengthFormsWriteTheRegister := by
  unfold Obligations.BaseLengthFormsWriteTheRegister
  intro I d m b s
  constructor
  · have h := execAddSubBL_effect I false d m b s
    simp only [addSub_add_r, addSub_add_flags] at h
    exact runsTo_pickIalu (.bl · false d m b) rfl rfl h
  · have h := execAddSubBL_effect I true d m b s
    simp only [addSub_sub_r, addSub_sub_flags] at h
    exact runsTo_pickIalu (.bl · true d m b) rfl rfl h

/-- Settles O32: result and flags are those of the addition with carry (`addCarry_r`, `addCarry_flags`). -/
theorem addWithCarryWritesSumAndFlags : Obligations.AddWithCarryWritesSumAndFlags := by
  unfold Obligations.AddWithCarryWritesSumAndFlags
  intro I d m b s x y c
  have h := execCarry_effect I false d m b s
  simp only [Bool.false_eq_true, if_false, addCarry_r, addCarry_flags] at h
  obtain ⟨t, ht, heff⟩ := h
  refine runsTo_pickIalu (.alu · .addc d m b) rfl rfl ⟨t, ht, heff.result, ?_, heff.frame⟩
  rw [heff.flags]
  exact ⟨⟨rfl, rfl⟩, rfl, rfl⟩

/-- Settles O33: result and flags are those of the subtraction with borrow (`subCarry_r`, `subCarry_flags`). -/
theorem subtractWithBorrowWritesDifferenceAndFlags : Obligations.SubtractWithBorrowWritesDifferenceAndFlags := by
  unfold Obligations.SubtractWithBorrowWritesDifferenceAndFlags
  intro I d m b s x y c
  have h := execCarry_effect I true d m b s
  simp only [if_true, subCarry_r, subCarry_flags] at h
  obtain ⟨t, ht, heff⟩ := h
  refine runsTo_pickIalu (.alu · .subb d m b) rfl rfl ⟨t, ht, heff.result, ?_, heff.frame⟩
  rw [heff.flags]
  exact ⟨⟨rfl, rfl⟩, rfl, rfl⟩

/-- Settles O35: each completes (`execHalf_effect`) with a half that the spec allows (`isHalf_halve`). -/
theorem halvingWritesAHalf : Obligations.HalvingWritesAHalf := by
  unfold Obligations.HalvingWritesAHalf
  intro I d m b s
  exact ⟨⟨_, isHalf_halve _, runsTo_pickIalu (.alu · .addHalf d m b) rfl rfl (execHalf_effect I false d m b s)⟩,
    ⟨_, isHalf_halve _, runsTo_pickIalu (.alu · .subHalf d m b) rfl rfl (execHalf_effect I true d m b s)⟩⟩

end Sys2Proof.Proofs

/-! The carry forms chain (40_arith_logic.md R103, R113, R114): an operation on the low words, then its carry form on
the high words, is the operation on the 64-bit words. -/

namespace Sys2Proof.Proofs

open Sys2Proof Sys2Proof.Machine

section Words

variable (xh xl yh yl : Word)

/-! ## A 64-bit word as a high and a low word -/

theorem toNat_words : (xh ++ xl).toNat = 2 ^ 32 * xh.toNat + xl.toNat := by
  rw [BitVec.toNat_append, Nat.shiftLeft_eq, mul_comm, Nat.two_pow_add_eq_or_of_lt xl.isLt]

theorem toInt_words : (xh ++ xl).toInt = 2 ^ 32 * xh.toInt + xl.toNat :=
  BitVec.toInt_append

theorem toNat_bit (c : Bool) : (bit c).toNat = c.toNat := by
  cases c <;> rfl

/-! ## Addition -/

/-- The low sum with its carry out is the exact sum. -/
theorem toNat_add_lowCarry : (xl + yl).toNat + 2 ^ 32 * (addFlags xl yl).c.toNat = xl.toNat + yl.toNat := by
  rw [BitVec.toNat_add, addFlags]
  by_cases hc : 2 ^ 32 ≤ xl.toNat + yl.toNat
  · rw [decide_eq_true hc, Bool.toNat_true]
    omega
  · rw [decide_eq_false hc, Bool.toNat_false]
    omega

theorem add_words : (xh + yh + bit (addFlags xl yl).c) ++ (xl + yl) = (xh ++ xl) + (yh ++ yl) := by
  have hlow := toNat_add_lowCarry xl yl
  apply BitVec.eq_of_toNat_eq
  rw [BitVec.toNat_add (xh ++ xl), toNat_words, toNat_words, toNat_words, BitVec.toNat_add _ (bit _),
    BitVec.toNat_add xh, toNat_bit]
  omega

theorem addCarry_words :
    decide (2 ^ 32 ≤ xh.toNat + yh.toNat + (addFlags xl yl).c.toNat)
      = decide (2 ^ 64 ≤ (xh ++ xl).toNat + (yh ++ yl).toNat) := by
  have hlow := toNat_add_lowCarry xl yl
  rw [toNat_words, toNat_words, decide_eq_decide]
  omega

theorem addOverflows_words :
    overflows (xh.toInt + yh.toInt + (addFlags xl yl).c.toNat)
      = decide ((xh ++ xl).toInt + (yh ++ yl).toInt < -2 ^ 63 ∨ 2 ^ 63 ≤ (xh ++ xl).toInt + (yh ++ yl).toInt) := by
  have hlow := toNat_add_lowCarry xl yl
  rw [toInt_words, toInt_words, overflows, decide_eq_decide]
  omega

/-! ## Subtraction -/

/-- The low difference with its borrow is the exact difference; C is 1 when nothing is borrowed. -/
theorem toNat_sub_lowBorrow :
    (xl - yl).toNat + 2 ^ 32 * (subFlags xl yl).c.toNat + yl.toNat = xl.toNat + 2 ^ 32 := by
  rw [BitVec.toNat_sub, subFlags]
  by_cases hc : yl.toNat ≤ xl.toNat
  · rw [decide_eq_true hc, Bool.toNat_true]
    omega
  · rw [decide_eq_false hc, Bool.toNat_false]
    omega

theorem sub_words : (xh - yh + bit (subFlags xl yl).c - 1) ++ (xl - yl) = (xh ++ xl) - (yh ++ yl) := by
  have hlow := toNat_sub_lowBorrow xl yl
  have hone : (1 : Word).toNat = 1 := rfl
  apply BitVec.eq_of_toNat_eq
  rw [BitVec.toNat_sub (xh ++ xl), toNat_words, toNat_words, toNat_words, BitVec.toNat_sub _ 1,
    BitVec.toNat_add _ (bit _), BitVec.toNat_sub xh, toNat_bit, hone]
  omega

theorem subCarry_words :
    decide (yh.toNat + 1 ≤ xh.toNat + (subFlags xl yl).c.toNat) = decide ((yh ++ yl).toNat ≤ (xh ++ xl).toNat) := by
  have hlow := toNat_sub_lowBorrow xl yl
  rw [toNat_words, toNat_words, decide_eq_decide]
  omega

theorem subOverflows_words :
    overflows (xh.toInt - yh.toInt + (subFlags xl yl).c.toNat - 1)
      = decide ((xh ++ xl).toInt - (yh ++ yl).toInt < -2 ^ 63 ∨ 2 ^ 63 ≤ (xh ++ xl).toInt - (yh ++ yl).toInt) := by
  have hlow := toNat_sub_lowBorrow xl yl
  rw [toInt_words, toInt_words, overflows, decide_eq_decide]
  omega

end Words

/-! ## The chain -/

/-- The results of two operations, the second of which leaves the result register of the first alone. -/
theorem aluread_words_of_aluEffects {I : Ialu} {dl dh : RegNum} {low high : Word} {F G : Flags → Prop} {s s1 s2 : State}
    (hlow : AluEffect I dl low F [] s s1) (hhigh : AluEffect I dh high G [] s1 s2) (hdl : dl ≠ 31) (hdh : dh ≠ 31)
    (hne : dl ≠ dh) : aluread I dh s2 ++ aluread I dl s2 = high ++ low := by
  rw [hhigh.result hdh, aluread_of_aluEffect hhigh hne, hlow.result hdl]

/-- Settles O34: the low operation leaves the high operands alone and hands over C; the two results
(`aluread_words_of_aluEffects`) are the words of the 64-bit result (`add_words`, `sub_words`). -/
theorem carryFormsChainToSixtyFourBits : Obligations.CarryFormsChainToSixtyFourBits := by
  unfold Obligations.CarryFormsChainToSixtyFourBits
  intro I dl dh ml mh nl nh s hdl hdh hne hmh hnh x y
  constructor
  · obtain ⟨s1, hexec1, low⟩ := addWritesSumAndFlags I dl ml (.reg nl) s
    obtain ⟨s2, hexec2, high⟩ := addWithCarryWritesSumAndFlags I dh mh (.reg nh) s1
    have hwords := aluread_words_of_aluEffects low high hdl hdh hne
    obtain ⟨-, hv, hc⟩ := high.flags
    simp only [low.flags, opndVal, aluread_of_aluEffect low hmh.symm, aluread_of_aluEffect low hnh.symm] at hwords hv hc
    exact ⟨s1, s2, hexec1, hexec2, hwords.trans (add_words ..), hc.trans (addCarry_words ..),
      hv.trans (addOverflows_words ..)⟩
  · obtain ⟨s1, hexec1, low⟩ := subtractWritesDifferenceAndFlags I dl ml (.reg nl) s
    obtain ⟨s2, hexec2, high⟩ := subtractWithBorrowWritesDifferenceAndFlags I dh mh (.reg nh) s1
    have hwords := aluread_words_of_aluEffects low high hdl hdh hne
    obtain ⟨-, hv, hc⟩ := high.flags
    simp only [low.flags, opndVal, aluread_of_aluEffect low hmh.symm, aluread_of_aluEffect low hnh.symm] at hwords hv hc
    exact ⟨s1, s2, hexec1, hexec2, hwords.trans (sub_words ..), hc.trans (subCarry_words ..),
      hv.trans (subOverflows_words ..)⟩

end Sys2Proof.Proofs

/-! The function, logical and shift instructions (40_arith_logic.md R117 to R130): that each completes, and what it does
and leaves alone. -/

namespace Sys2Proof.Proofs

open Sys2Proof Sys2Proof.Machine

/-! ## Effects -/

/-- COMP (R117, R118): Z is equality, N the order, V and C by the policy. -/
theorem execComp_effect (I : Ialu) (unsigned : Bool) (m : RegNum) (b : Opnd) (s : State) :
    ∃ t, execComp I unsigned m b s = .next t ∧ Frame [Cell.flags I] [] s t ∧ VCKept (s.flagsOf I) (t.flagsOf I) ∧
      ((t.flagsOf I).z = true ↔ aluread I m s = opndVal I b s) ∧
      (t.flagsOf I).n = (compFlags unsigned (aluread I m s) (opndVal I b s) (s.flagsOf I)).n := by
  refine ⟨_, rfl, setFlags_frame .., ?_⟩
  rw [setFlags_flagsOf]
  exact ⟨keepVC_kept _ _ rfl rfl, beq_iff_eq, rfl⟩

/-- A two-operand function or logical instruction (R119, R120, R122 to R125). -/
theorem execTwo_effect (I : Ialu) (f : Word → Word → Word) (d m : RegNum) (b : Opnd) (s : State) :
    let r := f (aluread I m s) (opndVal I b s)
    ∃ t, execTwo I f d m b s = .next t ∧ AluEffect I d r (fun g => ZN r g ∧ VCKept (s.flagsOf I) g) [] s t :=
  ⟨_, rfl, aluEffect_of_result (Frame.rfl' ..) (keepVC_setZN ..)⟩

/-- A one-operand logical or shift instruction (R126 to R130). -/
theorem execOne_effect (I : Ialu) (f : Word → Word) (d m : RegNum) (s : State) :
    let r := f (aluread I m s)
    ∃ t, execOne I f d m s = .next t ∧ AluEffect I d r (fun g => ZN r g ∧ VCKept (s.flagsOf I) g) [] s t :=
  ⟨_, rfl, aluEffect_of_result (Frame.rfl' ..) (keepVC_setZN ..)⟩

/-- ABS (R121). -/
theorem execAbs_effect (I : Ialu) (d m : RegNum) (s : State) :
    let a := aluread I m s
    ∃ t, execAbs I d m s = .next t ∧ AluEffect I d (absWord a) (fun g => g = absFlags a (s.flagsOf I)) [] s t :=
  ⟨_, rfl, aluEffect_of_result (Frame.rfl' ..) rfl⟩

/-! ## Results -/

theorem toInt_maxWord (x y : Word) : (maxWord x y).toInt = max x.toInt y.toInt := by
  rw [maxWord, max_comm, max_def, apply_ite BitVec.toInt]

theorem toInt_minWord (x y : Word) : (minWord x y).toInt = min x.toInt y.toInt := by
  rw [minWord, min_def, apply_ite BitVec.toInt]

/-- The parameter `abs_min` is one of the two candidates of R121. -/
theorem absMin_candidates : Config.absMin = 0x7FFFFFFF ∨ Config.absMin = 0x80000000 := by
  rw [Config.absMin]
  exact ite_eq_or_eq ..

/-- Every word but 0x80000000 has its absolute value in range. -/
theorem isAbs_absWord (a : Word) : IsAbs a (absWord a) := by
  unfold IsAbs absWord
  by_cases hmin : a = 0x80000000
  · rw [if_pos hmin, if_pos hmin]
    exact absMin_candidates
  · rw [if_neg hmin, if_neg hmin]
    have hne : a.toNat ≠ 2 ^ 31 := fun h => hmin (BitVec.eq_of_toNat_eq h)
    have hlt := a.isLt
    rw [BitVec.toInt_eq_msb_cond]
    by_cases hneg : a.msb = true
    · have hge := BitVec.msb_eq_true_iff_two_mul_ge.1 hneg
      have hzero : 0 - a = -a := BitVec.zero_sub a
      rw [if_pos hneg, if_pos hneg, hzero, BitVec.toNat_neg]
      omega
    · rw [if_neg hneg, if_neg hneg]
      rfl

theorem keepBit_unchanged (h : Config.vcNonarith = .unchanged) (old : Bool) : keepBit old = old := by
  rw [keepBit, h]

theorem keepBit_cleared (h : Config.vcNonarith = .cleared) (old : Bool) : keepBit old = false := by
  rw [keepBit, h]

section Shifts

variable (x : Word) {n : Nat} (hn : n < 32)
include hn

theorem getLsbD_ashiftr1 : (ashiftr1 x).getLsbD n = x.getLsbD (if n = 31 then 31 else n + 1) := by
  rw [ashiftr1, BitVec.getLsbD_sshiftRight, decide_eq_false (by omega), Bool.not_false, Bool.true_and]
  by_cases htop : n = 31
  · rw [if_pos htop, if_neg (by omega)]
    exact BitVec.msb_eq_getLsbD_last x
  · rw [if_neg htop, if_pos (by omega), Nat.add_comm]

theorem getLsbD_rotr1 : (rotr1 x).getLsbD n = x.getLsbD ((n + 1) % 32) := by
  rw [rotr1, BitVec.getLsbD_rotateRight]
  by_cases htop : n = 31
  · subst htop
    rfl
  · have hlow : n < 32 - 1 % 32 := by omega
    rw [decide_eq_true hlow, cond_true, Nat.mod_eq_of_lt (a := n + 1) (by omega), Nat.add_comm]

theorem getLsbD_rotl1 : (rotl1 x).getLsbD n = x.getLsbD ((n + 31) % 32) := by
  rw [rotl1, BitVec.getLsbD_rotateLeft]
  by_cases hlow : n = 0
  · subst hlow
    rfl
  · have hwrap : (n + 31) % 32 = n - 1 % 32 := by omega
    rw [decide_eq_false (by omega), cond_false, decide_eq_true hn, Bool.true_and, hwrap]

end Shifts

theorem getLsbD_lshiftr1 (x : Word) (n : Nat) : (lshiftr1 x).getLsbD n = x.getLsbD (n + 1) := by
  rw [lshiftr1, BitVec.getLsbD_ushiftRight, Nat.add_comm]

/-! ## The statements -/

/-- Settles O36: COMP writes the flags only (`execComp_effect`), N by the signed or the unsigned order. -/
theorem compareOrdersItsOperands : Obligations.CompareOrdersItsOperands := by
  unfold Obligations.CompareOrdersItsOperands
  intro I m b s
  constructor
  · obtain ⟨t, ht, hframe, hvc, hz, hn⟩ := execComp_effect I false m b s
    exact runsTo_pickIalu (.comp · false m b) rfl rfl ⟨t, ht, hframe, hvc, hz, by rw [hn]; exact decide_eq_true_iff⟩
  · obtain ⟨t, ht, hframe, hvc, hz, hn⟩ := execComp_effect I true m b s
    exact runsTo_pickIalu (.comp · true m b) rfl rfl ⟨t, ht, hframe, hvc, hz, by rw [hn]; exact decide_eq_true_iff⟩

/-- Settles O37: each completes (`execTwo_effect`) with the signed maximum or minimum. -/
theorem maxAndMinAreSigned : Obligations.MaxAndMinAreSigned := by
  unfold Obligations.MaxAndMinAreSigned
  intro I d m b s
  exact ⟨⟨_, toInt_maxWord .., runsTo_pickIalu (.alu · .max d m b) rfl rfl (execTwo_effect I maxWord d m b s)⟩,
    ⟨_, toInt_minWord .., runsTo_pickIalu (.alu · .min d m b) rfl rfl (execTwo_effect I minWord d m b s)⟩⟩

/-- Settles O38: ABS completes (`execAbs_effect`) with an absolute value the spec allows (`isAbs_absWord`), and C
follows the policy of one bit. -/
theorem absoluteValueAndItsFlags : Obligations.AbsoluteValueAndItsFlags := by
  unfold Obligations.AbsoluteValueAndItsFlags
  intro I d m s
  obtain ⟨t, ht, heff⟩ := execAbs_effect I d m s
  refine ⟨_, isAbs_absWord _, runsTo_pickIalu (.alu1 · .abs d m) rfl rfl ⟨t, ht, heff.result, ?_, heff.frame⟩⟩
  rw [heff.flags]
  refine ⟨rfl, rfl, rfl, ?_⟩
  cases h : Config.vcNonarith with
  | unchanged => exact keepBit_unchanged h _
  | cleared => exact keepBit_cleared h _

/-- Settles O39: each completes (`execTwo_effect`, `execOne_effect`) with the operation of the words, which is that of
their bits. -/
theorem logicalResultsBitByBit : Obligations.LogicalResultsBitByBit := by
  unfold Obligations.LogicalResultsBitByBit
  intro I d m b s i op hrow
  simp only [List.mem_cons, Prod.mk.injEq, List.not_mem_nil, or_false] at hrow
  rcases hrow with ⟨rfl, rfl⟩ | ⟨rfl, rfl⟩ | ⟨rfl, rfl⟩ | ⟨rfl, rfl⟩ | ⟨rfl, rfl⟩
  · exact ⟨_, fun _ _ => BitVec.getLsbD_or, runsTo_pickIalu (.alu · .or d m b) rfl rfl (execTwo_effect I _ d m b s)⟩
  · exact ⟨_, fun _ _ => BitVec.getLsbD_and, runsTo_pickIalu (.alu · .and d m b) rfl rfl (execTwo_effect I _ d m b s)⟩
  · exact ⟨_, fun _ _ => BitVec.getLsbD_xor, runsTo_pickIalu (.alu · .xor d m b) rfl rfl (execTwo_effect I _ d m b s)⟩
  · exact ⟨_, fun n hn => by simp [hn],
      runsTo_pickIalu (.alu · .andNot d m b) rfl rfl (execTwo_effect I (fun x y => x &&& ~~~y) d m b s)⟩
  · exact ⟨_, fun n hn => by simp [hn],
      runsTo_pickIalu (.alu1 · .not d m) rfl rfl (execOne_effect I (fun x => ~~~x) d m s)⟩

/-- Settles O40: each completes (`execOne_effect`) with the word whose bits are moved by one place. -/
theorem shiftsMoveOnePlace : Obligations.ShiftsMoveOnePlace := by
  unfold Obligations.ShiftsMoveOnePlace
  intro I d m s i from_ hrow
  simp only [List.mem_cons, Prod.mk.injEq, List.not_mem_nil, or_false] at hrow
  rcases hrow with ⟨rfl, rfl⟩ | ⟨rfl, rfl⟩ | ⟨rfl, rfl⟩ | ⟨rfl, rfl⟩
  · exact ⟨_, fun _ => getLsbD_ashiftr1 _, runsTo_pickIalu (.alu1 · .ashiftr d m) rfl rfl (execOne_effect I _ d m s)⟩
  · exact ⟨_, fun n _ => getLsbD_lshiftr1 _ n,
      runsTo_pickIalu (.alu1 · .lshiftr d m) rfl rfl (execOne_effect I _ d m s)⟩
  · exact ⟨_, fun _ => getLsbD_rotr1 _, runsTo_pickIalu (.alu1 · .rotr d m) rfl rfl (execOne_effect I _ d m s)⟩
  · exact ⟨_, fun _ => getLsbD_rotl1 _, runsTo_pickIalu (.alu1 · .rotl d m) rfl rfl (execOne_effect I _ d m s)⟩

end Sys2Proof.Proofs

/-! The statements of 41_conditions.md: what the twelve conditions read, what a static flag takes and how long it keeps
it, and that instructions under a false condition have no effect. -/

namespace Sys2Proof.Proofs

open Sys2Proof Sys2Proof.Machine

/-! ## The conditions of Table 7-2 -/

/-- Settles O20: `condHolds` has one equation for each row of the table; a comparison of a flag with 1 is the flag, and
with 0 its negation. -/
theorem conditionsReadTheirFlags : Obligations.ConditionsReadTheirFlags := by
  unfold Obligations.ConditionsReadTheirFlags
  intro j k
  simp only [condHolds, beq_true, beq_false, and_self]

/-! ## Static-flag loads -/

/-- A static-flag load completes with the condition's value in its flag, and changes nothing else (R153). -/
theorem execGscf_effect (one : Bool) (q : Cond) (s : State) :
    ∃ t, execGscf one q s = .next t ∧
      (if one then t.gscf1 else t.gscf0) = condHolds q (s.flagsOf .j) (s.flagsOf .k) ∧
      Frame [.staticFlag one] [] s t :=
  ⟨_, rfl, by cases one <;> rfl, execGscf_frame rfl⟩

/-- Settles O60: both loads mean the same but for the flag they name (`execGscf_effect`). -/
theorem staticFlagLoadTakesTheCondition : Obligations.StaticFlagLoadTakesTheCondition := by
  unfold Obligations.StaticFlagLoadTakesTheCondition
  exact fun q s => ⟨execGscf_effect false q s, execGscf_effect true q s⟩

/-! ## Which items load a static flag -/

/-- No universal register is a static flag: the registers `Ureg` names hold none (10_state.md R20). -/
@[simp] theorem uregCell_ne_staticFlag (u : Ureg) (one : Bool) : uregCell u ≠ .staticFlag one := by
  unfold uregCell
  split <;> simp

@[simp] theorem staticFlag_notMem_gprCells (one : Bool) (I : Ialu) (m : RegNum) :
    Cell.staticFlag one ∉ gprCells I m := by
  unfold gprCells
  split <;> simp

@[simp] theorem staticFlag_notMem_ldCells (one : Bool) (a : LdAcc) (r : RegNum) :
    Cell.staticFlag one ∉ ldCells a r := by
  cases a <;> simp [ldCells]

/-- Of all forms only the load of the flag writes it (R154). -/
theorem staticFlag_mem_formWrites_iff {one : Bool} {f : Form} :
    Cell.staticFlag one ∈ formWrites f ↔ ∃ q, f = .gscf one q := by
  cases f with
  | gscf one' q => simp [formWrites, eq_comm]
  | alu | ldU | stU => simp [formWrites, apply_ite (Cell.staticFlag one ∈ ·)]
  | ldImm u v => simp [formWrites, (uregCell_ne_staticFlag u one).symm]
  | _ => simp [formWrites]

theorem staticFlag_mem_itemWrites_iff {one : Bool} {it : Item} :
    Cell.staticFlag one ∈ itemWrites it ↔ ∃ q, it = .ialu (Form.gscf one q).instr := by
  cases it with
  | ialu i =>
    have hform (q : Cond) : i.form = .gscf one q ↔ i = (Form.gscf one q).instr :=
      ⟨fun h => by rw [← h, form_instr], fun h => by rw [h, Laws.instr_form]⟩
    simp [itemWrites, staticFlag_mem_formWrites_iff, hform]
  | nop => simp [itemWrites]
  | jump n => simp [itemWrites]

/-! ## What a line leaves alone -/

/-- A run of items leaves alone what none of them writes. -/
theorem execItems_sameCell {c : Cell} {l : List Item} {s t : State} (h : execItems l s = .next t)
    (hc : ∀ it ∈ l, c ∉ itemWrites it) : SameCell c s t := by
  induction l generalizing s with
  | nil => cases h; exact .refl c _
  | cons it rest ih =>
    obtain ⟨hit, hrest⟩ := List.forall_mem_cons.1 hc
    simp only [execItems] at h
    split at h
    next u hu => exact ((execItem_frame hu).cells c hit).trans (ih h hrest)
    · cases h
    · cases h

/-- A line that completes leaves alone what none of its items writes, but for the program counter and the loop counter
its head may count down. -/
theorem runLine_sameCell {c : Cell} {l : Line} {s t : State} (h : runLine l s = .next t) (hpc : c ≠ .programCounter)
    (hlc0 : c ≠ .reg .lc0) (hc : ∀ it ∈ l.items, c ∉ itemWrites it.item) : SameCell c s t := by
  obtain ⟨-, -, -, -, u, hu, rfl⟩ := runLine_next h
  have hhead : SameCell c s (headEffect l.cond s) := (headEffect_frame l.cond s).cells c (by simpa using hlc0)
  have hitems : SameCell c (headEffect l.cond s) u := by
    refine execItems_sameCell hu fun it hit => ?_
    obtain ⟨li, hli, rfl⟩ := mem_of_mem_activeItems hit
    exact hc li hli
  exact hhead.trans (hitems.trans (sameCell_endLine hpc _ u))

/-- A line without a load of a static flag keeps that flag (R154). -/
theorem runLine_keeps_staticFlag {one : Bool} {l : Line} {s t : State} (h : runLine l s = .next t)
    (hload : ∀ it ∈ l.items, ∀ q, it.item ≠ .ialu (Form.gscf one q).instr) : SameCell (.staticFlag one) s t := by
  refine runLine_sameCell h nofun nofun fun it hit hmem => ?_
  obtain ⟨q, hq⟩ := staticFlag_mem_itemWrites_iff.1 hmem
  exact hload it hit q hq

/-- Settles O13: the head reads the flags themselves, and a static flag is written by its own loads only
(`staticFlag_mem_itemWrites_iff`), so a line without one keeps it. -/
theorem staticFlagsHoldTheirValue : Obligations.StaticFlagsHoldTheirValue := by
  unfold Obligations.StaticFlagsHoldTheirValue
  refine ⟨fun s => ⟨rfl, rfl⟩, fun s t l hfetch hstep => ?_⟩
  rw [step_of_fetchLine hfetch] at hstep
  exact ⟨runLine_keeps_staticFlag (one := false) hstep, runLine_keeps_staticFlag (one := true) hstep⟩

/-! ## Lines with fewer items -/

/-- A line whose text is refused for nothing passes every check of its text (`lineError`). -/
theorem lineError_eq_none_iff {l : Line} : lineError l = none ↔
    l.layoutOk = true ∧ l.marksOk = true ∧ (∀ it ∈ l.items, itemError it.item = none) ∧
      (l.items.map fun it => it.item).Pairwise (fun a b => statusClash a b = false) ∧
      (l.items.map fun it => it.item).Pairwise (fun a b => itemsClash a b = false) ∧ headClash l = false := by
  have hforms : (l.items.map fun it => it.item).findSome? itemError = none ↔
      ∀ it ∈ l.items, itemError it.item = none := by
    simp [List.findSome?_eq_none_iff]
  rw [← hforms, ← anyPair_eq_false_iff, ← anyPair_eq_false_iff]
  cases hfind : (l.items.map fun it => it.item).findSome? itemError <;>
    simp [lineError, hfind, ite_eq_iff]

/-- The layout of a line still fits when items are left out. -/
theorem layoutOk_of_sublist {q q' : Option LineCond} {items part : List LineItem} (hpart : part.Sublist items)
    (h : (Line.mk q items).layoutOk = true) : (Line.mk q' part).layoutOk = true := by
  obtain ⟨hslots, hfirst, hmarked⟩ := layoutOk_eq_true_iff.1 h
  refine layoutOk_eq_true_iff.2 ⟨?_, fun it hit => hfirst it (hpart.tail.subset hit), ?_⟩
  · exact (Nat.add_le_add hpart.length_le (hpart.filter _).length_le).trans hslots
  · exact (hpart.filter _).length_le.trans hmarked

/-- Unmarked items of an admitted line are admitted as a line without a condition. -/
theorem lineError_none_of_sublist {l : Line} {part : List LineItem} (h : lineError l = none)
    (hpart : part.Sublist l.items) (hunmarked : ∀ it ∈ part, it.marked = false) : lineError ⟨none, part⟩ = none := by
  obtain ⟨hlayout, -, hforms, hstatus, hclash, -⟩ := lineError_eq_none_iff.1 h
  refine lineError_eq_none_iff.2 ⟨layoutOk_of_sublist hpart hlayout, ?_, fun it hit => hforms it (hpart.subset hit),
    hstatus.sublist (hpart.map _), hclash.sublist (hpart.map _), rfl⟩
  simpa [Line.marksOk] using hunmarked

/-! ## False conditions -/

/-- Under a false condition the unmarked items execute (R151). -/
theorem activeItems_of_head_false {l : Line} {s : State} (h : headHolds l.cond s = false) :
    activeItems l s = (l.items.filter fun it => !it.marked).map fun it => it.item := by
  simp only [activeItems, h, Bool.or_false]

/-- A line without a condition executes whole. -/
theorem activeItems_of_cond_none (items : List LineItem) (s : State) :
    activeItems ⟨none, items⟩ s = items.map fun it => it.item := by
  simp [activeItems, headHolds]

/-- What an admitted line does depends on the items that execute and on what its head changes. -/
theorem runLine_congr {l l' : Line} {s : State} (h : lineError l = none) (h' : lineError l' = none)
    (hacts : activeItems l s = activeItems l' s) (hhead : headEffect l.cond s = headEffect l'.cond s) :
    runLine l s = runLine l' s := by
  simp only [runLine, h, h', hacts, hhead]

/-- An admitted line in which nothing executes makes the head's effect and ends. -/
theorem runLine_of_activeItems_nil {l : Line} {s : State} (h : lineError l = none) (hacts : activeItems l s = []) :
    runLine l s = .next (endLine (s.pc + 1) (headEffect l.cond s)) := by
  simp [runLine, h, hacts, anyPair, firstRefusal, firstFault, execItems, nextLine, finish]

/-- Settles O18: under a false condition just the unmarked items execute (`activeItems_of_head_false`), which are
admitted without the others (`lineError_none_of_sublist`); no marked item is looked at for a fault or a refusal of its
state. -/
theorem falseConditionHasNoEffect : Obligations.FalseConditionHasNoEffect := by
  unfold Obligations.FalseConditionHasNoEffect
  intro l s htext hfalse
  have hacts := activeItems_of_head_false hfalse
  refine ⟨fun hnlc0e => ?_, fun hmarked => ?_⟩
  · have hpart : lineError ⟨none, l.items.filter fun it => !it.marked⟩ = none :=
      lineError_none_of_sublist htext List.filter_sublist (by simp)
    refine runLine_congr htext hpart (by rw [hacts, activeItems_of_cond_none]) ?_
    rw [headEffect, if_neg hnlc0e]
    rfl
  · have hnone : (l.items.filter fun it => !it.marked) = [] := by simpa using hmarked
    exact runLine_of_activeItems_nil htext (by rw [hacts, hnone]; rfl)

end Sys2Proof.Proofs

/-! Loads and stores (42_load_store.md): when one completes, the words it moves, the index it leaves behind and its
frame. The rows of one form share its meaning (`exec_eq_execForm`), so each effect is said once, of that meaning. Data
registers are filled as the universal registers they are (`writeDregs_eq_writeUregs`), and every group of them is one run
of registers in a block, or two (`blockDregs`). -/

namespace Sys2Proof.Proofs

open Sys2Proof Sys2Proof.Machine

/-! ## Rows -/

/-- A row of the opcode table completes as its form does. -/
theorem runsTo_of_form {i : Instr} {f : Form} {s : State} {P : State → Prop} (hform : i.form = f)
    (h : ∃ t, execForm f s = .next t ∧ P t) : RunsTo i s P := by
  rwa [RunsTo, exec_eq_execForm, hform]

/-! ## Universal registers -/

/-- Only a general register has its own cell: a status register is flags (10_state.md R25). -/
theorem eq_of_uregCell_eq_reg {u v : Ureg} (h : uregCell u = .reg v) : u = v := by
  unfold uregCell at h
  split at h
  · cases h
  · exact Cell.reg.inj h

/-- The cell of an index register is not among those of a group it is not in. -/
theorem uregCell_notMem_gprCells {I : Ialu} {m : RegNum} {z : Size} {u v : Ureg} (hm : I.ureg m ∉ u.group z)
    (hv : v ∈ u.group z) : uregCell v ∉ gprCells I m := by
  unfold gprCells
  split
  · simp
  · intro hmem
    exact hm (eq_of_uregCell_eq_reg (List.mem_singleton.1 hmem) ▸ hv)

theorem shift_mem_group {z : Size} (u : Ureg) {k : Nat} (hk : k < z.count) : u.shift k ∈ u.group z := by
  have hlen : k < (u.group z).length := by rwa [group_length]
  exact group_getElem z u k hlen ▸ List.getElem_mem hlen

/-- Writing an index register outside the group leaves what was loaded. -/
theorem loaded_aluwrite {I : Ialu} {m : RegNum} {z : Size} {u : Ureg} {a : Nat} {s t : State} (h : Loaded z u a s t)
    (hm : I.ureg m ∉ u.group z) (v : Word) : Loaded z u a s (aluwrite I m v t) := fun k hk =>
  (h k hk).of_same ((aluwrite_frame I m v t).cells _ (uregCell_notMem_gprCells hm (shift_mem_group u hk)))

/-- A written general register holds its word. -/
theorem aluread_aluwrite_self (I : Ialu) {m : RegNum} (hm : m ≠ 31) (v : Word) (s : State) :
    aluread I m (aluwrite I m v s) = v := by
  simp [aluread_aluwrite, hm]

section Ureg

variable {I : Ialu} {z : Size} {u : Ureg} {m : RegNum} {b : Opnd} {s : State}

/-- Pre-modify loads (R167, R169, R170). -/
theorem execLdUreg_pre_effect (hu : UregGroup z u) (hr : Reachable s (preAddr I m b s) z.count) :
    ∃ t, execLdUreg I z .pre u m b s = .next t ∧ Loaded z u (preAddr I m b s) s t ∧ Frame (groupCells z u) [] s t := by
  have hrun := execLdUreg_completes (p := .pre) ((ldU_error_none_iff ..).2 ⟨hu, nofun⟩) hr
  exact ⟨_, hrun, loaded_writeUregs hu.1 _ s, by simpa using execLdUreg_frame hrun⟩

/-- Post-modify loads: the index is written last, outside the group (R168 to R170). -/
theorem execLdUreg_post_effect (hu : UregGroup z u) (hm : m ≠ 31) (hidx : I.ureg m ∉ u.group z)
    (hr : Reachable s (postAddr I m s) z.count) :
    ∃ t, execLdUreg I z .post u m b s = .next t ∧ Loaded z u (postAddr I m s) s t ∧
      aluread I m t = aluread I m s + opndVal I b s ∧ Frame (groupCells z u ++ gprCells I m) [] s t := by
  have hrun := execLdUreg_completes (p := .post) (b := b) ((ldU_error_none_iff ..).2 ⟨hu, fun _ => ⟨hm, hidx⟩⟩) hr
  exact ⟨_, hrun, loaded_aluwrite (loaded_writeUregs hu.1 _ s) hidx _, aluread_aluwrite_self I hm _ _,
    execLdUreg_frame hrun⟩

/-- Pre-modify stores (R171 to R173). -/
theorem execStUreg_pre_effect (hwf : s.mem.wf = true) (hu : UregGroup z u) (hs : Readable (u.group z) s)
    (hr : Reachable s (preAddr I m b s) z.count) :
    ∃ t, execStUreg I z .pre u m b s = .next t ∧ Stored z u (preAddr I m b s) s t ∧
      Frame [] (List.range' (preAddr I m b s) z.count) s t := by
  have hrun := execStUreg_completes (p := .pre) ((stU_error_none_iff ..).2 ⟨hu, nofun⟩) hs hr
  exact ⟨_, hrun, stored_of_mem hwf rfl, execStUreg_frame hrun⟩

/-- Post-modify stores: the group is read before the index is written (R171 to R173). -/
theorem execStUreg_post_effect (hwf : s.mem.wf = true) (hu : UregGroup z u) (hs : Readable (u.group z) s) (hm : m ≠ 31)
    (hr : Reachable s (postAddr I m s) z.count) :
    ∃ t, execStUreg I z .post u m b s = .next t ∧ Stored z u (postAddr I m s) s t ∧
      aluread I m t = aluread I m s + opndVal I b s ∧
      Frame (gprCells I m) (List.range' (postAddr I m s) z.count) s t := by
  have hrun := execStUreg_completes (p := .post) (b := b) ((stU_error_none_iff ..).2 ⟨hu, fun _ => hm⟩) hs hr
  exact ⟨_, hrun, stored_of_mem hwf (aluwrite_mem ..), aluread_aluwrite_self I hm _ _, execStUreg_frame hrun⟩

end Ureg

/-- Settles O45: the row of each IALU and size has the one form whose effect is `execLdUreg_pre_effect`. -/
theorem preModifyLoadsFillTheGroup : Obligations.PreModifyLoadsFillTheGroup := by
  unfold Obligations.PreModifyLoadsFillTheGroup
  intro I z u m b s hu hr
  exact runsTo_of_form (f := .ldU I z .pre u m b) (by cases z <;> cases I <;> rfl) (execLdUreg_pre_effect hu hr)

/-- Settles O46: as O45, and the index takes its step (`execLdUreg_post_effect`). -/
theorem postModifyLoadsFillTheGroupAndStep : Obligations.PostModifyLoadsFillTheGroupAndStep := by
  unfold Obligations.PostModifyLoadsFillTheGroupAndStep
  intro I z u m b s hu hm hidx hr
  exact runsTo_of_form (f := .ldU I z .post u m b) (by cases z <;> cases I <;> rfl)
    (execLdUreg_post_effect hu hm hidx hr)

/-- Settles O47: the row of each IALU and size has the one form whose effect is `execStUreg_pre_effect`. -/
theorem preModifyStoresWriteTheGroup : Obligations.PreModifyStoresWriteTheGroup := by
  unfold Obligations.PreModifyStoresWriteTheGroup
  intro I z u m b s hwf hu hs hr
  exact runsTo_of_form (f := .stU I z .pre u m b) (by cases z <;> cases I <;> rfl) (execStUreg_pre_effect hwf hu hs hr)

/-- Settles O48: as O47, and the index takes its step after the group is read (`execStUreg_post_effect`). -/
theorem postModifyStoresWriteTheGroupAndStep : Obligations.PostModifyStoresWriteTheGroupAndStep := by
  unfold Obligations.PostModifyStoresWriteTheGroupAndStep
  intro I z u m b s hwf hu hs hm hr
  exact runsTo_of_form (f := .stU I z .post u m b) (by cases z <;> cases I <;> rfl)
    (execStUreg_post_effect hwf hu hs hm hr)

/-! ## Data registers as universal registers -/

@[simp] theorem uregCell_dregUreg (c : Blk) (i : RegNum) : uregCell (dregUreg c i) = .reg (dregUreg c i) := by
  cases c <;> rfl

theorem dregUreg_injective : Function.Injective fun d : Blk × RegNum => dregUreg d.1 d.2 := by
  rintro ⟨c, i⟩ ⟨c', i'⟩ h
  cases c <;> cases c' <;> simp_all [dregUreg]

/-- General registers are no data registers. -/
theorem dregUreg_notMem_gprCells (c : Blk) (i : RegNum) (I : Ialu) (m : RegNum) :
    Cell.reg (dregUreg c i) ∉ gprCells I m := by
  unfold gprCells
  split
  · simp
  · cases c <;> cases I <;> simp [dregUreg, Ialu.ureg]

theorem holds_dregUreg_iff (c : Blk) (i : RegNum) (w : Word) (t : State) :
    Holds (dregUreg c i) w t ↔ readDreg c i t = w ∧ dregUnwritten c i t = false := by
  cases c <;> rfl

/-- Writing data registers is writing them as universal registers. -/
theorem writeDregs_eq_writeUregs (l : List ((Blk × RegNum) × Word)) (s : State) :
    writeDregs l s = writeUregs (l.map fun p => (dregUreg p.1.1 p.1.2, p.2)) s := by
  induction l generalizing s with
  | nil => rfl
  | cons p rest ih =>
    have hone : writeUreg (dregUreg p.1.1 p.1.2) p.2 s = writeDreg p.1.1 p.1.2 p.2 s := by cases p.1.1 <;> rfl
    simp only [writeDregs, List.map_cons, writeUregs, hone, ih]

/-- Every data register of a list written without repeats holds its word. -/
theorem holds_writeDregs {l : List ((Blk × RegNum) × Word)} (hn : (l.map Prod.fst).Nodup) (s : State) :
    ∀ p ∈ l, Holds (dregUreg p.1.1 p.1.2) p.2 (writeDregs l s) := by
  intro p hp
  rw [writeDregs_eq_writeUregs]
  refine holds_writeUregs _ s ?_ (dregUreg p.1.1 p.1.2, p.2) (List.mem_map_of_mem hp)
  have hcells := (hn.map dregUreg_injective).map fun _ _ h => Cell.reg.inj h
  simpa [List.map_map, Function.comp_def] using hcells

/-! ## Runs of registers in a block -/

/-- Registers `r`, `r + 1`, .. of a block, lowest first. -/
def blockDregs (c : Blk) (r : RegNum) (n : Nat) : List (Blk × RegNum) := (List.range n).map fun k => (c, regPlus r k)

/-- Registers `r`, `r + 1`, .. of a block, each with its word of those from `a` on. -/
def blockWords (c : Blk) (r : RegNum) (n : Nat) (mem : Memory) (a : Nat) : List ((Blk × RegNum) × Word) :=
  (List.range n).map fun k => ((c, regPlus r k), readWord mem (a + k))

@[simp] theorem blockDregs_length (c : Blk) (r : RegNum) (n : Nat) : (blockDregs c r n).length = n := by
  simp [blockDregs]

theorem blockDregs_getElem? (c : Blk) (r : RegNum) {k n : Nat} (hk : k < n) :
    (blockDregs c r n)[k]? = some (c, regPlus r k) := by
  simp [blockDregs, hk]

theorem blockDregs_map_dregUreg (c : Blk) (r : RegNum) (n : Nat) :
    (blockDregs c r n).map (fun d => dregUreg d.1 d.2) = blockRegs c r n := by
  simp [blockDregs, blockRegs]

theorem blockDregs_map_cell (c : Blk) (r : RegNum) (n : Nat) :
    (blockDregs c r n).map (fun d => Cell.reg (dregUreg d.1 d.2)) = blockCells c r n := by
  simp [blockDregs, blockCells]

theorem blockWords_map_fst (c : Blk) (r : RegNum) (n : Nat) (mem : Memory) (a : Nat) :
    (blockWords c r n mem a).map Prod.fst = blockDregs c r n := by
  simp [blockWords, blockDregs]

/-- The registers of an aligned group differ. -/
theorem blockDregs_nodup (c : Blk) {z : Size} {r : RegNum} (h : lowOk z r = true) : (blockDregs c r z.count).Nodup := by
  refine List.nodup_range.map_on fun k hk k' hk' heq => ?_
  have hval := congrArg (fun d : Blk × RegNum => d.2.val) heq
  simp only [regPlus_val h (List.mem_range.1 hk), regPlus_val h (List.mem_range.1 hk')] at hval
  omega

/-- The registers of an aligned group in two blocks differ. -/
theorem blockDregs_append_nodup {c c' : Blk} (hc : c ≠ c') {z : Size} {r : RegNum} (h : lowOk z r = true) :
    (blockDregs c r z.count ++ blockDregs c' r z.count).Nodup := by
  refine (blockDregs_nodup c h).append (blockDregs_nodup c' h) fun d hd hd' => ?_
  obtain ⟨_, -, rfl⟩ := List.mem_map.1 hd
  obtain ⟨_, -, heq⟩ := List.mem_map.1 hd'
  exact hc (congrArg Prod.fst heq).symm

/-! ## The registers of a load or store -/

theorem bothFirst_eq_firstBlk (c : Both) : bothFirst c = firstBlk c := by cases c <;> rfl

theorem bothSecond_eq_secondBlk (c : Both) : bothSecond c = secondBlk c := by cases c <;> rfl

theorem secondBlk_ne_firstBlk (c : Both) : secondBlk c ≠ firstBlk c := by cases c <;> decide

theorem stRegs_normal (z : Size) (c : Blk) (r : RegNum) : stRegs (.normal z c) r = blockDregs c r z.count := by
  simp [stRegs, regGroup_eq, blockDregs, Function.comp_def]

/-- The block named second comes first in memory (R166). -/
theorem stRegs_merged (dual : Bool) (c : Both) (r : RegNum) :
    stRegs (.merged dual c) r = blockDregs (secondBlk c) r (StAcc.merged dual c).size.count ++
      blockDregs (firstBlk c) r (StAcc.merged dual c).size.count := by
  simp [stRegs, regGroup_eq, blockDregs, StAcc.size, bothFirst_eq_firstBlk, bothSecond_eq_secondBlk, Function.comp_def]

theorem readWords_eq_map (mem : Memory) (a n : Nat) :
    readWords mem a n = (List.range n).map fun k => readWord mem (a + k) :=
  List.ext_getElem (by simp) fun k hk _ => by simp [readWords_getElem]

theorem blockDregs_zip_readWords (c : Blk) (r : RegNum) (n : Nat) (mem : Memory) (a : Nat) :
    (blockDregs c r n).zip (readWords mem a n) = blockWords c r n mem a := by
  rw [readWords_eq_map, blockDregs, List.zip_map', blockWords]

/-- A run of words is cut into two. -/
theorem readWords_add (mem : Memory) (a n n' : Nat) :
    readWords mem a (n + n') = readWords mem a n ++ readWords mem (a + n) n' := by
  simp [readWords_eq_map, List.range_add, Function.comp_def, Nat.add_assoc]

theorem ldTargets_normal (z : Size) (c : Blk) (r : RegNum) (mem : Memory) (a : Nat) :
    ldTargets (.normal z c) r (readWords mem a z.count) = blockWords c r z.count mem a := by
  rw [ldTargets, stRegs_normal, blockDregs_zip_readWords]

/-- A broadcast gives both blocks the same words (R166). -/
theorem ldTargets_bcast (z : Size) (c : Both) (r : RegNum) (mem : Memory) (a : Nat) :
    ldTargets (.bcast z c) r (readWords mem a z.count) =
      blockWords .x r z.count mem a ++ blockWords .y r z.count mem a := by
  rw [ldTargets, stRegs_normal, stRegs_normal, blockDregs_zip_readWords, blockDregs_zip_readWords]

/-- A merged load moves two groups. -/
theorem ldWidth_merged (dual : Bool) (c : Both) :
    ldWidth (.merged dual c) = (StAcc.merged dual c).size.count + (StAcc.merged dual c).size.count := by
  cases dual <;> rfl

/-- The block named first takes the words at the higher addresses (R166). -/
theorem ldTargets_merged (dual : Bool) (c : Both) (r : RegNum) (mem : Memory) (a : Nat) :
    let n := (StAcc.merged dual c).size.count
    ldTargets (.merged dual c) r (readWords mem a (ldWidth (.merged dual c))) =
      blockWords (secondBlk c) r n mem a ++ blockWords (firstBlk c) r n mem (a + n) := by
  intro n
  rw [ldTargets, stRegs_merged, ldWidth_merged, readWords_add, List.zip_append (by simp), blockDregs_zip_readWords,
    blockDregs_zip_readWords]

/-- A load fills no register twice. -/
theorem ldTargets_nodup {a : LdAcc} {r : RegNum} (h : lowOk a.size r = true) (mem : Memory) (addr : Nat) :
    ((ldTargets a r (readWords mem addr (ldWidth a))).map Prod.fst).Nodup := by
  cases a with
  | normal z c =>
    simp only [ldWidth, ldTargets_normal, blockWords_map_fst]
    exact blockDregs_nodup c h
  | bcast z c =>
    simp only [ldWidth, ldTargets_bcast, List.map_append, blockWords_map_fst]
    exact blockDregs_append_nodup (by decide) h
  | merged dual c =>
    simp only [ldTargets_merged, List.map_append, blockWords_map_fst]
    exact blockDregs_append_nodup (secondBlk_ne_firstBlk c) h

/-! ## The effect of a load or store of data registers -/

section Dreg

variable {I : Ialu} {r : RegNum} {op : PmOp} {m : RegNum} {b : Opnd} {s : State}

/-- A load completes: each register it names holds its word, and the index is updated (R163, R166). -/
theorem execLdDreg_effect {a : LdAcc} (hg : DregGroup a.size r) (hready : UpdateReady I op m b s)
    (hr : Reachable s (postAddr I m s) (ldWidth a)) :
    ∃ t, execLdDreg I a r op m b s = .next t ∧
      (∀ p ∈ ldTargets a r (readWords s.mem (postAddr I m s) (ldWidth a)), Holds (dregUreg p.1.1 p.1.2) p.2 t) ∧
      aluread I m t = nextIndex I op m b s ∧ Frame (ldCells a r ++ gprCells I m) [] s t := by
  have hform : (Form.ldD I a r op m b).error = none := dregChecks_none hg hready
  have hrun : execLdDreg I a r op m b s = .next (aluwrite I m (nextIndex I op m b s)
      (writeDregs (ldTargets a r (readWords s.mem (postAddr I m s) (ldWidth a))) s)) := by
    rw [execLdDreg, guardForm_none hform, postUpdate_ok hready, withValue_ok]
    exact withAccess_ok hr
  refine ⟨_, hrun, fun p hp => ?_, aluread_aluwrite_self I hready.1 _ _, execLdDreg_frame hrun⟩
  refine (holds_writeDregs (ldTargets_nodup hg.1 ..) s p hp).of_same ((aluwrite_frame I m _ _).cells _ ?_)
  simpa using dregUreg_notMem_gprCells p.1.1 p.1.2 I m

/-- A store completes: memory takes the word of each register it names, and the index is updated (R163, R166). -/
theorem execStDreg_effect {a : StAcc} (hwf : s.mem.wf = true) (hg : DregGroup a.size r)
    (hs : Readable (stSources a r) s) (hready : UpdateReady I op m b s)
    (hr : Reachable s (postAddr I m s) (stRegs a r).length) :
    ∃ t, execStDreg I a r op m b s = .next t ∧
      (∀ k d, (stRegs a r)[k]? = some d → readWord t.mem (postAddr I m s + k) = readDreg d.1 d.2 s) ∧
      aluread I m t = nextIndex I op m b s ∧
      Frame (gprCells I m) (List.range' (postAddr I m s) (stRegs a r).length) s t := by
  have hform : (Form.stD I a r op m b).error = none := dregChecks_none hg hready
  have hrun : execStDreg I a r op m b s = .next (aluwrite I m (nextIndex I op m b s) { s with
      mem := writeWords s.mem (postAddr I m s) ((stRegs a r).map fun d => readDreg d.1 d.2 s) }) := by
    rw [execStDreg, guardForm_none hform, postUpdate_ok hready, withValue_ok]
    exact (withSources_ok hs).trans (withAccess_ok (by rwa [List.length_map]))
  refine ⟨_, hrun, fun k d hd => ?_, aluread_aluwrite_self I hready.1 _ _, execStDreg_frame hrun⟩
  obtain ⟨hk, rfl⟩ := List.getElem?_eq_some_iff.1 hd
  rw [aluwrite_mem, readWord_writeWords hwf _ _ k (by simpa using hk), List.getElem_map]

/-- A block whose registers hold the words of a run is loaded. -/
theorem blockLoaded_of_holds {c : Blk} {n a : Nat} {t : State}
    (h : ∀ p ∈ blockWords c r n s.mem a, Holds (dregUreg p.1.1 p.1.2) p.2 t) : BlockLoaded c r n a s t := fun k hk =>
  (holds_dregUreg_iff ..).1 (h _ (List.mem_map.2 ⟨k, List.mem_range.2 hk, rfl⟩))

/-- Normal loads (R174 to R176). -/
theorem execLdDreg_normal_effect {z : Size} (c : Blk) (hg : DregGroup z r) (hready : UpdateReady I op m b s)
    (hr : Reachable s (postAddr I m s) z.count) :
    ∃ t, execLdDreg I (.normal z c) r op m b s = .next t ∧ BlockLoaded c r z.count (postAddr I m s) s t ∧
      aluread I m t = nextIndex I op m b s ∧ Frame (blockCells c r z.count ++ gprCells I m) [] s t := by
  obtain ⟨t, ht, hregs, hidx, hframe⟩ := execLdDreg_effect (a := .normal z c) hg hready hr
  simp only [ldWidth, ldTargets_normal] at hregs
  simp only [ldCells, stRegs_normal, blockDregs_map_cell] at hframe
  exact ⟨t, ht, blockLoaded_of_holds hregs, hidx, hframe⟩

/-- Broadcast loads (R177 to R179). -/
theorem execLdDreg_bcast_effect {z : Size} (c : Both) (hg : DregGroup z r) (hready : UpdateReady I op m b s)
    (hr : Reachable s (postAddr I m s) z.count) :
    ∃ t, execLdDreg I (.bcast z c) r op m b s = .next t ∧ BlockLoaded .x r z.count (postAddr I m s) s t ∧
      BlockLoaded .y r z.count (postAddr I m s) s t ∧ aluread I m t = nextIndex I op m b s ∧
      Frame (blockCells .x r z.count ++ blockCells .y r z.count ++ gprCells I m) [] s t := by
  obtain ⟨t, ht, hregs, hidx, hframe⟩ := execLdDreg_effect (a := .bcast z c) hg hready hr
  simp only [ldWidth, ldTargets_bcast, List.forall_mem_append] at hregs
  simp only [ldCells, stRegs_normal, List.map_append, blockDregs_map_cell] at hframe
  exact ⟨t, ht, blockLoaded_of_holds hregs.1, blockLoaded_of_holds hregs.2, hidx, hframe⟩

/-- What holds of the block named second and of the one named first holds of X and Y, and the other way round. -/
theorem forall_both_iff (c : Both) (P : Blk → Prop) : P (secondBlk c) ∧ P (firstBlk c) ↔ P .x ∧ P .y := by
  cases c with
  | yx => rfl
  | xy => exact and_comm
  | bare => exact and_comm

/-- Merged loads (R180, R181). -/
theorem execLdDreg_merged_effect (dual : Bool) (c : Both) (hg : DregGroup (StAcc.merged dual c).size r)
    (hready : UpdateReady I op m b s) (hr : Reachable s (postAddr I m s) (ldWidth (.merged dual c))) :
    let n := (StAcc.merged dual c).size.count
    ∃ t, execLdDreg I (.merged dual c) r op m b s = .next t ∧ BlockLoaded (secondBlk c) r n (postAddr I m s) s t ∧
      BlockLoaded (firstBlk c) r n (postAddr I m s + n) s t ∧ aluread I m t = nextIndex I op m b s ∧
      Frame (blockCells .x r n ++ blockCells .y r n ++ gprCells I m) [] s t := by
  intro n
  obtain ⟨t, ht, hregs, hidx, hframe⟩ := execLdDreg_effect (a := .merged dual c) hg hready hr
  simp only [ldTargets_merged, List.forall_mem_append] at hregs
  simp only [ldCells, stRegs_merged, List.map_append, blockDregs_map_cell] at hframe
  have hcells : blockCells (secondBlk c) r n ++ blockCells (firstBlk c) r n ⊆
      blockCells .x r n ++ blockCells .y r n := by
    rw [List.append_subset, forall_both_iff c (blockCells · r n ⊆ _)]
    exact ⟨List.subset_append_left .., List.subset_append_right ..⟩
  have hwrites := List.append_subset.2
    ⟨List.subset_append_of_subset_left (gprCells I m) hcells, List.subset_append_right ..⟩
  exact ⟨t, ht, blockLoaded_of_holds hregs.1, blockLoaded_of_holds hregs.2, hidx,
    hframe.mono hwrites (List.Subset.refl _)⟩

/-- Normal stores (R182 to R184). -/
theorem execStDreg_normal_effect {z : Size} {c : Blk} (hwf : s.mem.wf = true) (hg : DregGroup z r)
    (hs : Readable (blockRegs c r z.count) s) (hready : UpdateReady I op m b s)
    (hr : Reachable s (postAddr I m s) z.count) :
    ∃ t, execStDreg I (.normal z c) r op m b s = .next t ∧ BlockStored c r z.count (postAddr I m s) s t ∧
      aluread I m t = nextIndex I op m b s ∧ Frame (gprCells I m) (List.range' (postAddr I m s) z.count) s t := by
  have hregs := stRegs_normal z c r
  have hlen : (stRegs (.normal z c) r).length = z.count := by rw [hregs, blockDregs_length]
  have hsources : stSources (.normal z c) r = blockRegs c r z.count := by
    rw [stSources, hregs, blockDregs_map_dregUreg]
  obtain ⟨t, ht, hmem, hidx, hframe⟩ := execStDreg_effect (a := .normal z c) hwf hg (hsources ▸ hs) hready (hlen ▸ hr)
  rw [hregs] at hmem
  exact ⟨t, ht, fun k hk => hmem k _ (blockDregs_getElem? c r hk), hidx, hlen ▸ hframe⟩

/-- Merged stores (R185, R186). -/
theorem execStDreg_merged_effect (dual : Bool) (c : Both) (hwf : s.mem.wf = true)
    (hready : UpdateReady I op m b s) :
    let n := (StAcc.merged dual c).size.count
    DregGroup (StAcc.merged dual c).size r → Readable (blockRegs .x r n ++ blockRegs .y r n) s →
    Reachable s (postAddr I m s) (n + n) →
    ∃ t, execStDreg I (.merged dual c) r op m b s = .next t ∧ BlockStored (secondBlk c) r n (postAddr I m s) s t ∧
      BlockStored (firstBlk c) r n (postAddr I m s + n) s t ∧ aluread I m t = nextIndex I op m b s ∧
      Frame (gprCells I m) (List.range' (postAddr I m s) (n + n)) s t := by
  intro n hg hs hr
  have hregs : stRegs (.merged dual c) r = blockDregs (secondBlk c) r n ++ blockDregs (firstBlk c) r n :=
    stRegs_merged dual c r
  have hlen : (stRegs (.merged dual c) r).length = n + n := by simp [hregs]
  have hsources : Readable (stSources (.merged dual c) r) s := by
    rw [stSources, hregs, List.map_append, blockDregs_map_dregUreg, blockDregs_map_dregUreg, Readable,
      List.forall_mem_append, forall_both_iff c fun c => ∀ u ∈ blockRegs c r n, uregUnwritten u s = false]
    exact List.forall_mem_append.1 hs
  obtain ⟨t, ht, hmem, hidx, hframe⟩ := execStDreg_effect (a := .merged dual c) hwf hg hsources hready (hlen ▸ hr)
  rw [hregs] at hmem
  refine ⟨t, ht, fun k hk => hmem k (secondBlk c, regPlus r k) ?_, fun k hk => ?_, hidx, hlen ▸ hframe⟩
  · rw [List.getElem?_append_left (by simpa using hk), blockDregs_getElem? _ r hk]
  · rw [Nat.add_assoc]
    refine hmem (n + k) (firstBlk c, regPlus r k) ?_
    rw [List.getElem?_append_right (by simp), blockDregs_length, Nat.add_sub_cancel_left, blockDregs_getElem? _ r hk]

end Dreg

/-! ## The statements on data registers -/

/-- Settles O50: the row of each IALU and size has the one form whose effect is `execLdDreg_normal_effect`. -/
theorem normalLoadsFillOneBlock : Obligations.NormalLoadsFillOneBlock := by
  unfold Obligations.NormalLoadsFillOneBlock
  intro I z c r op m b s hg hready hr
  exact runsTo_of_form (f := .ldD I (.normal z c) r op m b) (by cases z <;> cases I <;> rfl)
    (execLdDreg_normal_effect c hg hready hr)

/-- Settles O51: as O50, by `execLdDreg_bcast_effect`. -/
theorem broadcastLoadsFillBothBlocks : Obligations.BroadcastLoadsFillBothBlocks := by
  unfold Obligations.BroadcastLoadsFillBothBlocks
  intro I z c r op m b s hg hready hr
  exact runsTo_of_form (f := .ldD I (.bcast z c) r op m b) (by cases z <;> cases I <;> rfl)
    (execLdDreg_bcast_effect c hg hready hr)

/-- Settles O52: single and dual are the two cases of `execLdDreg_merged_effect`. -/
theorem mergedLoadsSplitTheWords : Obligations.MergedLoadsSplitTheWords := by
  unfold Obligations.MergedLoadsSplitTheWords
  intro I c r op m b s hready a
  exact ⟨fun hg hr => runsTo_pickIalu (.ldD · (.merged false c) r op m b) rfl rfl
      (execLdDreg_merged_effect false c hg hready hr),
    fun hg hr => runsTo_pickIalu (.ldD · (.merged true c) r op m b) rfl rfl
      (execLdDreg_merged_effect true c hg hready hr)⟩

/-- Settles O53: the row of each IALU and size has the one form whose effect is `execStDreg_normal_effect`. -/
theorem normalStoresWriteOneBlock : Obligations.NormalStoresWriteOneBlock := by
  unfold Obligations.NormalStoresWriteOneBlock
  intro I z c r op m b s hwf hg hs hready hr
  exact runsTo_of_form (f := .stD I (.normal z c) r op m b) (by cases z <;> cases I <;> rfl)
    (execStDreg_normal_effect hwf hg hs hready hr)

/-- Settles O54: single and dual are the two cases of `execStDreg_merged_effect`. -/
theorem mergedStoresSplitTheWords : Obligations.MergedStoresSplitTheWords := by
  unfold Obligations.MergedStoresSplitTheWords
  intro I c r op m b s hwf hready a
  refine ⟨fun hg hs hr => ?_, fun hg hs hr => ?_⟩
  · have hpair : blockRegs .x r 1 ++ blockRegs .y r 1 = [.xr r, .yr r] := by simp [blockRegs, dregUreg, regPlus_zero]
    exact runsTo_pickIalu (.stD · (.merged false c) r op m b) rfl rfl
      (execStDreg_merged_effect false c hwf hready hg (hpair ▸ hs) hr)
  · exact runsTo_pickIalu (.stD · (.merged true c) r op m b) rfl rfl
      (execStDreg_merged_effect true c hwf hready hg hs hr)

end Sys2Proof.Proofs

/-! The data alignment buffers (43_dab.md): which element of buffer and new quad each register of an access takes, what
the blocks of an access hold after it, and that a second access one quad later delivers an unaligned quad. Word and short
accesses share one meaning (`execDab`), so what an access does is said once (`execDab_effect`), by the word or the
undefined value each register takes (`dabElement`). -/

namespace Sys2Proof.Proofs

open Sys2Proof Sys2Proof.Machine

/-! ## The alignment function -/

/-- The place `i` of an aligned list: an old element while it lasts, then a new one (R204). -/
theorem alignN_getElem? {α : Type} (old new : List α) {sh i : Nat} (hi : i < old.length) :
    (alignN old new sh)[i]? = if i + sh < old.length then old[i + sh]? else new[i + sh - old.length]? := by
  rw [alignN, List.getElem?_take_of_lt hi, List.getElem?_drop, List.getElem?_append, Nat.add_comm sh i]

/-- Settles O44: the two clauses are the two sides of the place where the new elements begin (`alignN_getElem?`). -/
theorem alignmentTakesOldThenNew : Obligations.AlignmentTakesOldThenNew := by
  unfold Obligations.AlignmentTakesOldThenNew
  rintro old new n sh i rfl - - hi
  refine ⟨fun hlt => ?_, fun hle => ?_⟩
  · rw [alignN_getElem? old new hi, if_pos hlt]
  · rw [alignN_getElem? old new hi, if_neg (by omega)]

/-- The alignment of two lists given place by place. -/
theorem alignN_map_range {α : Type} (old new : Nat → α) {n sh : Nat} (hsh : sh ≤ n) :
    alignN ((List.range n).map old) ((List.range n).map new) sh =
      (List.range n).map fun i => Aligned n sh i old new := by
  refine List.ext_getElem? fun i => ?_
  by_cases hi : i < n
  · rw [alignN_getElem? _ _ (by simpa using hi)]
    by_cases hold : i + sh < n
    · simp [Aligned, hi, hold]
    · have hnew : i + sh - n < n := by omega
      simp [Aligned, hi, hold, hnew]
  · have hlen : n ≤ i := by omega
    simp [alignN, hlen]

/-- `w` where `p` holds, and no defined value elsewhere (R209). -/
def definedIf {α : Type} (p : Prop) [Decidable p] (w : α) : Option α := if p then some w else none

theorem definedIf_eq_some_iff {α : Type} {p : Prop} [Decidable p] {w v : α} : definedIf p w = some v ↔ p ∧ w = v := by
  simp [definedIf]

theorem isNone_definedIf {α : Type} {p : Prop} [Decidable p] {w : α} : (definedIf p w).isNone = true ↔ ¬ p := by
  simp [definedIf]

/-- An aligned element is defined when it is a new one or the old ones are defined (R209). -/
theorem aligned_definedIf {α : Type} (p : Prop) [Decidable p] (old new : Nat → α) (n sh i : Nat) :
    Aligned n sh i (fun k => definedIf p (old k)) (fun k => some (new k)) =
      definedIf (p ∨ n ≤ i + sh) (Aligned n sh i old new) := by
  by_cases hold : i + sh < n
  · simp [Aligned, definedIf, hold, Nat.not_le_of_lt hold]
  · simp [Aligned, definedIf, hold, Nat.le_of_not_lt hold]

/-! ## The elements of an access -/

/-- A buffer's words are defined once it is primed (R209). -/
theorem oldWords_eq_map (d : Dab) :
    d.oldWords = (List.range 4).map fun k => definedIf (d.primed = true) (dabWord d k) := rfl

/-- The short words of a quad, place by place (R202). -/
theorem shorts_map_range (p : Prop) [Decidable p] (w : Nat → Word) :
    shorts ((List.range 4).map fun k => definedIf p (w k)) =
      (List.range 8).map fun j => definedIf p (shortOf w j) := by
  by_cases hp : p <;> simp [shorts, shortsOf, shortOf, definedIf, hp, List.range_succ]

theorem packShorts_cons_cons (lo hi : Option Short) (rest : List (Option Short)) :
    packShorts (lo :: hi :: rest) = Option.map₂ (fun a b => b ++ a) lo hi :: packShorts rest := by
  cases lo <;> cases hi <;> rfl

/-- Eight short words packed, place by place (R206). -/
theorem packShorts_map_range (e : Nat → Option Short) :
    packShorts ((List.range 8).map e) =
      (List.range 4).map fun k => Option.map₂ (fun a b => b ++ a) (e (2 * k)) (e (2 * k + 1)) := by
  change packShorts [e 0, e 1, e 2, e 3, e 4, e 5, e 6, e 7] = _
  simp only [packShorts_cons_cons]
  rfl

/-- How many elements of an access a quad holds: four words or eight short words. -/
def dabElems (short : Bool) : Nat := if short then 8 else 4

/-- The value register `k` of the quad takes from a buffer and the new quad `new` at shift `sh` (R201, R202, R204,
R209). -/
def dabElement (short : Bool) (d : Dab) (new : Nat → Word) (sh k : Nat) : Option Word :=
  if short then
    definedIf (d.primed = true ∨ 8 ≤ 2 * k + sh)
      (Aligned 8 sh (2 * k + 1) (shortOf (dabWord d)) (shortOf new) ++
        Aligned 8 sh (2 * k) (shortOf (dabWord d)) (shortOf new))
  else definedIf (d.primed = true ∨ 4 ≤ k + sh) (Aligned 4 sh k (dabWord d) new)

/-- A register that takes two short words is written when its low half is defined: the high one then is too. -/
theorem map₂_definedIf {p : Prop} [Decidable p] (lo hi : Short) (n j sh : Nat) :
    Option.map₂ (fun a b => b ++ a) (definedIf (p ∨ n ≤ j + sh) lo) (definedIf (p ∨ n ≤ j + 1 + sh) hi) =
      definedIf (p ∨ n ≤ j + sh) (hi ++ lo) := by
  by_cases hlo : p ∨ n ≤ j + sh
  · have hhi : p ∨ n ≤ j + 1 + sh := hlo.imp_right fun h => by omega
    simp [definedIf, hlo, hhi]
  · simp [definedIf, hlo]

/-- The words a DAB access delivers to a block are its elements. -/
theorem dabResult_eq_map (short : Bool) (d : Dab) (new : Nat → Word) {sh : Nat} (hsh : sh ≤ dabElems short) :
    dabResult short d ((List.range 4).map new) sh = (List.range 4).map (dabElement short d new sh) := by
  have hnew : ((List.range 4).map new).map some = (List.range 4).map fun k => some (new k) := by simp
  cases short with
  | false =>
    simp only [dabResult, hnew, oldWords_eq_map, Bool.false_eq_true, if_false]
    rw [alignN_map_range (n := 4) _ _ hsh]
    exact List.map_congr_left fun k _ => aligned_definedIf ..
  | true =>
    have hshorts : shorts ((List.range 4).map fun k => some (new k)) =
        (List.range 8).map fun j => some (shortOf new j) := shorts_map_range True new
    simp only [dabResult, hnew, oldWords_eq_map, if_true, shorts_map_range, hshorts]
    rw [alignN_map_range (n := 8) _ _ hsh]
    simp only [aligned_definedIf, packShorts_map_range]
    exact List.map_congr_left fun k _ => map₂_definedIf ..

/-! ## The part of one block -/

/-- Block `c` took its part of a DAB access: each of its registers has its element, and its buffer holds the new quad
(R201, R202, R209). -/
structure TookQuad (short : Bool) (c : Blk) (r : RegNum) (d : Dab) (mem : Memory) (q sh : Nat) (t : State) : Prop where
  unwritten : ∀ k, k < 4 →
    dregUnwritten c (regPlus r k) t = (dabElement short d (fun i => readWord mem (q + i)) sh k).isNone
  value : ∀ k, k < 4 → ∀ w, dabElement short d (fun i => readWord mem (q + i)) sh k = some w →
    readDreg c (regPlus r k) t = w
  buffer : t.dab c = ⟨quadAt mem q, true⟩

theorem quadAt_toList (mem : Memory) (q : Nat) :
    (quadAt mem q).toList = (List.range 4).map fun i => readWord mem (q + i) := rfl

theorem regGroup_quad_map (c : Blk) (r : RegNum) : ((regGroup .quad r).map fun i => (c, i)) = blockDregs c r 4 := by
  rw [regGroup_eq, List.map_map]
  rfl

theorem tookQuad_dabBlock {short : Bool} {r : RegNum} (c : Blk) (hr : lowOk .quad r = true) (mem : Memory) (q : Nat)
    {sh : Nat} (hsh : sh ≤ dabElems short) (s : State) :
    TookQuad short c r (s.dab c) mem q sh (dabBlock short c sh r (quadAt mem q) s) := by
  have hzip : (blockDregs c r 4).zip (dabResult short (s.dab c) (quadAt mem q).toList sh) = (List.range 4).map fun k =>
      ((c, regPlus r k), dabElement short (s.dab c) (fun i => readWord mem (q + i)) sh k) := by
    rw [quadAt_toList, dabResult_eq_map _ _ _ hsh, blockDregs, List.zip_map']
  have hnodup : (((blockDregs c r 4).zip (dabResult short (s.dab c) (quadAt mem q).toList sh)).map
      fun p => p.1).Nodup := by
    rw [hzip, List.map_map]
    exact blockDregs_nodup c hr
  have hput := readDreg_putDregs _ s hnodup
  rw [hzip] at hput
  have hreg := fun k (hk : k < 4) => hput _ (List.mem_map.2 ⟨k, List.mem_range.2 hk, rfl⟩)
  rw [dabBlock, regGroup_quad_map, hzip]
  exact ⟨fun k hk => by simpa using (hreg k hk).1, fun k hk => by simpa using (hreg k hk).2, setDab_dab ..⟩

/-- What changes no cell of block `c` leaves its part as it is. -/
theorem TookQuad.of_frame {short : Bool} {c : Blk} {r : RegNum} {d : Dab} {mem : Memory} {q sh : Nat} {t u : State}
    {W : List Cell} {st : List Nat} (h : TookQuad short c r d mem q sh t) (hf : Frame W st t u)
    (hreg : ∀ i, Cell.reg (dregUreg c i) ∉ W) (hdab : Cell.dab c ∉ W) : TookQuad short c r d mem q sh u := by
  have hsame : ∀ i, readDreg c i u = readDreg c i t ∧ dregUnwritten c i u = dregUnwritten c i t := fun i => by
    have := hf.cells _ (hreg i)
    cases c <;> exact this
  exact ⟨fun k hk => (hsame _).2.trans (h.unwritten k hk), fun k hk w hw => (hsame _).1.trans (h.value k hk w hw),
    Eq.trans (hf.cells _ hdab) h.buffer⟩

/-! ## The parts of an access -/

theorem regGroup_quad_cells (c : Blk) (r : RegNum) :
    ((regGroup .quad r).map fun i => Cell.reg (dregUreg c i)) = blockCells c r 4 := by
  rw [regGroup_eq, List.map_map]
  rfl

/-- The cells that the parts of a DAB access change. -/
def dabPartsCells (l : List (Blk × Nat)) (r : RegNum) : List Cell :=
  (l.flatMap fun p => (regGroup .quad r).map fun i => Cell.reg (dregUreg p.1 i)) ++ l.map fun p => Cell.dab p.1

theorem reg_notMem_dabPartsCells {c : Blk} {l : List (Blk × Nat)} (hc : c ∉ l.map Prod.fst) (r i : RegNum) :
    Cell.reg (dregUreg c i) ∉ dabPartsCells l r := by
  intro hmem
  rcases List.mem_append.1 hmem with hmem | hmem
  · obtain ⟨p, hp, hmem⟩ := List.mem_flatMap.1 hmem
    obtain ⟨j, -, heq⟩ := List.mem_map.1 hmem
    have hblk : (p.1, j) = (c, i) := dregUreg_injective (Cell.reg.inj heq)
    exact hc (List.mem_map.2 ⟨p, hp, congrArg Prod.fst hblk⟩)
  · obtain ⟨_, -, heq⟩ := List.mem_map.1 hmem
    cases heq

theorem dab_notMem_dabPartsCells {c : Blk} {l : List (Blk × Nat)} (hc : c ∉ l.map Prod.fst) (r : RegNum) :
    Cell.dab c ∉ dabPartsCells l r := by
  intro hmem
  rcases List.mem_append.1 hmem with hmem | hmem
  · obtain ⟨_, -, hmem⟩ := List.mem_flatMap.1 hmem
    obtain ⟨_, -, heq⟩ := List.mem_map.1 hmem
    cases heq
  · obtain ⟨p, hp, heq⟩ := List.mem_map.1 hmem
    exact hc (List.mem_map.2 ⟨p, hp, Cell.dab.inj heq⟩)

/-- Every block that the parts of an access name took its part, from the buffer it had before the access: the parts
of the other blocks touch neither its registers nor its buffer. -/
theorem tookQuad_dabBlocks {short : Bool} {mis : Nat} {r : RegNum} (hr : lowOk .quad r = true) (mem : Memory) (q : Nat)
    {l : List (Blk × Nat)} (hl : (l.map Prod.fst).Nodup) (hsh : ∀ p ∈ l, mis + p.2 ≤ dabElems short) (s : State) :
    ∀ p ∈ l, TookQuad short p.1 r (s.dab p.1) mem q (mis + p.2) (dabBlocks short mis r (quadAt mem q) l s) := by
  induction l generalizing s with
  | nil => simp
  | cons first rest ih =>
    rw [List.map_cons, List.nodup_cons] at hl
    rw [List.forall_mem_cons] at hsh ⊢
    refine ⟨?_, fun p hp => ?_⟩
    · exact (tookQuad_dabBlock first.1 hr mem q hsh.1 s).of_frame
        (dabBlocks_frame short mis r (quadAt mem q) rest _)
        (reg_notMem_dabPartsCells hl.1 r) (dab_notMem_dabPartsCells hl.1 r)
    · have hne : p.1 ∉ [first].map Prod.fst := fun hmem =>
        hl.1 (List.mem_singleton.1 hmem ▸ List.mem_map_of_mem hp)
      have hold : (dabBlocks short mis r (quadAt mem q) [first] s).dab p.1 = s.dab p.1 :=
        (dabBlocks_frame short mis r (quadAt mem q) [first] s).cells _ (dab_notMem_dabPartsCells hne r)
      exact hold ▸ ih hl.2 hsh.2 _ p hp

/-! ## The effect of a DAB access -/

section Dab

variable {I : Ialu} {a : DabKind} {r m : RegNum} {b : Opnd} {s : State}

theorem dabPlan_nodup (a : DabKind) : ((dabPlan a).map Prod.fst).Nodup := by
  cases a with
  | one short c => exact List.nodup_singleton c
  | both short c => simp [dabPlan]
  | offset onY short c => cases onY <;> simp [dabPlan]

/-- A shift passes the misalignment by one at most, so it stays within a quad (R204, R205). -/
theorem dabMis_add_le (short : Bool) (idx : Word) : ∀ p ∈ dabPlan a, dabMis short idx + p.2 ≤ dabElems short := by
  have hmis : dabMis short idx < dabElems short := by cases short <;> exact Nat.mod_lt _ (by decide)
  have hextra : ∀ p ∈ dabPlan a, p.2 ≤ 1 := by
    cases a with
    | one short c => simp [dabPlan]
    | both short c => simp [dabPlan]
    | offset onY short c => cases onY <;> simp [dabPlan]
  intro p hp
  have := hextra p hp
  omega

/-- A DAB access completes: each block it names takes its part, and the index takes the circular step (R201 to R208,
R210). -/
theorem execDab_effect (hg : DregGroup .quad r) (hready : DabReady I (dabIsShort a) m b s)
    (hr : Reachable s (dabQuad (dabIsShort a) (aluread I m s)) 4) :
    ∃ t, execDab I a r m b s = .next t ∧
      (∀ p ∈ dabPlan a, TookQuad (dabIsShort a) p.1 r (s.dab p.1) s.mem (dabQuad (dabIsShort a) (aluread I m s))
        (dabMis (dabIsShort a) (aluread I m s) + p.2) t) ∧
      aluread I m t = circNext I m (opndVal I b s).toInt s ∧
      Frame (dabPartsCells (dabPlan a) r ++ gprCells I m) [] s t := by
  have hrun : execDab I a r m b s = .next (aluwrite I m (circNext I m (opndVal I b s).toInt s)
      (dabBlocks (dabIsShort a) (dabMis (dabIsShort a) (aluread I m s)) r
        (quadAt s.mem (dabQuad (dabIsShort a) (aluread I m s))) (dabPlan a) s)) := by
    rw [execDab, guardForm_none (dabForm_none hg hready), dabUpdate_ok hready, withValue_ok]
    exact withAccess_ok hr
  have hm : m ≠ 31 := by
    rintro rfl
    exact absurd hready.2.1.1 (by decide)
  refine ⟨_, hrun, fun p hp => ?_, aluread_aluwrite_self I hm _ _, ?_⟩
  · exact (tookQuad_dabBlocks hg.1 _ _ (dabPlan_nodup a) (dabMis_add_le _ _) s p hp).of_frame (aluwrite_frame I m _ _)
      (fun i => dregUreg_notMem_gprCells p.1 i I m) (by simp [gprCells])
  · exact (dabBlocks_frame _ _ r _ (dabPlan a) s).comp (aluwrite_frame I m _ _)

/-! ## The part of a block, as the statements say it -/

theorem dabWord_quadAt (mem : Memory) (q : Nat) (primed : Bool) {k : Nat} (hk : k < 4) :
    dabWord ⟨quadAt mem q, primed⟩ k = readWord mem (q + k) := by
  interval_cases k <;> rfl

theorem dabWords_of_tookQuad {c : Blk} {q sh : Nat} {t : State} (h : TookQuad false c r (s.dab c) s.mem q sh t) :
    DabWords c r q sh s t := by
  refine ⟨fun i hi hdef => h.value i hi _ (definedIf_eq_some_iff.2 ⟨hdef, rfl⟩), fun i hi => ?_, fun k hk => ?_, ?_⟩
  · rw [h.unwritten i hi]
    exact isNone_definedIf.trans (by simp)
  · rw [h.buffer, dabWord_quadAt _ _ _ hk]
  · rw [h.buffer]

theorem shortOf_append (hi lo : Short) {h : Nat} (hh : h < 2) :
    shortOf (fun _ => hi ++ lo) h = if h = 0 then lo else hi := by
  interval_cases h
  · exact BitVec.extractLsb'_append_eq_right
  · exact BitVec.extractLsb'_append_eq_left

theorem dabShorts_of_tookQuad {c : Blk} {q sh : Nat} {t : State} (h : TookQuad true c r (s.dab c) s.mem q sh t) :
    DabShorts c r q sh s t := by
  refine ⟨fun k hk hdef j hj => ?_, fun i hi => ?_, fun k hk => ?_, ?_⟩
  · rw [h.value k hk _ (definedIf_eq_some_iff.2 ⟨hdef, rfl⟩), shortOf_append _ _ hj]
    interval_cases j <;> rfl
  · rw [h.unwritten i hi]
    exact isNone_definedIf.trans (by simp)
  · rw [h.buffer, dabWord_quadAt _ _ _ hk]
  · rw [h.buffer]

/-- The part of a block in words or in short words. -/
def DabPart (short : Bool) (c : Blk) (r : RegNum) (q sh : Nat) (s t : State) : Prop :=
  match short with
  | false => DabWords c r q sh s t
  | true => DabShorts c r q sh s t

theorem dabPart_of_tookQuad {short : Bool} {c : Blk} {q sh : Nat} {t : State}
    (h : TookQuad short c r (s.dab c) s.mem q sh t) : DabPart short c r q sh s t := by
  cases short with
  | false => exact dabWords_of_tookQuad h
  | true => exact dabShorts_of_tookQuad h

/-- DAB and SDAB (R201, R202). -/
theorem execDab_one_effect {short : Bool} (c : Blk) (hg : DregGroup .quad r) (hready : DabReady I short m b s)
    (hr : Reachable s (dabQuad short (aluread I m s)) 4) :
    ∃ t, execDab I (.one short c) r m b s = .next t ∧
      DabPart short c r (dabQuad short (aluread I m s)) (dabMis short (aluread I m s)) s t ∧
      aluread I m t = circNext I m (opndVal I b s).toInt s ∧
      Frame (blockCells c r 4 ++ Cell.dab c :: gprCells I m) [] s t := by
  obtain ⟨t, ht, hparts, hidx, hframe⟩ := execDab_effect (a := .one short c) hg hready hr
  exact ⟨t, ht, dabPart_of_tookQuad (hparts (c, 0) (by simp [dabPlan])), hidx,
    by simpa [dabPartsCells, dabPlan, regGroup_quad_cells] using hframe⟩

/-- The two-block accesses, each block with the extra shift of the plan (R205 to R208, R210). -/
theorem execDab_two_effect (a : DabKind) {extraX extraY : Nat} (hplan : dabPlan a = [(.x, extraX), (.y, extraY)])
    (hg : DregGroup .quad r) (hready : DabReady I (dabIsShort a) m b s)
    (hr : Reachable s (dabQuad (dabIsShort a) (aluread I m s)) 4) :
    let q := dabQuad (dabIsShort a) (aluread I m s)
    let mis := dabMis (dabIsShort a) (aluread I m s)
    ∃ t, execDab I a r m b s = .next t ∧ DabPart (dabIsShort a) .x r q (mis + extraX) s t ∧
      DabPart (dabIsShort a) .y r q (mis + extraY) s t ∧ aluread I m t = circNext I m (opndVal I b s).toInt s ∧
      Frame (blockCells .x r 4 ++ blockCells .y r 4 ++ Cell.dab .x :: Cell.dab .y :: gprCells I m) [] s t := by
  intro q mis
  obtain ⟨t, ht, hparts, hidx, hframe⟩ := execDab_effect (a := a) hg hready hr
  exact ⟨t, ht, dabPart_of_tookQuad (hparts (.x, extraX) (by simp [hplan])),
    dabPart_of_tookQuad (hparts (.y, extraY) (by simp [hplan])), hidx,
    by simpa [dabPartsCells, hplan, regGroup_quad_cells] using hframe⟩

/-- The one- and two-block instructions on words, or on short words, do what `execDab` does for them. -/
theorem dab_instrs_align (short : Bool) (hg : DregGroup .quad r) (hready : DabReady I short m b s)
    (hr : Reachable s (dabQuad short (aluread I m s)) 4) :
    let q := dabQuad short (aluread I m s)
    let mis := dabMis short (aluread I m s)
    let next := circNext I m (opndVal I b s).toInt s
    (∀ c, RunsTo (Form.dab I (.one short c) r m b).instr s (fun t =>
      DabPart short c r q mis s t ∧ aluread I m t = next ∧
      Frame (blockCells c r 4 ++ Cell.dab c :: gprCells I m) [] s t)) ∧
    ∀ (c : Both) (i : Instr) (shX shY : Nat),
      (i, shX, shY) ∈ [((Form.dab I (.both short c) r m b).instr, mis, mis),
        ((Form.dab I (.offset false short c) r m b).instr, mis + 1, mis),
        ((Form.dab I (.offset true short c) r m b).instr, mis, mis + 1)] →
      RunsTo i s (fun t => DabPart short .x r q shX s t ∧ DabPart short .y r q shY s t ∧ aluread I m t = next ∧
        Frame (blockCells .x r 4 ++ blockCells .y r 4 ++ Cell.dab .x :: Cell.dab .y :: gprCells I m) [] s t) := by
  intro q mis next
  refine ⟨fun c => runsTo_of_form (Laws.instr_form _) (execDab_one_effect c hg hready hr), fun c i shX shY hmem => ?_⟩
  simp only [List.mem_cons, List.not_mem_nil, or_false, Prod.mk.injEq] at hmem
  obtain ⟨rfl, rfl, rfl⟩ | ⟨rfl, rfl, rfl⟩ | ⟨rfl, rfl, rfl⟩ := hmem
  · exact runsTo_of_form (Laws.instr_form _) (execDab_two_effect (.both short c) rfl hg hready hr)
  · exact runsTo_of_form (Laws.instr_form _) (execDab_two_effect (.offset false short c) rfl hg hready hr)
  · exact runsTo_of_form (Laws.instr_form _) (execDab_two_effect (.offset true short c) rfl hg hready hr)

end Dab

/-! ## The statements on one access -/

/-- Settles O55: the word instructions of either IALU are those of `dab_instrs_align`. -/
theorem wordDabAccessesAlignThroughTheBuffer : Obligations.WordDabAccessesAlignThroughTheBuffer := by
  unfold Obligations.WordDabAccessesAlignThroughTheBuffer
  intro I r m b s hg hready hr
  cases I <;> exact dab_instrs_align false hg hready hr

/-- Four words hold eight short words (R202). -/
theorem dabQuad_short (idx : Word) : dabQuad true idx = idx.toNat / 8 * 4 := by
  simp [dabQuad, dabWordAddr, Nat.div_div_eq_div_mul]

/-- Settles O56: as O55, on short words, whose quad is that of half the index (`dabQuad_short`). -/
theorem shortDabAccessesAlignThroughTheBuffer : Obligations.ShortDabAccessesAlignThroughTheBuffer := by
  unfold Obligations.ShortDabAccessesAlignThroughTheBuffer
  intro I r m b s hg hready
  rw [← dabQuad_short]
  intro hr
  cases I <;> exact dab_instrs_align true hg hready hr

/-! ## Two accesses in a row -/

section Second

variable {I : Ialu} {c : Blk} {r m : RegNum} {b : Opnd} {s s' : State}

/-- Without a length, any modifier will do (R203). -/
theorem dabReady_of_lenOf_eq_zero {short : Bool} (hb : b ≠ .reg m) (hm : m.val < 4) (hheld : ¬ Held I m s)
    (hlen : lenOf I m s = 0) : DabReady I short m b s :=
  ⟨hb, ⟨hm, hheld, fun h => absurd hlen h⟩, fun h => absurd hlen h⟩

/-- The index goes on by the modifier where there is no length (R203). -/
theorem circNext_toNat_of_lenOf_eq_zero {d : Nat} (hlen : lenOf I m s = 0)
    (hlt : (aluread I m s).toNat + d < 2 ^ 32) : (circNext I m d s).toNat = (aluread I m s).toNat + d := by
  rw [circNext, circ, if_pos hlen, BitVec.toNat_ofInt]
  omega

/-- The index register of a DAB access is neither its modifier nor a base or length register. -/
theorem gprCells_notMem_dabReads (hb : b ≠ .reg m) : ∀ e ∈ gprCells I m, e ∉ opndCells I b ++ bufferCells I m := by
  intro e he hmem
  rcases List.mem_append.1 hmem with hmem | hmem
  · cases b with
    | imm v => cases hmem
    | reg n =>
      have hn : n ≠ m := fun h => hb (congrArg _ h)
      cases I <;> simp_all [gprCells, opndCells, Ialu.ureg]
  · cases I <;> simp_all [gprCells, bufferCells, blUreg, Ialu.ureg]

theorem dregUreg_notMem_dabReads (i : RegNum) : Cell.reg (dregUreg c i) ∉ opndCells I b ++ bufferCells I m := by
  intro hmem
  rcases List.mem_append.1 hmem with hmem | hmem
  · cases b with
    | imm v => cases hmem
    | reg n => exact dregUreg_notMem_gprCells c i I n hmem
  · cases c <;> cases I <;> simp [bufferCells, blUreg, dregUreg] at hmem

/-- A DAB access changes neither its modifier nor the buffer registers it works with. -/
theorem agree_of_dab_frame (hb : b ≠ .reg m) (hf : Frame (blockCells c r 4 ++ Cell.dab c :: gprCells I m) [] s s') :
    Agree (opndCells I b ++ bufferCells I m) [] s s' := by
  refine agree_of_frame (agree_refl _ _ s) hf (fun e he => ?_) (by simp)
  rcases List.mem_append.1 he with he | he
  · obtain ⟨k, -, rfl⟩ := List.mem_map.1 he
    exact dregUreg_notMem_dabReads _
  · rcases List.mem_cons.1 he with rfl | he
    · cases b <;> simp [opndCells, gprCells, bufferCells]
    · exact gprCells_notMem_dabReads hb e he

theorem held_of_agree {R : List Cell} {A : List Nat} (h : Agree R A s s') (hR : bufferCells I m ⊆ R) :
    Held I m s' ↔ Held I m s := by
  rw [Held, Held, h.ages I (.base (bufferOf m)) (hR (by simp [bufferCells])),
    h.ages I (.len (bufferOf m)) (hR (by simp [bufferCells]))]

theorem lenOf_of_agree {R : List Cell} {A : List Nat} (h : Agree R A s s') (hR : bufferCells I m ⊆ R) :
    lenOf I m s' = lenOf I m s :=
  (h.cells (.reg (blUreg I (.len (bufferOf m)))) (hR (by simp [bufferCells]))).1

/-- The alignment of two runs that follow each other is a run (R204). -/
theorem aligned_eq_of_runs {α : Type} {f old new : Nat → α} {n sh i : Nat} (hold : ∀ k, k < n → old k = f k)
    (hnew : ∀ k, k < n → new k = f (n + k)) (hsh : sh ≤ n) (hi : i < n) : Aligned n sh i old new = f (sh + i) := by
  unfold Aligned
  split
  · rw [hold _ (by omega), Nat.add_comm]
  · rw [hnew _ (by omega)]
    congr 1
    omega

end Second

/-- Settles O57: after the first access the buffer holds the quad below the one the second access reads, so the
alignment of the two is the run of words at the first address (`aligned_eq_of_runs`). -/
theorem secondDabAccessDeliversTheUnalignedQuad : Obligations.SecondDabAccessDeliversTheUnalignedQuad := by
  unfold Obligations.SecondDabAccessDeliversTheUnalignedQuad
  intro I c r m b s hg hb hm hheld hlen hmod hidx hmap
  obtain ⟨s1, h1, ⟨-, -, hquad1, hprimed1⟩, hidx1, hframe1⟩ := (wordDabAccessesAlignThroughTheBuffer I r m b s hg
    (dabReady_of_lenOf_eq_zero hb hm hheld hlen) ⟨Nat.mul_mod_left .., fun k hk => hmap k (by omega)⟩).1 c
  have hagree := agree_of_dab_frame hb hframe1
  have hbuffer : bufferCells I m ⊆ opndCells I b ++ bufferCells I m := List.subset_append_right ..
  have hready1 : DabReady I false m b s1 := dabReady_of_lenOf_eq_zero hb hm (mt (held_of_agree hagree hbuffer).1 hheld)
    ((lenOf_of_agree hagree hbuffer).trans hlen)
  have hnext : (aluread I m s1).toNat = (aluread I m s).toNat + 4 := by
    rw [hidx1, hmod]
    exact circNext_toNat_of_lenOf_eq_zero (d := 4) hlen hidx
  have hquad : (aluread I m s1).toNat / 4 * 4 = (aluread I m s).toNat / 4 * 4 + 4 := by omega
  have hmis : (aluread I m s1).toNat % 4 = (aluread I m s).toNat % 4 := by omega
  have hr1 : Reachable s1 ((aluread I m s1).toNat / 4 * 4) 4 := by
    refine ⟨Nat.mul_mod_left .., fun k hk => ?_⟩
    rw [hquad, hframe1.map, Nat.add_assoc]
    exact hmap _ (by omega)
  obtain ⟨s2, h2, ⟨hvalue2, hunwritten2, -, -⟩, -, -⟩ :=
    (wordDabAccessesAlignThroughTheBuffer I r m b s1 hg hready1 hr1).1 c
  rw [hquad, hmis] at hvalue2
  refine ⟨s1, s2, h1, h2, fun k hk => ⟨?_, ?_⟩⟩
  · have hnew : ∀ i, i < 4 → readWord s1.mem ((aluread I m s).toNat / 4 * 4 + 4 + i) =
        readWord s.mem ((aluread I m s).toNat / 4 * 4 + (4 + i)) := fun i _ => by
      rw [readWord_of_frame hframe1 (by simp), Nat.add_assoc]
    rw [hvalue2 k hk (.inl hprimed1), aligned_eq_of_runs
      (f := fun i => readWord s.mem ((aluread I m s).toNat / 4 * 4 + i)) hquad1 hnew (by omega) hk,
      ← Nat.add_assoc, Nat.div_add_mod']
  · rw [Bool.eq_false_iff, ne_eq, hunwritten2 k hk, hprimed1]
    simp

end Sys2Proof.Proofs

/-! The circular update and the bit-reverse add (44_circular_bitreverse.md): on exact integers the update is the index plus
the step, corrected by the length at most once, and the add carries from bit 31 down. An update that its buffer refuses
refuses the instruction (R222, 43_dab.md R203), whichever one takes the circular step. -/

namespace Sys2Proof.Proofs

open Sys2Proof Sys2Proof.Machine

/-! ## The circular update -/

section Circ

variable {idx base len : Word} {d : Int}

theorem circ_len_zero (idx base : Word) (d : Int) : circ idx d base 0 = BitVec.ofInt 32 (idx.toNat + d) := if_pos rfl

theorem circ_past_end (hlen : len ≠ 0) (h : (base.toNat : Int) + len.toNat ≤ idx.toNat + d) :
    circ idx d base len = BitVec.ofInt 32 (idx.toNat + d - len.toNat) := by
  rw [circ, if_neg hlen]
  exact if_pos h

theorem circ_below_base (hlen : len ≠ 0) (h : (idx.toNat : Int) + d < base.toNat) :
    circ idx d base len = BitVec.ofInt 32 (idx.toNat + d + len.toNat) := by
  rw [circ, if_neg hlen]
  exact (if_neg (by omega)).trans (if_pos h)

theorem circ_inside (hlen : len ≠ 0) (hbase : (base.toNat : Int) ≤ idx.toNat + d)
    (hend : (idx.toNat : Int) + d < base.toNat + len.toNat) :
    circ idx d base len = BitVec.ofInt 32 (idx.toNat + d) := by
  rw [circ, if_neg hlen]
  exact (if_neg (by omega)).trans (if_neg (by omega))

theorem ofInt_toNat_add (w : Word) (d : Int) : BitVec.ofInt 32 (w.toNat + d) = w + BitVec.ofInt 32 d := by
  rw [BitVec.ofInt_add, BitVec.ofInt_natCast, BitVec.ofNat_toNat, BitVec.setWidth_eq]

theorem ofInt_add_toNat (w : Word) (n : Int) : BitVec.ofInt 32 (n + w.toNat) = BitVec.ofInt 32 n + w := by
  rw [Int.add_comm, ofInt_toNat_add, BitVec.add_comm]

theorem ofInt_sub_toNat (w : Word) (n : Int) : BitVec.ofInt 32 (n - w.toNat) = BitVec.ofInt 32 n - w :=
  eq_sub_of_add_eq (by rw [← ofInt_add_toNat, Int.sub_add_cancel])

/-- Under the preconditions one correction brings the exact sum back into the buffer (R221). -/
theorem circ_eq_ofInt_in_buffer (hlen : len ≠ 0) (hpre : InBuffer idx d base len) :
    ∃ v k : Int, circ idx d base len = BitVec.ofInt 32 v ∧ v + len.toNat * k = idx.toNat + d ∧
      base.toNat ≤ v ∧ v < base.toNat + len.toNat := by
  obtain ⟨hlow, hhigh, hstep, -⟩ := hpre hlen
  by_cases hpast : (base.toNat : Int) + len.toNat ≤ idx.toNat + d
  · exact ⟨_, 1, circ_past_end hlen hpast, by omega, by omega, by omega⟩
  by_cases hbelow : (idx.toNat : Int) + d < base.toNat
  · exact ⟨_, -1, circ_below_base hlen hbelow, by omega, by omega, by omega⟩
  · exact ⟨_, 0, circ_inside hlen (by omega) (by omega), by omega, by omega, by omega⟩

end Circ

/-- Settles O41: the exact sum of each case (`circ_past_end`, `circ_below_base`, `circ_inside`) as a word. -/
theorem circularUpdateComparesExactly : Obligations.CircularUpdateComparesExactly := by
  unfold Obligations.CircularUpdateComparesExactly
  intro idx base len d
  refine ⟨?_, fun hlen => ⟨fun hpast => ?_, fun hbelow => ?_, fun hbase hend => ?_⟩⟩
  · rw [circ_len_zero, ofInt_toNat_add]
  · rw [circ_past_end hlen hpast, ofInt_sub_toNat, ofInt_toNat_add]
  · rw [circ_below_base hlen hbelow, ofInt_add_toNat, ofInt_toNat_add]
  · rw [circ_inside hlen hbase hend, ofInt_toNat_add]

/-- Settles O42: the corrected sum lies in a buffer that ends within 2^32, so the word is that integer, and it differs
from the sum by a multiple of the length (`circ_eq_ofInt_in_buffer`). -/
theorem circularStepStaysInTheBuffer : Obligations.CircularStepStaysInTheBuffer := by
  unfold Obligations.CircularStepStaysInTheBuffer
  intro idx base len d hlen hpre
  obtain ⟨-, -, -, hfits⟩ := hpre hlen
  obtain ⟨v, k, hcirc, hsum, hlow, hhigh⟩ := circ_eq_ofInt_in_buffer hlen hpre
  have hword : ((circ idx d base len).toNat : Int) = v := by
    rw [hcirc, BitVec.toNat_ofInt]
    omega
  have hmod : ((idx.toNat : Int) - base.toNat + d) % len.toNat = v - base.toNat := calc
    _ = (v - base.toNat + len.toNat * k) % len.toNat := by congr 1; omega
    _ = (v - base.toNat) % len.toNat := Int.add_mul_emod_self_left ..
    _ = v - base.toNat := Int.emod_eq_of_lt (by omega) (by omega)
  omega

/-! ## The bit-reverse add -/

theorem getLsbD_reverse_word (a : Word) {n : Nat} (hn : n < 32) : a.reverse.getLsbD n = a.getLsbD (31 - n) := by
  rw [BitVec.getLsbD_reverse, BitVec.getMsbD]
  simp [hn]

/-- The carries to the right are the carries of the sum of the reversed words. -/
theorem rightCarry_eq_carry (a b : Word) {n : Nat} (hn : n ≤ 32) :
    rightCarry a b n = BitVec.carry n a.reverse b.reverse false := by
  induction n with
  | zero => simp [rightCarry]
  | succ n ih =>
    rw [BitVec.carry_succ, getLsbD_reverse_word a hn, getLsbD_reverse_word b hn, ← ih (by omega)]
    rfl

/-- Settles O43: bit 31 - n of the sum is bit n of the sum of the reversed words, whose carry is the one to the right
(`rightCarry_eq_carry`). -/
theorem bitReverseAddCarriesToTheRight : Obligations.BitReverseAddCarriesToTheRight := by
  unfold Obligations.BitReverseAddCarriesToTheRight
  intro a b n hn
  have hbit : 31 - (31 - n) = n := by omega
  rw [bradd, getLsbD_reverse_word _ (by omega), hbit, BitVec.getLsbD_add hn, getLsbD_reverse_word a hn,
    getLsbD_reverse_word b hn, rightCarry_eq_carry a b hn.le,
    Bool.xor_assoc]

/-! ## Updates that are refused -/

@[simp] theorem withValue_error (e : Refusal) (k : Word → Out) : withValue (.error e) k = .refused e := rfl

section Refused

variable {I : Ialu} {m : RegNum} {s : State}

theorem circOk_eq_false {idx base len : Word} {d : Int} (h : ¬ InBuffer idx d base len) :
    circOk idx d base len = false :=
  Bool.eq_false_iff.2 (mt (circOk_iff ..).1 h)

/-- A circular step outside the preconditions (R222). -/
theorem circUse_error {d : Int} (hheld : ¬ Held I m s)
    (hpre : ¬ InBuffer (aluread I m s) d (baseOf I m s) (lenOf I m s)) :
    circUse I m d s = .error .circularPrecondition := by
  rw [circUse_eq, bufferHeld_false hheld, circOk_eq_false hpre]
  rfl

/-- A DAB step with another modifier than 4 (8), or outside the preconditions (43_dab.md R203). -/
theorem dabUpdate_error_circularPrecondition {short : Bool} {md : Word} (hheld : ¬ Held I m s) (hlen : lenOf I m s ≠ 0)
    (h : md.toInt ≠ dabStep short ∨ ¬ InBuffer (aluread I m s) md.toInt (baseOf I m s) (lenOf I m s)) :
    dabUpdate I short m md s = .error .circularPrecondition := by
  rw [dabUpdate_eq, bufferHeld_false hheld, if_neg (by simp)]
  by_cases hstep : md.toInt = dabStep short
  · have hpre := h.resolve_left (not_not_intro hstep)
    rw [if_neg (fun h' => h'.2 hstep), circOk_eq_false hpre]
    rfl
  · rw [if_pos ⟨hlen, hstep⟩]

/-- A DAB step that is allowed but for the wrap (43_dab.md R203). -/
theorem dabUpdate_error_wrap {short : Bool} {md : Word} (hheld : ¬ Held I m s) (hlen : lenOf I m s ≠ 0)
    (hstep : md.toInt = dabStep short) (hpre : InBuffer (aluread I m s) md.toInt (baseOf I m s) (lenOf I m s))
    (hwrap : ((baseOf I m s).toNat : Int) + (lenOf I m s).toNat ≤ (aluread I m s).toNat + md.toInt) :
    dabUpdate I short m md s = .error (.badForm .unspecifiedForm) := by
  have hwraps : circWraps (aluread I m s) md.toInt (baseOf I m s) (lenOf I m s) = true := by
    simpa [circWraps, hwrap] using hlen
  rw [dabUpdate_eq, bufferHeld_false hheld, if_neg (by simp), if_neg (fun h' => h'.2 hstep),
    if_neg (by simp [circOk_iff, hpre]), if_pos hwraps]

/-! ## Instructions whose update is refused -/

/-- An access with `CB` is admitted in every state: its index is I0..I3 and not its modifier (R220, R223). -/
theorem dregChecks_cb_none {z : Size} {r : RegNum} {b : Opnd} (hr : DregGroup z r) (hm : m.val < 4) (hb : b ≠ .reg m) :
    firstReason (dregChecks z r .cb m b) = none := by
  have h31 : m ≠ 31 := by
    rintro rfl
    exact absurd hm (by decide)
  obtain ⟨hlow, hset⟩ := hr.checks
  simp [dregChecks, firstReason, hlow, hset, isIndexReg, hm, h31, hb]

theorem dab_error_none {a : DabKind} {r : RegNum} {b : Opnd} (hr : DregGroup .quad r) (hm : m.val < 4)
    (hb : b ≠ .reg m) : (Form.dab I a r m b).error = none := by
  obtain ⟨hlow, hset⟩ := hr.checks
  simp [Form.error, firstReason, hlow, hset, isIndexReg, hm, hb]

variable {b : Opnd} {e : Refusal}

theorem execAddSubCb_refused {sub : Bool} {step : Int} (hm : m.val < 4)
    (hstep : (if sub then -(opndVal I b s).toInt else (opndVal I b s).toInt) = step)
    (h : circUse I m step s = .error e) (d : RegNum) : execAddSubCb I sub d m b s = .refused e := by
  have hform : (Form.alu I (if sub then .subCb else .addCb) d m b).error = none := by
    cases sub <;> simp [Form.error, firstReason, isIndexReg, hm]
  simp only [execAddSubCb, guardForm_none hform, hstep, h, withValue_error]

theorem execLdDreg_cb_refused {a : LdAcc} {r : RegNum} (hr : DregGroup a.size r) (hm : m.val < 4) (hb : b ≠ .reg m)
    (h : circUse I m (opndVal I b s).toInt s = .error e) : execLdDreg I a r .cb m b s = .refused e := by
  have hform : (Form.ldD I a r .cb m b).error = none := dregChecks_cb_none hr hm hb
  simp only [execLdDreg, guardForm_none hform, postUpdate, h, withValue_error]

theorem execStDreg_cb_refused {a : StAcc} {r : RegNum} (hr : DregGroup a.size r) (hm : m.val < 4) (hb : b ≠ .reg m)
    (h : circUse I m (opndVal I b s).toInt s = .error e) : execStDreg I a r .cb m b s = .refused e := by
  have hform : (Form.stD I a r .cb m b).error = none := dregChecks_cb_none hr hm hb
  simp only [execStDreg, guardForm_none hform, postUpdate, h, withValue_error]

theorem execDab_refused {a : DabKind} {r : RegNum} (hr : DregGroup .quad r) (hm : m.val < 4) (hb : b ≠ .reg m)
    (h : dabUpdate I (dabIsShort a) m (opndVal I b s) s = .error e) : execDab I a r m b s = .refused e := by
  simp only [execDab, guardForm_none (dab_error_none hr hm hb), h, withValue_error]

end Refused

/-- Settles O23: the update is refused (`circUse_error`, `dabUpdate_error_circularPrecondition`, `dabUpdate_error_wrap`),
and with it each instruction that takes the step. -/
theorem circularPreconditionIsChecked : Obligations.CircularPreconditionIsChecked := by
  unfold Obligations.CircularPreconditionIsChecked
  intro I m b s hm hheld step fits
  refine ⟨fun d hpre => ?_, fun d hpre => ?_, fun hb hpre r => ⟨fun a hr => ?_, fun a hr => ?_⟩,
    fun hb hlen a r hr => ⟨fun hbad => ?_, fun hstep hpre hwrap => ?_⟩⟩
  · rw [exec_pickIalu (.alu · .addCb d m b) rfl rfl]
    exact execAddSubCb_refused (sub := false) hm rfl (circUse_error hheld hpre) d
  · rw [exec_pickIalu (.alu · .subCb d m b) rfl rfl]
    exact execAddSubCb_refused (sub := true) hm rfl (circUse_error hheld hpre) d
  · rw [exec_instr]
    exact execLdDreg_cb_refused hr hm hb (circUse_error hheld hpre)
  · rw [exec_instr]
    exact execStDreg_cb_refused hr hm hb (circUse_error hheld hpre)
  · rw [exec_instr]
    exact execDab_refused hr hm hb (dabUpdate_error_circularPrecondition hheld hlen hbad)
  · rw [exec_instr]
    exact execDab_refused hr hm hb (dabUpdate_error_wrap hheld hlen hstep hpre hwrap)

end Sys2Proof.Proofs

/-! Transfers between universal registers (45_ureg_transfer.md R240 to R243): an immediate load writes one register. A move
reads its whole source group before it writes, so whether the groups overlap does not matter: each word is delivered by the
state before the move (`delivers_readUregs`) and stands in its register after it (`holds_fillGroup`). -/

namespace Sys2Proof.Proofs

open Sys2Proof Sys2Proof.Machine

/-! ## Which forms are admitted -/

theorem ldImm_error_none_iff (u : Ureg) (v : Word) : (Form.ldImm u v).error = none ↔ u.inSet = true := by
  simp [Form.error, firstReason_none]

theorem move_error_none_iff (z : Size) (d u : Ureg) :
    (Form.move z d u).error = none ↔ UregGroup z d ∧ UregGroup z u := by
  simp [Form.error, firstReason_none, UregGroup, and_assoc, and_left_comm]

/-! ## Filling a group -/

/-- Each register of a group filled with one word a register holds its word. -/
theorem holds_fillGroup {z : Size} {d : Ureg} (hd : d.groupOk z = true) {ws : List Word} (hws : ws.length = z.count)
    (s : State) {k : Nat} (hk : k < ws.length) : Holds (d.shift k) ws[k] (writeUregs ((d.group z).zip ws) s) := by
  have hlen : (d.group z).length = ws.length := (group_length z d).trans hws.symm
  have hnodup : (((d.group z).zip ws).map fun p => uregCell p.1).Nodup := by
    have hcells := group_nodup hd
    rwa [← List.map_fst_zip hlen.le, List.map_map] at hcells
  have hmem : (d.shift k, ws[k]) ∈ (d.group z).zip ws :=
    List.mem_iff_getElem.2 ⟨k, by simpa [hlen] using hk, by simp [group_getElem]⟩
  exact holds_writeUregs _ s hnodup _ hmem

/-! ## The effects -/

/-- Immediate loads (R240). -/
theorem execLoadImm_effect {u : Ureg} (hu : u.inSet = true) (v : Word) (s : State) :
    ∃ t, execLoadImm u v s = .next t ∧ Holds u v t ∧ Frame [uregCell u] [] s t := by
  have hrun : execLoadImm u v s = .next (writeUreg u v s) := guardForm_none ((ldImm_error_none_iff u v).2 hu)
  exact ⟨_, hrun, holds_writeUreg u v s, execLoadImm_frame hrun⟩

/-- Moves (R241 to R243): reading may draw the reserved bits of status words, which is in the frame (`readUregs_frame`). -/
theorem execMove_effect {z : Size} {d u : Ureg} {s : State} (hd : UregGroup z d) (hu : UregGroup z u)
    (hs : Readable (u.group z) s) :
    ∃ t, execMove z d u s = .next t ∧
      (∀ k, k < z.count → ∃ w, Delivers (u.shift k) w s ∧ Holds (d.shift k) w t) ∧ Frame (groupCells z d) [] s t := by
  have hrun : execMove z d u s =
      .next (writeUregs ((d.group z).zip (readUregs (u.group z) s).1) (readUregs (u.group z) s).2) := by
    rw [execMove, guardForm_none ((move_error_none_iff z d u).2 ⟨hd, hu⟩), withSources_ok hs]
  refine ⟨_, hrun, fun k hk => ?_, execMove_frame hrun⟩
  have hsrc : k < (u.group z).length := by rwa [group_length]
  have hlen : (readUregs (u.group z) s).1.length = z.count := by rw [readUregs_length, group_length]
  have hread := delivers_readUregs (u.group z) s k hsrc
  rw [group_getElem] at hread
  exact ⟨_, hread, holds_fillGroup hd.1 hlen _ _⟩

/-! ## The statements -/

/-- Settles O58: an existing register is admitted, and then takes the value (`execLoadImm_effect`). -/
theorem immediateLoadWritesTheRegister : Obligations.ImmediateLoadWritesTheRegister := by
  unfold Obligations.ImmediateLoadWritesTheRegister
  exact fun u v s hu => runsTo_of_form (f := .ldImm u v) rfl (execLoadImm_effect hu v s)

/-- Settles O59: the row of each size has the one form whose effect is `execMove_effect`. -/
theorem movesCopyTheGroup : Obligations.MovesCopyTheGroup := by
  unfold Obligations.MovesCopyTheGroup
  intro z d u s hd hu hs
  exact runsTo_of_form (f := .move z d u) (by cases z <;> rfl) (execMove_effect hd hu hs)

end Sys2Proof.Proofs

/-! Stops (60_exceptions.md). A form is refused for the first of its checks that fails (R262), which is found by going
along the list of its checks. An admitted instruction reads its registers first and then makes its access (R264), so its
fault is the fault of whichever of the two comes first. -/

namespace Sys2Proof.Proofs

open Sys2Proof Sys2Proof.Machine

/-! ## Checks that refuse -/

/-- Some check of the list fails, and the first that fails gives the reason `r` where `named` holds. -/
def ChecksRefuse (l : List (Bool × FormReason)) (named : Prop) (r : FormReason) : Prop :=
  (∃ r', firstReason l = some r') ∧ (named → firstReason l = some r)

section Checks

variable {rest : List (Bool × FormReason)} {named : Prop} {bad : Bool} {r r₀ : FormReason}

/-- The first check fails. -/
theorem ChecksRefuse.here (hbad : bad = true) : ChecksRefuse ((bad, r) :: rest) named r := by
  have hfirst : firstReason ((bad, r) :: rest) = some r := if_pos hbad
  exact ⟨⟨r, hfirst⟩, fun _ => hfirst⟩

/-- A later check fails; if the first one does too, its reason is named, which does not matter where it passes. -/
theorem ChecksRefuse.later (hpass : named → bad = false) (h : ChecksRefuse rest named r) :
    ChecksRefuse ((bad, r₀) :: rest) named r := by
  obtain ⟨hsome, hnamed⟩ := h
  cases bad with
  | false => exact ⟨hsome, hnamed⟩
  | true => exact ⟨⟨r₀, rfl⟩, fun hn => nomatch hpass hn⟩

/-- A later check fails, for the reason the first one would give. -/
theorem ChecksRefuse.later_same (h : ChecksRefuse rest named r) : ChecksRefuse ((bad, r) :: rest) named r := by
  cases bad with
  | false => exact h
  | true => exact .here rfl

/-- A check after those of a group of universal registers fails. -/
theorem ChecksRefuse.past_uregGroup {z : Size} {u : Ureg} (h : ChecksRefuse rest (UregGroup z u) r) :
    ChecksRefuse ((!u.groupOk z, .registerGroupAlignment) :: (!u.groupInSet z, .notAnInstruction) :: rest)
      (UregGroup z u) r :=
  .later (fun hu => by simp [hu.1]) (.later (fun hu => by simp [hu.2]) h)

/-- A check after those of a group of data registers fails. -/
theorem ChecksRefuse.past_dregGroup {z : Size} {d : RegNum} (h : ChecksRefuse rest (DregGroup z d) r) :
    ChecksRefuse ((!lowOk z d, .registerGroupAlignment) :: (!dregsInSet z d, .notAnInstruction) :: rest)
      (DregGroup z d) r :=
  .later (fun hd => by simp [hd.checks.1]) (.later (fun hd => by simp [hd.checks.2]) h)

end Checks

/-! ## Each check, by the operands -/

section Operands

variable {z : Size} {op : PmOp} {m d : RegNum} {b : Opnd}

theorem lowOk_eq_false (h : d.val % z.count ≠ 0) : lowOk z d = false := by simpa [lowOk] using h

/-- A dual or quad of a register without a number, or with one that is not aligned (10_state.md R37). -/
theorem groupOk_of_misnumbered {u : Ureg} (h : Misnumbered z u) : u.groupOk z = false := by
  obtain ⟨hz, hnum⟩ := h
  cases hu : u.number? with
  | none => cases z <;> simp [Ureg.groupOk, hu] at hz ⊢
  | some n =>
    have hlow : lowOk z n = false := lowOk_eq_false (hnum n hu)
    cases z <;> simp [Ureg.groupOk, hu, hlow] at hz ⊢

theorem dregsInSet_eq_false (h : Config.ndreg < d.val + z.count) : dregsInSet z d = false :=
  Bool.eq_false_iff.2 (mt (dregsInSet_iff z d).1 (by omega))

theorem isIndexReg_eq_false (h : 4 ≤ m.val) : isIndexReg m = false := by simpa [isIndexReg] using h

theorem dregChecks_misaligned (h : d.val % z.count ≠ 0) :
    ChecksRefuse (dregChecks z d op m b) True .registerGroupAlignment :=
  .here (by simp [lowOk_eq_false h])

theorem dregChecks_missing (h : Config.ndreg < d.val + z.count) :
    ChecksRefuse (dregChecks z d op m b) (lowOk z d = true) .notAnInstruction :=
  .later (fun hlow => by simp [hlow]) (.here (by simp [dregsInSet_eq_false h]))

/-- Post-modify through register 31 (42_load_store.md R161). -/
theorem dregChecks_through_31 : ChecksRefuse (dregChecks z d .lin 31 b) (DregGroup z d) .unspecifiedForm :=
  .past_dregGroup (.later (fun _ => rfl) (.here rfl))

/-- `CB` and `BR` with an index above I3 (44_circular_bitreverse.md R220). -/
theorem dregChecks_above_3 (hm : 4 ≤ m.val) (hop : op ≠ .lin) :
    ChecksRefuse (dregChecks z d op m b) (DregGroup z d) .notAnIndexRegister :=
  .past_dregGroup (.here (by simp [isIndexReg_eq_false hm, hop]))

/-- `CB` whose modifier is its index (44_circular_bitreverse.md R223). -/
theorem dregChecks_own_modifier (hm : m.val < 4) :
    ChecksRefuse (dregChecks z d .cb m (.reg m)) (DregGroup z d) .unspecifiedForm :=
  .past_dregGroup (.later (fun _ => by simp [(isIndexReg_iff m).2 hm]) (.later_same (.here (by simp))))

/-- Add and subtract with (CB) or (BR) and an index above I3 (40_arith_logic.md R110, R111). -/
theorem alu_error_above_3 {o : Alu2} (ho : o ∈ [Alu2.addCb, .subCb, .addBr, .subBr]) (I : Ialu) (hm : 4 ≤ m.val) :
    (Form.alu I o d m b).error = some .notAnIndexRegister := by
  simp only [List.mem_cons, List.not_mem_nil, or_false] at ho
  rcases ho with rfl | rfl | rfl | rfl <;> simp [Form.error, firstReason, isIndexReg_eq_false hm]

end Operands

/-! ## Forms that are refused -/

@[simp] theorem guardForm_some {f : Form} {k : Out} {r : FormReason} (h : f.error = some r) :
    guardForm f k = .refused (.badForm r) := by
  simp [guardForm, h]

/-- Of the instructions `Is = Im op B` the options (CJMP), (CB) and (BR) alone can have a form that is refused. -/
theorem execAlu_refused {I : Ialu} {o : Alu2} {d m : RegNum} {b : Opnd} {r : FormReason}
    (h : (Form.alu I o d m b).error = some r) (s : State) : execAlu I o d m b s = .refused (.badForm r) := by
  cases o with
  | addCjmp => exact guardForm_some h
  | subCjmp => exact guardForm_some h
  | addCb => exact guardForm_some h
  | subCb => exact guardForm_some h
  | addBr => exact guardForm_some h
  | subBr => exact guardForm_some h
  | _ => simp [Form.error, firstReason] at h

/-- A form that its checks refuse is refused before anything of the state is looked at. -/
theorem execForm_refused {f : Form} {r : FormReason} (h : f.error = some r) (s : State) :
    execForm f s = .refused (.badForm r) := by
  cases f with
  | alu I o d m b => exact execAlu_refused h s
  | alu1 I o d m => cases h
  | bl I sub d m b => cases h
  | comp I unsigned m b => cases h
  | gscf one q => cases h
  | _ => exact guardForm_some h

theorem formRefused_of_checks {f : Form} {l : List (Bool × FormReason)} {named : Prop} {r : FormReason}
    (hf : f.error = firstReason l) (h : ChecksRefuse l named r) : FormRefused f.instr named r := by
  obtain ⟨⟨r', hsome⟩, hnamed⟩ := h
  intro s
  rw [exec_instr]
  exact ⟨⟨r', execForm_refused (hf.trans hsome) s⟩, fun hn => execForm_refused (hf.trans (hnamed hn)) s⟩

theorem formRefused_of_error {f : Form} {r : FormReason} (h : f.error = some r) : FormRefused f.instr True r := by
  intro s
  have hrun : exec f.instr s = .refused (.badForm r) := (exec_instr f s).trans (execForm_refused h s)
  exact ⟨⟨r, hrun⟩, fun _ => hrun⟩

/-- Settles O21: every clause names a check of the form (`formRefused_of_checks`) and says which stand before it. -/
theorem refusedFormIsRefusedAlways : Obligations.RefusedFormIsRefusedAlways := by
  unfold Obligations.RefusedFormIsRefusedAlways
  refine ⟨fun i r s h => ?_, fun z u hu I p m b d => ?_, fun I r op m b => ?_, fun z u hu I p m b d v => ?_,
    fun I r op m b => ?_, fun I z u r b => ?_, fun I d m b hm => ?_, fun I r m hm => ?_⟩
  · rw [exec_eq_execForm]
    exact execForm_refused h s
  · have hbad : (!u.groupOk z) = true := by simp [groupOk_of_misnumbered hu]
    exact ⟨formRefused_of_checks rfl (.here hbad), formRefused_of_checks rfl (.here hbad),
      formRefused_of_checks rfl (.here hbad), formRefused_of_checks rfl (.later_same (.here hbad))⟩
  · exact ⟨fun a h => formRefused_of_checks rfl (dregChecks_misaligned h),
      fun a h => formRefused_of_checks rfl (dregChecks_misaligned h),
      fun a h => formRefused_of_checks rfl (.here (by simp [lowOk_eq_false (z := .quad) h]))⟩
  · have hbad : (!u.groupInSet z) = true := by simp [hu]
    refine ⟨formRefused_of_checks rfl (.later (fun h => by simp [h]) (.here hbad)),
      formRefused_of_checks rfl (.later (fun h => by simp [h]) (.here hbad)),
      formRefused_of_checks rfl (.later (fun h => by simp [h.1]) (.later (fun h => by simp [h.2]) (.here hbad))),
      formRefused_of_checks rfl
        (.later (fun h => by simp [h.2]) (.later (fun h => by simp [h.1]) (.later_same (.here hbad)))), ?_⟩
    rintro rfl
    have hone : (!u.inSet) = true := by simpa [Ureg.groupInSet, Ureg.group] using hu
    exact formRefused_of_checks (f := .ldImm u v) rfl (.here hone)
  · exact ⟨fun a h => formRefused_of_checks rfl (dregChecks_missing h),
      fun a h => formRefused_of_checks rfl (dregChecks_missing h),
      fun a h => formRefused_of_checks rfl
        (.later (fun hlow => by simp [hlow]) (.here (by simp [dregsInSet_eq_false (z := .quad) h])))⟩
  · exact ⟨formRefused_of_checks rfl (.past_uregGroup (.here rfl)),
      formRefused_of_checks rfl (.past_uregGroup (.here rfl)),
      fun a => formRefused_of_checks rfl dregChecks_through_31,
      fun a => formRefused_of_checks rfl dregChecks_through_31,
      fun m hm => formRefused_of_checks rfl (.past_uregGroup (.later_same (.here (by simpa using hm))))⟩
  · exact ⟨fun o ho => formRefused_of_error (alu_error_above_3 ho I hm),
      fun a op hop => formRefused_of_checks rfl (dregChecks_above_3 hm hop),
      fun a op hop => formRefused_of_checks rfl (dregChecks_above_3 hm hop),
      fun a => formRefused_of_checks rfl (.past_dregGroup (.here (by simp [isIndexReg_eq_false hm])))⟩
  · exact ⟨fun a => formRefused_of_checks rfl (dregChecks_own_modifier hm),
      fun a => formRefused_of_checks rfl (dregChecks_own_modifier hm),
      fun a => formRefused_of_checks rfl
        (.past_dregGroup (.later (fun _ => by simp [(isIndexReg_iff m).2 hm]) (.here (by simp))))⟩

/-! ## Faults of a read and of an access -/

section Faults

variable {i : Instr} {s : State} {l : List Ureg} {a n : Nat} {k : Out}

theorem withAccess_misaligned (h : a % n ≠ 0) : withAccess s a n k = .fault (.misalignedAccess a n) := by
  simp [withAccess, accessFault, h]

theorem withAccess_unmapped (ha : a % n = 0) (h : ∃ j, j < n ∧ mapped s.memMap (a + j) = false) :
    withAccess s a n k = .fault (.unmappedAccess a) := by
  obtain ⟨j, hj, hmap⟩ := h
  simp [withAccess, accessFault_unmapped ha hj hmap]

theorem faultsAsAccess_of_withAccess (h : exec i s = withAccess s a n k) : FaultsAsAccess i s a n :=
  ⟨fun hmis => h.trans (withAccess_misaligned hmis), fun ha hmap => h.trans (withAccess_unmapped ha hmap)⟩

theorem faultsAsRead_of_withSources (h : exec i s = withSources l s k) : FaultsAsRead i s l :=
  fun hunwritten => h ▸ withSources_fault hunwritten

/-- What a store does: the registers first, then the access (60_exceptions.md R264). -/
theorem faults_of_read_then_access (h : exec i s = withSources l s (withAccess s a n k)) :
    FaultsAsRead i s l ∧ (Readable l s → FaultsAsAccess i s a n) :=
  ⟨faultsAsRead_of_withSources h, fun hs => faultsAsAccess_of_withAccess (h.trans (withSources_ok hs))⟩

/-- An aligned access never faults as misaligned, whatever address and width the fault would name. -/
theorem withAccess_ne_misaligned (ha : a % n = 0) (t : State) (addr width : Nat) :
    withAccess s a n (.next t) ≠ .fault (.misalignedAccess addr width) := by
  cases hmap : allMapped s.memMap a n <;> simp [withAccess, accessFault, ha, hmap]

theorem guardForm_ne_fault {f : Form} {e : Fault} (h : k ≠ .fault e) : guardForm f k ≠ .fault e := by
  cases hf : f.error with
  | none => rwa [guardForm_none hf]
  | some r => simp [guardForm_some hf]

theorem withValue_ne_fault {v : Except Refusal Word} {g : Word → Out} {e : Fault} (h : ∀ w, g w ≠ .fault e) :
    withValue v g ≠ .fault e := by
  cases v with
  | error r => simp
  | ok w => exact h w

end Faults

/-! ## Admitted instructions -/

section Admitted

variable {I : Ialu} {z : Size} {p : Modify} {u : Ureg} {op : PmOp} {r m : RegNum} {b : Opnd} {s : State}

theorem execLdUreg_admitted (h : (Form.ldU I z p u m b).error = none) :
    ∃ k, execLdUreg I z p u m b s = withAccess s (uregAddr I p m b s) z.count k :=
  ⟨_, guardForm_none h⟩

theorem execStUreg_admitted (h : (Form.stU I z p u m b).error = none) :
    ∃ k, execStUreg I z p u m b s = withSources (u.group z) s (withAccess s (uregAddr I p m b s) z.count k) :=
  ⟨_, guardForm_none h⟩

theorem execMove_admitted {d : Ureg} (hd : UregGroup z d) (hu : UregGroup z u) :
    ∃ k, execMove z d u s = withSources (u.group z) s k :=
  ⟨_, guardForm_none ((move_error_none_iff z d u).2 ⟨hd, hu⟩)⟩

theorem execLdDreg_admitted {a : LdAcc} (hg : DregGroup a.size r) (hready : UpdateReady I op m b s) :
    ∃ k, execLdDreg I a r op m b s = withAccess s (postAddr I m s) (ldWidth a) k := by
  have hform : (Form.ldD I a r op m b).error = none := dregChecks_none hg hready
  rw [execLdDreg, guardForm_none hform, postUpdate_ok hready, withValue_ok]
  exact ⟨_, rfl⟩

theorem execStDreg_admitted {a : StAcc} (hg : DregGroup a.size r) (hready : UpdateReady I op m b s) :
    ∃ k, execStDreg I a r op m b s =
      withSources (stSources a r) s (withAccess s (postAddr I m s) (stRegs a r).length k) := by
  have hform : (Form.stD I a r op m b).error = none := dregChecks_none hg hready
  rw [execStDreg, guardForm_none hform, postUpdate_ok hready, withValue_ok]
  simp only [List.length_map]
  exact ⟨_, rfl⟩

theorem execDab_admitted {a : DabKind} (hg : DregGroup .quad r) (hready : DabReady I (dabIsShort a) m b s) :
    ∃ k, execDab I a r m b s = withAccess s (dabQuad (dabIsShort a) (aluread I m s)) 4 k := by
  rw [execDab, guardForm_none (dabForm_none hg hready), dabUpdate_ok hready, withValue_ok]
  exact ⟨_, rfl⟩

/-- A DAB access reads an aligned quad (43_dab.md R201, R202). -/
theorem dabQuad_mod_four (short : Bool) (idx : Word) : dabQuad short idx % 4 = 0 := Nat.mul_mod_left _ 4

theorem execDab_ne_misaligned (a : DabKind) (addr width : Nat) :
    execDab I a r m b s ≠ .fault (.misalignedAccess addr width) :=
  guardForm_ne_fault <| withValue_ne_fault fun _ => withAccess_ne_misaligned (dabQuad_mod_four _ _) _ addr width

end Admitted

/-- Settles O22: an admitted form is its read and then its access, or its access alone (`execStUreg_admitted` and its
like), and each of the two faults as it says (`faults_of_read_then_access`, `faultsAsAccess_of_withAccess`). -/
theorem readFaultsThenAlignmentThenMap : Obligations.ReadFaultsThenAlignmentThenMap := by
  unfold Obligations.ReadFaultsThenAlignmentThenMap
  refine ⟨fun I z p u m b s h => ?_, fun I z p u m b s h => ?_, fun z d u s hd hu => ?_,
    fun I a r op m b s hg hready => ?_, fun I a r op m b s hg hready => ?_,
    fun I a r m b s => ⟨fun hg hready => ?_, fun addr n => ?_⟩⟩
  · obtain ⟨k, hrun⟩ := execLdUreg_admitted (s := s) h
    exact faultsAsAccess_of_withAccess ((exec_instr _ s).trans hrun)
  · obtain ⟨k, hrun⟩ := execStUreg_admitted (s := s) h
    exact faults_of_read_then_access ((exec_instr _ s).trans hrun)
  · obtain ⟨k, hrun⟩ := execMove_admitted (s := s) hd hu
    exact faultsAsRead_of_withSources ((exec_instr _ s).trans hrun)
  · obtain ⟨k, hrun⟩ := execLdDreg_admitted hg hready
    exact faultsAsAccess_of_withAccess ((exec_instr _ s).trans hrun)
  · obtain ⟨k, hrun⟩ := execStDreg_admitted hg hready
    exact faults_of_read_then_access ((exec_instr _ s).trans hrun)
  · obtain ⟨k, hrun⟩ := execDab_admitted hg hready
    exact faultsAsAccess_of_withAccess ((exec_instr _ s).trans hrun)
  · rw [exec_instr]
    exact execDab_ne_misaligned a addr n

end Sys2Proof.Proofs

/-! The statements of 70_reset_and_hazards.md: a line with an operation of an IALU beside a load or move into its status
register is refused (R284), the write age of a base or length register counts four lines (R286), and a circular use of a
buffer that is recently written goes by the parameter `bl_strict` (R286). -/

namespace Sys2Proof.Proofs

open Sys2Proof Sys2Proof.Machine

/-! ## Operations beside a write of their status register -/

theorem statusClash_comm (x y : Item) : statusClash x y = statusClash y x := Bool.or_comm ..

/-- An operation clashes with what writes the flags of its IALU and is no operation (R284). -/
theorem statusClash_of_operates {x y : Item} {I : Ialu} (hx : itemOperates x = some I) (hy : itemOperates y = none)
    (hflags : Cell.flags I ∈ itemWrites y) : statusClash x y = true := by
  simp [statusClash, hx, hy, hflags]

/-- A symmetric relation between two members of a list is found, whichever of them stands first. -/
theorem anyPair_of_mem {r : Item → Item → Bool} (hr : ∀ x y, r x y = r y x) {l : List Item} {x y : Item} (hx : x ∈ l)
    (hy : y ∈ l) (hne : x ≠ y) (hxy : r x y = true) : anyPair r l = true := by
  by_contra hno
  have hsymm : Std.Symm fun a b => r a b = false := ⟨fun a b hab => (hr b a).trans hab⟩
  have hfalse := (anyPair_eq_false_iff.1 (Bool.eq_false_iff.2 hno)).forall hx hy hne
  exact Bool.false_ne_true (hfalse.symm.trans hxy)

/-- The clash of a status write is what a line is refused for when its layout, marks and forms are right. -/
theorem lineError_of_statusClash {l : Line} (hlayout : l.layoutOk = true) (hmarks : l.marksOk = true)
    (hforms : ∀ it ∈ l.items, itemError it.item = none)
    (hclash : anyPair statusClash (l.items.map fun it => it.item) = true) :
    lineError l = some .statusWriteConflict := by
  have hfind : (l.items.map fun it => it.item).findSome? itemError = none := by
    simpa [List.findSome?_eq_none_iff] using hforms
  simp [lineError, hlayout, hmarks, hfind, hclash]

/-- Settles O17: the two instructions clash (`statusClash_of_operates`), wherever they stand in the line
(`anyPair_of_mem`), and the line's text is refused for it. -/
theorem statusWriteBesideOperationIsRefused : Obligations.StatusWriteBesideOperationIsRefused := by
  unfold Obligations.StatusWriteBesideOperationIsRefused
  intro l x y I s hlayout hmarks hforms hx hy hop hno hflags
  have hne : x.item ≠ y.item := fun heq => by simp [heq, hno] at hop
  have hclash : anyPair statusClash (l.items.map fun it => it.item) = true :=
    anyPair_of_mem statusClash_comm (List.mem_map_of_mem hx) (List.mem_map_of_mem hy) hne
      (statusClash_of_operates hop hno hflags)
  exact runLine_of_lineError (lineError_of_statusClash hlayout hmarks hforms hclash) s

/-! ## Write ages over a line -/

/-- A countdown that stands at its start stands there after any effect that keeps or starts ages. -/
theorem AgesKeptOrStarted.started {s t : State} (h : AgesKeptOrStarted s t) {I : Ialu} {d : BLReg}
    (hs : holdOf I d s = holdStart) : holdOf I d t = holdStart := by
  rcases h I d with hkept | hstarted
  · exact hkept.trans hs
  · exact hstarted

theorem holdOf_writeUregs_of_mem {I : Ialu} {d : BLReg} {l : List (Ureg × Word)} (h : blUreg I d ∈ l.map Prod.fst)
    (s : State) : holdOf I d (writeUregs l s) = holdStart := by
  induction l generalizing s with
  | nil => cases h
  | cons p rest ih =>
    rcases List.mem_cons.1 h with hp | hrest
    · refine (writeUregs_ages rest _).started ?_
      rw [← hp, writeUreg_blUreg, holdOf_writeBL_self]
    · exact ih hrest _

/-- Filling a group starts the age of a base or length register in it. -/
theorem holdOf_fillGroup {I : Ialu} {d : BLReg} {z : Size} {u : Ureg} (h : Cell.reg (blUreg I d) ∈ groupCells z u)
    {ws : List Word} (hws : ws.length = z.count) (s : State) :
    holdOf I d (writeUregs ((u.group z).zip ws) s) = holdStart := by
  obtain ⟨v, hv, hcell⟩ := List.mem_map.1 h
  refine holdOf_writeUregs_of_mem ?_ s
  rw [List.map_fst_zip (by rw [group_length, hws]), ← (uregCell_eq_blUreg_iff v I d).1 hcell]
  exact hv

/-- A form that writes a base or length register starts its age: an operation to it, and a load or move into it. -/
theorem execForm_starts_age {f : Form} {I : Ialu} {d : BLReg} {s t : State} (h : execForm f s = .next t)
    (hw : Cell.reg (blUreg I d) ∈ formWrites f) : holdOf I d t = holdStart := by
  cases f with
  | bl I' sub d' m b =>
    obtain ⟨rfl, rfl⟩ : I = I' ∧ d = d' := blUreg_inj (by simpa [formWrites] using hw)
    cases h
    exact ((setFlags_frame I _ _).ages I d (by simp)).trans (holdOf_writeBL_self ..)
  | ldU I' z p u m b =>
    have hgroup : Cell.reg (blUreg I d) ∈ groupCells z u := (List.mem_append.1 hw).resolve_right (by split <;> simp)
    obtain ⟨-, -, rfl⟩ := execLdUreg_next h
    exact ((uregUpdate_frame I' p m b s _).ages I d (by split <;> simp)).trans (holdOf_fillGroup hgroup (by simp) s)
  | ldImm u v =>
    obtain ⟨-, h⟩ := guardForm_next h
    cases h
    rw [(uregCell_eq_blUreg_iff u I d).1 (List.mem_singleton.1 hw).symm, writeUreg_blUreg, holdOf_writeBL_self]
  | move z d' u =>
    obtain ⟨-, -, rfl⟩ := execMove_next h
    exact holdOf_fillGroup hw (by simp [group_length]) _
  | _ => simp [formWrites] at hw

theorem execItem_ages {it : Item} {s t : State} (h : execItem it s = .next t) : AgesKeptOrStarted s t := by
  cases it with
  | ialu i => exact execForm_ages ((exec_eq_execForm i s).symm.trans h)
  | nop => cases h; exact fun _ _ => .inl rfl
  | jump n => cases h; exact fun _ _ => .inl rfl

theorem execItem_starts_age {it : Item} {I : Ialu} {d : BLReg} {s t : State} (h : execItem it s = .next t)
    (hw : Cell.reg (blUreg I d) ∈ itemWrites it) : holdOf I d t = holdStart := by
  cases it with
  | ialu i => exact execForm_starts_age ((exec_eq_execForm i s).symm.trans h) hw
  | nop => cases hw
  | jump n => simp [itemWrites] at hw

/-- Items that complete: the first did, and the others after it. -/
theorem execItems_cons_next {it : Item} {rest : List Item} {s t : State} (h : execItems (it :: rest) s = .next t) :
    ∃ u, execItem it s = .next u ∧ execItems rest u = .next t := by
  rw [execItems] at h
  split at h
  next u hu => exact ⟨u, hu, h⟩
  · cases h
  · cases h

theorem execItems_starts_age {l : List Item} {it : Item} (hit : it ∈ l) {I : Ialu} {d : BLReg}
    (hw : Cell.reg (blUreg I d) ∈ itemWrites it) {s t : State} (h : execItems l s = .next t) :
    holdOf I d t = holdStart := by
  induction l generalizing s with
  | nil => cases hit
  | cons x rest ih =>
    obtain ⟨u, hu, hrest⟩ := execItems_cons_next h
    rcases List.mem_cons.1 hit with rfl | hit
    · exact execItems_keeps (P := fun v => holdOf I d v = holdStart) (fun _ _ _ hx => (execItem_ages hx).started) hrest
        (execItem_starts_age hu hw)
    · exact ih hit hrest

theorem execItems_keeps_age {l : List Item} {I : Ialu} {d : BLReg}
    (hw : ∀ it ∈ l, Cell.reg (blUreg I d) ∉ itemWrites it) {s t : State} (h : execItems l s = .next t) :
    holdOf I d t = holdOf I d s := by
  induction l generalizing s with
  | nil => cases h; rfl
  | cons x rest ih =>
    obtain ⟨hx, hrest⟩ := List.forall_mem_cons.1 hw
    obtain ⟨u, hu, ht⟩ := execItems_cons_next h
    exact (ih hrest ht).trans ((execItem_frame hu).ages I d hx)

/-- The head writes the loop counter at most, which is no base or length register. -/
theorem holdOf_headEffect (q : Option LineCond) (I : Ialu) (d : BLReg) (s : State) :
    holdOf I d (headEffect q s) = holdOf I d s :=
  (headEffect_frame q s).ages I d (by cases I <;> cases d <;> simp [blUreg])

/-- Settles O14: the items that execute start the age (`execItems_starts_age`) or leave it (`execItems_keeps_age`), and
the end of the line takes one off (`holdOf_endLine`). -/
theorem writeAgeCountsFourLines : Obligations.WriteAgeCountsFourLines := by
  unfold Obligations.WriteAgeCountsFourLines
  intro s t l I d hfetch hstep
  rw [step_of_fetchLine hfetch] at hstep
  obtain ⟨-, -, -, -, u, hu, rfl⟩ := runLine_next hstep
  rw [holdOf_endLine]
  refine ⟨fun ⟨it, hit, hw⟩ => ?_, fun hw => ?_⟩
  · rw [execItems_starts_age hit hw hu]
    rfl
  · rw [execItems_keeps_age hw hu, holdOf_headEffect]

/-! ## Updates through a buffer that is recently written -/

section Held

variable {I : Ialu} {m : RegNum} {s : State}

theorem circUse_error_baseLengthHazard (hheld : Held I m s) (hstrict : Config.blStrict = true) (d : Int) :
    circUse I m d s = .error .baseLengthHazard := by
  rw [circUse_eq, bufferHeld_held hheld, if_pos hstrict]

theorem dabUpdate_error_baseLengthHazard (hheld : Held I m s) (hstrict : Config.blStrict = true) (short : Bool)
    (md : Word) : dabUpdate I short m md s = .error .baseLengthHazard := by
  rw [dabUpdate_eq, bufferHeld_held hheld, if_pos hstrict]

/-- A step under the preconditions reads the buffer registers as they were last written. -/
theorem circUse_ok_of_held {d : Int} (hheld : Held I m s) (hlax : ¬ Config.blStrict = true)
    (hpre : InBuffer (aluread I m s) d (baseOf I m s) (lenOf I m s)) : circUse I m d s = .ok (circNext I m d s) := by
  rw [circUse_eq, bufferHeld_held hheld, if_neg hlax, if_pos ((circOk_iff ..).2 hpre)]

/-- A step up that ends below the end of the buffer needs no wrap. -/
theorem circWraps_eq_false {idx base len : Word} {d : Int} (hpre : InBuffer idx d base len)
    (h : len ≠ 0 → 0 ≤ d ∧ (idx.toNat : Int) + d < base.toNat + len.toNat) : circWraps idx d base len = false := by
  by_cases hlen : len = 0
  · simp [circWraps, hlen]
  · obtain ⟨hup, hend⟩ := h hlen
    obtain ⟨hbase, -⟩ := hpre hlen
    simp only [circWraps, Bool.and_eq_false_iff, Bool.or_eq_false_iff, decide_eq_false_iff_not]
    omega

theorem dabStep_pos (short : Bool) : 0 < dabStep short := by cases short <;> decide

theorem dabUpdate_ok_of_held {short : Bool} {md : Word} (hheld : Held I m s) (hlax : ¬ Config.blStrict = true)
    (hpre : InBuffer (aluread I m s) md.toInt (baseOf I m s) (lenOf I m s))
    (hlen : lenOf I m s ≠ 0 → md.toInt = dabStep short ∧
      ((aluread I m s).toNat : Int) + md.toInt < (baseOf I m s).toNat + (lenOf I m s).toNat) :
    dabUpdate I short m md s = .ok (circNext I m md.toInt s) := by
  have hwraps : circWraps (aluread I m s) md.toInt (baseOf I m s) (lenOf I m s) = false :=
    circWraps_eq_false hpre fun hne => ⟨(hlen hne).1 ▸ (dabStep_pos short).le, (hlen hne).2⟩
  rw [dabUpdate_eq, bufferHeld_held hheld, if_neg hlax, if_neg fun h => h.2 (hlen h.1).1,
    if_neg (by simp [circOk_iff, hpre]), hwraps]
  rfl

/-! ## Instructions whose update is a given word -/

variable {b : Opnd} {w : Word}

theorem ne_31_of_index (hm : m.val < 4) : m ≠ 31 := by
  rintro rfl
  exact absurd hm (by decide)

theorem execAddSubCb_runs {sub : Bool} {step : Int} (hm : m.val < 4)
    (hstep : (if sub then -(opndVal I b s).toInt else (opndVal I b s).toInt) = step) (h : circUse I m step s = .ok w)
    (d : RegNum) : ∃ t, execAddSubCb I sub d m b s = .next t ∧ (d ≠ 31 → aluread I d t = w) := by
  have hform : (Form.alu I (if sub then .subCb else .addCb) d m b).error = none := by
    cases sub <;> simp [Form.error, firstReason, isIndexReg, hm]
  simp only [execAddSubCb, guardForm_none hform, hstep, h, withValue_ok]
  exact ⟨_, rfl, fun hd => by simp [aluread_aluwrite, hd]⟩

theorem execLdDreg_cb_runs {a : LdAcc} {r : RegNum} (hr : DregGroup a.size r) (hm : m.val < 4) (hb : b ≠ .reg m)
    (h : circUse I m (opndVal I b s).toInt s = .ok w) (hreach : Reachable s (postAddr I m s) (ldWidth a)) :
    ∃ t, execLdDreg I a r .cb m b s = .next t ∧ aluread I m t = w := by
  have hform : (Form.ldD I a r .cb m b).error = none := dregChecks_cb_none hr hm hb
  rw [execLdDreg, guardForm_none hform, postUpdate, h, withValue_ok]
  exact ⟨_, withAccess_ok hreach, aluread_aluwrite_self I (ne_31_of_index hm) _ _⟩

theorem execStDreg_cb_runs {a : StAcc} {r : RegNum} (hr : DregGroup a.size r) (hm : m.val < 4) (hb : b ≠ .reg m)
    (h : circUse I m (opndVal I b s).toInt s = .ok w) (hread : Readable (stSources a r) s)
    (hreach : Reachable s (postAddr I m s) (stRegs a r).length) :
    ∃ t, execStDreg I a r .cb m b s = .next t ∧ aluread I m t = w := by
  have hform : (Form.stD I a r .cb m b).error = none := dregChecks_cb_none hr hm hb
  rw [execStDreg, guardForm_none hform, postUpdate, h, withValue_ok]
  exact ⟨_, (withSources_ok hread).trans (withAccess_ok (by rwa [List.length_map])),
    aluread_aluwrite_self I (ne_31_of_index hm) _ _⟩

theorem execDab_runs {a : DabKind} {r : RegNum} (hr : DregGroup .quad r) (hm : m.val < 4) (hb : b ≠ .reg m)
    (h : dabUpdate I (dabIsShort a) m (opndVal I b s) s = .ok w)
    (hreach : Reachable s (dabQuad (dabIsShort a) (aluread I m s)) 4) :
    ∃ t, execDab I a r m b s = .next t ∧ aluread I m t = w := by
  rw [execDab, guardForm_none (dab_error_none hr hm hb), h, withValue_ok]
  exact ⟨_, withAccess_ok hreach, aluread_aluwrite_self I (ne_31_of_index hm) _ _⟩

end Held

/-- Settles O24: under `bl_strict` the update is refused (`circUse_error_baseLengthHazard`,
`dabUpdate_error_baseLengthHazard`), and otherwise it is the circular step (`circUse_ok_of_held`, `dabUpdate_ok_of_held`);
each instruction that takes the step goes as its update does. -/
theorem heldBufferFollowsTheParameter : Obligations.HeldBufferFollowsTheParameter := by
  unfold Obligations.HeldBufferFollowsTheParameter
  intro I m b s hm hheld step fits stepped
  split
  next hstrict =>
    have huse := circUse_error_baseLengthHazard hheld hstrict
    refine ⟨fun d => ⟨?_, ?_⟩, fun hb r => ⟨fun a hr => ?_, fun a hr => ?_, fun a hr => ?_⟩⟩
    · rw [exec_pickIalu (.alu · .addCb d m b) rfl rfl]
      exact execAddSubCb_refused (sub := false) hm rfl (huse _) d
    · rw [exec_pickIalu (.alu · .subCb d m b) rfl rfl]
      exact execAddSubCb_refused (sub := true) hm rfl (huse _) d
    · rw [exec_instr]
      exact execLdDreg_cb_refused hr hm hb (huse _)
    · rw [exec_instr]
      exact execStDreg_cb_refused hr hm hb (huse _)
    · rw [exec_instr]
      exact execDab_refused hr hm hb (dabUpdate_error_baseLengthHazard hheld hstrict _ _)
  next hlax =>
    refine ⟨fun d hpre => ?_, fun d hpre => ?_, fun hb hpre r => ⟨fun a hr hreach => ?_, fun a hr hread hreach => ?_,
      fun a hr hreach hlen => ?_⟩⟩
    · exact runsTo_pickIalu (.alu · .addCb d m b) rfl rfl
        (execAddSubCb_runs (sub := false) hm rfl (circUse_ok_of_held hheld hlax hpre) d)
    · exact runsTo_pickIalu (.alu · .subCb d m b) rfl rfl
        (execAddSubCb_runs (sub := true) hm rfl (circUse_ok_of_held hheld hlax hpre) d)
    · exact runsTo_of_form (Laws.instr_form _)
        (execLdDreg_cb_runs hr hm hb (circUse_ok_of_held hheld hlax hpre) hreach)
    · exact runsTo_of_form (Laws.instr_form _)
        (execStDreg_cb_runs hr hm hb (circUse_ok_of_held hheld hlax hpre) hread hreach)
    · exact runsTo_of_form (Laws.instr_form _)
        (execDab_runs hr hm hb (dabUpdate_ok_of_held hheld hlax hpre hlen) hreach)

end Sys2Proof.Proofs
